-- ==== Sys2Proof/Word.lean ====
section
/-! DEFINITION. The byte and word types carried on the link, and the plainest integer arithmetic of
section 5.2 of spec/00_scope.md: clamping, rounding up, saturating counts. -/

namespace Sys2Proof

/-- One byte on the link. -/
abbrev Byte := BitVec 8

/-- A two-byte quantity on the link (R195). -/
abbrev Half := BitVec 16

/-- A four-byte quantity on the link (R195). -/
abbrev Word32 := BitVec 32

/-- "Clamped to a range": the lower end if below it, the upper end if above it (00_scope.md 5.2). -/
def clampNat (lo hi v : Nat) : Nat := if v < lo then lo else if hi < v then hi else v

/-- Clamping of a signed intermediate result to a range of whole numbers from 0 up. -/
def clampInt (lo hi : Nat) (v : Int) : Nat :=
  if v < (lo : Int) then lo else if (hi : Int) < v then hi else v.toNat

/-- "Rounded up" quotient (00_scope.md 5.2). -/
def ceilDiv (a b : Nat) : Nat := (a + b - 1) / b

/-- A saturating count: raised by `n` but never past `limit`. -/
def satAdd (limit v n : Nat) : Nat := min limit (v + n)

/-- "Truncated" quotient: the exact result rounded toward zero (00_scope.md 5.2). -/
def truncDiv (a b : Int) : Int := Int.tdiv a b

/-- The distance between two whole numbers. -/
def distance (a b : Nat) : Nat := if a ≤ b then b - a else a - b

end Sys2Proof
end

