-- ==== Sys2Proof/Config.lean ====
section
/-! DEFINITION. Fixed figures of the part, and the free values: bytes that a reply carries and whose
value the spec does not state. A free value is an opaque constant, so nothing can be proved about
which value it is. -/

namespace Sys2Proof

/-- The enumerated fields of replies whose codes section 11.3 does not list (log entry 7). -/
inductive UnlistedField where
  | beamState | fireState | sensorState | commandSource | damperPhase | fadeDirection
  | groupState | relay | blindPhase | queueKind | railState
  | supervisionState | keepaliveOutcome | imageState | storeState
  deriving DecidableEq, Repr

/-- The code byte of the `n`-th value (in the order the owning rule names the values) of an enumerated
reply field whose codes the spec does not list. A free value (log entry 7). -/
opaque Config.unlistedCode : UnlistedField → Nat → Byte

/-- What a two-byte time or count field carries for a value that does not fit it, the all-ones code
being taken by "absent" (R196). A free value (log entry 9). -/
opaque Config.wideField : Nat → Half

/-- What a one-byte field carries for a value that does not fit it. A free value (log entry 9). -/
opaque Config.wideByte : Nat → Byte

/-- The vendor code IDENT reports (R184 gives no value). A free value (log entry 10). -/
opaque Config.vendorCode : Half

/-- The family code IDENT reports (R184 gives no value). A free value (log entry 10). -/
opaque Config.familyCode : Half

/-- The logic revision number IDENT reports (R184 gives no value). A free value (log entry 10). -/
opaque Config.logicRevision : Half

/-- The part number of R184. -/
def Config.partNumber : Nat := 7320

/-- The minutes of a week; the minute of week runs from 0 to one less (R25). -/
def Config.weekMinutes : Nat := 10080

/-- The largest value of the cycle minute C (R34). -/
def Config.cycleTop : Nat := 20159

/-- The entries a bank holds at most (R28). -/
def Config.bankSize : Nat := 48

/-- The notices the notice queue holds at most (R186). -/
def Config.noticeQueueSize : Nat := 16

/-- The frames the request queue holds, and the replies the reply queue holds, at most (R180). -/
def Config.linkQueueSize : Nat := 4

/-- The largest payload of a frame (R179). -/
def Config.maxPayload : Nat := 250

/-- The partition debounce of R1, in ms. -/
def Config.partitionDebounceMs : Nat := 5000

/-- The fire debounce of R19, in ms. -/
def Config.fireDebounceMs : Nat := 1000

/-- The time both beams must stay CLEAR for a BLOCKED channel to return to IDLE (R59), in ms. -/
def Config.blockClearMs : Nat := 2000

/-- The time after which a doorway counts as stuck (R60), in ms. -/
def Config.stuckMs : Nat := 600000

/-- The filter of a presence detector (R64) and of the rail-fault input (R161), in ms. -/
def Config.filterMs : Nat := 20

/-- The presence-forced delay of R68, in seconds. -/
def Config.forcedDelay : Nat := 60

/-- The sensor hold time of R166, in ms. -/
def Config.holdMs : Nat := 60000

/-- The limit of a damper calibration phase (R118), in ms. -/
def Config.calPhaseMs : Nat := 400000

/-- The least span of an accepted damper calibration (R119), in mV. -/
def Config.minSpan : Int := 4800

/-- The period of the temperature update (R121), in ms. -/
def Config.tempPeriodMs : Nat := 30000

/-- The freeze timer of R137, in ms. -/
def Config.freezeMs : Nat := 10000

/-- The deadband of a blind group (R148), in per-mille. -/
def Config.deadband : Nat := 30

/-- How near an end an estimate must lie for the end to be believed (R153, R154), in per-mille. -/
def Config.endBand : Nat := 200

/-- The pause of a reversing group (R150, R158), in ms. -/
def Config.reverseMs : Nat := 500

/-- The moment of the motor-ran test of R153, in ms. -/
def Config.runTestMs : Nat := 800

/-- The samples, 50 ms apart, that make up the 1 s of the STALL test of R153 (log entry 17). -/
def Config.stallSamples : Nat := 20

/-- The limit of a blind calibration leg (R158), in ms. -/
def Config.legLimitMs : Nat := 120000

/-- The least travel time of an accepted blind calibration (R158), in ms. -/
def Config.minTravelMs : Nat := 5000

/-- The hold timer of the sun flag (R145), in ms. -/
def Config.sunHoldMs : Nat := 3600000

/-- The settle timer of the rail (R160), in ms. -/
def Config.settleMs : Nat := 2000

/-- The linger timer of the rail (R160), in ms. -/
def Config.lingerMs : Nat := 60000

/-- The normal timer of a fault record (R173), in ms. -/
def Config.normalMs : Nat := 600000

/-- The write timer of the settings store (R190), in ms. -/
def Config.saveLimitMs : Nat := 1500

/-- The longest gap within a frame (R179), in ms. -/
def Config.gapMs : Nat := 20

/-- The current sample period of a blind group (R153), in ms. -/
def Config.currentPeriodMs : Nat := 50

/-- The lighting step period (R127), in ms. -/
def Config.lightingPeriodMs : Nat := 100

end Sys2Proof
end

