-- ==== Sys2Proof/Syntax.lean ====
section
/-! DEFINITION. The commands: one constructor of Instr per row of spec/opcode_table.json. The first 37
rows are host requests; each carries the request's TAG and its parameters with the widths of section
11.2. The other rows are what the room side, the serial line, the clock and the timers do to the part. -/

namespace Sys2Proof

/-- A half of the room (01, section 1.1). -/
inductive Cell where
  | a | b
  deriving DecidableEq, Repr

/-- A unit: the part of the room run as one (R3). -/
inductive UnitId where
  | a | b | ab
  deriving DecidableEq, Repr

/-- The two beams of a doorway channel (03, section 3.1). -/
inductive BeamSide where
  | outer | inner
  deriving DecidableEq, Repr

/-- A booking entry as it is carried on the link (section 11.4), before its fields are judged. -/
structure EntryRecord where
  start : Half
  duration : Half
  target : Byte
  profile : Byte
  expected : Half
  flags : Byte
  tag : Half
  deriving DecidableEq, Repr

/-- A profile record as it is carried on the link (section 11.4), before its fields are judged. -/
structure ProfileRecord where
  name : Vector Byte 8
  rp : Half
  co2Setpoint : Half
  kp : Byte
  ki : Byte
  imax : Half
  qcap : Half
  slew : Half
  comfort : Half
  standby : Byte
  lux : Half
  harvest : Byte
  board : Half
  front : Half
  window : Half
  inner : Half
  awaitLevel : Half
  fadeUp : Half
  fadeDown : Half
  lead : Byte
  noShow : Byte
  earlyVacate : Byte
  purge : Byte
  awaitFraction : Half
  policy : Byte
  deriving DecidableEq, Repr

/-- The commands of the part: one constructor per row of the table of operations and events. -/
inductive Instr where
  -- host requests
  | ident (tag : Byte)
  | keepalive (tag : Byte)
  | setTime (tag : Byte) (minute : Half) (second : Byte)
  | restart (tag : Byte)
  | setNoticeMask (tag : Byte) (kind setting : Byte)
  | putSetting (tag : Byte) (number inst : Byte) (value : Word32)
  | getSetting (tag : Byte) (number inst : Byte)
  | saveSettings (tag : Byte)
  | restoreSettings (tag : Byte)
  | getChain (tag : Byte) (entry : Option (Byte × Byte))
  | chainBegin (tag : Byte) (repeating : Byte)
  | chainEntry (tag : Byte) (index : Byte) (entry : EntryRecord)
  | chainCommit (tag : Byte)
  | chainSwitch (tag : Byte) (timing : Byte)
  | chainCancel (tag : Byte)
  | setStopMark (tag : Byte) (index mode : Byte)
  | walkerPause (tag : Byte)
  | walkerResume (tag : Byte)
  | releaseHold (tag : Byte) (cell : Byte)
  | getUnit (tag : Byte) (unit : Byte)
  | getCell (tag : Byte) (cell : Byte)
  | putProfile (tag : Byte) (number : Byte) (profile : ProfileRecord)
  | getProfile (tag : Byte) (number : Byte)
  | setOverride (tag : Byte) (target : Byte) (value expiry : Half)
  | clearOverride (tag : Byte) (target : Byte)
  | getDoorway (tag : Byte) (channel : Byte)
  | setHeadcount (tag : Byte) (unit : Byte) (count : Half)
  | setSupplyCap (tag : Byte) (cap : Half)
  | calibrateDamper (tag : Byte) (cell : Byte)
  | putDamperTable (tag : Byte) (cell : Byte) (points : Vector Half 9)
  | getChannel (tag : Byte) (channel : Byte)
  | setSunState (tag : Byte) (sun : Byte)
  | calibrateBlind (tag : Byte) (group : Byte)
  | getBlind (tag : Byte) (group : Byte)
  | getFaults (tag : Byte) (selection : Byte)
  | clearFault (tag : Byte) (source keepCount : Byte)
  /-- A frame whose KIND is no request kind. -/
  | unknownKind (tag : Byte) (kind : Byte) (payload : List Byte)
  -- the serial line
  /-- A byte received, with whether its stop bit was high. -/
  | byteReceived (value : Byte) (stopHigh : Bool)
  | gapTimeout
  | transmitDone
  -- resets
  | powerOn
  | brownOut
  | resetLine
  | restartReset
  -- the week clock
  | secondTick
  | minuteEvent
  | crystalStopped
  | crystalResumed
  -- partition and fire inputs
  /-- The partition contact changes to open (true) or made (false). -/
  | partitionContactEdge (contactOpen : Bool)
  | partitionDebounce
  /-- The fire input changes to the level given, high being true. -/
  | fireInputEdge (high : Bool)
  | fireDebounce
  -- units and overrides
  | purgeTimerExpiry (unit : UnitId)
  | overrideExpiry (target : Fin 16)
  -- doorways
  | beamPinEdge (channel : Fin 4) (side : BeamSide) (high : Bool)
  | beamDebounce (channel : Fin 4) (side : BeamSide)
  | transitTimeout (channel : Fin 4)
  | blockClearExpiry (channel : Fin 4)
  | doorwayStuck (channel : Fin 4)
  -- presence
  | detectorPinEdge (detector : Fin 6) (high : Bool)
  | motionEvent (detector : Fin 6)
  | presenceHoldExpiry (cell : Cell)
  | gatedTimerTick
  | vacancyConfirmed (unit : UnitId)
  | presenceForced (unit : UnitId)
  | clearingExpiry (unit : UnitId)
  -- air, sensors, dampers, valves
  | airUpdate
  /-- The eight analog inputs, in mV, as sampled. -/
  | sensorSample (levels : Vector Half 8)
  | holdTimerExpiry (channel : Fin 8)
  | damperStall (cell : Cell)
  | calibrationPhaseTimeout (cell : Cell)
  | temperatureUpdate (cell : Cell)
  -- lighting
  | lightingStep
  | pwmPeriodStart
  | daylightUpdate
  | freezeTimerExpiry (cell : Cell)
  -- blinds and rail
  | blindEvaluation
  /-- The current sensed for the group, in mA. -/
  | currentSample (group : Fin 4) (current : Half)
  | blindLimitUnseen (group : Fin 4)
  | reversingEnd (group : Fin 4)
  | calibrationLegTimeout (group : Fin 4)
  | sunHoldExpiry
  | railSettleEnd
  | railLingerExpiry
  /-- The rail-fault input changes to the level given, low signalling fault. -/
  | railFaultPinEdge (high : Bool)
  | railDown
  -- faults, supervision, store
  | retryExpiry (source : Fin 21)
  | normalTimerExpiry (source : Fin 21)
  | periodEnd
  /-- The read-back is complete, and agrees with the snapshot or differs from it. -/
  | saveDone (agrees : Bool)
  | saveWriteTimeout
  deriving DecidableEq, Repr

end Sys2Proof
end

