-- ==== Sys2Proof/WellFormed.lean ====
section
/-! DEFINITION. What makes a command one that can reach the part. The operand types already bound every
index and width; what is left is that an UNKNOWN_KIND command is a frame the line can carry and not one
of the requests. -/

namespace Sys2Proof

/-- The KIND codes of the requests (section 11.2): 0x01 to 0x09, 0x10 to 0x19 and 0x20 to 0x30. -/
def isRequestKind (kind : Byte) : Bool :=
  let k := kind.toNat
  (1 ≤ k && k ≤ 0x09) || (0x10 ≤ k && k ≤ 0x19) || (0x20 ≤ k && k ≤ 0x30)

/-- A command is well formed when such a command can reach the part: an UNKNOWN_KIND frame carries a
KIND that is no request kind (R181) and at most 250 payload bytes (R179). -/
def Instr.wellFormed : Instr → Bool
  | .unknownKind _ kind payload => !isRequestKind kind && decide (payload.length ≤ Config.maxPayload)
  | _ => true

end Sys2Proof
end

