-- ==== Sys2Proof/Decode.lean ====
section
/-! DEFINITION. Reading a request from the bytes of its frame, and the bytes of a request (11, sections 11.1
to 11.4). The table of operations gives no row bits, so no table word spells a command. -/

namespace Sys2Proof

/-- The command that a word spells by the table's bits: no row of the table gives bits. -/
def decodeTableWord (_nbits _w : Nat) : Option Instr := none

/-! ## Numbers (R195) -/

/-- Two bytes, least significant first. -/
def le16 (h : Half) : List Byte := [h.extractLsb' 0 8, h.extractLsb' 8 8]

/-- Four bytes, least significant first. -/
def le32 (w : Word32) : List Byte :=
  [w.extractLsb' 0 8, w.extractLsb' 8 8, w.extractLsb' 16 8, w.extractLsb' 24 8]

/-- The two-byte number that two bytes carry, the first being the least significant. -/
def halfOf (lo hi : Byte) : Half := hi ++ lo

/-- The four-byte number that four bytes carry, the first being the least significant. -/
def wordOf (b0 b1 b2 b3 : Byte) : Word32 := b3 ++ b2 ++ b1 ++ b0

/-- The payload byte at an offset. -/
def byteAt (p : List Byte) (i : Nat) : Byte := p.getD i 0

/-- The two-byte number at an offset. -/
def halfAt (p : List Byte) (i : Nat) : Half := halfOf (byteAt p i) (byteAt p (i + 1))

/-- The four-byte number at an offset. -/
def wordAt (p : List Byte) (i : Nat) : Word32 :=
  wordOf (byteAt p i) (byteAt p (i + 1)) (byteAt p (i + 2)) (byteAt p (i + 3))

/-! ## Records (11.4) -/

/-- The booking entry at an offset. -/
def entryAt (p : List Byte) (i : Nat) : EntryRecord where
  start := halfAt p i
  duration := halfAt p (i + 2)
  target := byteAt p (i + 4)
  profile := byteAt p (i + 5)
  expected := halfAt p (i + 6)
  flags := byteAt p (i + 8)
  tag := halfAt p (i + 9)

/-- The bytes of a booking entry. -/
def EntryRecord.bytes (e : EntryRecord) : List Byte :=
  le16 e.start ++ le16 e.duration ++ [e.target, e.profile] ++ le16 e.expected ++ [e.flags] ++ le16 e.tag

/-- The profile record at an offset. -/
def profileAt (p : List Byte) (i : Nat) : ProfileRecord where
  name := #v[byteAt p i, byteAt p (i + 1), byteAt p (i + 2), byteAt p (i + 3), byteAt p (i + 4),
    byteAt p (i + 5), byteAt p (i + 6), byteAt p (i + 7)]
  rp := halfAt p (i + 8)
  co2Setpoint := halfAt p (i + 10)
  kp := byteAt p (i + 12)
  ki := byteAt p (i + 13)
  imax := halfAt p (i + 14)
  qcap := halfAt p (i + 16)
  slew := halfAt p (i + 18)
  comfort := halfAt p (i + 20)
  standby := byteAt p (i + 22)
  lux := halfAt p (i + 23)
  harvest := byteAt p (i + 25)
  board := halfAt p (i + 26)
  front := halfAt p (i + 28)
  window := halfAt p (i + 30)
  inner := halfAt p (i + 32)
  awaitLevel := halfAt p (i + 34)
  fadeUp := halfAt p (i + 36)
  fadeDown := halfAt p (i + 38)
  lead := byteAt p (i + 40)
  noShow := byteAt p (i + 41)
  earlyVacate := byteAt p (i + 42)
  purge := byteAt p (i + 43)
  awaitFraction := halfAt p (i + 44)
  policy := byteAt p (i + 46)

/-- The bytes of a profile record. -/
def ProfileRecord.bytes (r : ProfileRecord) : List Byte :=
  [r.name[0], r.name[1], r.name[2], r.name[3], r.name[4], r.name[5], r.name[6], r.name[7]]
    ++ le16 r.rp ++ le16 r.co2Setpoint ++ [r.kp, r.ki] ++ le16 r.imax ++ le16 r.qcap ++ le16 r.slew
    ++ le16 r.comfort ++ [r.standby] ++ le16 r.lux ++ [r.harvest] ++ le16 r.board ++ le16 r.front
    ++ le16 r.window ++ le16 r.inner ++ le16 r.awaitLevel ++ le16 r.fadeUp ++ le16 r.fadeDown
    ++ [r.lead, r.noShow, r.earlyVacate, r.purge] ++ le16 r.awaitFraction ++ [r.policy]

/-- The nine flow points at an offset. -/
def pointsAt (p : List Byte) (i : Nat) : Vector Half 9 :=
  #v[halfAt p i, halfAt p (i + 2), halfAt p (i + 4), halfAt p (i + 6), halfAt p (i + 8), halfAt p (i + 10),
     halfAt p (i + 12), halfAt p (i + 14), halfAt p (i + 16)]

/-- The bytes of nine flow points. -/
def pointsBytes (f : Vector Half 9) : List Byte :=
  le16 f[0] ++ le16 f[1] ++ le16 f[2] ++ le16 f[3] ++ le16 f[4] ++ le16 f[5] ++ le16 f[6] ++ le16 f[7]
    ++ le16 f[8]

/-! ## Requests (11.2) -/

/-- The payload lengths a request kind permits (the LEN column of section 11.2). -/
def permittedLengths (kind : Nat) : List Nat :=
  match kind with
  | 0x01 | 0x02 | 0x04 | 0x08 | 0x09 | 0x13 | 0x15 | 0x17 | 0x18 => [0]
  | 0x03 | 0x27 => [3]
  | 0x05 | 0x07 | 0x16 | 0x28 | 0x30 => [2]
  | 0x06 => [6]
  | 0x10 => [0, 2]
  | 0x12 => [12]
  | 0x22 => [48]
  | 0x24 => [5]
  | 0x2A => [19]
  | _ => [1]

/-- The request of a request kind, its payload having a permitted length. -/
def readRequest (kind : Byte) (tag : Byte) (p : List Byte) : Instr :=
  match kind.toNat with
  | 0x01 => .ident tag
  | 0x02 => .keepalive tag
  | 0x03 => .setTime tag (halfAt p 0) (byteAt p 2)
  | 0x04 => .restart tag
  | 0x05 => .setNoticeMask tag (byteAt p 0) (byteAt p 1)
  | 0x06 => .putSetting tag (byteAt p 0) (byteAt p 1) (wordAt p 2)
  | 0x07 => .getSetting tag (byteAt p 0) (byteAt p 1)
  | 0x08 => .saveSettings tag
  | 0x09 => .restoreSettings tag
  | 0x10 => .getChain tag (if p.length = 2 then some (byteAt p 0, byteAt p 1) else none)
  | 0x11 => .chainBegin tag (byteAt p 0)
  | 0x12 => .chainEntry tag (byteAt p 0) (entryAt p 1)
  | 0x13 => .chainCommit tag
  | 0x14 => .chainSwitch tag (byteAt p 0)
  | 0x15 => .chainCancel tag
  | 0x16 => .setStopMark tag (byteAt p 0) (byteAt p 1)
  | 0x17 => .walkerPause tag
  | 0x18 => .walkerResume tag
  | 0x19 => .releaseHold tag (byteAt p 0)
  | 0x20 => .getUnit tag (byteAt p 0)
  | 0x21 => .getCell tag (byteAt p 0)
  | 0x22 => .putProfile tag (byteAt p 0) (profileAt p 1)
  | 0x23 => .getProfile tag (byteAt p 0)
  | 0x24 => .setOverride tag (byteAt p 0) (halfAt p 1) (halfAt p 3)
  | 0x25 => .clearOverride tag (byteAt p 0)
  | 0x26 => .getDoorway tag (byteAt p 0)
  | 0x27 => .setHeadcount tag (byteAt p 0) (halfAt p 1)
  | 0x28 => .setSupplyCap tag (halfAt p 0)
  | 0x29 => .calibrateDamper tag (byteAt p 0)
  | 0x2A => .putDamperTable tag (byteAt p 0) (pointsAt p 1)
  | 0x2B => .getChannel tag (byteAt p 0)
  | 0x2C => .setSunState tag (byteAt p 0)
  | 0x2D => .calibrateBlind tag (byteAt p 0)
  | 0x2E => .getBlind tag (byteAt p 0)
  | 0x2F => .getFaults tag (byteAt p 0)
  | 0x30 => .clearFault tag (byteAt p 0) (byteAt p 1)
  | _ => .unknownKind tag kind p

/-- What a complete frame is read as, at tests 1 and 2 of R181. -/
inductive ReadFrame where
  | command (i : Instr)
  | badLength
  deriving DecidableEq, Repr

/-- Read a complete frame: a KIND that is no request kind, a length the kind does not permit, or a
request. -/
def decodeRequest (kind tag : Byte) (p : List Byte) : ReadFrame :=
  if isRequestKind kind then
    if (permittedLengths kind.toNat).contains p.length then .command (readRequest kind tag p) else .badLength
  else .command (.unknownKind tag kind p)

/-- The KIND, TAG and payload of a request command; none for the commands that are no frame. -/
def encodeRequest : Instr → Option (Byte × Byte × List Byte)
  | .ident tag => some (0x01, tag, [])
  | .keepalive tag => some (0x02, tag, [])
  | .setTime tag minute second => some (0x03, tag, le16 minute ++ [second])
  | .restart tag => some (0x04, tag, [])
  | .setNoticeMask tag kind setting => some (0x05, tag, [kind, setting])
  | .putSetting tag number inst value => some (0x06, tag, number :: inst :: le32 value)
  | .getSetting tag number inst => some (0x07, tag, [number, inst])
  | .saveSettings tag => some (0x08, tag, [])
  | .restoreSettings tag => some (0x09, tag, [])
  | .getChain tag none => some (0x10, tag, [])
  | .getChain tag (some (bank, index)) => some (0x10, tag, [bank, index])
  | .chainBegin tag repeating => some (0x11, tag, [repeating])
  | .chainEntry tag index entry => some (0x12, tag, index :: entry.bytes)
  | .chainCommit tag => some (0x13, tag, [])
  | .chainSwitch tag timing => some (0x14, tag, [timing])
  | .chainCancel tag => some (0x15, tag, [])
  | .setStopMark tag index mode => some (0x16, tag, [index, mode])
  | .walkerPause tag => some (0x17, tag, [])
  | .walkerResume tag => some (0x18, tag, [])
  | .releaseHold tag cell => some (0x19, tag, [cell])
  | .getUnit tag unit => some (0x20, tag, [unit])
  | .getCell tag cell => some (0x21, tag, [cell])
  | .putProfile tag number profile => some (0x22, tag, number :: profile.bytes)
  | .getProfile tag number => some (0x23, tag, [number])
  | .setOverride tag target value expiry => some (0x24, tag, target :: (le16 value ++ le16 expiry))
  | .clearOverride tag target => some (0x25, tag, [target])
  | .getDoorway tag channel => some (0x26, tag, [channel])
  | .setHeadcount tag unit count => some (0x27, tag, unit :: le16 count)
  | .setSupplyCap tag cap => some (0x28, tag, le16 cap)
  | .calibrateDamper tag cell => some (0x29, tag, [cell])
  | .putDamperTable tag cell points => some (0x2A, tag, cell :: pointsBytes points)
  | .getChannel tag channel => some (0x2B, tag, [channel])
  | .setSunState tag sun => some (0x2C, tag, [sun])
  | .calibrateBlind tag group => some (0x2D, tag, [group])
  | .getBlind tag group => some (0x2E, tag, [group])
  | .getFaults tag selection => some (0x2F, tag, [selection])
  | .clearFault tag source keepCount => some (0x30, tag, [source, keepCount])
  | .unknownKind tag kind payload => some (kind, tag, payload)
  | _ => none

end Sys2Proof
end

