-- ==== Sys2Proof/Machine/Types.lean ====
section
/-! DEFINITION. The records the sixteen blocks hold (00_scope.md 2.1), as plain data. Timers are kept in
milliseconds; a timer that is not running is `none` (log entry 33). The bookkeeping that the rules imply and do
not name is that of log entry 53. -/

namespace Sys2Proof.Machine
open Sys2Proof

/-- A pair of values, one for each cell. -/
structure PerCell (α : Type) where
  a : α
  b : α
  deriving DecidableEq, Repr

/-- The value of one cell. -/
def PerCell.get {α : Type} (p : PerCell α) : Cell → α
  | .a => p.a
  | .b => p.b

/-- Replace the value of one cell. -/
def PerCell.set {α : Type} (p : PerCell α) : Cell → α → PerCell α
  | .a, v => { p with a := v }
  | .b, v => { p with b := v }

/-- Change the value of one cell. -/
def PerCell.upd {α : Type} (p : PerCell α) (c : Cell) (f : α → α) : PerCell α := p.set c (f (p.get c))

/-- The same value for both cells. -/
def PerCell.both {α : Type} (v : α) : PerCell α := ⟨v, v⟩

/-- Change one entry of a vector. -/
def updAt {α : Type} {n : Nat} (v : Vector α n) (i : Fin n) (f : α → α) : Vector α n := v.set i (f v[i])

/-! ## Settings (R188; the table of section 10.5) -/

/-- Fire polarity (R19). -/
inductive FirePolarity where
  | activeLow | activeHigh
  deriving DecidableEq, Repr

/-- The cell setting of a doorway, detector, light channel or blind group; `off` is DISABLED or UNUSED. -/
inductive CellSetting where
  | a | b | off
  deriving DecidableEq, Repr

/-- The edge selection of a beam (R55). -/
inductive BeamEdge where
  | breakRising | breakFalling | toggle
  deriving DecidableEq, Repr

/-- The edge selection of a detector (R64). -/
inductive DetectorEdge where
  | rising | falling | both
  deriving DecidableEq, Repr

/-- The role of a light channel (07, section 7.1). -/
inductive ChannelRole where
  | board | front | window | inner
  deriving DecidableEq, Repr

/-- The side of a blind group (08, section 8.1). -/
inductive BlindSide where
  | windowSide | boardSide
  deriving DecidableEq, Repr

/-- The blind policy of a profile (R146). -/
inductive BlindPolicy where
  | daylight | present | dark
  deriving DecidableEq, Repr

/-- The 49 numbered settings, in the order of section 10.5. -/
structure Settings where
  divisible : Bool
  firePolarity : FirePolarity
  purgeEndCo2 : Nat
  area : PerCell Nat
  endingWarning : Nat
  doorAssign : Vector CellSetting 4
  outerEdge : Vector BeamEdge 4
  innerEdge : Vector BeamEdge 4
  beamDebounce : Vector Nat 4
  transitTimeout : Nat
  detectorAssign : Vector CellSetting 6
  detectorEdge : Vector DetectorEdge 6
  presenceHold : Nat
  clearingDelay : Nat
  vacancyConfirm : Nat
  airPeriod : Nat
  ra : Nat
  qmax : PerCell Nat
  qmin : PerCell Nat
  alarmThreshold : Nat
  alarmHysteresis : Nat
  defaultCap : Nat
  firePosition : PerCell Nat
  strokeTime : PerCell Nat
  trackingTolerance : Nat
  kpT : Nat
  kiT : Nat
  setbackExtra : Nat
  valveFallback : PerCell Nat
  channelCell : Vector CellSetting 8
  channelRole : Vector ChannelRole 8
  driverMin : Vector Nat 8
  clearingLevel : Nat
  kd : Nat
  innerBoost : Nat
  blindCell : Vector CellSetting 4
  blindSide : Vector BlindSide 4
  travelUp : Vector Nat 4
  travelDown : Vector Nat 4
  sunPosition : Nat
  sunInterval : Nat
  driveSlots : Nat
  runThreshold : Nat
  stallThreshold : Nat
  co2Span : PerCell Nat
  retryInterval : Nat
  retryLimit : Nat
  supervisionPeriod : Nat
  windowFraction : Nat
  deriving DecidableEq, Repr

/-- A stored profile (01, section 1.6). -/
structure Profile where
  name : Vector Byte 8
  rp : Nat
  co2Setpoint : Nat
  kp : Nat
  ki : Nat
  imax : Nat
  qcap : Nat
  slew : Nat
  comfort : Nat
  standby : Nat
  lux : Nat
  harvest : Bool
  board : Nat
  front : Nat
  window : Nat
  inner : Nat
  awaitLevel : Nat
  fadeUp : Nat
  fadeDown : Nat
  lead : Nat
  noShow : Nat
  earlyVacate : Nat
  purge : Nat
  awaitFraction : Nat
  policy : BlindPolicy
  deriving DecidableEq, Repr

/-- The calibration record of a damper (R105). -/
structure CalRecord where
  calibrated : Bool
  fbLow : Nat
  fbHigh : Nat
  stroke : Nat
  deriving DecidableEq, Repr

/-- The working settings: what PUT_SETTING, PUT_PROFILE, PUT_DAMPER_TABLE and the damper calibrations
write, and what the settings image holds beside the chain (R189). -/
structure Working where
  settings : Settings
  profiles : Vector Profile 8
  tables : PerCell (Vector Nat 9)
  calibrations : PerCell CalRecord
  deriving DecidableEq, Repr

/-! ## The booking chain (02) -/

/-- The target of a chain entry. -/
inductive Target where
  | a | b | joined
  deriving DecidableEq, Repr

/-- A chain entry (02, section 2.2). -/
structure Entry where
  start : Nat
  duration : Nat
  target : Target
  profile : Fin 8
  expected : Nat
  notifyEnd : Bool
  hold : Bool
  last : Bool
  tag : Half
  deriving DecidableEq, Repr

/-- The state of a bank (R28). -/
inductive BankState where
  | empty | loading | ready | active
  deriving DecidableEq, Repr

/-- The repeat setting of a bank (R28). -/
inductive Repeating where
  | weekly | once
  deriving DecidableEq, Repr

/-- A chain bank (R28). -/
structure Bank where
  entries : List Entry
  state : BankState
  repeating : Repeating
  deriving DecidableEq, Repr

/-- The state of the booking walker (R38). -/
inductive WalkerState where
  | idle | clockWait | running | stalled | paused | finished
  deriving DecidableEq, Repr

/-- The timing of a chain switch (R32). -/
inductive SwitchTiming where
  | now | atWeekEnd | atChainEnd
  deriving DecidableEq, Repr

/-- The mode of a stop mark (R47). -/
inductive MarkMode where
  | notifyOnly | pause
  deriving DecidableEq, Repr

/-- The stop mark (R47). -/
structure StopMark where
  index : Nat
  mode : MarkMode
  deriving DecidableEq, Repr

/-- The state of a booking (R39). -/
inductive BookingState where
  | armed | running | held
  deriving DecidableEq, Repr

/-- A booking record (R39). `index` is absent for a foreign booking; `minutes` is minutes-to-start in a
NEXT slot and minutes-remaining in a CURRENT slot. -/
structure Booking where
  index : Option Nat
  entry : Entry
  state : BookingState
  minutes : Nat
  sinceStart : Nat
  vacant : Nat
  seenOccupied : Bool
  startedLate : Bool
  marked : Bool
  deriving DecidableEq, Repr

/-- The NEXT slots, or the CURRENT slots, of both cells. A JOINED booking is one record that stands in
both (R39), so it is kept once. -/
inductive SlotPair where
  | cells (a b : Option Booking)
  | joined (k : Booking)
  deriving DecidableEq, Repr

/-- The two kinds of slot (R39). -/
inductive SlotKind where
  | next | current
  deriving DecidableEq, Repr

/-- The outcome of a booking (R39), with MISSED for an entry never armed (R47). -/
inductive BookingOutcome where
  | ended | endedEarly | noShow | superseded | holdOverridden | cancelled | missed
  deriving DecidableEq, Repr

/-- The booking walker (R28, R34, R38, R39). -/
structure Walker where
  active : Bank
  standby : Bank
  state : WalkerState
  cursor : Option Nat
  cycle : Nat
  offset : Nat
  queuedSwitch : Option SwitchTiming
  stopMark : Option StopMark
  next : SlotPair
  current : SlotPair
  deriving DecidableEq, Repr

/-- The week clock (R25). `subMs` is how far the present second has run. -/
structure WeekClock where
  minute : Nat
  second : Nat
  isSet : Bool
  crystal : Bool
  degraded : Bool
  subMs : Nat
  deriving DecidableEq, Repr

/-! ## Doorways and presence (03) -/

/-- The passage state of a doorway channel (R53). -/
inductive Passage where
  | idle | inOuter | inBoth | inInner | outInner | outBoth | outOuter | blocked
  deriving DecidableEq, Repr

/-- A pending debounce: the time the new level has held, and the debounce time in force when it began
(R54). -/
structure Debounce where
  elapsed : Nat
  limit : Nat
  deriving DecidableEq, Repr

/-- One beam input (R53, R54, R69). `debounced` is absent until its first level after a reset. -/
structure Beam where
  pin : Bool
  debounced : Option Bool
  pending : Option Debounce
  broken : Bool
  deriving DecidableEq, Repr

/-- A doorway channel (R53). `stuckTold` says that the stuck timer has been reported in this run (R60). -/
structure Door where
  passage : Passage
  outer : Beam
  inner : Beam
  rearm : Bool
  transit : Option Nat
  blockClear : Option Nat
  stuck : Option Nat
  stuckTold : Bool
  entries : Half
  exits : Half
  turnBacks : Half
  blocks : Half
  deriving DecidableEq, Repr

/-- A presence detector (R64, R70). -/
structure Detector where
  pin : Bool
  filtered : Option Bool
  filter : Option Nat
  sinceMotion : Option Nat
  deriving DecidableEq, Repr

/-- The presence of a cell (R65). -/
structure CellPresence where
  present : Bool
  sinceMotion : Option Nat
  deriving DecidableEq, Repr

/-- The presence monitor, less the gated timers that the unit records hold. -/
structure Presence where
  detectors : Vector Detector 6
  cells : PerCell CellPresence
  tickMs : Nat
  deriving DecidableEq, Repr

/-! ## Units (01, 04, 05) -/

/-- The occupancy state of a unit (R80). -/
inductive Occupancy where
  | vacant | occupied | clearing
  deriving DecidableEq, Repr

/-- The count state of a unit (R75). -/
inductive CountState where
  | exact | uncertain
  deriving DecidableEq, Repr

/-- The room mode of a unit (R11). -/
inductive Mode where
  | setback | precondition | await | occupied | purge | fire
  deriving DecidableEq, Repr

/-- The terms of a unit's last air update (R87), each absent where that update did not form it. -/
structure AirTerms where
  area : Option Nat
  persons : Option Nat
  person : Option Nat
  proportional : Option Int
  trim : Option Nat
  upper : Option Nat
  co2 : Option Nat
  deriving DecidableEq, Repr

/-- The unit record (R3). `clearing` is the elapsed and `purge` the remaining time. `vacancyTold` says
that no vacancy-confirmed event is handed now: it has been, in this run of the vacancy timer (R67), or an ENTRY
has cleared the timer and the next run has not begun to count (R84). -/
structure UnitRec where
  headcount : Nat
  count : CountState
  occupancy : Occupancy
  clearing : Option Nat
  vacancyTimer : Nat
  vacancyTold : Bool
  forcedTimer : Nat
  mode : Mode
  prevMode : Mode
  purge : Option Nat
  profile : Fin 8
  governing : Option (Cell × SlotKind)
  lingering : Option (Fin 8)
  integral : Nat
  demand : Nat
  allocation : Nat
  atUpper : Bool
  budgetLimited : Bool
  co2Alarm : Bool
  terms : AirTerms
  deriving DecidableEq, Repr

/-- The units that exist: A and B while SPLIT, AB while JOINED (R2, R3). -/
inductive Units where
  | split (a b : UnitRec)
  | joined (ab : UnitRec)
  deriving DecidableEq, Repr

/-- The partition state, and the level of the partition contact (R1). -/
inductive Partition where
  | closed | opened
  deriving DecidableEq, Repr

/-- The fire state (R19). -/
inductive FireState where
  | clear | inForce
  deriving DecidableEq, Repr

/-- An override in force (R16): its value, and its remaining time in ms, or none. -/
structure Override where
  value : Nat
  remaining : Option Nat
  deriving DecidableEq, Repr

/-- The space coordinator, less the profiles and settings. -/
structure Space where
  partition : Partition
  contact : Partition
  partitionTimer : Option Nat
  fire : FireState
  firePin : Bool
  fireTimer : Option Nat
  units : Units
  overrides : Vector (Option Override) 16
  deriving DecidableEq, Repr

/-- The source of the requested supply cap (R87). -/
inductive CapSource where
  | host | default
  deriving DecidableEq, Repr

/-- The air demand unit's state for the room as a whole (R87). -/
structure Air where
  requestedCap : Nat
  capSource : CapSource
  capInForce : Nat
  sumDemand : Nat
  sumAllocation : Nat
  timer : Nat
  deriving DecidableEq, Repr

/-! ## Dampers and valves (06) -/

/-- The source of the driven damper command (R109). -/
inductive CommandSource where
  | computed | override | fire | calibration
  deriving DecidableEq, Repr

/-- The phases of a damper calibration (R118). -/
inductive DamperPhase where
  | waitRail | closing | opening
  deriving DecidableEq, Repr

/-- A damper calibration in flight: its phase, the time in it, and the closed voltage once recorded
(R118). -/
structure DamperCal where
  phase : DamperPhase
  elapsed : Nat
  fbLow : Nat
  deriving DecidableEq, Repr

/-- The terminal drive of one cell (R105). `means` keeps the feedback means of the last five samples,
newest first, for the test of stability (R118). -/
structure Drive where
  flow : Option Nat
  position : Option Nat
  computed : Nat
  driven : Nat
  source : CommandSource
  output : Nat
  feedback : Option Nat
  feedbackGood : Bool
  means : List Nat
  tracking : Bool
  reference : Option Nat
  trackTimer : Option Nat
  cal : Option DamperCal
  tempTimer : Nat
  setpoint : Option Nat
  integral : Nat
  valveComputed : Nat
  valveDriven : Nat
  valveOutput : Nat
  deriving DecidableEq, Repr

/-! ## Lighting (07) -/

/-- The direction of a fade (R141). -/
inductive FadeDirection where
  | up | down | none
  deriving DecidableEq, Repr

/-- A lighting channel record (R126), with the fade of its last step (R141). -/
structure LightChannel where
  computed : Nat
  target : Nat
  output : Nat
  applied : Nat
  pendingDuty : Nat
  appliedDuty : Nat
  fade : FadeDirection
  stepSize : Option Nat
  deriving DecidableEq, Repr

/-- The lighting unit's state for a cell (R134, R137, R141). `moving` is the blind motion last handed
over for the cell. -/
structure Daylight where
  factor : Nat
  frozen : Bool
  freeze : Option Nat
  moving : Bool
  updated : Bool
  deriving DecidableEq, Repr

/-- The lighting unit. -/
structure Lighting where
  channels : Vector LightChannel 8
  cells : PerCell Daylight
  stepTimer : Nat
  daylightTimer : Nat
  deriving DecidableEq, Repr

/-! ## Blinds and the rail (08) -/

/-- The state of a blind group (R143). -/
inductive GroupState where
  | stopped | queued | movingUp | movingDown | reversing | fault
  deriving DecidableEq, Repr

/-- A calibration in flight: the leg it runs or waits to run, and the travel down measured in leg 2
(R158). -/
structure BlindCal where
  leg : Nat
  travelDown : Nat
  deriving DecidableEq, Repr

/-- A blind group record (R143), with the segment of R144, the timers of R150 to R153, the time of a calibration leg
from the energising of its relay (R158) and the move in progress (its goal, and whether it is a reference move). -/
structure Group where
  estimate : Nat
  referenced : Bool
  computedTarget : Nat
  target : Nat
  sunUsed : Bool
  state : GroupState
  goal : Nat
  refMove : Bool
  segStart : Nat
  segMs : Nat
  runMs : Nat
  sampleMs : Nat
  runTested : Bool
  overrun : Option Nat
  stallCount : Nat
  reverseMs : Nat
  legMs : Nat
  sinceMove : Option Nat
  cal : Option BlindCal
  current : Option Nat
  sensePin : Nat
  deriving DecidableEq, Repr

/-- An entry of the drive queue (R149). -/
structure QueueEntry where
  group : Fin 4
  target : Nat
  reference : Bool
  calibration : Bool
  fire : Bool
  deriving DecidableEq, Repr

/-- The blind unit (R143, R149). `slots` lists the holders of the drive slots in the order granted. -/
structure Blinds where
  groups : Vector Group 4
  queue : List QueueEntry
  slots : List (Fin 4)
  sun : Bool
  sunHold : Option Nat
  evalTimer : Nat
  deriving DecidableEq, Repr

/-- The state of the actuator rail (R160). -/
inductive RailState where
  | off | rising | on | faulted
  deriving DecidableEq, Repr

/-- The actuator rail control (R160, R161). `lowTimer` is how long the rail-fault input has been low. -/
structure Rail where
  state : RailState
  driveNeed : Bool
  blindNeed : Bool
  settle : Option Nat
  linger : Option Nat
  faultPin : Bool
  lowTimer : Option Nat
  deriving DecidableEq, Repr

/-! ## Sensors, faults, supervision (09) -/

/-- The state of an analog channel (R164). -/
inductive SensorState where
  | normal | holding | faulted
  deriving DecidableEq, Repr

/-- The window of the last four samples, oldest first (R164). -/
structure SampleWindow where
  s0 : Nat
  s1 : Nat
  s2 : Nat
  s3 : Nat
  deriving DecidableEq, Repr

/-- An analog channel (R164). `pin` is the level at the input. -/
structure Sensor where
  pin : Nat
  window : Option SampleWindow
  value : Option Nat
  state : SensorState
  hold : Option Nat
  lastSample : Option Nat
  deriving DecidableEq, Repr

/-- The sensor scanner (R164). -/
structure Scanner where
  channels : Vector Sensor 8
  timer : Nat
  deriving DecidableEq, Repr

/-- The state of a fault record (09, section 9.3). -/
inductive FaultState where
  | clear | retryWait | latched | holding | faulted | active
  deriving DecidableEq, Repr

/-- The kind of a fault record (section 11.3). -/
inductive FaultKind where
  | none | damperStall | feedbackLost | noMotor | stall | motorCutout | doorwayStuck
  | inputLow | inputHigh | railFault | clockDegraded | saveFailed
  deriving DecidableEq, Repr

/-- A fault record (R170). `normal` is the elapsed time of the normal timer, kept while it pauses. -/
structure FaultRec where
  state : FaultState
  kind : FaultKind
  retry : Nat
  occurrences : Nat
  firstSeen : Option Nat
  retryTimer : Option Nat
  normal : Nat
  deriving DecidableEq, Repr

/-- The host supervision state (R176). -/
inductive SupervisionState where
  | unsupervised | awaitingFirst | supervised | lapsed
  deriving DecidableEq, Repr

/-- The reason of a lapse (R176). -/
inductive LapseReason where
  | early | late
  deriving DecidableEq, Repr

/-- Host supervision (R176). -/
structure Supervision where
  state : SupervisionState
  reason : Option LapseReason
  period : Option Nat
  deriving DecidableEq, Repr

/-! ## The link and the settings store (10) -/

/-- The notice kinds, in code order from 0x80 (section 11.2). -/
inductive NoticeKind where
  | fireOn | fireOff | partitionChanged | partitionMismatch | overrideEnded | clockDegraded
  | chainSwitched | chainFinished | bookingStarted | bookingEnding | bookingEnded | overrun
  | entryMissed | stopMarkArmed | stopMarkDone | doorBlocked | countZeroed | co2High | co2Normal
  | calibrationDone | blindLimitUnseen | railDown | faultRaised | faultLatched | faultCleared
  | supervisionLapsed | settingsLost | saveDone | ready
  deriving DecidableEq, Repr

/-- The unit or cell field of a notice (section 11.5). -/
inductive Place where
  | a | b | ab | both
  deriving DecidableEq, Repr

/-- A notice record (R185). `value` is the four bytes of section 11.5, all ones for none. -/
structure Notice where
  kind : NoticeKind
  place : Option Place
  source : Option Nat
  value : Nat
  tag : Option Half
  minute : Nat
  clockSet : Bool
  deriving DecidableEq, Repr

/-- The reply statuses (R182), in code order. -/
inductive ReplyStatus where
  | ok | clamped | badLength | unknownKind | badValue | busy | wrongState | fireLock
  deriving DecidableEq, Repr

/-- A reply: the KIND and TAG of its request, the status, and the payload after the status byte. -/
structure Reply where
  kind : Byte
  tag : Byte
  status : ReplyStatus
  data : List Byte
  deriving DecidableEq, Repr

/-- A complete request frame, SYNC, LEN and CHECK being gone (R179). -/
structure Frame where
  kind : Byte
  tag : Byte
  payload : List Byte
  deriving DecidableEq, Repr

/-- What the transmitter sends: a reply, or a notice with the overflow flag it carries (R186). -/
inductive TxFrame where
  | reply (r : Reply)
  | notice (n : Notice) (overflow : Bool)
  deriving DecidableEq, Repr

/-- A frame in transmission, with the time since its first byte began. -/
structure Transmission where
  frame : TxFrame
  elapsed : Nat
  deriving DecidableEq, Repr

/-- The state of the receive framer (R179). -/
inductive FramerState where
  | hunt | length | kind | tag | payload | check
  deriving DecidableEq, Repr

/-- The receive framer (R179): its state, the bytes in assembly, the running sum and the gap timer. -/
structure Framer where
  state : FramerState
  len : Nat
  kind : Byte
  tag : Byte
  payload : List Byte
  sum : Byte
  gap : Nat
  deriving DecidableEq, Repr

/-- The cause of a reset (R192). -/
inductive ResetCause where
  | powerOn | brownOut | resetLine | restart
  deriving DecidableEq, Repr

/-- How far a RESTART has got: its reply is waiting or being sent, or has been sent to its last byte. -/
inductive RestartState where
  | none | accepted | sent
  deriving DecidableEq, Repr

/-- The link interface (10, sections 10.1 to 10.4). -/
structure Link where
  framer : Framer
  requests : List Frame
  replies : List Reply
  notices : List Notice
  masks : Vector Bool 29
  overflow : Bool
  dropped : Nat
  framesTaken : Half
  checkErrors : Half
  abandoned : Half
  overruns : Half
  tx : Option Transmission
  restart : RestartState
  cause : ResetCause
  uptimeMs : Nat
  deriving DecidableEq, Repr

/-- What the settings image holds (R189). -/
structure Image where
  working : Working
  chain : Option (List Entry × Repeating)
  deriving DecidableEq, Repr

/-- A save in progress: its snapshot and the write timer (R190). -/
structure Saving where
  snapshot : Image
  elapsed : Nat
  deriving DecidableEq, Repr

/-- The settings store (R189). The image is absent while it is NONE; the store is WRITING while a save
is in progress. -/
structure Store where
  image : Option Image
  saving : Option Saving
  deriving DecidableEq, Repr

end Sys2Proof.Machine
end

