-- ==== Sys2Proof/Machine/Defaults.lean ====
section
/-! DEFINITION. The factory defaults (section 10.5, 01 section 1.6, 06 section 6.1) and the reset record
of each block, given the settings in force and the levels of the input pins. -/

namespace Sys2Proof.Machine
open Sys2Proof

/-- The factory defaults of the numbered settings (section 10.5). -/
def Settings.factory : Settings where
  divisible := false
  firePolarity := .activeLow
  purgeEndCo2 := 700
  area := .both 90
  endingWarning := 5
  doorAssign := #v[.a, .a, .b, .b]
  outerEdge := #v[.breakRising, .breakRising, .breakRising, .breakRising]
  innerEdge := #v[.breakRising, .breakRising, .breakRising, .breakRising]
  beamDebounce := #v[50, 50, 50, 50]
  transitTimeout := 4
  detectorAssign := #v[.a, .a, .a, .b, .b, .b]
  detectorEdge := #v[.rising, .rising, .rising, .rising, .rising, .rising]
  presenceHold := 300
  clearingDelay := 120
  vacancyConfirm := 900
  airPeriod := 10
  ra := 60
  qmax := .both 4500
  qmin := .both 800
  alarmThreshold := 2000
  alarmHysteresis := 200
  defaultCap := 20000
  firePosition := .both 0
  strokeTime := .both 150
  trackingTolerance := 50
  kpT := 40
  kiT := 16
  setbackExtra := 20
  valveFallback := .both 200
  channelCell := #v[.a, .a, .a, .a, .b, .b, .b, .b]
  channelRole := #v[.board, .front, .window, .inner, .board, .front, .window, .inner]
  driverMin := #v[20, 20, 20, 20, 20, 20, 20, 20]
  clearingLevel := 200
  kd := 64
  innerBoost := 150
  blindCell := #v[.a, .a, .b, .b]
  blindSide := #v[.windowSide, .boardSide, .windowSide, .boardSide]
  travelUp := #v[60000, 60000, 60000, 60000]
  travelDown := #v[60000, 60000, 60000, 60000]
  sunPosition := 800
  sunInterval := 5
  driveSlots := 2
  runThreshold := 150
  stallThreshold := 1500
  co2Span := .both 2000
  retryInterval := 60
  retryLimit := 3
  supervisionPeriod := 0
  windowFraction := 50

/-- The factory record shared by profiles 1 to 4, 6 and 7, under the name given (01, section 1.6). -/
def Profile.common (name : Vector Byte 8) : Profile where
  name := name
  rp := 80
  co2Setpoint := 900
  kp := 32
  ki := 16
  imax := 2000
  qcap := 1000
  slew := 30
  comfort := 210
  standby := 20
  lux := 500
  harvest := true
  board := 800
  front := 800
  window := 800
  inner := 800
  awaitLevel := 300
  fadeUp := 100
  fadeDown := 50
  lead := 30
  noShow := 20
  earlyVacate := 15
  purge := 10
  awaitFraction := 500
  policy := .daylight

/-- Profile 0, the unbooked profile. Its name is UNBOOKED. -/
def Profile.unbooked : Profile :=
  { Profile.common #v[0x55, 0x4E, 0x42, 0x4F, 0x4F, 0x4B, 0x45, 0x44] with
    co2Setpoint := 1000, qcap := 800, slew := 20, lux := 300,
    board := 600, front := 600, window := 600, inner := 600, awaitLevel := 200,
    lead := 0, noShow := 0, purge := 0, awaitFraction := 0 }

/-- Profile 5. Its name is EXAM, padded with spaces (log entry 41). -/
def Profile.exam : Profile :=
  { Profile.common #v[0x45, 0x58, 0x41, 0x4D, 0x20, 0x20, 0x20, 0x20] with
    co2Setpoint := 1000, kp := 16, ki := 8, imax := 1500, qcap := 600, slew := 10,
    board := 900, front := 900, window := 900, inner := 900,
    lead := 45, noShow := 0, earlyVacate := 30, awaitFraction := 800 }

/-- The eight factory profiles: UNBOOKED, LECTURE, SEMINAR, CASE, WORKSHOP, EXAM, EXEC and EVENING. -/
def Profile.factory : Vector Profile 8 :=
  #v[Profile.unbooked,
     Profile.common #v[0x4C, 0x45, 0x43, 0x54, 0x55, 0x52, 0x45, 0x20],
     Profile.common #v[0x53, 0x45, 0x4D, 0x49, 0x4E, 0x41, 0x52, 0x20],
     Profile.common #v[0x43, 0x41, 0x53, 0x45, 0x20, 0x20, 0x20, 0x20],
     Profile.common #v[0x57, 0x4F, 0x52, 0x4B, 0x53, 0x48, 0x4F, 0x50],
     Profile.exam,
     Profile.common #v[0x45, 0x58, 0x45, 0x43, 0x20, 0x20, 0x20, 0x20],
     Profile.common #v[0x45, 0x56, 0x45, 0x4E, 0x49, 0x4E, 0x47, 0x20]]

/-- The factory damper table (06, section 6.1). -/
def factoryTable : Vector Nat 9 := #v[0, 562, 1125, 1687, 2250, 2812, 3375, 3937, 4500]

/-- The calibration record of a damper never calibrated (R125; the two voltages, log entry 26). -/
def CalRecord.factory : CalRecord := { calibrated := false, fbLow := 0, fbHigh := 0, stroke := 150 }

/-- Everything the settings image holds but the chain, at factory defaults. -/
def Working.factory : Working where
  settings := Settings.factory
  profiles := Profile.factory
  tables := .both factoryTable
  calibrations := .both CalRecord.factory

/-- The levels of the input pins, which a reset does not change. -/
structure Pins where
  contact : Partition
  fire : Bool
  beams : Vector (Bool × Bool) 4
  detectors : Vector Bool 6
  levels : Vector Nat 8
  currents : Vector Nat 4
  railFault : Bool
  deriving DecidableEq, Repr

/-- The pins the model starts from: contact made, fire input and rail-fault input high, beams and
detectors low, analog inputs at 0 (log entry 6). -/
def Pins.quiet : Pins where
  contact := .closed
  fire := true
  beams := #v[(false, false), (false, false), (false, false), (false, false)]
  detectors := #v[false, false, false, false, false, false]
  levels := #v[0, 0, 0, 0, 0, 0, 0, 0]
  currents := #v[0, 0, 0, 0]
  railFault := true

/-- The fire input's level signals fire under the polarity given (R19). -/
def FirePolarity.signals (p : FirePolarity) (high : Bool) : Bool :=
  match p with
  | .activeLow => !high
  | .activeHigh => high

/-- A beam after a reset: no debounced level yet, the first debounce running (R69). -/
def Beam.fresh (pin : Bool) (limit : Nat) : Beam :=
  { pin := pin, debounced := none, pending := some { elapsed := 0, limit := limit }, broken := false }

/-- A doorway channel after a reset (R69). -/
def Door.fresh (pins : Bool × Bool) (limit : Nat) : Door where
  passage := .idle
  outer := Beam.fresh pins.1 limit
  inner := Beam.fresh pins.2 limit
  rearm := false
  transit := none
  blockClear := none
  stuck := none
  stuckTold := false
  entries := 0
  exits := 0
  turnBacks := 0
  blocks := 0

/-- The doorway counter after a reset. -/
def Door.freshAll (w : Settings) (p : Pins) : Vector Door 4 :=
  #v[Door.fresh p.beams[0] w.beamDebounce[0], Door.fresh p.beams[1] w.beamDebounce[1],
     Door.fresh p.beams[2] w.beamDebounce[2], Door.fresh p.beams[3] w.beamDebounce[3]]

/-- A detector after a reset (R70). -/
def Detector.fresh (pin : Bool) : Detector :=
  { pin := pin, filtered := none, filter := some 0, sinceMotion := none }

/-- The presence monitor after a reset (R70). -/
def Presence.fresh (p : Pins) : Presence where
  detectors := #v[Detector.fresh p.detectors[0], Detector.fresh p.detectors[1],
    Detector.fresh p.detectors[2], Detector.fresh p.detectors[3],
    Detector.fresh p.detectors[4], Detector.fresh p.detectors[5]]
  cells := .both { present := false, sinceMotion := none }
  tickMs := 0

/-- The terms of a unit that no air update has yet reached (R104), or that is in FIRE (R100). -/
def AirTerms.absent : AirTerms where
  area := none
  persons := none
  person := none
  proportional := none
  trim := none
  upper := none
  co2 := none

/-- A unit record after a reset (R24, R86, R104). -/
def UnitRec.fresh : UnitRec where
  headcount := 0
  count := .exact
  occupancy := .vacant
  clearing := none
  vacancyTimer := 0
  vacancyTold := false
  forcedTimer := 0
  mode := .setback
  prevMode := .setback
  purge := none
  profile := 0
  governing := none
  lingering := none
  integral := 0
  demand := 0
  allocation := 0
  atUpper := false
  budgetLimited := false
  co2Alarm := false
  terms := AirTerms.absent

/-- The override table with no override in force. -/
def noOverrides : Vector (Option Override) 16 :=
  #v[none, none, none, none, none, none, none, none, none, none, none, none, none, none, none, none]

/-- The space coordinator after a reset (R1, R19, R24). -/
def Space.fresh (w : Settings) (p : Pins) : Space where
  partition := .closed
  contact := p.contact
  partitionTimer := if p.contact = .opened then some 0 else none
  fire := .clear
  firePin := p.fire
  fireTimer := if w.firePolarity.signals p.fire then some 0 else none
  units := .split UnitRec.fresh UnitRec.fresh
  overrides := noOverrides

/-- The air demand unit after a reset (R104). -/
def Air.fresh (w : Settings) : Air where
  requestedCap := w.defaultCap
  capSource := .default
  capInForce := w.defaultCap
  sumDemand := 0
  sumAllocation := 0
  timer := 0

/-- The terminal drive of a cell after a reset (R125). -/
def Drive.fresh : Drive where
  flow := none
  position := none
  computed := 0
  driven := 0
  source := .computed
  output := 0
  feedback := none
  feedbackGood := false
  means := []
  tracking := false
  reference := none
  trackTimer := none
  cal := none
  tempTimer := 0
  setpoint := none
  integral := 0
  valveComputed := 0
  valveDriven := 0
  valveOutput := 0

/-- A lighting channel after a reset (R142). -/
def LightChannel.fresh : LightChannel where
  computed := 0
  target := 0
  output := 0
  applied := 0
  pendingDuty := 0
  appliedDuty := 0
  fade := .none
  stepSize := none

/-- The lighting unit after a reset (R142). -/
def Lighting.fresh : Lighting where
  channels := #v[LightChannel.fresh, LightChannel.fresh, LightChannel.fresh, LightChannel.fresh,
    LightChannel.fresh, LightChannel.fresh, LightChannel.fresh, LightChannel.fresh]
  cells := .both { factor := 1000, frozen := false, freeze := none, moving := false, updated := false }
  stepTimer := 0
  daylightTimer := 0

/-- A blind group after a reset (R163). -/
def Group.fresh (sense : Nat) : Group where
  estimate := 1000
  referenced := false
  computedTarget := 0
  target := 0
  sunUsed := false
  state := .stopped
  goal := 0
  refMove := false
  segStart := 1000
  segMs := 0
  runMs := 0
  sampleMs := 0
  runTested := false
  overrun := none
  stallCount := 0
  reverseMs := 0
  legMs := 0
  sinceMove := none
  cal := none
  current := none
  sensePin := sense

/-- The blind unit after a reset (R163). -/
def Blinds.fresh (p : Pins) : Blinds where
  groups := #v[Group.fresh p.currents[0], Group.fresh p.currents[1],
    Group.fresh p.currents[2], Group.fresh p.currents[3]]
  queue := []
  slots := []
  sun := false
  sunHold := none
  evalTimer := 0

/-- The actuator rail control after a reset (R163). -/
def Rail.fresh (p : Pins) : Rail where
  state := .off
  driveNeed := false
  blindNeed := false
  settle := none
  linger := none
  faultPin := p.railFault
  lowTimer := if p.railFault then none else some 0

/-- An analog channel after a reset (R164). -/
def Sensor.fresh (pin : Nat) : Sensor :=
  { pin := pin, window := none, value := none, state := .normal, hold := none, lastSample := none }

/-- The sensor scanner after a reset (R164). -/
def Scanner.fresh (p : Pins) : Scanner where
  channels := #v[Sensor.fresh p.levels[0], Sensor.fresh p.levels[1], Sensor.fresh p.levels[2],
    Sensor.fresh p.levels[3], Sensor.fresh p.levels[4], Sensor.fresh p.levels[5],
    Sensor.fresh p.levels[6], Sensor.fresh p.levels[7]]
  timer := 0

/-- A fault record after a reset (R170). -/
def FaultRec.fresh : FaultRec where
  state := .clear
  kind := .none
  retry := 0
  occurrences := 0
  firstSeen := none
  retryTimer := none
  normal := 0

/-- The fault table after a reset: twenty-one records (09, section 9.3). -/
def FaultRec.freshAll : Vector FaultRec 21 :=
  #v[FaultRec.fresh, FaultRec.fresh, FaultRec.fresh, FaultRec.fresh, FaultRec.fresh, FaultRec.fresh,
     FaultRec.fresh, FaultRec.fresh, FaultRec.fresh, FaultRec.fresh, FaultRec.fresh, FaultRec.fresh,
     FaultRec.fresh, FaultRec.fresh, FaultRec.fresh, FaultRec.fresh, FaultRec.fresh, FaultRec.fresh,
     FaultRec.fresh, FaultRec.fresh, FaultRec.fresh]

/-- Host supervision after a reset, or after a write of the supervision period (R176). -/
def Supervision.fresh (period : Nat) : Supervision where
  state := if period = 0 then .unsupervised else .awaitingFirst
  reason := none
  period := none

/-- An empty bank (R28; its repeat setting, log entry 25). -/
def Bank.none : Bank := { entries := [], state := .empty, repeating := .weekly }

/-- Empty slots of both cells. -/
def SlotPair.empty : SlotPair := .cells none none

/-- The booking walker after a reset, with the chain of the image, before a RUNNING walker is placed
(R52). -/
def Walker.fresh (chain : Option (List Entry × Repeating)) : Walker where
  active := match chain with
    | some (es, r) => { entries := es, state := .active, repeating := r }
    | none => Bank.none
  standby := Bank.none
  state := match chain with
    | some _ => .clockWait
    | none => .idle
  cursor := none
  cycle := 0
  offset := 0
  queuedSwitch := none
  stopMark := none
  next := SlotPair.empty
  current := SlotPair.empty

/-- The week clock after a power-on reset (R25). -/
def WeekClock.fresh : WeekClock :=
  { minute := 0, second := 0, isSet := false, crystal := true, degraded := false, subMs := 0 }

/-- The receive framer in HUNT (R179). -/
def Framer.hunting : Framer :=
  { state := .hunt, len := 0, kind := 0, tag := 0, payload := [], sum := 0, gap := 0 }

/-- No notice kind is masked (R187). -/
def noMasks : Vector Bool 29 :=
  #v[false, false, false, false, false, false, false, false, false, false,
     false, false, false, false, false, false, false, false, false, false,
     false, false, false, false, false, false, false, false, false]

/-- The code of a reset cause (section 11.3). -/
def ResetCause.code : ResetCause → Nat
  | .powerOn => 0
  | .brownOut => 1
  | .resetLine => 2
  | .restart => 3

/-- The READY notice (R194, section 11.5). -/
def readyNotice (cause : ResetCause) (clock : WeekClock) : Notice where
  kind := .ready
  place := none
  source := none
  value := cause.code
  tag := none
  minute := clock.minute
  clockSet := clock.isSet

/-- The link interface at the moment of a reset, READY having begun (R194). -/
def Link.fresh (cause : ResetCause) (clock : WeekClock) : Link where
  framer := Framer.hunting
  requests := []
  replies := []
  notices := []
  masks := noMasks
  overflow := false
  dropped := 0
  framesTaken := 0
  checkErrors := 0
  abandoned := 0
  overruns := 0
  tx := some { frame := .notice (readyNotice cause clock) false, elapsed := 0 }
  restart := .none
  cause := cause
  uptimeMs := 0

end Sys2Proof.Machine
end

