-- ==== Sys2Proof/Machine/State.lean ====
section
/-! DEFINITION. The state of the part, the reasons a step can stop, and the machine right after its first
power-on reset. -/

namespace Sys2Proof.Machine
open Sys2Proof

/-- The state of the 7320: one field per block (00_scope.md 2.1), the working settings, and the queue of
commands that wait, first in, first out. -/
structure State where
  /-- LKI (R179 to R187, R192, R194). -/
  link : Link
  /-- WCK (R25). -/
  clock : WeekClock
  /-- BKW (R28, R34, R38, R39). -/
  walker : Walker
  /-- DCU (R53). -/
  doors : Vector Door 4
  /-- PRM (R64, R65). -/
  presence : Presence
  /-- OCT: the drift tally of each cell (R73); its other fields stand in the unit records. -/
  drift : PerCell Nat
  /-- SPC (R1, R3, R16, R19). -/
  space : Space
  /-- ADU (R87). -/
  air : Air
  /-- TDR, per cell (R105). -/
  drives : PerCell Drive
  /-- LGU (R126, R134, R137). -/
  lighting : Lighting
  /-- BLU (R143, R149). -/
  blinds : Blinds
  /-- ARC (R160, R161). -/
  rail : Rail
  /-- SSC (R164). -/
  scanner : Scanner
  /-- FLT (R170). -/
  faults : Vector FaultRec 21
  /-- HSV (R176). -/
  supervision : Supervision
  /-- SST (R189, R190). -/
  store : Store
  /-- The working settings, profiles, damper tables and calibration records (R188). -/
  working : Working
  /-- The commands waiting, first in, first out: the MODEL's own field (log entry 3). -/
  pending : List Instr
  deriving DecidableEq, Repr

/-- The reasons a step can stop with a fault: there are none. Every command of the 7320 has an effect in
every state (a request is answered, an event is taken or finds nothing to act on). -/
inductive Fault where
  deriving DecidableEq, Repr

/-- The reasons a step can be refused. -/
inductive Refusal where
  /-- Raised by an arm of exec whose command has no meaning yet. Safe. -/
  | notModelled (mnemonic : String)
  /-- Raised for a command that cannot reach the part, not being well formed: an UNKNOWN_KIND frame whose
  KIND is a request kind, or with more than 250 payload bytes (R179, R181). Safe: no such frame exists. -/
  | illFormed
  deriving DecidableEq, Repr

/-- The state at the moment of a reset (R193, R194), with the settings in force, the image that outlasts
it, its cause, the week clock as the kind of reset leaves it and the levels of the pins; before a
RUNNING walker is placed and the notices behind READY are handed over. -/
def State.initial (w : Working) (image : Option Image) (cause : ResetCause) (clock : WeekClock) (p : Pins)
    (pending : List Instr) : State where
  link := Link.fresh cause clock
  clock := clock
  walker := Walker.fresh (image.bind (·.chain))
  doors := Door.freshAll w.settings p
  presence := Presence.fresh p
  drift := .both 0
  space := Space.fresh w.settings p
  air := Air.fresh w.settings
  drives := .both Drive.fresh
  lighting := Lighting.fresh
  blinds := Blinds.fresh p
  rail := Rail.fresh p
  scanner := Scanner.fresh p
  faults := FaultRec.freshAll
  supervision := Supervision.fresh w.settings.supervisionPeriod
  store := { image := image, saving := none }
  working := w
  pending := pending

/-- SETTINGS_LOST as it is handed over at a reset whose image is NONE (R194). -/
def settingsLostNotice (clock : WeekClock) : Notice where
  kind := .settingsLost
  place := none
  source := none
  value := 0xFFFFFFFF
  tag := none
  minute := clock.minute
  clockSet := clock.isSet

/-- The machine right after its first power-on reset: the image is NONE (log entry 5), so the factory
defaults are in force, READY is being sent and SETTINGS_LOST stands behind it. -/
def State.reset : State :=
  let s := State.initial Working.factory none .powerOn WeekClock.fresh Pins.quiet []
  { s with link := { s.link with notices := [settingsLostNotice WeekClock.fresh] } }

end Sys2Proof.Machine
end

