-- ==== Sys2Proof/Machine/Ops.lean ====
section
/-! DEFINITION. The operations every block shares: handing over a notice, the fault records, and the
reading of units, cells and slots. -/

namespace Sys2Proof

/-! ## Cells and units -/

/-- The cells of a unit. -/
def UnitId.cells : UnitId → List Cell
  | .a => [.a]
  | .b => [.b]
  | .ab => [.a, .b]

/-- The place field of a unit (section 11.5). -/
def UnitId.place : UnitId → Machine.Place
  | .a => .a
  | .b => .b
  | .ab => .ab

/-- The place field of a cell. -/
def Cell.place : Cell → Machine.Place
  | .a => .a
  | .b => .b

/-- The largest headcount of a unit (R72). -/
def UnitId.maxHeadcount : UnitId → Nat
  | .ab => 500
  | _ => 250

/-- The sum over a unit's cells of a figure kept per cell (R3: area, Qmin, Qmax). -/
def UnitId.sum (id : UnitId) (p : Machine.PerCell Nat) : Nat :=
  match id with
  | .a => p.a
  | .b => p.b
  | .ab => p.a + p.b

end Sys2Proof

namespace Sys2Proof.Machine
open Sys2Proof

/-! ## Changes of one part of the state -/

/-- Change the link interface. -/
def State.updLink (s : State) (f : Link → Link) : State := { s with link := f s.link }

/-- Change the week clock. -/
def State.updClock (s : State) (f : WeekClock → WeekClock) : State := { s with clock := f s.clock }

/-- Change the booking walker. -/
def State.updWalker (s : State) (f : Walker → Walker) : State := { s with walker := f s.walker }

/-- Change the presence monitor. -/
def State.updPresence (s : State) (f : Presence → Presence) : State := { s with presence := f s.presence }

/-- Change the drift tallies. -/
def State.updDrift (s : State) (f : PerCell Nat → PerCell Nat) : State := { s with drift := f s.drift }

/-- Change the space coordinator. -/
def State.updSpace (s : State) (f : Space → Space) : State := { s with space := f s.space }

/-- Change the air demand unit's state for the room. -/
def State.updAir (s : State) (f : Air → Air) : State := { s with air := f s.air }

/-- Change the lighting unit. -/
def State.updLighting (s : State) (f : Lighting → Lighting) : State := { s with lighting := f s.lighting }

/-- Change the blind unit. -/
def State.updBlinds (s : State) (f : Blinds → Blinds) : State := { s with blinds := f s.blinds }

/-- Change the actuator rail control. -/
def State.updRail (s : State) (f : Rail → Rail) : State := { s with rail := f s.rail }

/-- Change the sensor scanner. -/
def State.updScanner (s : State) (f : Scanner → Scanner) : State := { s with scanner := f s.scanner }

/-- Change host supervision. -/
def State.updSupervision (s : State) (f : Supervision → Supervision) : State := { s with supervision := f s.supervision }

/-- Change the settings store. -/
def State.updStore (s : State) (f : Store → Store) : State := { s with store := f s.store }

/-- Replace the numbered settings. -/
def State.withSettings (s : State) (w : Settings) : State :=
  { s with working := { s.working with settings := w } }

/-- Replace the stored profiles. -/
def State.withProfiles (s : State) (w : Vector Profile 8) : State :=
  { s with working := { s.working with profiles := w } }

/-- Replace the damper tables. -/
def State.withTables (s : State) (w : PerCell (Vector Nat 9)) : State :=
  { s with working := { s.working with tables := w } }

/-- Replace the calibration records. -/
def State.withCalibrations (s : State) (w : PerCell CalRecord) : State :=
  { s with working := { s.working with calibrations := w } }

/-! ## Notices (R185, R186) -/

/-- The place of a notice kind in code order (section 11.2). -/
def NoticeKind.index : NoticeKind → Fin 29
  | .fireOn => 0
  | .fireOff => 1
  | .partitionChanged => 2
  | .partitionMismatch => 3
  | .overrideEnded => 4
  | .clockDegraded => 5
  | .chainSwitched => 6
  | .chainFinished => 7
  | .bookingStarted => 8
  | .bookingEnding => 9
  | .bookingEnded => 10
  | .overrun => 11
  | .entryMissed => 12
  | .stopMarkArmed => 13
  | .stopMarkDone => 14
  | .doorBlocked => 15
  | .countZeroed => 16
  | .co2High => 17
  | .co2Normal => 18
  | .calibrationDone => 19
  | .blindLimitUnseen => 20
  | .railDown => 21
  | .faultRaised => 22
  | .faultLatched => 23
  | .faultCleared => 24
  | .supervisionLapsed => 25
  | .settingsLost => 26
  | .saveDone => 27
  | .ready => 28

/-- The class of a notice kind is HIGH (the table of section 10.4). -/
def NoticeKind.high : NoticeKind → Bool
  | .fireOn | .fireOff | .clockDegraded | .co2High | .railDown | .faultRaised | .faultLatched
  | .supervisionLapsed | .settingsLost => true
  | _ => false

/-- The four value bytes of a notice that carries none (section 11.5). -/
def noValue : Nat := 0xFFFFFFFF

/-- A notice is dropped: the overflow flag is set and the dropped-notice count rises (R186). -/
def Link.noteDrop (l : Link) : Link := { l with overflow := true, dropped := satAdd 65535 l.dropped 1 }

/-- The HIGH notices at the head of the queue. -/
def Link.highs (l : Link) : List Notice := l.notices.takeWhile (·.kind.high)

/-- The notices behind them. -/
def Link.lows (l : Link) : List Notice := l.notices.dropWhile (·.kind.high)

/-- Take a notice that is handed over: a masked kind leaves no trace (R185); the others are placed by
class, with the three outcomes of a full queue (R186). -/
def Link.place (l : Link) (n : Notice) : Link :=
  if l.masks[n.kind.index] then l
  else if l.notices.length < Config.noticeQueueSize then
    { l with notices := if n.kind.high then l.highs ++ n :: l.lows else l.notices ++ [n] }
  else if n.kind.high then
    match l.lows with
    | [] => l.noteDrop
    | _ :: rest => { l.noteDrop with notices := l.highs ++ n :: rest }
  else l.noteDrop

/-- Hand a notice to the link interface, stamped with the week clock as it stands (R185). -/
def State.notify (s : State) (kind : NoticeKind) (place : Option Place) (source : Option Nat) (value : Nat)
    (tag : Option Half) : State :=
  let n : Notice :=
    { kind := kind, place := place, source := source, value := value, tag := tag,
      minute := s.clock.minute, clockSet := s.clock.isSet }
  s.updLink fun l => l.place n

/-! ## The fault table (R170 to R173) -/

/-- The code of a fault state (section 11.3). -/
def FaultState.code : FaultState → Nat
  | .clear => 0
  | .retryWait => 1
  | .latched => 2
  | .holding => 3
  | .faulted => 4
  | .active => 5

/-- The code of a fault kind (section 11.3). -/
def FaultKind.code : FaultKind → Nat
  | .none => 0
  | .damperStall => 1
  | .feedbackLost => 2
  | .noMotor => 3
  | .stall => 4
  | .motorCutout => 5
  | .doorwayStuck => 6
  | .inputLow => 7
  | .inputHigh => 8
  | .railFault => 9
  | .clockDegraded => 10
  | .saveFailed => 11

/-- The source index of a cell's damper (section 9.3). -/
def damperSource : Cell → Fin 21
  | .a => 0
  | .b => 1

/-- The source index of a blind group. -/
def blindSource : Fin 4 → Fin 21
  | 0 => 2
  | 1 => 3
  | 2 => 4
  | 3 => 5

/-- The source index of a doorway channel. -/
def doorSource : Fin 4 → Fin 21
  | 0 => 6
  | 1 => 7
  | 2 => 8
  | 3 => 9

/-- The source index of an analog channel. -/
def sensorSource : Fin 8 → Fin 21
  | 0 => 10
  | 1 => 11
  | 2 => 12
  | 3 => 13
  | 4 => 14
  | 5 => 15
  | 6 => 16
  | 7 => 17

/-- The source index of the actuator rail. -/
def railSource : Fin 21 := 18

/-- The source index of the clock oscillator. -/
def clockSource : Fin 21 := 19

/-- The source index of the settings store. -/
def storeSource : Fin 21 := 20

/-- Change one fault record. -/
def State.updFault (s : State) (i : Fin 21) (f : FaultRec → FaultRec) : State :=
  { s with faults := updAt s.faults i f }

/-- A notice of the fault table: the source index, the record's state after the change and its kind
(R171, section 11.5). It names no cell (log entry 29). -/
def State.notifyFault (s : State) (kind : NoticeKind) (i : Fin 21) : State :=
  let r := s.faults[i]
  s.notify kind none (some i.val) (r.state.code + 256 * r.kind.code) none

/-- What every report does to its record: the kind, the occurrence count, and the first-seen minute at
the start of an episode (R170). -/
def FaultRec.report (r : FaultRec) (kind : FaultKind) (minute : Nat) : FaultRec :=
  { r with
    kind := kind
    occurrences := satAdd 255 r.occurrences 1
    firstSeen := if r.state = .clear ∧ r.retry = 0 then some minute else r.firstSeen }

/-- A report from a source that recovers by itself: the record becomes `state` (R171). -/
def State.reportPlain (s : State) (i : Fin 21) (kind : FaultKind) (state : FaultState) : State :=
  s.updFault i fun r => { r.report kind s.clock.minute with state := state }

/-- The record of a doorway, the clock or the store returns to CLEAR with FAULT_CLEARED, if it is not
CLEAR already (R171). -/
def State.withdrawFault (s : State) (i : Fin 21) : State :=
  if s.faults[i].state = .clear then s
  else (s.updFault i fun r => { r with state := .clear }).notifyFault .faultCleared i

/-- The retry policy's part of a report reaching a CLEAR record (R172). The retry count stays within
0..10 (R170). -/
def FaultRec.policy (r : FaultRec) (limit : Nat) : FaultRec :=
  let n := satAdd 10 r.retry 1
  if n < limit then { r with retry := n, normal := 0, state := .retryWait, retryTimer := some 0 }
  else { r with retry := n, normal := 0, state := .latched, retryTimer := none }

/-- A report from a damper, a blind group or the rail (R172; the count, log entry 30). -/
def State.reportRetry (s : State) (i : Fin 21) (kind : FaultKind) : State :=
  if s.faults[i].state = .clear then
    let s1 := s.updFault i fun r =>
      (r.report kind s.clock.minute).policy s.working.settings.retryLimit
    if s1.faults[i].state = .latched then
      let s2 := s1.notifyFault .faultLatched i
      if i = railSource then s2.notifyFault .railDown i else s2
    else if i = railSource then s1.notifyFault .railDown i
    else s1.notifyFault .faultRaised i
  else s.updFault i fun r => r.report kind s.clock.minute

/-- The any fault flag: at least one record is not CLEAR (R170). -/
def State.anyFault (s : State) : Bool := s.faults.toList.any fun r => r.state != .clear

/-! ## Units, cells and arrangement -/

/-- The record of a unit, absent when the arrangement has no such unit. -/
def Units.get? : Units → UnitId → Option UnitRec
  | .split a _, .a => some a
  | .split _ b, .b => some b
  | .joined ab, .ab => some ab
  | _, _ => none

/-- The unit a cell belongs to. -/
def Units.idOf : Units → Cell → UnitId
  | .split _ _, .a => .a
  | .split _ _, .b => .b
  | .joined _, _ => .ab

/-- The record of the unit a cell belongs to. -/
def Units.ofCell : Units → Cell → UnitRec
  | .split a _, .a => a
  | .split _ b, .b => b
  | .joined ab, _ => ab

/-- Change the record of a unit that exists. -/
def Units.modify : Units → UnitId → (UnitRec → UnitRec) → Units
  | .split a b, .a, f => .split (f a) b
  | .split a b, .b, f => .split a (f b)
  | .joined ab, .ab, f => .joined (f ab)
  | u, _, _ => u

/-- The units that exist, A before B. -/
def Units.ids : Units → List UnitId
  | .split _ _ => [.a, .b]
  | .joined _ => [.ab]

/-- The record of a unit that exists. -/
def State.unit? (s : State) (id : UnitId) : Option UnitRec := s.space.units.get? id

/-- The record of the unit a cell belongs to. -/
def State.unitOf (s : State) (c : Cell) : UnitRec := s.space.units.ofCell c

/-- The profile that governs the unit of a cell. -/
def State.profileOf (s : State) (c : Cell) : Profile := s.working.profiles[(s.unitOf c).profile]

/-- Change the record of a unit. -/
def State.modifyUnit (s : State) (id : UnitId) (f : UnitRec → UnitRec) : State :=
  s.updSpace fun p => { p with units := p.units.modify id f }

/-- The presence of a unit (R66). -/
def State.presenceOf (s : State) (id : UnitId) : Bool :=
  match id with
  | .a => s.presence.cells.a.present
  | .b => s.presence.cells.b.present
  | .ab => s.presence.cells.a.present || s.presence.cells.b.present

/-- The cell a cell setting names, or none. -/
def CellSetting.cell? : CellSetting → Option Cell
  | .a => some .a
  | .b => some .b
  | .off => none

/-! ## Sensors -/

/-- The reading a user may take of a channel: its value unless it is FAULTED or has none (R169, log
entry 28). -/
def Sensor.usable (c : Sensor) : Option Nat := if c.state = .faulted then none else c.value

/-- The CO2 channel of a cell (09, section 9.1). -/
def co2Channel : Cell → Fin 8
  | .a => 0
  | .b => 1

/-- The temperature channel of a cell. -/
def tempChannel : Cell → Fin 8
  | .a => 2
  | .b => 3

/-- The lux channel of a cell. -/
def luxChannel : Cell → Fin 8
  | .a => 4
  | .b => 5

/-- The damper feedback channel of a cell. -/
def feedbackChannel : Cell → Fin 8
  | .a => 6
  | .b => 7

/-- A unit's CO2 while it is healthy: the cell's, or the higher of the two healthy values of AB
(R8, R90). -/
def State.co2Of (s : State) (id : UnitId) : Option Nat :=
  let a := s.scanner.channels[co2Channel .a].usable
  let b := s.scanner.channels[co2Channel .b].usable
  match id with
  | .a => a
  | .b => b
  | .ab =>
    match a, b with
    | some x, some y => some (max x y)
    | some x, none => some x
    | none, y => y

/-- A sensor is to be managed without: it is FAULTED, or HOLDING with no value (R166, R169). -/
def Sensor.lost (c : Sensor) : Bool := c.state = .faulted || (c.state = .holding && c.value.isNone)

/-! ## Slots (R39) -/

/-- The booking in a cell's slot. -/
def SlotPair.inCell : SlotPair → Cell → Option Booking
  | .cells a _, .a => a
  | .cells _ b, .b => b
  | .joined k, _ => some k

/-- The bookings standing, a JOINED booking once. Where two leave CURRENT in one step they are taken in this order, A
before B: the model's choice (log entry 58). -/
def SlotPair.standing : SlotPair → List (Target × Booking)
  | .cells a b => (a.toList.map fun k => (.a, k)) ++ (b.toList.map fun k => (.b, k))
  | .joined k => [(.joined, k)]

/-- The bookings a booking of the target given would meet in these slots (R41). -/
def SlotPair.meeting : SlotPair → Target → List (Target × Booking)
  | .cells a _, .a => a.toList.map fun k => (.a, k)
  | .cells _ b, .b => b.toList.map fun k => (.b, k)
  | p, .joined => p.standing
  | .joined k, _ => [(.joined, k)]

/-- Put a booking into the slot, or slots, of its target. -/
def SlotPair.put : SlotPair → Target → Booking → SlotPair
  | .cells _ b, .a, k => .cells (some k) b
  | .cells a _, .b, k => .cells a (some k)
  | .joined _, .a, k => .cells (some k) none
  | .joined _, .b, k => .cells none (some k)
  | _, .joined, k => .joined k

/-- Empty the slot, or slots, of a target; a JOINED booking leaves both (R39). -/
def SlotPair.drop : SlotPair → Target → SlotPair
  | .cells _ b, .a => .cells none b
  | .cells a _, .b => .cells a none
  | .joined _, _ => .cells none none
  | _, .joined => .cells none none

/-- The slots a target needs are free (R35). -/
def SlotPair.free (p : SlotPair) (t : Target) : Bool := (p.meeting t).isEmpty

/-- Change every booking standing. -/
def SlotPair.map (p : SlotPair) (f : Target → Booking → Booking) : SlotPair :=
  match p with
  | .cells a b => .cells (a.map (f .a)) (b.map (f .b))
  | .joined k => .joined (f .joined k)

/-- The cells a target claims. -/
def Target.cells : Target → List Cell
  | .a => [.a]
  | .b => [.b]
  | .joined => [.a, .b]

/-- The place field of a booking's target (section 11.5). -/
def Target.place : Target → Place
  | .a => .a
  | .b => .b
  | .joined => .both

/-- The units a booking of the target concerns under the arrangement (R13, R42). -/
def Units.ofTarget (u : Units) (t : Target) : List UnitId :=
  match u, t with
  | .joined _, _ => [.ab]
  | .split _ _, .a => [.a]
  | .split _ _, .b => [.b]
  | .split _ _, .joined => [.a, .b]

/-- A unit is VACANT. -/
def State.vacantUnit (s : State) (id : UnitId) : Bool :=
  match s.unit? id with
  | some u => u.occupancy = .vacant
  | none => true

/-- A booking's unit is VACANT; for a JOINED booking while SPLIT, both are (R42, R45). -/
def State.vacantTarget (s : State) (t : Target) : Bool := (s.space.units.ofTarget t).all s.vacantUnit

/-- A booking's unit, or either of its units, is OCCUPIED (R44). -/
def State.occupiedTarget (s : State) (t : Target) : Bool :=
  (s.space.units.ofTarget t).any fun id =>
    match s.unit? id with
    | some u => u.occupancy = .occupied
    | none => false

end Sys2Proof.Machine
end

