-- ==== Sys2Proof/Machine/Modes.lean ====
section
/-! DEFINITION. The room mode and the governing profile of a unit (R11 to R14), and what the blocks do at
the derivation that enters a mode (R94, R135). -/

namespace Sys2Proof.Machine
open Sys2Proof

/-- The derivation table of R11. -/
def deriveMode (fire : FireState) (occupancy : Occupancy) (prev : Mode) (purgeMinutes : Nat)
    (purgeEndMet purgeRunning currentHeld nextArmed : Bool) : Mode :=
  if fire = .inForce then .fire
  else if occupancy ≠ .vacant then .occupied
  else if prev = .occupied ∧ 0 < purgeMinutes ∧ purgeEndMet = false then .purge
  else if prev = .purge ∧ purgeRunning = true then .purge
  else if currentHeld then .await
  else if nextArmed then .precondition
  else .setback

/-- The purge-end test of R12: a healthy CO2 at or below the purge-end level. -/
def State.purgeEndMet (s : State) (id : UnitId) : Bool :=
  match s.co2Of id with
  | some v => v ≤ s.working.settings.purgeEndCo2
  | none => false

/-- The booking of a pair of slots that a unit takes, with the cell it is reported under: the cell's
own for A and B, and for AB the choice of R14. A JOINED booking stands in both cells and is reported under cell A:
the model's choice (log entry 57). -/
def chooseBooking (p : SlotPair) (id : UnitId) : Option (Cell × Booking) :=
  match id with
  | .a => (p.inCell .a).map fun k => (.a, k)
  | .b => (p.inCell .b).map fun k => (.b, k)
  | .ab =>
    match p with
    | .joined k => some (.a, k)
    | .cells (some x) (some y) => if x.entry.expected < y.entry.expected then some (.b, y) else some (.a, x)
    | .cells (some x) none => some (.a, x)
    | .cells none (some y) => some (.b, y)
    | .cells none none => none

/-- The governing profile and booking (R13). -/
def chooseGoverning (next current : SlotPair) (id : UnitId) (lingering : Option (Fin 8)) (mode : Mode) :
    Fin 8 × Option (Cell × SlotKind) :=
  match chooseBooking current id with
  | some (c, k) => (k.entry.profile, some (c, .current))
  | none =>
    match lingering with
    | some p => (p, none)
    | none =>
      if mode = .precondition then
        match chooseBooking next id with
        | some (c, k) => (k.entry.profile, some (c, .next))
        | none => (0, none)
      else (0, none)

/-- The mode the table gives a unit now. -/
def State.modeFor (s : State) (id : UnitId) (u : UnitRec) : Mode :=
  deriveMode s.space.fire u.occupancy u.mode s.working.profiles[u.profile].purge (s.purgeEndMet id)
    u.purge.isSome (chooseBooking s.walker.current id).isSome (chooseBooking s.walker.next id).isSome

/-- A unit record after a derivation that gives `mode` (R11 to R13, R94). The previous mode of the table
is the mode the record held (log entry 12). A derivation that leaves FIRE clears the flags of the last air update, so
that the first integral update after a fire is not skipped, also where no update fell within the fire (R100, log
entry 63). -/
def State.derivedRecord (s : State) (id : UnitId) (u : UnitRec) : UnitRec :=
  let mode := s.modeFor id u
  let afterFire := decide (u.mode = .fire ∧ mode ≠ .fire)
  let purge :=
    if mode = .purge then
      if u.mode = .purge then u.purge else some (s.working.profiles[u.profile].purge * 60000)
    else none
  let g := chooseGoverning s.walker.next s.walker.current id u.lingering mode
  { u with
    mode := mode
    prevMode := u.mode
    purge := purge
    profile := g.1
    governing := g.2
    integral := if mode ≠ u.mode ∧ (mode = .await ∨ mode = .occupied) then 0 else u.integral
    atUpper := u.atUpper && !afterFire
    budgetLimited := u.budgetLimited && !afterFire }

/-- The derivation without its effect on the daylight factors. -/
def State.deriveCore (s : State) (id : UnitId) : State := s.modifyUnit id (s.derivedRecord id)

/-- Set the daylight factor of a cell to 1000 (R135, R138). -/
def State.fullDaylight (s : State) (c : Cell) : State :=
  s.updLighting fun l => { l with cells := l.cells.upd c fun d => { d with factor := 1000 } }

/-- Derive a unit's mode and governing profile (R11, R13). Entering OCCUPIED sets the daylight factors
of its cells to 1000 (R135). -/
def State.derive (s : State) (id : UnitId) : State :=
  match s.unit? id with
  | none => s
  | some u =>
    let s1 := s.deriveCore id
    if s.modeFor id u = .occupied ∧ u.mode ≠ .occupied then id.cells.foldl State.fullDaylight s1 else s1

/-- Derive several units in order. -/
def State.deriveUnits (s : State) (ids : List UnitId) : State := ids.foldl State.derive s

/-- Derive every unit (R20, R21). -/
def State.deriveAll (s : State) : State := s.deriveUnits s.space.units.ids

/-- The end of a purge (R12): the timer stops and the mode is derived again with previous mode PURGE. -/
def State.endPurge (s : State) (id : UnitId) : State :=
  (s.modifyUnit id fun u => { u with purge := none }).derive id

end Sys2Proof.Machine
end

