-- ==== Sys2Proof/Machine/Bookings.lean ====
section
/-! DEFINITION. The booking walker: how a booking is armed, starts, ends and leaves its slot, the arming
pass, the chain switch, and the two events of the week clock it handles (02, sections 2.4 to 2.10). -/

namespace Sys2Proof.Machine
open Sys2Proof

/-- The code of an outcome (section 11.3). -/
def BookingOutcome.code : BookingOutcome → Nat
  | .ended => 0
  | .endedEarly => 1
  | .noShow => 2
  | .superseded => 3
  | .holdOverridden => 4
  | .cancelled => 5
  | .missed => 6

/-- A notice about a booking: its target, its entry index or none, and its reference tag (02, 2.7). -/
def State.notifyBooking (s : State) (kind : NoticeKind) (k : Booking) (value : Nat) : State :=
  s.notify kind (some k.entry.target.place) k.index value (some k.entry.tag)

/-! ## The cycle clock (R34) -/

/-- Whenever C and O are both at least 10080, 10080 is taken from each. -/
def Walker.settleCycle (w : Walker) : Walker :=
  if Config.weekMinutes ≤ w.cycle ∧ Config.weekMinutes ≤ w.offset then
    { w with cycle := w.cycle - Config.weekMinutes, offset := w.offset - Config.weekMinutes }
  else w

/-- C rises by `d`, to at most 20159. In IDLE and CLOCK_WAIT C has no meaning and stays 0. -/
def Walker.advance (w : Walker) (d : Nat) : Walker :=
  match w.state with
  | .idle | .clockWait => w
  | _ => { w with cycle := satAdd Config.cycleTop w.cycle d }.settleCycle

/-- The cursor is placed on the first entry that passes the test, with O at 0; if there is none, on
entry 0 with O at 10080 (R33, R50). -/
def Walker.placeAt (w : Walker) (minute : Nat) (ahead : Entry → Bool) : Walker :=
  match w.active.entries.findIdx? ahead with
  | some k => { w with cycle := minute, offset := 0, cursor := some k }
  | none => { w with cycle := minute, offset := Config.weekMinutes, cursor := some 0 }

/-! ## Leaving CURRENT (R15, R39, R42, R47) -/

/-- The sum of the headcounts of the units named (R42). -/
def State.headcounts (s : State) (ids : List UnitId) : Nat :=
  (ids.map fun id => ((s.unit? id).map (·.headcount)).getD 0).sum

/-- OVERRUN, if the booking's unit is not VACANT: the headcount of each unit that is not VACANT, and for
a JOINED booking while SPLIT the units so named (R42). -/
def State.notifyOverrun (s : State) (t : Target) (k : Booking) : State :=
  let there := (s.space.units.ofTarget t).filter fun id => !s.vacantUnit id
  match there with
  | [] => s
  | id :: rest =>
    let place : Place :=
      match t, s.space.units with
      | .joined, .split _ _ => if rest.isEmpty then id.place else .both
      | _, _ => t.place
    s.notify .overrun (some place) k.index (s.headcounts there) (some k.entry.tag)

/-- The lingering profile of each unit concerned that is not VACANT becomes the booking's (R15). -/
def State.linger (s : State) (t : Target) (k : Booking) : State :=
  (s.space.units.ofTarget t).foldl
    (fun s id => if s.vacantUnit id then s
      else s.modifyUnit id fun u => { u with lingering := some k.entry.profile }) s

/-- A marked booking that leaves CURRENT gives STOP_MARK_DONE. If the stop mark standing names its entry
it is cleared, and in PAUSE mode the walker becomes PAUSED unless it is IDLE or FINISHED (R47). -/
def State.markDone (s : State) (k : Booking) (o : BookingOutcome) : State :=
  if k.marked then
    let s1 := s.notifyBooking .stopMarkDone k o.code
    match s1.walker.stopMark with
    | some m =>
      if k.index = some m.index then
        s1.updWalker fun w =>
          { w with
            stopMark := none
            state := if m.mode = .pause ∧ w.state ≠ .idle ∧ w.state ≠ .finished then .paused else w.state }
      else s1
    | none => s1
  else s

/-- What comes about when a booking leaves CURRENT, the slot being already empty: BOOKING_ENDED, OVERRUN
at an end time, the lingering profile and the stop mark. -/
def State.retire (s : State) (t : Target) (k : Booking) (o : BookingOutcome) (atEnd : Bool) : State :=
  let s1 := if o ≠ .ended ∨ k.entry.notifyEnd = true then s.notifyBooking .bookingEnded k o.code else s
  let s2 := if atEnd then s1.notifyOverrun t k else s1
  (s2.linger t k).markDone k o

/-- A booking leaves its CURRENT slot, or slots, with an outcome, and the units concerned are derived. -/
def State.leaveCurrent (s : State) (t : Target) (k : Booking) (o : BookingOutcome) (atEnd : Bool) : State :=
  let s1 := s.updWalker fun w => { w with current := w.current.drop t }
  (s1.retire t k o atEnd).deriveUnits (s1.space.units.ofTarget t)

/-! ## Starting (R41) -/

/-- The outcome of the booking a start finds in CURRENT. -/
def Booking.displaced (k : Booking) : BookingOutcome :=
  if k.state = .held then .holdOverridden else .superseded

/-- A booking, already out of NEXT, starts with the minutes remaining given. The bookings it meets in
CURRENT leave it; the change of slots is one change, so the units concerned are derived once (log
entry 13). -/
def State.startBooking (s : State) (t : Target) (k : Booking) (remaining : Nat) : State :=
  let olds := s.walker.current.meeting t
  let s1 := olds.foldl (fun s old => s.updWalker fun w => { w with current := w.current.drop old.1 }) s
  let s2 := olds.foldl (fun s old => s.retire old.1 old.2 old.2.displaced false) s1
  let k1 : Booking :=
    { k with
      state := .running, minutes := remaining, sinceStart := 0, vacant := 0,
      seenOccupied := s2.occupiedTarget t }
  let s3 := s2.updWalker fun w => { w with current := w.current.put t k1 }
  let s4 := s3.notifyBooking .bookingStarted k1 (if k1.startedLate then 1 else 0)
  let wide := olds.any fun old => old.1 = .joined
  s4.deriveUnits (s4.space.units.ofTarget (if wide then .joined else t))

/-! ## The chain switch (R33) -/

/-- The state of the walker after a switch. -/
def Walker.switchedState (w : Walker) (clockSet : Bool) : WalkerState :=
  match w.state with
  | .clockWait => .clockWait
  | .paused => .paused
  | .idle => if clockSet then .running else .clockWait
  | .running | .stalled | .finished => .running

/-- The walker after a switch: the banks change roles, the slots' bookings become foreign, and the cycle
clock and cursor are placed, unless the walker waits for its first clock set. -/
def Walker.switched (w : Walker) (minute : Nat) (clockSet : Bool) : Walker :=
  let state := w.switchedState clockSet
  let foreign := fun (_ : Target) (k : Booking) => { k with index := none }
  let w1 : Walker :=
    { w with
      active := { w.standby with state := .active }
      standby := { w.active with entries := [], state := .empty }
      state := state
      queuedSwitch := none
      stopMark := none
      next := w.next.map foreign
      current := w.current.map foreign }
  if state = .clockWait then { w1 with cycle := 0, offset := 0, cursor := none }
  else w1.placeAt minute fun e => decide (minute < e.start)

/-- Make the chain switch and queue CHAIN_SWITCHED, without the arming pass that may follow. The units whose slots
hold a booking are derived, since its entry index has changed (R39). CHAIN_SWITCHED carries the cursor's index as the
switch places it, before the arming pass moves it: the model's choice (log entry 84). -/
def State.switchChain (s : State) : State :=
  let s1 := s.updWalker fun w => w.switched s.clock.minute s.clock.isSet
  let standing := s1.walker.next.standing ++ s1.walker.current.standing
  let s2 := standing.foldl (fun s k => s.deriveUnits (s.space.units.ofTarget k.1)) s1
  s2.notify .chainSwitched none none
    (s1.walker.active.entries.length + 256 * s1.walker.cursor.getD 255) none

/-! ## The arming pass (R35 to R37, R46) -/

/-- The cursor moves on (R46): to the next entry; from LAST it makes a queued AT_CHAIN_END switch (log entry 24), or
wraps, or finishes the chain. A wrap adds to the offset whatever it stands at, so that it stands at 20160 between steps
where LAST is armed with the offset already 10080 and C below it: the model's choice (log entry 23). A ONCE chain is
FINISHED also where the start or the miss of LAST has just made the walker PAUSED (log entry 24). -/
def State.moveCursor (s : State) (k : Nat) : State :=
  if k + 1 < s.walker.active.entries.length then s.updWalker fun w => { w with cursor := some (k + 1) }
  else if s.walker.queuedSwitch = some .atChainEnd then s.switchChain
  else
    match s.walker.active.repeating with
    | .weekly =>
      s.updWalker fun w =>
        { w with cursor := some 0, offset := w.offset + Config.weekMinutes }.settleCycle
    | .once =>
      (s.updWalker fun w => { w with state := .finished, cursor := none }).notify .chainFinished none none
        noValue none

/-- The entry's index already stands in a slot of its target cell, as a booking that is not foreign
(R35). -/
def Walker.stands (w : Walker) (k : Nat) (t : Target) : Bool :=
  t.cells.any fun c =>
    ((w.next.inCell c).any fun b => b.index = some k) || ((w.current.inCell c).any fun b => b.index = some k)

/-- The booking record that arming makes of an entry (R35, R39). -/
def Entry.arm (e : Entry) (k : Nat) (minutes : Nat) (late marked : Bool) : Booking where
  index := some k
  entry := e
  state := .armed
  minutes := minutes
  sinceStart := 0
  vacant := 0
  seenOccupied := false
  startedLate := late
  marked := marked

/-- The stop mark names this entry. -/
def Walker.marks (w : Walker) (k : Nat) : Bool := w.stopMark.any fun m => m.index = k

/-- Arm the cursor entry before its start, or start it late (R35, first two cases). -/
def State.armEntry (s : State) (e : Entry) (k : Nat) (late : Bool) : State :=
  let begins := e.start + s.walker.offset
  let c := s.walker.cycle
  let b := e.arm k (begins - c) late (s.walker.marks k)
  let s1 := if b.marked then s.notifyBooking .stopMarkArmed b noValue else s
  if late then s1.startBooking e.target b (begins + e.duration - c)
  else
    (s1.updWalker fun w => { w with next := w.next.put e.target b }).deriveUnits
      (s1.space.units.ofTarget e.target)

/-- Miss the cursor entry: ENTRY_MISSED, and if it is marked STOP_MARK_DONE with outcome MISSED, the mark
cleared and in PAUSE mode the walker PAUSED (R35, R47). -/
def State.missEntry (s : State) (e : Entry) (k : Nat) : State :=
  let s1 := s.notify .entryMissed (some e.target.place) (some k) noValue (some e.tag)
  match s1.walker.stopMark with
  | some m =>
    if m.index = k then
      (s1.notify .stopMarkDone (some e.target.place) (some k) BookingOutcome.missed.code (some e.tag)).updWalker
        fun w => { w with stopMark := none, state := if m.mode = .pause then .paused else w.state }
    else s1
  | none => s1

/-- Entry `e` is due: C has reached its start on the cycle less its profile's lead (R34). -/
def State.dueEntry (s : State) (e : Entry) : Bool :=
  decide (e.start + s.walker.offset ≤ s.walker.cycle + s.working.profiles[e.profile].lead)

/-- The arming pass, entry by entry (R37). `afterSet` marks the pass of a large clock set, which passes
over with ENTRY_MISSED an entry in progress whose slots are occupied (R50). The count bounds the
entries one pass can take. -/
def State.armingPass (afterSet : Bool) : Nat → State → State
  | 0, s => s
  | n + 1, s =>
    match s.walker.cursor with
    | none => s
    | some k =>
      match s.walker.active.entries[k]? with
      | none => s
      | some e =>
        if s.dueEntry e = false then s.updWalker fun w => { w with state := .running }
        else
          let begins := e.start + s.walker.offset
          let moved : Option State :=
            if s.walker.stands k e.target then some s
            else if s.walker.next.free e.target then
              if s.walker.cycle < begins then some (s.armEntry e k false)
              else if s.walker.cycle < begins + e.duration then some (s.armEntry e k true)
              else some (s.missEntry e k)
            else if afterSet && decide (begins ≤ s.walker.cycle) then some (s.missEntry e k)
            else none
          match moved with
          | none => s.updWalker fun w => { w with state := .stalled }
          | some s1 =>
            let s2 := s1.moveCursor k
            match s2.walker.state with
            | .running | .stalled => State.armingPass afterSet n s2
            | _ => s2

/-- More entries than one pass can take: the cursor is at most three weeks behind its start on the
cycle, before and after a switch (R34). -/
def passBound : Nat := 400

/-- The arming pass of a RUNNING or STALLED walker; none is made in the other states (R37). -/
def State.pass (s : State) : State :=
  match s.walker.state with
  | .running | .stalled => s.armingPass false passBound
  | _ => s

/-- Make a chain switch, with the arming pass of a walker that becomes RUNNING (R33). -/
def State.switchAndPass (s : State) : State :=
  let s1 := s.switchChain
  if s1.walker.state = .running then s1.pass else s1

/-! ## The minute event (R40) -/

/-- Step 2 of R40 for one booking in CURRENT. That a change of its counters alone derives no unit (log entry 71), and
that a late start is warned where the warning point is lowered below its count afterwards (log entry 72), is the
model's choice. -/
def State.minuteCurrent (s : State) (t : Target) (k : Booking) : State :=
  let vacantNow := s.vacantTarget t
  let k1 : Booking :=
    { k with
      sinceStart := k.sinceStart + 1
      vacant := if vacantNow then k.vacant + 1 else 0
      minutes := if k.state = .running then k.minutes - 1 else k.minutes }
  let s1 := s.updWalker fun w => { w with current := w.current.put t k1 }
  if k.state ≠ .running then s1
  else if k1.minutes = 0 then
    if k1.entry.hold && !vacantNow then
      (s1.updWalker fun w => { w with current := w.current.put t { k1 with state := .held } }).deriveUnits
        (s1.space.units.ofTarget t)
    else s1.leaveCurrent t k1 .ended true
  else
    let warning := s1.working.settings.endingWarning
    let s2 :=
      if warning ≠ 0 ∧ k1.minutes = warning ∧ k1.entry.notifyEnd = true then
        s1.notifyBooking .bookingEnding k1 k1.minutes
      else s1
    let p := s2.working.profiles[k1.entry.profile]
    if 0 < p.noShow ∧ p.noShow ≤ k1.sinceStart ∧ k1.seenOccupied = false then
      s2.leaveCurrent t k1 .noShow false
    else if k1.seenOccupied = true ∧ p.earlyVacate ≤ k1.vacant then s2.leaveCurrent t k1 .endedEarly false
    else s2

/-- Step 3 of R40 for one booking in NEXT. -/
def State.minuteNext (s : State) (t : Target) (k : Booking) : State :=
  if k.minutes ≤ 1 then
    (s.updWalker fun w => { w with next := w.next.drop t }).startBooking t k k.entry.duration
  else s.updWalker fun w => { w with next := w.next.put t { k with minutes := k.minutes - 1 } }

/-- The walker handles a minute event, in the five steps of R40. -/
def State.walkMinute (s : State) (weekEnd : Bool) : State :=
  let s1 := s.updWalker fun w => w.advance 1
  let s2 := s1.walker.current.standing.foldl (fun s k => s.minuteCurrent k.1 k.2) s1
  let nexts := s2.walker.next.standing
  let started := nexts.any fun k => decide (k.2.minutes ≤ 1)
  let s3 := nexts.foldl (fun s k => s.minuteNext k.1 k.2) s2
  let s4 := if weekEnd = true ∧ s3.walker.queuedSwitch = some .atWeekEnd then s3.switchAndPass else s3
  match s4.walker.state with
  | .running => s4.pass
  | .stalled => if started then s4.pass else s4
  | _ => s4

/-- The minute event of the week clock (R25): the second passes to 0 and the minute of week advances. -/
def State.minuteEvent (s : State) : State :=
  let weekEnd := decide (Config.weekMinutes ≤ s.clock.minute + 1)
  let minute := if weekEnd then 0 else s.clock.minute + 1
  (s.updClock fun c => { c with minute := minute, second := 0, subMs := 0 }).walkMinute weekEnd

/-! ## The clock set (R50) -/

/-- Place C, O and the cursor as a large clock set does: the first entry not yet ended. -/
def Walker.reposition (w : Walker) (minute : Nat) : Walker :=
  w.placeAt minute fun e => decide (minute < e.start + e.duration)

/-- A large clock set, or a reset that leaves the walker RUNNING. -/
def State.largeSet (s : State) : State :=
  match s.walker.state with
  | .idle | .finished => s
  | .paused => s.updWalker fun w => w.reposition s.clock.minute
  | .clockWait | .running | .stalled =>
    (s.updWalker fun w => { w.reposition s.clock.minute with state := .running }).armingPass true passBound

/-- The step of a clock set: the new minute less the old, round the week. -/
def clockStep (old new : Nat) : Nat := (new + Config.weekMinutes - old) % Config.weekMinutes

/-- The walker handles a clock set (R50, log entries 40 and 50); the clock already stands at the new time. -/
def State.clockSet (s : State) (old : Nat) (wasSet : Bool) : State :=
  let d := clockStep old s.clock.minute
  if wasSet then
    if d = 0 then s
    else if d ≤ 15 then
      match s.walker.state with
      | .running | .stalled => (s.updWalker fun w => w.advance d).pass
      | .paused => s.updWalker fun w => w.advance d
      | .clockWait => s.largeSet
      | .idle | .finished => s
    else s.largeSet
  else s.largeSet

end Sys2Proof.Machine
end

