-- ==== Sys2Proof/Machine/Occupancy.lean ====
section
/-! DEFINITION. Headcount, count state and occupancy state (04), the presence of cells and units and the
gated timers (03, sections 3.7 and 3.8). -/

namespace Sys2Proof.Machine
open Sys2Proof

/-! ## A change of occupancy state (R82) -/

/-- The booking's unit, or one of its units, is the one named. -/
def State.concerns (s : State) (t : Target) (id : UnitId) : Bool :=
  (s.space.units.ofTarget t).any fun x => x = id

/-- A unit becomes OCCUPIED: a RUNNING booking of it is seen occupied (R44). -/
def State.seeOccupied (s : State) (id : UnitId) : State :=
  s.updWalker fun w =>
    { w with current := w.current.map fun t k =>
        if s.concerns t id && decide (k.state = .running) then { k with seenOccupied := true } else k }

/-- A unit leaves VACANT: the vacant minutes of its bookings return to 0 (R45). -/
def State.clearVacant (s : State) (id : UnitId) : State :=
  s.updWalker fun w =>
    { w with current := w.current.map fun t k => if s.concerns t id then { k with vacant := 0 } else k }

/-- A unit becomes VACANT: its HELD booking ends ENDED, a JOINED one while SPLIT when both units are
VACANT (R43). -/
def State.endHeld (s : State) (id : UnitId) : State :=
  s.walker.current.standing.foldl
    (fun s k =>
      if s.concerns k.1 id && decide (k.2.state = .held) && s.vacantTarget k.1 then
        s.leaveCurrent k.1 k.2 .ended false
      else s) s

/-- A unit becomes VACANT (R3): its lingering profile is cleared (R15), its mode is derived, and the
walker ends a HELD booking (R82). That the space coordinator comes before the walker is the model's choice (log entry
60). -/
def State.becomeVacant (s : State) (id : UnitId) : State :=
  let s1 := s.modifyUnit id fun u => { u with lingering := none }
  (s1.derive id).endHeld id

/-- Hand a change of a unit's occupancy state on (R82). -/
def State.occupancyChanged (s : State) (id : UnitId) (old new : Occupancy) : State :=
  if old = new then s
  else
    match new with
    | .vacant => s.becomeVacant id
    | .occupied =>
      let s1 := if old = .vacant then s.clearVacant id else s
      (s1.seeOccupied id).derive id
    | .clearing => s.derive id

/-- Write a unit's occupancy state and clearing timer, and hand a change on. -/
def State.setOccupancy (s : State) (id : UnitId) (new : Occupancy) (clearing : Option Nat) : State :=
  match s.unit? id with
  | none => s
  | some u =>
    (s.modifyUnit id fun u => { u with occupancy := new, clearing := clearing }).occupancyChanged id
      u.occupancy new

/-- The table of R80: the next occupancy state and clearing timer. -/
def nextOccupancy (state : Occupancy) (evidence : Bool) (clearing : Option Nat) : Occupancy × Option Nat :=
  match state, evidence with
  | .vacant, true => (.occupied, clearing)
  | .vacant, false => (.vacant, clearing)
  | .occupied, true => (.occupied, clearing)
  | .occupied, false => (.clearing, some 0)
  | .clearing, true => (.occupied, none)
  | .clearing, false => (.clearing, clearing)

/-- A unit has evidence while its headcount is above 0 or its presence is true (R80). -/
def State.evidence (s : State) (id : UnitId) (u : UnitRec) : Bool :=
  decide (0 < u.headcount) || s.presenceOf id

/-- Evaluate a unit's occupancy state (R80). -/
def State.evaluate (s : State) (id : UnitId) : State :=
  match s.unit? id with
  | none => s
  | some u =>
    let n := nextOccupancy u.occupancy (s.evidence id u) u.clearing
    s.setOccupancy id n.1 n.2

/-! ## The headcount (R72, R73) -/

/-- Set a unit's headcount: the presence-forced timer is cleared when it rises above 0 (R68), and the
occupancy is evaluated (R72). -/
def State.setHeadcount (s : State) (id : UnitId) (n : Nat) (count : CountState) : State :=
  (s.modifyUnit id fun u =>
    { u with headcount := n, count := count, forcedTimer := if 0 < n then 0 else u.forcedTimer }).evaluate id

/-- An ENTRY handed for the unit of a cell (R72); with presence false it clears the vacancy timer, whose
event is then not handed until a new run has begun to count (R67, R84). -/
def State.enter (s : State) (c : Cell) : State :=
  let id := s.space.units.idOf c
  let u := s.unitOf c
  let s1 :=
    if s.presenceOf id then s
    else s.modifyUnit id fun u => { u with vacancyTimer := 0, vacancyTold := true }
  if id.maxHeadcount ≤ u.headcount then s1.setHeadcount id u.headcount .uncertain
  else s1.setHeadcount id (u.headcount + 1) u.count

/-- An EXIT handed for the unit of a cell; at a headcount of 0 it raises the cell's drift tally (R73). -/
def State.leave (s : State) (c : Cell) : State :=
  let u := s.unitOf c
  if 0 < u.headcount then s.setHeadcount (s.space.units.idOf c) (u.headcount - 1) u.count
  else s.updDrift fun d => d.upd c fun n => satAdd 255 n 1

/-- A doorway blocked event: the unit's count state becomes UNCERTAIN (R75). -/
def State.blockedDoor (s : State) (c : Cell) : State :=
  s.modifyUnit (s.space.units.idOf c) fun u => { u with count := .uncertain }

/-! ## The corrections (R76 to R78) and the end of a clearing (R81) -/

/-- The presence-forced correction (R76). -/
def State.forcePresence (s : State) (id : UnitId) : State := s.setHeadcount id 1 .uncertain

/-- The vacancy-confirmed event: the zeroing correction (R77), or the end of a clearing (R78). That COUNT_ZEROED is
handed over before the walker's notices of a HELD booking that the zeroing ends is the model's choice (log entry 44).
-/
def State.confirmVacancy (s : State) (id : UnitId) : State :=
  match s.unit? id with
  | none => s
  | some u =>
    let s1 := s.modifyUnit id fun u => { u with vacancyTold := true, headcount := 0, count := .exact }
    let s2 :=
      if 0 < u.headcount then
        s1.notify .countZeroed (some id.place) none
          (u.headcount + 65536 * (if u.count = .uncertain then 1 else 0)) none
      else s1
    s2.setOccupancy id .vacant none

/-- A unit's clearing timer reaches the clearing delay (R81). -/
def State.endClearing (s : State) (id : UnitId) : State := s.setOccupancy id .vacant none

/-! ## Presence (R65 to R68) -/

/-- A unit's presence has changed to `p`: the gated timers take it (R67, R68) and the occupancy is
evaluated. -/
def State.unitPresence (s : State) (id : UnitId) (p : Bool) : State :=
  let s1 := s.modifyUnit id fun u =>
    if p then { u with vacancyTimer := 0, vacancyTold := false } else { u with forcedTimer := 0 }
  s1.evaluate id

/-- Write a cell's presence, and hand on a change of its unit's presence (R65, R66). -/
def State.setPresence (s : State) (c : Cell) (p : Bool) (since : Option Nat) : State :=
  let id := s.space.units.idOf c
  let s1 := s.updPresence fun m => { m with cells := m.cells.set c { present := p, sinceMotion := since } }
  if s1.presenceOf id = s.presenceOf id then s1 else s1.unitPresence id p

/-- Compare a cell's time since motion with the presence hold as it stands (R65). -/
def State.judgePresence (s : State) (c : Cell) : State :=
  let p := s.presence.cells.get c
  match p.sinceMotion with
  | none => s
  | some t => s.setPresence c (decide (t < s.working.settings.presenceHold * 1000)) (some t)

/-- A unit's vacancy timer may hand its event: it runs, has reached the setting, and has not handed it in
this run (R67). -/
def State.vacancyDue (s : State) (id : UnitId) : Bool :=
  match s.unit? id with
  | none => false
  | some u =>
    !s.presenceOf id && !u.vacancyTold && decide (s.working.settings.vacancyConfirm ≤ u.vacancyTimer)

/-- A unit's clearing timer has reached the clearing delay (R81). -/
def State.clearingDue (s : State) (id : UnitId) : Bool :=
  match s.unit? id with
  | none => false
  | some u => u.clearing.any fun t => decide (s.working.settings.clearingDelay * 1000 ≤ t)

/-- One second of the presence monitor's timer for a unit (R67, R68); a count that begins from 0 is a new run of
the vacancy timer, whose event is to come. -/
def State.gatedTick (s : State) (id : UnitId) : State :=
  let p := s.presenceOf id
  s.modifyUnit id fun u =>
    { u with
      vacancyTimer := if p then u.vacancyTimer else satAdd 65535 u.vacancyTimer 1
      vacancyTold := if !p && u.vacancyTimer == 0 then false else u.vacancyTold
      forcedTimer := if p && u.headcount == 0 then satAdd Config.forcedDelay u.forcedTimer 1 else u.forcedTimer }

end Sys2Proof.Machine
end

