-- ==== Sys2Proof/Machine/Doorways.lean ====
section
/-! DEFINITION. The doorway channels (03, sections 3.1 to 3.5) and the presence detectors (03, 3.7). -/

namespace Sys2Proof.Machine
open Sys2Proof

/-- The code of a passage state (section 11.3). -/
def Passage.code : Passage → Nat
  | .idle => 0
  | .inOuter => 1
  | .inBoth => 2
  | .inInner => 3
  | .outInner => 4
  | .outBoth => 5
  | .outOuter => 6
  | .blocked => 7

/-- Change a doorway channel. -/
def State.updDoor (s : State) (i : Fin 4) (f : Door → Door) : State := { s with doors := updAt s.doors i f }

/-- One of a channel's beams. -/
def Door.beam (d : Door) : BeamSide → Beam
  | .outer => d.outer
  | .inner => d.inner

/-- Change one of a channel's beams. -/
def Door.updBeam (d : Door) (side : BeamSide) (f : Beam → Beam) : Door :=
  match side with
  | .outer => { d with outer := f d.outer }
  | .inner => { d with inner := f d.inner }

/-- The edge selection of a beam. -/
def Settings.beamEdge (w : Settings) (i : Fin 4) : BeamSide → BeamEdge
  | .outer => w.outerEdge[i]
  | .inner => w.innerEdge[i]

/-- The cell of a doorway channel, none while DISABLED. -/
def State.doorCell (s : State) (i : Fin 4) : Option Cell := s.working.settings.doorAssign[i].cell?

/-- A beam under BREAK_RISING or BREAK_FALLING is BROKEN at this debounced level; under TOGGLE the level
says nothing (R55). -/
def BeamEdge.breaks (e : BeamEdge) (high : Bool) : Option Bool :=
  match e with
  | .breakRising => some high
  | .breakFalling => some (!high)
  | .toggle => none

/-- The beam state after a change of debounced level (R55). -/
def BeamEdge.follow (e : BeamEdge) (high broken : Bool) : Bool := (e.breaks high).getD (!broken)

/-! ## The fault of a stuck doorway (R60) -/

/-- The fault is withdrawn when the channel stands in IDLE with the rearm-wait flag clear (R60). -/
def State.withdrawDoor (s : State) (i : Fin 4) : State :=
  if s.doors[i].passage = .idle ∧ s.doors[i].rearm = false then s.withdrawFault (doorSource i) else s

/-! ## The return to IDLE (R61) -/

/-- A beam at a return to IDLE. `written` says that its edge selection was written. -/
def Beam.returned (b : Beam) (e : BeamEdge) (written : Bool) : Beam :=
  match e.breaks (b.debounced.getD false) with
  | some x => { b with broken := if b.debounced.isSome then x else false }
  | none => if written then { b with broken := false } else b

/-- The channel at a return to IDLE: the passage is dropped, and the rearm-wait flag is set if a beam is BROKEN and
the channel is not DISABLED. The stuck timer starts from 0 with the wait; a wait that goes on keeps it. R61 excepts a
write of the assignment to DISABLED alone: that a write of an edge selection of a channel that is DISABLED already,
with a BROKEN beam, leaves the flag clear and the stuck timer stopped too is the model's choice (log entry 77), and so
is that the first BROKEN level after a reset does (log entry 81). -/
def Door.returned (d : Door) (assigned : Bool) : Door :=
  let rearm := assigned && (d.outer.broken || d.inner.broken)
  let goesOn := rearm && decide (d.passage = .idle) && d.rearm
  { d with
    passage := .idle
    transit := none
    blockClear := none
    rearm := rearm
    stuck := if goesOn then d.stuck else if rearm then some 0 else none
    stuckTold := if goesOn then d.stuckTold else false }

/-- A channel is returned to IDLE by a write of its assignment or of an edge selection (R61). -/
def State.returnDoor (s : State) (i : Fin 4) (outerWritten innerWritten : Bool) : State :=
  let w := s.working.settings
  let s1 := s.updDoor i fun d =>
    ({ d with
       outer := d.outer.returned w.outerEdge[i] outerWritten
       inner := d.inner.returned w.innerEdge[i] innerWritten } : Door).returned (s.doorCell i).isSome
  s1.withdrawDoor i

/-! ## Beam events (R56, R59, R61) -/

/-- What a completed passage counts (R56). -/
inductive Counted where
  | nothing | turnBack | entry | exit
  deriving DecidableEq, Repr

/-- The passage table of R56: the next state and what is counted, at a break (`broke`) or clear of one
beam. A beam in the combination of the state gives no other event (R56), and such an event would leave
the state as it is. -/
def passageNext (p : Passage) (side : BeamSide) (broke : Bool) : Passage × Counted :=
  match p, side, broke with
  | .idle, .outer, true => (.inOuter, .nothing)
  | .idle, .inner, true => (.outInner, .nothing)
  | .inOuter, .inner, true => (.inBoth, .nothing)
  | .inOuter, .outer, false => (.idle, .turnBack)
  | .inBoth, .outer, false => (.inInner, .nothing)
  | .inBoth, .inner, false => (.inOuter, .nothing)
  | .inInner, .inner, false => (.idle, .entry)
  | .inInner, .outer, true => (.inBoth, .nothing)
  | .outInner, .outer, true => (.outBoth, .nothing)
  | .outInner, .inner, false => (.idle, .turnBack)
  | .outBoth, .inner, false => (.outOuter, .nothing)
  | .outBoth, .outer, false => (.outInner, .nothing)
  | .outOuter, .outer, false => (.idle, .exit)
  | .outOuter, .inner, true => (.outBoth, .nothing)
  | p, _, _ => (p, .nothing)

/-- The channel after a passage move: the transit timer starts on leaving IDLE and stops on the way
back, and the counter rises (R56). -/
def Door.move (d : Door) (next : Passage) (c : Counted) : Door :=
  { d with
    passage := next
    transit := if next = .idle then none else if d.passage = .idle then some 0 else d.transit
    entries := if c = .entry then d.entries + 1 else d.entries
    exits := if c = .exit then d.exits + 1 else d.exits
    turnBacks := if c = .turnBack then d.turnBacks + 1 else d.turnBacks }

/-- Hand what was counted to the occupancy tracker (R53, R56). -/
def State.handCount (s : State) (c : Cell) : Counted → State
  | .entry => s.enter c
  | .exit => s.leave c
  | _ => s

/-- A break or a clear of one beam, its beam state being already written (R56, R59, R61). -/
def State.beamEvent (s : State) (i : Fin 4) (side : BeamSide) (broke : Bool) : State :=
  match s.doorCell i with
  | none => s
  | some c =>
    let d := s.doors[i]
    let bothClear := !d.outer.broken && !d.inner.broken
    if d.passage = .blocked then
      s.updDoor i fun d => { d with blockClear := if bothClear then some 0 else none }
    else if d.rearm then
      if bothClear then
        (s.updDoor i fun d => { d with rearm := false, stuck := none, stuckTold := false }).withdrawDoor i
      else s
    else
      let n := passageNext d.passage side broke
      (s.updDoor i fun d => d.move n.1 n.2).handCount c n.2

/-- The first debounced level after a reset: no beam event; a level that means BROKEN returns the channel
to IDLE with the rearm-wait flag set (R69). That on a channel that is DISABLED the flag stays clear and the stuck timer
stopped at such a level is the model's choice (log entry 81). -/
def State.firstLevel (s : State) (i : Fin 4) (side : BeamSide) (high : Bool) : State :=
  match (s.working.settings.beamEdge i side).breaks high with
  | some true =>
    (s.updDoor i fun d => (d.updBeam side fun b => { b with broken := true }).returned (s.doorCell i).isSome)
  | _ => s

/-- A beam's debounce completes (R54, R55): the pin's level becomes the debounced level (a first level after a
reset, log entry 31). -/
def State.completeDebounce (s : State) (i : Fin 4) (side : BeamSide) : State :=
  let b := s.doors[i].beam side
  match b.pending with
  | none => s
  | some _ =>
    let s1 := s.updDoor i fun d => d.updBeam side fun b => { b with debounced := some b.pin, pending := none }
    match b.debounced with
    | none => s1.firstLevel i side b.pin
    | some old =>
      if old = b.pin then s1
      else
        let broken := (s.working.settings.beamEdge i side).follow b.pin b.broken
        let s2 := s1.updDoor i fun d => d.updBeam side fun b => { b with broken := broken }
        if broken = b.broken then s2 else s2.beamEvent i side broken

/-- A change of level at a beam pin starts a debounce, or cancels it on a return to the debounced level
(R54). -/
def Beam.edge (b : Beam) (high : Bool) (limit : Nat) : Beam :=
  if b.pin = high then b
  else if b.debounced = some high then { b with pin := high, pending := none }
  else { b with pin := high, pending := some { elapsed := 0, limit := limit } }

/-! ## The timers of a channel (R58 to R60) -/

/-- The transit timeout (R58): the channel goes to BLOCKED, and DOOR_BLOCKED carries the passage state it
was reached in. -/
def State.blockDoor (s : State) (i : Fin 4) : State :=
  let d := s.doors[i]
  match d.transit, s.doorCell i with
  | some _, some c =>
    let s1 := s.updDoor i fun d =>
      { d with
        passage := .blocked, transit := none, blockClear := none, blocks := d.blocks + 1,
        stuck := some 0, stuckTold := false }
    (s1.blockedDoor c).notify .doorBlocked (some c.place) (some i.val) d.passage.code none
  | _, _ => s

/-- The block-clear timer reaches 2 s (R59): the channel goes to IDLE. -/
def State.unblockDoor (s : State) (i : Fin 4) : State :=
  let d := s.doors[i]
  if d.passage = .blocked ∧ d.blockClear.isSome then
    (s.updDoor i fun d =>
      { d with passage := .idle, blockClear := none, stuck := none, stuckTold := false }).withdrawDoor i
  else s

/-- The stuck timer reaches 10 minutes (R60). -/
def State.stickDoor (s : State) (i : Fin 4) : State :=
  let d := s.doors[i]
  match d.stuck with
  | none => s
  | some t =>
    if d.stuckTold then s
    else
      let s1 := s.updDoor i fun d => { d with stuck := some (max t Config.stuckMs), stuckTold := true }
      (s1.reportPlain (doorSource i) .doorwayStuck .active).notifyFault .faultRaised (doorSource i)

/-- A channel's transit timer has reached the transit timeout as the setting stands (R58). -/
def State.transitDue (s : State) (i : Fin 4) : Bool :=
  s.doors[i].transit.any fun t => decide (s.working.settings.transitTimeout * 1000 ≤ t)

/-! ## Detectors (R64, R70) -/

/-- Change a detector. -/
def State.updDetector (s : State) (i : Fin 6) (f : Detector → Detector) : State :=
  s.updPresence fun p => { p with detectors := updAt p.detectors i f }

/-- A change of level at a detector pin starts its filter, or cancels it on a return (R64). -/
def Detector.edge (d : Detector) (high : Bool) : Detector :=
  if d.pin = high then d
  else if d.filtered = some high then { d with pin := high, filter := none }
  else { d with pin := high, filter := some 0 }

/-- The edge selection takes a change of filtered level to `high` as a motion event (R64). -/
def DetectorEdge.selects (e : DetectorEdge) (high : Bool) : Bool :=
  match e with
  | .rising => high
  | .falling => !high
  | .both => true

/-- A detector's filter completes (R64, R70): the pin's level becomes the filtered level. A change that
the edge selects is a motion event, which restarts the presence hold of the detector's cell. -/
def State.completeFilter (s : State) (i : Fin 6) : State :=
  let d := s.presence.detectors[i]
  match d.filter with
  | none => s
  | some _ =>
    let s1 := s.updDetector i fun d => { d with filtered := some d.pin, filter := none }
    match d.filtered with
    | none => s1
    | some old =>
      if old ≠ d.pin ∧ s.working.settings.detectorEdge[i].selects d.pin = true then
        let s2 := s1.updDetector i fun d => { d with sinceMotion := some 0 }
        match s.working.settings.detectorAssign[i].cell? with
        | some c => s2.setPresence c true (some 0)
        | none => s2
      else s1

end Sys2Proof.Machine
end

