-- ==== Sys2Proof/Machine/Drives.lean ====
section
/-! DEFINITION. The terminal drive: damper commands, tracking, damper calibration and the reheat loop
(06). The rail's own moves stand in Rail.lean. -/

namespace Sys2Proof.Machine
open Sys2Proof

/-- Change the terminal drive of a cell. -/
def State.updDrive (s : State) (c : Cell) (f : Drive → Drive) : State :=
  { s with drives := s.drives.upd c f }

/-! ## The driven command (R109, R110) -/

/-- The override target of a cell's damper (01, section 1.9). -/
def damperTarget : Cell → Fin 16
  | .a => 0
  | .b => 1

/-- The override target of a cell's valve. -/
def valveTarget : Cell → Fin 16
  | .a => 2
  | .b => 3

/-- The drive value of a calibration (R118): in WAIT_RAIL the driven command stays. -/
def DamperCal.driveValue (k : DamperCal) (driven : Nat) : Nat :=
  match k.phase with
  | .waitRail => driven
  | .closing => 0
  | .opening => 1000

/-- The source of a cell's driven command, and the command (R109). -/
def State.drivenFor (s : State) (c : Cell) : CommandSource × Nat :=
  let d := s.drives.get c
  match d.cal with
  | some k => (.calibration, k.driveValue d.driven)
  | none =>
    if s.space.fire = .inForce then (.fire, s.working.settings.firePosition.get c)
    else
      match s.space.overrides[damperTarget c] with
      | some o => (.override, o.value)
      | none => (.computed, d.computed)

/-- A change of the driven command: the output takes it (R110), and while tracking runs a step of more
than the tolerance moves the reference and restarts a running timer (R112). While tracking does not run the reference
stays as it is: the model's choice (log entry 62). -/
def Drive.command (d : Drive) (value tolerance : Nat) : Drive :=
  if value = d.driven then d
  else
    let stepped := d.tracking && decide (tolerance < distance value (d.reference.getD 0))
    { d with
      driven := value
      output := 2000 + 8 * value
      reference := if stepped then some value else d.reference
      trackTimer := if stepped then d.trackTimer.map fun _ => 0 else d.trackTimer }

/-- Give a cell's damper the command of its source as it stands (R109). -/
def State.redrive (s : State) (c : Cell) : State :=
  let n := s.drivenFor c
  s.updDrive c fun d => { d.command n.2 s.working.settings.trackingTolerance with source := n.1 }

/-! ## Tracking (R112) -/

/-- The conditions of R112. -/
def State.mayTrack (s : State) (c : Cell) : Bool :=
  let d := s.drives.get c
  decide (s.rail.state = .on) && d.feedbackGood && d.cal.isNone
    && decide (s.faults[damperSource c].state ≠ .retryWait) && decide (s.faults[damperSource c].state ≠ .latched)

/-- Start tracking when its conditions begin to hold, and stop it when they do not (R112). -/
def State.refreshTracking (s : State) (c : Cell) : State :=
  if s.mayTrack c then
    s.updDrive c fun d =>
      if d.tracking then d else { d with tracking := true, reference := some d.driven, trackTimer := none }
  else s.updDrive c fun d => { d with tracking := false, trackTimer := none }

/-- Compare the driven command with the feedback position at a sample (R112). -/
def Drive.compare (d : Drive) (tolerance : Nat) : Drive :=
  if d.tracking then
    match d.feedback with
    | some f =>
      if tolerance < distance d.driven f then { d with trackTimer := some (d.trackTimer.getD 0) }
      else { d with trackTimer := none }
    | none => d
  else d

/-- The tracking timer of a cell has passed three halves of the stroke time (R113). -/
def State.stallDue (s : State) (c : Cell) : Bool :=
  (s.drives.get c).trackTimer.any fun t =>
    decide ((s.working.calibrations.get c).stroke * 1500 < t)

/-- DAMPER_STALL is reported, and tracking ends (R113). -/
def State.reportStall (s : State) (c : Cell) : State :=
  if (s.drives.get c).tracking && (s.drives.get c).trackTimer.isSome then
    (s.reportRetry (damperSource c) .damperStall).refreshTracking c
  else s

/-- The damper's record has returned to CLEAR: tracking is re-armed, or FEEDBACK_LOST reported again at
once (R115). -/
def State.rearmDamper (s : State) (c : Cell) : State :=
  let lost := decide (s.rail.state = .on) && !(s.drives.get c).feedbackGood
  (if lost then s.reportRetry (damperSource c) .feedbackLost else s).refreshTracking c

/-! ## The hand-over of an allocation (R107, R108) -/

/-- The position of a flow between two points of the table: the interpolation of R107, rounded half up. -/
def interpolate (k q lo hi : Nat) : Nat := 125 * k + ((q - lo) * 250 + (hi - lo)) / (2 * (hi - lo))

/-- The computed position of a flow (R107). -/
def positionFor (t : Vector Nat 9) (q : Nat) : Nat :=
  if q ≤ t[0] then 0
  else if t[8] ≤ q then 1000
  else if q < t[1] then interpolate 0 q t[0] t[1]
  else if q < t[2] then interpolate 1 q t[1] t[2]
  else if q < t[3] then interpolate 2 q t[2] t[3]
  else if q < t[4] then interpolate 3 q t[3] t[4]
  else if q < t[5] then interpolate 4 q t[4] t[5]
  else if q < t[6] then interpolate 5 q t[5] t[6]
  else if q < t[7] then interpolate 6 q t[6] t[7]
  else interpolate 7 q t[7] t[8]

/-- Move a command toward a position by at most the slew step (R108). -/
def slewToward (step cmd pos : Nat) : Nat :=
  if distance cmd pos ≤ step then pos else if cmd < pos then cmd + step else cmd - step

/-- The flow of a cell (R107). -/
def State.cellFlow (s : State) (c : Cell) : Nat :=
  match s.space.units, c with
  | .split a _, .a => a.allocation
  | .split _ b, .b => b.allocation
  | .joined ab, c =>
    let q := s.working.settings.qmax
    let qa := ab.allocation * q.a / (q.a + q.b)
    match c with
    | .a => qa
    | .b => ab.allocation - qa

/-- The hand-over of an allocation to one cell (R107 to R109). -/
def State.handOverCell (s : State) (c : Cell) : State :=
  let q := s.cellFlow c
  let pos := positionFor (s.working.tables.get c) q
  let held := decide (s.faults[damperSource c].state = .latched)
  let step := (s.profileOf c).slew
  let s1 := s.updDrive c fun d =>
    { d with
      flow := some q
      position := some pos
      computed := if held then d.computed else slewToward step d.computed pos }
  s1.redrive c

/-- The hand-over reaches both cells together (R107). -/
def State.handOver (s : State) : State := (s.handOverCell .a).handOverCell .b

/-! ## Calibration (R117 to R120) -/

/-- Why a calibration ended FAILED or ABORTED, in the code order of section 11.3. -/
inductive CalReason where
  | notStable | feedbackLost | span | fire | rail | noLimit | shortTravel | fault | config
  deriving DecidableEq, Repr

/-- The code of a calibration reason (section 11.3). -/
def CalReason.code : CalReason → Nat
  | .notStable => 0
  | .feedbackLost => 1
  | .span => 2
  | .fire => 3
  | .rail => 4
  | .noLimit => 5
  | .shortTravel => 6
  | .fault => 7
  | .config => 8

/-- How a calibration ended (R119, R158). -/
inductive CalResult where
  /-- OK, with the figure measured. -/
  | ok (measured : Nat)
  | failed (r : CalReason)
  | aborted (r : CalReason)
  deriving DecidableEq, Repr

/-- The value of CALIBRATION_DONE: three bytes of figure or reason and the result (section 11.5). -/
def CalResult.value : CalResult → Nat
  | .ok m => m
  | .failed r => r.code + 16777216
  | .aborted r => r.code + 2 * 16777216

/-- A damper calibration ends (R119): the phase becomes none, the driven command takes its source, and
CALIBRATION_DONE is queued. -/
def State.endDamperCal (s : State) (c : Cell) (r : CalResult) : State :=
  let s1 := s.updDrive c fun d => { d with cal := none }
  ((s1.redrive c).refreshTracking c).notify .calibrationDone (some c.place) (some (damperSource c).val) r.value
    none

/-- End a calibration in flight, if there is one (R120). -/
def State.abortDamperCal (s : State) (c : Cell) (r : CalReason) : State :=
  if (s.drives.get c).cal.isSome then s.endDamperCal c (.aborted r) else s

/-- Enter a phase of the calibration. -/
def State.calPhase (s : State) (c : Cell) (k : DamperCal) : State :=
  ((s.updDrive c fun d => { d with cal := some k }).redrive c).refreshTracking c

/-- The rail is ON: a calibration in WAIT_RAIL begins CLOSING (R118). -/
def State.calRailOn (s : State) (c : Cell) : State :=
  match (s.drives.get c).cal with
  | some k =>
    if k.phase = .waitRail then s.calPhase c { k with phase := .closing, elapsed := 0 } else s
  | none => s

/-- The rail has become FAULTED: a calibration in CLOSING or OPENING ends ABORTED, and one in WAIT_RAIL
if the rail's record is LATCHED (R120). -/
def State.calRailFault (s : State) (c : Cell) : State :=
  match (s.drives.get c).cal with
  | some k =>
    if k.phase ≠ .waitRail ∨ s.faults[railSource].state = .latched then s.endDamperCal c (.aborted .rail) else s
  | none => s

/-- The feedback is stable at this sample: 5 s of the phase have passed, and the mean differs from that
five samples earlier by less than 40 mV (R118, log entry 54). `means` stands before this sample joins it. -/
def stableNow (elapsed mean : Nat) (means : List Nat) : Bool :=
  decide (5000 ≤ elapsed) && (match means[4]? with
    | some m => decide (distance mean m < 40)
    | none => false)

/-- The end of OPENING: the span check of R119. -/
def State.finishCal (s : State) (c : Cell) (fbLow fbHigh elapsed : Nat) : State :=
  if (fbHigh : Int) - fbLow < Config.minSpan then s.endDamperCal c (.failed .span)
  else
    let stroke := clampNat 30 300 ((elapsed - 5000) / 1000)
    let rec1 : CalRecord := { calibrated := true, fbLow := fbLow, fbHigh := fbHigh, stroke := stroke }
    (s.withCalibrations (s.working.calibrations.set c rec1)).endDamperCal c (.ok stroke)

/-- A sample in mV is good (R165). -/
def goodSample (mv : Nat) : Bool := decide (1600 ≤ mv) && decide (mv ≤ 10400)

/-- A feedback sample reaches a calibration in CLOSING or OPENING (R118). -/
def State.calSample (s : State) (c : Cell) (mv : Nat) (mean : Option Nat) (means : List Nat) : State :=
  match (s.drives.get c).cal with
  | none => s
  | some k =>
    if k.phase = .waitRail then s
    else if goodSample mv = false then s.endDamperCal c (.failed .feedbackLost)
    else
      match mean with
      | none => s
      | some m =>
        if stableNow k.elapsed m means then
          if k.phase = .closing then s.calPhase c { phase := .opening, elapsed := 0, fbLow := m }
          else s.finishCal c k.fbLow m k.elapsed
        else s

/-! ## Feedback samples (R111, R112, R114) -/

/-- The feedback position of a mean in mV (R111). -/
def CalRecord.feedback (r : CalRecord) (mv : Nat) : Nat :=
  if r.calibrated then
    clampInt 0 1000 (Int.fdiv (((mv : Int) - r.fbLow) * 1000) ((r.fbHigh : Int) - r.fbLow))
  else clampInt 0 1000 (Int.fdiv ((mv : Int) - 2000) 8)

/-- A feedback sample of a cell: the position is formed, the good flag judged while the rail is ON, a
loss reported, and the calibration and tracking tests made (R111, R112, R114, R118). That the calibration's test comes
first, so that the sample that ends a calibration is itself compared, by its position of the old formula, is the model's
choice (log entry 78). -/
def State.feedbackSample (s : State) (c : Cell) (mv : Nat) (mean : Option Nat) : State :=
  let d := s.drives.get c
  let means := d.means
  let on := decide (s.rail.state = .on)
  let good := if on then goodSample mv else d.feedbackGood
  let s1 := s.updDrive c fun d =>
    { d with
      feedback := match mean with
        | some m => some ((s.working.calibrations.get c).feedback m)
        | none => d.feedback
      feedbackGood := good
      means := match mean with
        | some m => (m :: d.means).take 5
        | none => d.means }
  let s2 := if d.tracking && on && !good then s1.reportRetry (damperSource c) .feedbackLost else s1
  let s3 := s2.calSample c mv mean means
  (s3.refreshTracking c).updDrive c fun d => d.compare s.working.settings.trackingTolerance

/-! ## Reheat valves (R121 to R123) -/

/-- Give a cell's valve the command of R123 as it stands. The fallback is read as the setting stands at the moment the
fallback comes into use: the model's choice (log entry 65). -/
def State.redriveValve (s : State) (c : Cell) : State :=
  let d := s.drives.get c
  let v :=
    if s.space.fire = .inForce then 0
    else
      match s.space.overrides[valveTarget c] with
      | some o => o.value
      | none =>
        if s.scanner.channels[tempChannel c].lost then s.working.settings.valveFallback.get c
        else d.valveComputed
  s.updDrive c fun d => { d with valveDriven := v, valveOutput := 10 * v }

/-- The valve setpoint of a mode and profile (R121). -/
def valveSetpoint (mode : Mode) (p : Profile) (setbackExtra : Nat) : Option Nat :=
  match mode with
  | .occupied | .await | .precondition => some p.comfort
  | .setback | .purge => some (p.comfort - p.standby - setbackExtra)
  | .fire => none

/-- The reheat loop of R122: the computed valve command and the integral after. -/
def reheat (kpT kiT setpoint temperature integral : Nat) : Nat × Nat :=
  let e : Int := (setpoint : Int) - temperature
  let v := clampInt 0 1000 (truncDiv (kpT * e) 8 + integral)
  let skip := (v = 1000 ∧ 0 < e) ∨ (v = 0 ∧ e < 0)
  (v, if skip then integral else clampInt 0 1000 ((integral : Int) + truncDiv (kiT * e) 64))

/-- A temperature update of a cell (R121 to R123). -/
def State.temperatureStep (s : State) (c : Cell) : State :=
  let sp := valveSetpoint (s.unitOf c).mode (s.profileOf c) s.working.settings.setbackExtra
  let w := s.working.settings
  let s1 := s.updDrive c fun d =>
    let d1 : Drive := { d with tempTimer := 0, setpoint := sp }
    match sp, s.scanner.channels[tempChannel c].usable with
    | some p, some t =>
      let r := reheat w.kpT w.kiT p t d.integral
      { d1 with valveComputed := r.1, integral := r.2 }
    | _, _ => d1
  s1.redriveValve c

/-- The terminal drive's need for the rail (R116), also before the first valve computation, where R125 speaks of no
need: the model's choice (log entry 74). -/
def Drive.needsRail (d : Drive) : Bool :=
  decide (0 < d.driven) || decide (0 < d.valveDriven) || d.cal.isSome

end Sys2Proof.Machine
end

