-- ==== Sys2Proof/Machine/Blinds.lean ====
section
/-! DEFINITION. The blind unit's own records: the groups, the drive queue and the drive slots (08, sections
8.1 to 8.5). The moves that follow from them, with the rail, stand in Rail.lean and BlindMoves.lean. -/

namespace Sys2Proof.Machine
open Sys2Proof

/-- Change a group record. -/
def State.updGroup (s : State) (g : Fin 4) (f : Group → Group) : State :=
  s.updBlinds fun b => { b with groups := updAt b.groups g f }

/-- The cell of a group, none while UNUSED. -/
def State.groupCell (s : State) (g : Fin 4) : Option Cell := s.working.settings.blindCell[g].cell?

/-- The four groups, in group order. -/
def allGroups : List (Fin 4) := [0, 1, 2, 3]

/-- MOVING_UP, MOVING_DOWN and REVERSING hold a drive slot and count as moving (R149, R137). -/
def GroupState.moving : GroupState → Bool
  | .movingUp | .movingDown | .reversing => true
  | _ => false

/-- A relay of the group is energised. -/
def GroupState.energised : GroupState → Bool
  | .movingUp | .movingDown => true
  | _ => false

/-- The relay drive of a group (R143). -/
inductive Relay where
  | none | up | down
  deriving DecidableEq, Repr

/-- The relay energised, which the state determines (R143, R149). -/
def GroupState.relay : GroupState → Relay
  | .movingUp => .up
  | .movingDown => .down
  | _ => .none

/-- The end in the direction of travel (R154). -/
def GroupState.endAhead : GroupState → Nat
  | .movingDown => 1000
  | _ => 0

/-- A target beyond the deadband of an estimate (R148). -/
def beyondDeadband (target estimate : Nat) : Bool := decide (Config.deadband < distance target estimate)

/-! ## Energising and stopping -/

/-- A relay is energised: a segment begins at the estimate as it stands, and the checks of R153 run
afresh (R144, R150). -/
def Group.energise (g : Group) (down : Bool) : Group :=
  { g with
    state := if down then .movingDown else .movingUp
    segStart := g.estimate
    segMs := 0
    runMs := 0
    sampleMs := 0
    runTested := false
    overrun := none
    stallCount := 0
    legMs := 0 }

/-- The relay is energised upward with the estimate set to 1000, as at the start of a reference move
(R148) and of calibration leg 1 (R158). -/
def Group.energiseFromBottom (g : Group) : Group := ({ g with estimate := 1000 } : Group).energise false

/-- The relay goes off and the group is no longer moving. -/
def Group.halt (g : Group) (state : GroupState) : Group :=
  { g with state := state, refMove := false, overrun := none, stallCount := 0 }

/-- The relay goes off and the group reverses, keeping its slot (R150, R158). -/
def Group.reverse (g : Group) : Group := { g.halt .reversing with reverseMs := 0 }

/-- The direction in which a group is energised for a goal: toward it; from the goal itself toward the
end it names (log entry 19). -/
def Group.goesDown (g : Group) : Bool :=
  decide (g.estimate < g.goal) || (decide (g.estimate = g.goal) && decide (0 < g.goal))

/-- The override target of a group (01, section 1.9). -/
def blindTarget (g : Fin 4) : Fin 16 := ⟨12 + g.val, by omega⟩

/-- A move begun while no override is in force on the group and fire is not in force is an automatic
move, and restarts the time since the last one (R147, log entry 22). -/
def State.autoMove (s : State) (g : Fin 4) (r : Group) : Group :=
  if s.space.fire = .clear ∧ s.space.overrides[blindTarget g] = none then
    { r with sinceMove := some 0 }
  else r

/-! ## The drive queue (R149) -/

/-- Fire requests stand ahead of all other entries, each kind in its order. -/
def fireFirst (q : List QueueEntry) : List QueueEntry := q.filter (·.fire) ++ q.filter (!·.fire)

/-- A new request joins at the tail, a fire request behind the last fire request. -/
def Blinds.join (b : Blinds) (e : QueueEntry) : Blinds := { b with queue := fireFirst (b.queue ++ [e]) }

/-- A group leaves the queue and the slots. -/
def Blinds.release (b : Blinds) (g : Fin 4) : Blinds :=
  { b with
    queue := b.queue.filter fun e => decide (e.group ≠ g)
    slots := b.slots.filter fun x => decide (x ≠ g) }

/-- Change the queue entry of a group. -/
def Blinds.editEntry (b : Blinds) (g : Fin 4) (f : QueueEntry → QueueEntry) : Blinds :=
  { b with queue := b.queue.map fun e => if e.group = g then f e else e }

/-- A group requests a move: it joins the queue and becomes QUEUED. During fire the entry is a fire
request (R149, R156). -/
def State.request (s : State) (g : Fin 4) (target : Nat) (reference calibration : Bool) : State :=
  let e : QueueEntry :=
    { group := g, target := target, reference := reference, calibration := calibration,
      fire := decide (s.space.fire = .inForce) }
  (s.updBlinds fun b => b.join e).updGroup g fun r => { r with state := .queued }

/-- A group stops: its relay goes off, its slot is freed and its queue entry removed. -/
def State.stopGroup (s : State) (g : Fin 4) (state : GroupState) : State :=
  (s.updBlinds fun b => b.release g).updGroup g fun r => r.halt state

/-- The head entry takes a slot (R149): a calibration begins its first leg, a reference move starts from
1000, and another move goes toward its target. -/
def State.grantEntry (s : State) (e : QueueEntry) : State :=
  let s1 := s.updBlinds fun b =>
    { b with queue := b.queue.filter fun x => decide (x.group ≠ e.group), slots := b.slots ++ [e.group] }
  s1.updGroup e.group fun r =>
    if e.calibration then { r with cal := r.cal.map fun _ => { leg := 1, travelDown := 0 } }.energiseFromBottom
    else if e.reference then
      (s.autoMove e.group { r with goal := 0, refMove := true }).energiseFromBottom
    else
      let r1 : Group := s.autoMove e.group { r with goal := e.target, refMove := false }
      r1.energise r1.goesDown

/-- Grants in queue order while a slot is free and the rail is ON (R149). -/
def State.grantUpTo : Nat → State → State
  | 0, s => s
  | n + 1, s =>
    if s.rail.state = .on ∧ s.blinds.slots.length < s.working.settings.driveSlots then
      match s.blinds.queue with
      | [] => s
      | e :: _ => State.grantUpTo n (s.grantEntry e)
    else s

/-- Make every grant that can be made. -/
def State.grants (s : State) : State := s.grantUpTo s.blinds.queue.length

/-! ## The end of a calibration (R158, R159) -/

/-- A blind calibration ends: the phase becomes none, the group takes the state given, and
CALIBRATION_DONE is queued. It leaves the group referenced only if it ended OK. -/
def State.endBlindCal (s : State) (g : Fin 4) (state : GroupState) (r : CalResult) : State :=
  let ok := match r with
    | .ok _ => true
    | _ => false
  let s1 := (s.stopGroup g state).updGroup g fun x =>
    { x with cal := none, referenced := ok, estimate := if ok then 0 else x.estimate }
  s1.notify .calibrationDone none (some (blindSource g).val) r.value none

/-- End a calibration in flight, if there is one (R159). -/
def State.abortBlindCal (s : State) (g : Fin 4) (r : CalReason) : State :=
  if s.blinds.groups[g].cal.isSome then s.endBlindCal g .stopped (.aborted r) else s

/-! ## Losing a slot (R151) -/

/-- The queue entry with which a group that loses its slot returns: its target is kept; a calibration
resumes from leg 1. -/
def Group.returning (r : Group) (g : Fin 4) (fire : Bool) : QueueEntry :=
  { group := g, target := if r.cal.isSome then 0 else r.goal, reference := r.refMove,
    calibration := r.cal.isSome, fire := fire }

/-- The groups named, in the order their slots were granted, lose them and return to the head of the
queue. -/
def State.returnToQueue (s : State) (gs : List (Fin 4)) : State :=
  let fire := decide (s.space.fire = .inForce)
  let entries := gs.map fun g => s.blinds.groups[g].returning g fire
  let s1 := s.updBlinds fun b =>
    { b with
      queue := fireFirst (entries ++ b.queue)
      slots := b.slots.filter fun x => !gs.contains x }
  gs.foldl
    (fun s g => s.updGroup g fun r =>
      { r.halt .queued with cal := r.cal.map fun _ => { leg := 1, travelDown := 0 } }) s1

/-- The rail has left ON (R151, R159): every holder returns to the queue, unless the rail's record is LATCHED, which
ends every calibration in flight, in group order (the model's choice, log entry 82). -/
def State.loseSlots (s : State) : State :=
  let latched := decide (s.faults[railSource].state = .latched)
  let s1 := if latched then allGroups.foldl (fun s g => s.abortBlindCal g .rail) s else s
  s1.returnToQueue s1.blinds.slots

/-- The holders that a lowered drive slot count stops: those not calibrating first, then calibrating
ones, the most recently granted first (R151). -/
def State.excessHolders (s : State) : List (Fin 4) :=
  let newest := s.blinds.slots.reverse
  let calibrating := fun g : Fin 4 => s.blinds.groups[g].cal.isSome
  (newest.filter (fun g => !calibrating g) ++ newest.filter calibrating).take
    (s.blinds.slots.length - s.working.settings.driveSlots)

/-- The drive slots setting has been written (R151); grants follow. -/
def State.trimSlots (s : State) : State :=
  let excess := s.excessHolders
  let back := s.blinds.slots.filter fun g => excess.contains g && s.blinds.groups[g].cal.isNone
  let s1 := excess.foldl (fun s g => s.abortBlindCal g .config) s
  s1.returnToQueue back

end Sys2Proof.Machine
end

