-- ==== Sys2Proof/Machine/Rail.lean ====
section
/-! DEFINITION. The actuator rail (08, section 8.9): the needs, the rail's states, the rail fault; and the
hand-over of blind motion to the lighting unit (R137). -/

namespace Sys2Proof.Machine
open Sys2Proof

/-! ## Blind motion (R137) -/

/-- A blind group of the cell is moving. -/
def State.cellMoving (s : State) (c : Cell) : Bool :=
  allGroups.any fun g => decide (s.groupCell g = some c) && s.blinds.groups[g].state.moving

/-- The lighting unit takes the motion of a cell: its begin freezes the daylight factor, its end starts
the freeze timer (R137). -/
def Daylight.motion (d : Daylight) (now : Bool) : Daylight :=
  if now = d.moving then d
  else if now then { d with moving := true, frozen := true, freeze := none }
  else { d with moving := false, freeze := some 0 }

/-- Hand each cell's motion to the lighting unit (R149, R137). -/
def State.handMotion (s : State) : State :=
  s.updLighting fun l => { l with cells := ⟨l.cells.a.motion (s.cellMoving .a), l.cells.b.motion (s.cellMoving .b)⟩ }

/-! ## Needs (R116, R160) -/

/-- The terminal drive's need for the rail (R116). -/
def State.driveNeed (s : State) : Bool := s.drives.a.needsRail || s.drives.b.needsRail

/-- The blind unit's need for the rail: a group in use QUEUED, moving or calibrating (R160). -/
def State.blindNeed (s : State) : Bool :=
  allGroups.any fun g =>
    let r := s.blinds.groups[g]
    (s.groupCell g).isSome && (r.state.moving || decide (r.state = .queued) || r.cal.isSome)

/-- The rail is RISING or ON. -/
def RailState.switchedOn : RailState → Bool
  | .rising | .on => true
  | _ => false

/-- Write the need flags as the two blocks raise them; ON starts or stops the linger timer (R160). -/
def State.writeNeeds (s : State) : State :=
  let d := s.driveNeed
  let b := s.blindNeed
  s.updRail fun r =>
    { r with
      driveNeed := d
      blindNeed := b
      linger :=
        if r.state = .on then
          if d || b then none else if r.driveNeed || r.blindNeed then some 0 else r.linger
        else r.linger }

/-- A fault level stands at the rail-fault input: it has been low for 20 ms (R161). -/
def Rail.faultLevel (r : Rail) : Bool := r.lowTimer.any fun t => decide (Config.filterMs ≤ t)

/-- Tracking of both cells takes the rail's state (R112). -/
def State.railToTracking (s : State) : State := (s.refreshTracking .a).refreshTracking .b

/-- A fault level found while the rail is RISING or ON (R161): the rail is FAULTED, the fault is reported, and the
dampers' and blinds' moves in flight are taken by R120, R151 and R159 (log entry 39). That the rail's notices come
first, then those of the blind calibrations, then those of the dampers', A before B, is the model's choice (log
entries 44 and 82). -/
def State.railFault (s : State) : State :=
  let wasOn := decide (s.rail.state = .on)
  let s1 := s.updRail fun r => { r with state := .faulted, settle := none, linger := none }
  let s2 := s1.reportRetry railSource .railFault
  let s3 := if wasOn then s2.loseSlots else s2
  let s4 := ((s3.calRailFault .a).calRailFault .b).railToTracking
  s4.handMotion.writeNeeds

/-- A raised need turns the rail from OFF to RISING; a fault level that stands is found at once (R160,
R161). -/
def State.raiseRail (s : State) : State :=
  if s.rail.state = .off ∧ (s.rail.driveNeed || s.rail.blindNeed) = true then
    let s1 := s.updRail fun r => { r with state := .rising, settle := some 0 }
    if s1.rail.faultLevel then s1.railFault else s1
  else s

/-- The needs of the two blocks reach the rail, after anything that can change them. -/
def State.refreshNeeds (s : State) : State := s.writeNeeds.raiseRail

/-- What follows at once when the blind unit's records have changed: grants, the motion handed to the
lighting unit, and the needs handed to the rail (R149, R160). -/
def State.afterBlinds (s : State) : State := s.grants.handMotion.refreshNeeds

/-! ## The rail's own events (R160, R161) -/

/-- The settle timer reaches 2 s: the rail is ON. Calibrations in WAIT_RAIL begin, tracking starts, slots
are granted, and the linger timer starts if no need is raised. -/
def State.settleRail (s : State) : State :=
  let s1 := s.updRail fun r =>
    { r with state := .on, settle := none, linger := if r.driveNeed || r.blindNeed then none else some 0 }
  ((s1.calRailOn .a).calRailOn .b).railToTracking.afterBlinds

/-- The linger timer reaches 60 s: the rail is OFF. -/
def State.dropRail (s : State) : State :=
  (s.updRail fun r => { r with state := .off, linger := none }).railToTracking

/-- The rail's record has returned to CLEAR: a FAULTED rail becomes OFF and is raised again if it is
needed (R161). -/
def State.rearmRail (s : State) : State :=
  if s.rail.state = .faulted then (s.updRail fun r => { r with state := .off }).refreshNeeds else s

end Sys2Proof.Machine
end

