-- ==== Sys2Proof/Machine/BlindMoves.lean ====
section
/-! DEFINITION. Blind evaluation, the current samples, the ends of a move, fire and calibration (08,
sections 8.4 to 8.8). -/

namespace Sys2Proof.Machine
open Sys2Proof

/-! ## Targets (R146, R147) -/

/-- The computed target table of R146. -/
def blindTargetFor (mode : Mode) (policy : BlindPolicy) (side : BlindSide) (sunPosition : Nat) (sun : Bool) :
    Nat :=
  let shade := if sun then sunPosition else 0
  match mode with
  | .fire => 0
  | .setback | .precondition | .purge => shade
  | .await | .occupied =>
    match policy, side with
    | .daylight, _ => shade
    | .present, .windowSide => shade
    | .present, .boardSide => 1000
    | .dark, _ => 1000

/-- The sun move interval, in ms, lies behind the group's last automatic move (R147). -/
def Group.sunMayMove (r : Group) (interval : Nat) : Bool :=
  match r.sinceMove with
  | none => true
  | some t => decide (interval * 60000 ≤ t)

/-- The computed target and the sun value used after (R147). -/
def State.formTarget (s : State) (g : Fin 4) (c : Cell) : Nat × Bool :=
  let r := s.blinds.groups[g]
  let w := s.working.settings
  let t := fun sun =>
    blindTargetFor (s.unitOf c).mode (s.profileOf c).policy w.blindSide[g] w.sunPosition sun
  if t s.blinds.sun = t r.sunUsed then (t s.blinds.sun, s.blinds.sun)
  else if r.sunMayMove w.sunInterval then (t s.blinds.sun, s.blinds.sun)
  else (t r.sunUsed, r.sunUsed)

/-- Form a group's computed target and target (R146, R147). An override reaches the target of a group under
calibration at the first evaluation after its end (R159), whether it was set before or within it (log entry 68). -/
def State.writeTarget (s : State) (g : Fin 4) (c : Cell) : State :=
  let n := s.formTarget g c
  let r := s.blinds.groups[g]
  let target := match s.space.overrides[blindTarget g] with
    | some o => if r.cal.isSome then r.target else o.value
    | none => n.1
  s.updGroup g fun r => { r with computedTarget := n.1, target := target, sunUsed := n.2 }

/-! ## Acting on the target (R148, R150) -/

/-- A STOPPED group requests its move (R148). While its record is RETRY_WAIT or LATCHED it requests
nothing (R155, log entry 43). -/
def State.requestMove (s : State) (g : Fin 4) : State :=
  let r := s.blinds.groups[g]
  if s.faults[blindSource g].state ≠ .clear then s
  else if r.referenced = false then s.request g 0 true false
  else if beyondDeadband r.target r.estimate then s.request g r.target false false
  else s

/-- A QUEUED group takes a new target in its entry, or leaves the queue within the deadband (R148, log
entry 51). -/
def State.retargetQueued (s : State) (g : Fin 4) : State :=
  let r := s.blinds.groups[g]
  if s.blinds.queue.any fun e => decide (e.group = g) && !e.reference && decide (e.target ≠ r.target) then
    if beyondDeadband r.target r.estimate then
      s.updBlinds fun b => b.editEntry g fun e => { e with target := r.target }
    else s.stopGroup g .stopped
  else s

/-- The target lies ahead in the direction of travel. -/
def Group.ahead (r : Group) : Bool :=
  match r.state with
  | .movingDown => decide (r.estimate < r.target)
  | _ => decide (r.target < r.estimate)

/-- A moving group takes a target that is not the one it moves toward (R150, log entry 56). A reference
move is not retargeted. -/
def State.retargetMoving (s : State) (g : Fin 4) : State :=
  let r := s.blinds.groups[g]
  if r.refMove || decide (r.target = r.goal) then s
  else if r.target = r.state.endAhead then s.updGroup g fun r => { r with goal := r.target }
  else if beyondDeadband r.target r.estimate = false then s.stopGroup g .stopped
  else if r.ahead then s.updGroup g fun r => { r with goal := r.target }
  else s.updGroup g fun r => { r with goal := r.target }.reverse

/-- Act on the target of a group in use that is not calibrating (R148, R150). -/
def State.actOnTarget (s : State) (g : Fin 4) : State :=
  match s.blinds.groups[g].state with
  | .stopped => s.requestMove g
  | .queued => s.retargetQueued g
  | .movingUp | .movingDown => s.retargetMoving g
  | .reversing => s.updGroup g fun r => { r with goal := r.target }
  | .fault => s

/-- Evaluate one group (R146 to R150); a group not in use is not evaluated, and one under calibration not
acted on. -/
def State.evaluateGroup (s : State) (g : Fin 4) : State :=
  match s.groupCell g with
  | none => s
  | some c =>
    let s1 := s.writeTarget g c
    if s1.blinds.groups[g].cal.isSome then s1 else (s1.actOnTarget g).afterBlinds

/-- Evaluate every group in use, in group order. -/
def State.evaluateBlinds (s : State) : State := allGroups.foldl State.evaluateGroup s

/-! ## Faults of a group (R155) -/

/-- A fault of a group is reported: it loses its relay and slot and stands in FAULT; a calibration ends ABORTED with
reason FAULT (R155, R159), its notice behind that of the fault (the model's choice, log entry 44). -/
def State.blindFault (s : State) (g : Fin 4) (kind : FaultKind) : State :=
  let calibrating := s.blinds.groups[g].cal.isSome
  let s1 := (s.stopGroup g .fault).updGroup g fun r =>
    { r with referenced := if kind = .motorCutout then false else r.referenced }
  let s2 := s1.reportRetry (blindSource g) kind
  if calibrating then s2.endBlindCal g .fault (.aborted .fault) else s2

/-- The group's record has returned to CLEAR: a group in FAULT is STOPPED, and a STOPPED group requests its move at
once (R155). -/
def State.rearmBlind (s : State) (g : Fin 4) : State :=
  if s.blinds.groups[g].state = .fault ∨ s.blinds.groups[g].state = .stopped then
    let s1 := s.updGroup g fun r => { r with state := .stopped }
    if (s1.groupCell g).isSome then (s1.requestMove g).afterBlinds else s1
  else s

/-! ## Current samples (R144, R152 to R154) -/

/-- The travel time of the direction in which a group moves, in ms. -/
def State.travelOf (s : State) (g : Fin 4) : Nat :=
  match s.blinds.groups[g].state with
  | .movingDown => s.working.settings.travelDown[g]
  | _ => s.working.settings.travelUp[g]

/-- The position estimate of a segment (R144). -/
def Group.segmentEstimate (r : Group) (travel : Nat) : Nat :=
  let moved := r.segMs * 1000 / travel
  match r.state with
  | .movingDown => clampNat 0 1000 (r.segStart + moved)
  | _ => clampNat 0 1000 (r.segStart - moved)

/-- A sample closes its 50 ms: what is left of them is credited to the times counted from the relay
(log entry 34), and the current and the estimate are taken. -/
def Group.sampled (r : Group) (current travel stallThreshold : Nat) : Group :=
  let rest := Config.currentPeriodMs - r.sampleMs
  let r1 : Group :=
    { r with
      sampleMs := 0
      segMs := r.segMs + rest
      runMs := r.runMs + rest
      legMs := r.legMs + rest
      overrun := r.overrun.map (· + rest)
      current := some current
      stallCount := if stallThreshold < current then r.stallCount + 1 else 0 }
  { r1 with estimate := r1.segmentEstimate travel }

/-- The end switch is seen, and believed: the estimate is set to the end and the move is over (R154). -/
def State.reachEnd (s : State) (g : Fin 4) : State :=
  let endAt := s.blinds.groups[g].state.endAhead
  (s.stopGroup g .stopped).updGroup g fun r => { r with estimate := endAt, referenced := true }

/-- The end of calibration leg 3: the measured travel times are taken and the calibration ends OK (R158). -/
def State.finishBlindCal (s : State) (g : Fin 4) (down up : Nat) : State :=
  let w := s.working.settings
  let s1 := s.withSettings { w with travelDown := w.travelDown.set g down, travelUp := w.travelUp.set g up }
  s1.endBlindCal g .stopped (.ok down)

/-- A calibration leg sees its end switch (R158; the flag at the end of leg 1, log entry 21). -/
def State.finishLeg (s : State) (g : Fin 4) (k : BlindCal) : State :=
  let r := s.blinds.groups[g]
  if k.leg = 1 then
    s.updGroup g fun r =>
      { r.reverse with estimate := 0, referenced := true, cal := some { k with leg := 2 } }
  else if r.legMs < Config.minTravelMs then s.endBlindCal g .stopped (.failed .shortTravel)
  else if k.leg = 2 then
    s.updGroup g fun r => { r.reverse with cal := some { leg := 3, travelDown := r.legMs } }
  else s.finishBlindCal g k.travelDown r.legMs

/-- A current below the run threshold after the 800 ms test (R154). -/
def State.endSwitch (s : State) (g : Fin 4) : State :=
  let r := s.blinds.groups[g]
  match r.cal with
  | some k => s.finishLeg g k
  | none =>
    if distance r.state.endAhead r.estimate ≤ Config.endBand ∨ (r.referenced = false ∧ r.refMove = true) then
      s.reachEnd g
    else s.blindFault g .motorCutout

/-- A current below the run threshold at the 800 ms test: the blind stands at its end already, or the
motor did not run (R153, R158). In calibration leg 1 it is always the top, and in legs 2 and 3 always NO_MOTOR: the
model's choice (log entry 69). -/
def State.motorSilent (s : State) (g : Fin 4) : State :=
  let r := s.blinds.groups[g]
  match r.cal with
  | some k => if k.leg = 1 then s.finishLeg g k else s.blindFault g .noMotor
  | none =>
    if r.goal = r.state.endAhead ∧
        (r.referenced = false ∨ distance r.state.endAhead r.estimate ≤ Config.endBand) then s.reachEnd g
    else s.blindFault g .noMotor

/-- The estimate has reached or passed the goal in the direction of travel (R152). -/
def Group.atGoal (r : Group) : Bool :=
  match r.state with
  | .movingDown => decide (r.goal ≤ r.estimate)
  | _ => decide (r.estimate ≤ r.goal)

/-- The target test of a sample (R152): an intermediate target ends the move, an end starts the overrun. -/
def State.targetTest (s : State) (g : Fin 4) : State :=
  let r := s.blinds.groups[g]
  if r.cal.isSome then s
  else if r.atGoal then
    if r.goal = r.state.endAhead then s.updGroup g fun r => { r with overrun := some (r.overrun.getD 0) }
    else s.stopGroup g .stopped
  else s

/-- The tests of a sample, in the order of log entry 18: STALL, the 800 ms test, the end switch, the
target. -/
def State.judgeSample (s : State) (g : Fin 4) (current : Nat) : State :=
  let r := s.blinds.groups[g]
  let silent := decide (current < s.working.settings.runThreshold)
  if Config.stallSamples ≤ r.stallCount then s.blindFault g .stall
  else if r.runTested = false ∧ Config.runTestMs ≤ r.runMs then
    let s1 := s.updGroup g fun r => { r with runTested := true }
    if silent then s1.motorSilent g else s1.targetTest g
  else if r.runTested = true ∧ silent = true then s.endSwitch g
  else s.targetTest g

/-- A current sample of a group whose relay is energised. -/
def State.currentSample (s : State) (g : Fin 4) (current : Nat) : State :=
  if s.blinds.groups[g].state.energised then
    let travel := s.travelOf g
    let s1 := s.updGroup g fun r => r.sampled current travel s.working.settings.stallThreshold
    (s1.judgeSample g current).afterBlinds
  else s

/-- The overrun of an end target has lasted a quarter of the travel time (R152). -/
def State.limitDue (s : State) (g : Fin 4) : Bool :=
  s.blinds.groups[g].overrun.any fun t => decide (s.travelOf g ≤ 4 * t)

/-- The overrun ends: the estimate is set to the end, and BLIND_LIMIT_UNSEEN is queued (R152). -/
def State.endOverrun (s : State) (g : Fin 4) : State :=
  let r := s.blinds.groups[g]
  if r.overrun.isSome ∧ r.state.energised = true then
    let endAt := r.state.endAhead
    ((s.reachEnd g).notify .blindLimitUnseen none (some g.val) endAt none).afterBlinds
  else s

/-- A group's 500 ms of REVERSING are over (R150, R158). -/
def State.endReversing (s : State) (g : Fin 4) : State :=
  let r := s.blinds.groups[g]
  if r.state = .reversing then
    let s1 :=
      match r.cal with
      | some k =>
        s.updGroup g fun r =>
          if k.leg = 1 then r.energiseFromBottom else r.energise (decide (k.leg = 2))
      | none =>
        if beyondDeadband r.goal r.estimate then
          s.updGroup g fun r => (s.autoMove g r).energise r.goesDown
        else s.stopGroup g .stopped
    s1.afterBlinds
  else s

/-- A calibration leg has run 120 s without seeing its end switch (R158). -/
def State.failLeg (s : State) (g : Fin 4) : State :=
  let r := s.blinds.groups[g]
  if r.cal.isSome ∧ r.state.energised = true then
    (s.endBlindCal g .stopped (.failed .noLimit)).afterBlinds
  else s

/-! ## Calibration requests (R157) -/

/-- An accepted CALIBRATE_BLIND begins (R157). A group moving up begins leg 1 in place with a new segment; its leg
time, its 800 ms test and its stall count run on from the energising of the relay (R153, R158). That an overrun in
progress is dropped is log entry 20. -/
def State.beginBlindCal (s : State) (g : Fin 4) : State :=
  let k : BlindCal := { leg := 1, travelDown := 0 }
  let s1 :=
    match s.blinds.groups[g].state with
    | .movingUp =>
      s.updGroup g fun r =>
        { r with
          cal := some k, refMove := false, estimate := 1000, segStart := 1000, segMs := 0, overrun := none }
    | .movingDown => s.updGroup g fun r => { r.reverse with cal := some k }
    | .reversing => s.updGroup g fun r => { r with cal := some k }
    | .queued =>
      (s.updBlinds fun b =>
          b.editEntry g fun e => { e with target := 0, reference := false, calibration := true }).updGroup g
        fun r => { r with cal := some k }
    | .stopped | .fault => (s.request g 0 false true).updGroup g fun r => { r with cal := some k }
  s1.afterBlinds

/-! ## Fire (R156) -/

/-- Every queue entry becomes a fire request with target 0, in its order (R156). -/
def Blinds.fireEntries (b : Blinds) : Blinds :=
  { b with queue := b.queue.map fun e => { e with target := 0, fire := true } }

/-- Fire has come into force: calibrations end ABORTED, so that no grant reaches one of them, and every
group in use is evaluated at once in group order (R156, log entry 52). -/
def State.fireBlinds (s : State) : State :=
  let s1 := s.updBlinds Blinds.fireEntries
  (allGroups.foldl (fun s g => s.abortBlindCal g .fire) s1).evaluateBlinds

/-- Fire has cleared: the entries that remain are ordinary entries (R156). -/
def State.unfireBlinds (s : State) : State :=
  s.updBlinds fun b => { b with queue := b.queue.map fun e => { e with fire := false } }

/-! ## Writes of the blind settings (R143, R144, R151) -/

/-- A group's cell has been written (R143, R159). -/
def State.blindCellWritten (s : State) (g : Fin 4) : State :=
  let s1 := s.abortBlindCal g .config
  let s2 := if (s1.groupCell g).isNone then s1.stopGroup g .stopped else s1
  s2.afterBlinds

/-- The travel time of one direction has been written: a segment of that direction begins anew (R144). -/
def State.travelWritten (s : State) (g : Fin 4) (down : Bool) : State :=
  s.updGroup g fun r =>
    if r.state = (if down then .movingDown else .movingUp) then { r with segStart := r.estimate, segMs := 0 }
    else r

/-- The drive slots setting has been written (R151). -/
def State.driveSlotsWritten (s : State) : State := s.trimSlots.afterBlinds

end Sys2Proof.Machine
end

