-- ==== Sys2Proof/Machine/AirUpdate.lean ====
section
/-! DEFINITION. The air update: terms, trim, bounds, alarm, demand and the sharing of the supply cap (05). -/

namespace Sys2Proof.Machine
open Sys2Proof

/-- The governing booking of a unit, as it stands in its slot (R13). -/
def State.governingBooking (s : State) (u : UnitRec) : Option Booking :=
  match u.governing with
  | none => none
  | some (c, .current) => s.walker.current.inCell c
  | some (c, .next) => s.walker.next.inCell c

/-! ## The CO2 alarm comparator (R95) -/

/-- The alarm flag after an evaluation: set at the threshold, cleared at the threshold less the
hysteresis, and cleared while the CO2 is unhealthy. -/
def alarmAfter (set : Bool) (co2 : Option Nat) (threshold hysteresis : Nat) : Bool :=
  match co2 with
  | none => false
  | some v => if set then !decide (v ≤ threshold - hysteresis) else decide (threshold ≤ v)

/-- Evaluate a unit's comparator: a change of the flag queues CO2_HIGH or CO2_NORMAL with the value. -/
def State.judgeAlarm (s : State) (id : UnitId) : State :=
  match s.unit? id with
  | none => s
  | some u =>
    let co2 := s.co2Of id
    let w := s.working.settings
    let flag := alarmAfter u.co2Alarm co2 w.alarmThreshold w.alarmHysteresis
    let s1 := s.modifyUnit id fun u => { u with co2Alarm := flag }
    if flag = u.co2Alarm then s1
    else s1.notify (if flag then .co2High else .co2Normal) (some id.place) none (co2.getD noValue) none

/-! ## Terms and demand (R91 to R97) -/

/-- The area term (R91). -/
def areaTerm (area ra : Nat) : Nat := area * ra / 10

/-- The effective persons (R91). -/
def effectivePersons (mode : Mode) (headcount expected awaitFraction : Nat) : Nat :=
  match mode with
  | .occupied => headcount
  | .await => ceilDiv (expected * awaitFraction) 1000
  | _ => 0

/-- The CO2 error (R92). -/
def co2Error (co2 setpoint : Nat) : Int := (co2 : Int) - setpoint

/-- The proportional part (R92). -/
def proportionalPart (kp : Nat) (e : Int) : Int := truncDiv (kp * e) 16

/-- The integral of an air update that computes the trim: limited to Imax, then updated unless the
anti-windup skips it (R92, R93). -/
def integralAfter (integral imax ki : Nat) (e : Int) (limited : Bool) : Nat :=
  let held := min integral imax
  if 0 < e ∧ limited = true then held else clampInt 0 imax ((held : Int) + truncDiv (ki * e) 256)

/-- The trim has a floor of 0 (R92). -/
def trimOf (p : Int) (integral : Nat) : Nat := (p + integral).toNat

/-- The Upper bound (R96). -/
def upperBound (mode : Mode) (alarm : Bool) (qmin qmax qcap : Nat) : Nat :=
  if alarm = true ∨ mode = .purge then qmax else max qmin (qmax * qcap / 1000)

/-- The demand by mode, and AT_UPPER (R97). -/
def demandFor (mode : Mode) (area need qmin qmax upper : Nat) : Nat × Bool :=
  match mode with
  | .setback => (qmin, false)
  | .precondition => (clampNat qmin upper area, false)
  | .await | .occupied => (clampNat qmin upper need, decide (upper < need))
  | .purge => (qmax, false)
  | .fire => (0, false)

/-- The trim is computed in AWAIT and OCCUPIED while the CO2 is healthy (R92): the error, or none. -/
def trimError (mode : Mode) (co2 : Option Nat) (setpoint : Nat) : Option Int :=
  match mode with
  | .await | .occupied => co2.map fun v => co2Error v setpoint
  | _ => none

/-- A unit record after step 3 of an air update (R89). A unit in FIRE computes nothing (R100). -/
def State.demandRecord (s : State) (id : UnitId) (u : UnitRec) : UnitRec :=
  if u.mode = .fire then
    { u with demand := 0, atUpper := false, budgetLimited := false, terms := AirTerms.absent }
  else
    let w := s.working.settings
    let p := s.working.profiles[u.profile]
    let co2 := s.co2Of id
    let at_ := areaTerm (id.sum w.area) w.ra
    let expected := ((s.governingBooking u).map (·.entry.expected)).getD 0
    let neff := effectivePersons u.mode u.headcount expected p.awaitFraction
    let pt := p.rp * neff
    let e := trimError u.mode co2 p.co2Setpoint
    let integral :=
      match e with
      | some e => integralAfter u.integral p.imax p.ki e (u.atUpper || u.budgetLimited)
      | none => min u.integral p.imax
    let prop := e.map (proportionalPart p.kp)
    let trim := match prop with
      | some x => trimOf x integral
      | none => 0
    let upper := upperBound u.mode u.co2Alarm (id.sum w.qmin) (id.sum w.qmax) p.qcap
    let d := demandFor u.mode at_ (pt + at_ + trim) (id.sum w.qmin) (id.sum w.qmax) upper
    { u with
      integral := integral
      demand := d.1
      atUpper := d.2
      terms :=
        { area := some at_, persons := some neff, person := some pt, proportional := prop,
          trim := some trim, upper := some upper, co2 := co2 } }

/-- Steps 2 and 3 of an air update for one unit. -/
def State.formDemand (s : State) (id : UnitId) : State :=
  let s1 := s.judgeAlarm id
  s1.modifyUnit id (s1.demandRecord id)

/-! ## Sharing the cap (R98, R99) -/

/-- Two shares of an amount in proportion to two weights; the leftover goes to the larger weight, or to
the first when they are equal. -/
def shareOut (amount wa wb : Nat) : Nat × Nat :=
  let a := amount * wa / (wa + wb)
  let b := amount * wb / (wa + wb)
  if wa < wb then (a, b + (amount - a - b)) else (a + (amount - a - b), b)

/-- The allocations of units A and B under a cap, from their demands and area terms. -/
def allocate (cap da db atA atB : Nat) : Nat × Nat :=
  if da + db ≤ cap then (da, db)
  else
    let fa := min atA da
    let fb := min atB db
    if fa + fb ≤ cap then
      let x := shareOut (cap - fa - fb) (da - fa) (db - fb)
      (fa + x.1, fb + x.2)
    else shareOut cap fa fb

/-- A unit record with its allocation; BUDGET_LIMITED while it is less than the demand. -/
def UnitRec.allot (u : UnitRec) (n : Nat) : UnitRec :=
  { u with allocation := n, budgetLimited := decide (n < u.demand) }

/-- Step 4 of an air update: the allocations of all units. -/
def Units.allotAll (units : Units) (cap : Nat) : Units :=
  match units with
  | .joined ab => .joined (ab.allot (min ab.demand cap))
  | .split a b =>
    let n := allocate cap a.demand b.demand (a.terms.area.getD 0) (b.terms.area.getD 0)
    .split (a.allot n.1) (b.allot n.2)

/-- The sum over the units that exist of a figure of their records. -/
def Units.total (units : Units) (f : UnitRec → Nat) : Nat :=
  match units with
  | .joined ab => f ab
  | .split a b => f a + f b

/-- Steps 4 and 5 less the hand-over: allocations and sums. -/
def State.shareCap (s : State) : State :=
  let units := s.space.units.allotAll s.air.capInForce
  (s.updSpace fun p => { p with units := units }).updAir fun a =>
    { a with sumDemand := units.total (·.demand), sumAllocation := units.total (·.allocation) }

/-- An air update of every unit (R89); the timer starts again from 0 (R88). That unit A is taken before unit B, and so
hands its CO2 notice over first, is the model's choice (log entry 82). -/
def State.airUpdate (s : State) : State :=
  let s1 := s.updAir fun a => { a with capInForce := a.requestedCap, timer := 0 }
  ((s1.space.units.ids.foldl State.formDemand s1).shareCap).handOver.refreshNeeds

end Sys2Proof.Machine
end

