-- ==== Sys2Proof/Machine/Lights.lean ====
section
/-! DEFINITION. The lighting unit: targets, fading, the dimming curve, the daylight factor (07). -/

namespace Sys2Proof.Machine
open Sys2Proof

/-- Change a channel record. -/
def State.updChannel (s : State) (i : Fin 8) (f : LightChannel → LightChannel) : State :=
  s.updLighting fun l => { l with channels := updAt l.channels i f }

/-- Change a cell's daylight record. -/
def State.updDaylight (s : State) (c : Cell) (f : Daylight → Daylight) : State :=
  s.updLighting fun l => { l with cells := l.cells.upd c f }

/-- The cell of a channel, none while UNUSED. -/
def State.channelCell (s : State) (i : Fin 8) : Option Cell := s.working.settings.channelCell[i].cell?

/-- The eight channels in order. -/
def allChannels : List (Fin 8) := [0, 1, 2, 3, 4, 5, 6, 7]

/-- The override target of a channel (01, section 1.9). -/
def lightTarget (i : Fin 8) : Fin 16 := ⟨4 + i.val, by omega⟩

/-! ## Levels (R130 to R133) -/

/-- The applied level (R131). -/
def appliedLevel (output driverMin : Nat) : Nat := if output = 0 then 0 else max output driverMin

/-- The dimming curve (R132). -/
def dutyFor (level : Nat) : Nat := (level * level * 4095 + 500000) / 1000000

/-- Form the applied level and the pending duty from the output level (R131, R132). -/
def LightChannel.apply (r : LightChannel) (driverMin : Nat) : LightChannel :=
  let l := appliedLevel r.output driverMin
  { r with applied := l, pendingDuty := dutyFor l }

/-- The step size of a fade (R130). -/
def fadeStep (rate : Nat) : Nat := max 1 (rate / 10)

/-- Step 2 of R127: move the output level toward the target level (R130; the step size, log entry 32). -/
def LightChannel.fadeTo (r : LightChannel) (up down : Nat) : LightChannel :=
  if r.output < r.target then
    let step := fadeStep up
    { r with
      output := if r.target - r.output ≤ step then r.target else r.output + step
      fade := .up, stepSize := some step }
  else if r.target < r.output then
    let step := fadeStep down
    { r with
      output := if r.output - r.target ≤ step then r.target else r.output - step
      fade := .down, stepSize := some step }
  else { r with fade := .none, stepSize := none }

/-! ## Targets (R128, R136) -/

/-- The scene level of a role in a profile. -/
def Profile.scene (p : Profile) : ChannelRole → Nat
  | .board => p.board
  | .front => p.front
  | .window => p.window
  | .inner => p.inner

/-- BOARD and FRONT channels do not use the daylight factor. -/
def ChannelRole.boardSide : ChannelRole → Bool
  | .board | .front => true
  | _ => false

/-- The effective factor of a cell (R136, R138). -/
def State.effectiveFactor (s : State) (c : Cell) : Nat :=
  if (s.profileOf c).harvest && !(s.scanner.channels[luxChannel c].lost) then (s.lighting.cells.get c).factor
  else 1000

/-- The daylight-applied target, the scene level for the roles that take no daylight (R136). -/
def daylightTarget (role : ChannelRole) (scene factor innerBoost : Nat) : Nat :=
  match role with
  | .window => scene * factor / 1000
  | .inner => scene * min 1000 (factor + innerBoost) / 1000
  | _ => scene

/-- The computed target (R128). -/
def lightTargetFor (mode : Mode) (occupancy : Occupancy) (role : ChannelRole)
    (scene clearingLevel awaitLevel factor innerBoost : Nat) : Nat :=
  match mode with
  | .fire => 1000
  | .occupied =>
    if occupancy = .clearing then if role.boardSide then 0 else min scene clearingLevel
    else daylightTarget role scene factor innerBoost
  | .await => if role.boardSide then 0 else awaitLevel
  | .precondition | .setback | .purge => 0

/-- The computed target of a channel of cell `c`. -/
def State.lightComputed (s : State) (i : Fin 8) (c : Cell) : Nat :=
  let u := s.unitOf c
  let p := s.profileOf c
  let w := s.working.settings
  lightTargetFor u.mode u.occupancy w.channelRole[i] (p.scene w.channelRole[i]) w.clearingLevel p.awaitLevel
    (s.effectiveFactor c) w.innerBoost

/-- The lighting step of one channel (R127); a channel not in use takes none. -/
def State.channelStep (s : State) (i : Fin 8) : State :=
  match s.channelCell i with
  | none => s
  | some c =>
    let t := s.lightComputed i c
    let target := match s.space.overrides[lightTarget i] with
      | some o => o.value
      | none => t
    let p := s.profileOf c
    let m := s.working.settings.driverMin[i]
    s.updChannel i fun r =>
      let r1 := LightChannel.fadeTo { r with computed := t, target := target } p.fadeUp p.fadeDown
      if r1.output = r.output then r1 else r1.apply m

/-- The lighting step of every channel in use (R127). -/
def State.lightingStep (s : State) : State :=
  allChannels.foldl State.channelStep (s.updLighting fun l => { l with stepTimer := 0 })

/-- The start of a PWM period: every output loads its pending duty (R133). -/
def State.loadDuties (s : State) : State :=
  allChannels.foldl (fun s i => s.updChannel i fun r => { r with appliedDuty := r.pendingDuty }) s

/-- A channel at full, at once (R139, R140). -/
def LightChannel.full (r : LightChannel) : LightChannel :=
  { r with target := 1000, output := 1000, applied := 1000, pendingDuty := 4095 }

/-- Fire has come into force: every channel in use goes to 1000 at once (R139). -/
def State.fireLights (s : State) : State :=
  allChannels.foldl
    (fun s i => if (s.channelCell i).isSome then s.updChannel i LightChannel.full else s) s

/-- A channel's cell has been written (R140, log entry 46). -/
def State.channelCellWritten (s : State) (i : Fin 8) (before : Option Cell) : State :=
  let m := s.working.settings.driverMin[i]
  match s.channelCell i, before with
  | none, _ =>
    s.updChannel i fun r =>
      { r with computed := 0, target := 0, output := 0, applied := 0, pendingDuty := 0, fade := .none,
               stepSize := none }
  | some _, none => if s.space.fire = .inForce then s.updChannel i LightChannel.full else s
  | some _, some _ => s.updChannel i fun r => r.apply m

/-- A channel's driver minimum has been written (R126). -/
def State.driverMinWritten (s : State) (i : Fin 8) : State :=
  let m := s.working.settings.driverMin[i]
  s.updChannel i fun r => r.apply m

/-! ## The daylight factor (R134) -/

/-- The daylight update of R134. -/
def daylightAfter (factor setpoint measured kd : Nat) : Nat :=
  clampInt 0 1000 ((factor : Int) + truncDiv (((setpoint : Int) - measured) * kd) 256)

/-- The daylight update of one cell, if its conditions hold (R134). -/
def State.daylightCell (s : State) (c : Cell) : State :=
  let p := s.profileOf c
  let k := s.working.settings.kd
  let d := s.lighting.cells.get c
  match s.scanner.channels[luxChannel c].usable with
  | some lux =>
    if (s.unitOf c).mode = .occupied ∧ p.harvest = true ∧ d.frozen = false then
      s.updDaylight c fun d => { d with factor := daylightAfter d.factor p.lux lux k, updated := true }
    else s.updDaylight c fun d => { d with updated := false }
  | none => s.updDaylight c fun d => { d with updated := false }

/-- The daylight update of both cells (R134). -/
def State.daylightUpdate (s : State) : State :=
  let s1 := s.updLighting fun l => { l with daylightTimer := 0 }
  (s1.daylightCell .a).daylightCell .b

/-- A cell's freeze timer reaches 10 s: the flag is cleared (R137). -/
def State.unfreeze (s : State) (c : Cell) : State :=
  if (s.lighting.cells.get c).freeze.isSome then
    s.updDaylight c fun d => { d with frozen := false, freeze := none }
  else s

end Sys2Proof.Machine
end

