-- ==== Sys2Proof/Machine/Sensors.lean ====
section
/-! DEFINITION. The sensor scanner (09, sections 9.1 and 9.2). -/

namespace Sys2Proof.Machine
open Sys2Proof

/-- Change an analog channel. -/
def State.updSensor (s : State) (i : Fin 8) (f : Sensor → Sensor) : State :=
  s.updScanner fun x => { x with channels := updAt x.channels i f }

/-- The upper end of a channel's engineering range; none for the feedback channels, which are not scaled
(section 9.1). Every lower end is 0. -/
def engineeringTop (i : Fin 8) (spans : PerCell Nat) : Option Nat :=
  match i with
  | 0 => some spans.a
  | 1 => some spans.b
  | 2 | 3 => some 500
  | 4 | 5 => some 2000
  | 6 | 7 => none

/-- The feedback channels read an actuator on the rail (R168). -/
def isFeedback (i : Fin 8) : Bool := decide (6 ≤ i.val)

/-- A sample scaled to a range 0..hi, and clamped to it (R165). -/
def scaleSample (mv hi : Nat) : Nat := clampInt 0 hi (truncDiv (((mv : Int) - 2000) * hi) 8000)

/-- The hold timer of a channel, where it runs; that of a feedback channel pauses while the rail is not ON
(R168). That it runs on from the moment the rail is ON, not from the first sample after it, is the model's choice (log
entry 76). -/
def State.holdRuns (s : State) (i : Fin 8) : Option Nat :=
  if isFeedback i && decide (s.rail.state ≠ .on) then none else s.scanner.channels[i].hold

/-- The value of a window (R165): the mean of the four samples, scaled first where the channel is. -/
def SampleWindow.value (w : SampleWindow) (top : Option Nat) : Nat :=
  match top with
  | some hi => (scaleSample w.s0 hi + scaleSample w.s1 hi + scaleSample w.s2 hi + scaleSample w.s3 hi) / 4
  | none => (w.s0 + w.s1 + w.s2 + w.s3) / 4

/-- A sample joins a window; it fills an empty one (R165). -/
def joinWindow (w : Option SampleWindow) (mv : Nat) : SampleWindow :=
  match w with
  | some w => { s0 := w.s1, s1 := w.s2, s2 := w.s3, s3 := mv }
  | none => { s0 := mv, s1 := mv, s2 := mv, s3 := mv }

/-- A channel takes a sample into its window and forms its value. -/
def Sensor.accept (c : Sensor) (w : SampleWindow) (top : Option Nat) : Sensor :=
  { c with window := some w, value := some (w.value top), state := .normal, hold := none }

/-- A channel's record after a sample (R165 to R168). `judged` is false for a feedback channel while the
rail is not ON. -/
def Sensor.sample (c : Sensor) (mv : Nat) (judged : Bool) (top : Option Nat) : Sensor :=
  let c1 : Sensor := { c with pin := mv, lastSample := some mv }
  if judged = false then
    if c.state = .normal then c1.accept (joinWindow c.window mv) top else c1
  else if goodSample mv then
    match c.state with
    | .normal => c1.accept (joinWindow c.window mv) top
    | _ => c1.accept (joinWindow none mv) top
  else
    match c.state with
    | .normal => { c1 with state := .holding, hold := some 0 }
    | _ => c1

/-- The kind a lost sample gives (R171). -/
def lostKind (mv : Nat) : FaultKind := if mv < 1600 then .inputLow else .inputHigh

/-- The fault record of a channel after a judged sample (R171), from the state before it. -/
def State.sensorFault (s : State) (i : Fin 8) (before : SensorState) (mv : Nat) : State :=
  let src := sensorSource i
  if goodSample mv then
    match before with
    | .normal => s
    | .holding => s.updFault src fun r => { r with state := .clear }
    | .faulted => (s.updFault src fun r => { r with state := .clear }).notifyFault .faultCleared src
  else
    match before with
    | .normal => s.reportPlain src (lostKind mv) .holding
    | .holding => s.updFault src fun r => { r with kind := lostKind mv }
    | .faulted => s

/-- Sample one channel. -/
def State.sampleChannel (s : State) (i : Fin 8) (mv : Nat) : State :=
  let judged := !isFeedback i || decide (s.rail.state = .on)
  let before := s.scanner.channels[i].state
  let s1 := s.updSensor i fun c => c.sample mv judged (engineeringTop i s.working.settings.co2Span)
  if judged then s1.sensorFault i before mv else s1

/-- Each CO2 sample is handed to the purge-end test (R12, R169). -/
def State.purgeEndTest (s : State) (id : UnitId) : State :=
  match s.unit? id with
  | none => s
  | some u => if u.mode = .purge ∧ s.purgeEndMet id = true then s.endPurge id else s

/-- A cell's temperature sensor has been lost or regained: the valve takes its command at once (R123,
R169). -/
def State.temperatureHealth (s : State) (c : Cell) (before : Bool) : State :=
  if s.scanner.channels[tempChannel c].lost = before then s else s.redriveValve c

/-- A damper calibration's phase time counts the part of the second that a sample ends (log entry 34). -/
def State.creditCal (s : State) (c : Cell) (ms : Nat) : State :=
  s.updDrive c fun d => { d with cal := d.cal.map fun k => { k with elapsed := k.elapsed + ms } }

/-- The feedback channel's sample and value are handed to the terminal drive (R168, R111). -/
def State.handFeedback (s : State) (c : Cell) (mv : Nat) : State :=
  s.feedbackSample c mv s.scanner.channels[feedbackChannel c].value

/-- The sample timer expires: every channel is sampled once, then the readings are handed on (R164 to
R169; the order, log entry 16). -/
def State.sensorSample (s : State) (levels : Vector Half 8) : State :=
  let rest := 1000 - s.scanner.timer
  let s0 := s.updScanner fun x => { x with timer := 0 }
  let s1 := (s0.creditCal .a rest).creditCal .b rest
  let lostA := s1.scanner.channels[tempChannel .a].lost
  let lostB := s1.scanner.channels[tempChannel .b].lost
  let s2 := allChannels.foldl (fun s i => s.sampleChannel i levels[i].toNat) s1
  let s3 := s2.space.units.ids.foldl State.purgeEndTest s2
  let s4 := (s3.temperatureHealth .a lostA).temperatureHealth .b lostB
  let s5 := (s4.handFeedback .a levels[feedbackChannel .a].toNat).handFeedback .b
    levels[feedbackChannel .b].toNat
  s5.refreshNeeds

/-- A channel becomes FAULTED when its hold timer reaches 60 s (R166, R171); its users take it at once
(R138, R169). A paused hold timer reaches nothing (R168). -/
def State.holdExpiry (s : State) (i : Fin 8) : State :=
  if s.scanner.channels[i].state = .holding ∧ (s.holdRuns i).isSome then
    let src := sensorSource i
    let s1 := s.updSensor i fun c => { c with state := .faulted, hold := none }
    let s2 := (s1.updFault src fun r => { r with state := .faulted }).notifyFault .faultRaised src
    match i with
    | 2 => (s2.redriveValve .a).refreshNeeds
    | 3 => (s2.redriveValve .b).refreshNeeds
    | 4 => s2.fullDaylight .a
    | 5 => s2.fullDaylight .b
    | _ => s2
  else s

end Sys2Proof.Machine
end

