-- ==== Sys2Proof/Machine/Spaces.lean ====
section
/-! DEFINITION. The space coordinator's own events: join and split (01, sections 1.1 to 1.5), the override
table (1.9), fire (1.10); and the lapse of host supervision (R178). -/

namespace Sys2Proof.Machine
open Sys2Proof

/-! ## Join (R4, R5) -/

/-- The longer remaining purge time of the units in PURGE (R4). -/
def joinedPurge (a b : UnitRec) : Option Nat :=
  let rem := fun u : UnitRec => if u.mode = .purge then u.purge else none
  match rem a, rem b with
  | some x, some y => some (max x y)
  | some x, none => some x
  | none, y => y

/-- The record of unit AB at a join (R4, R94, R95; log entry 55), its occupancy evaluated (R80), and its mode the
previous mode of the derivation that follows (R5). That the occupancy is evaluated before the one derivation is the
model's choice (log entry 70). -/
def joinRecord (a b : UnitRec) (presence : Bool) : UnitRec :=
  let formed : Occupancy := if a.occupancy = .vacant ∧ b.occupancy = .vacant then .vacant else .occupied
  let n := a.headcount + b.headcount
  let o := nextOccupancy formed (decide (0 < n) || presence) none
  { UnitRec.fresh with
    headcount := n
    count := if a.count = .uncertain ∨ b.count = .uncertain then .uncertain else .exact
    occupancy := o.1
    clearing := o.2
    mode := if (a.mode = .purge ∨ b.mode = .purge) ∧ o.1 = .vacant then .purge else a.mode
    purge := joinedPurge a b
    profile := a.profile
    lingering := match a.lingering with
      | some p => some p
      | none => b.lingering
    co2Alarm := a.co2Alarm || b.co2Alarm }

/-- At a join or split, a cell whose unit is OCCUPIED after it and was not before takes a daylight factor
of 1000 (R135). -/
def State.daylightAcross (s : State) (c : Cell) (before : Mode) : State :=
  if (s.unitOf c).mode = .occupied ∧ before ≠ .occupied then s.fullDaylight c else s

/-- The bookings in CURRENT take the occupancy of unit AB as that of their unit (R44, R45, log entry 15). -/
def State.joinBookings (s before : State) (o : Occupancy) : State :=
  s.updWalker fun w =>
    { w with current := w.current.map fun t k =>
        { k with
          seenOccupied := k.seenOccupied ||
            (decide (o = .occupied) && decide (k.state = .running) && !before.occupiedTarget t)
          vacant := if o ≠ .vacant ∧ before.vacantTarget t = true then 0 else k.vacant } }

/-- PARTITION_MISMATCH: each CURRENT slot holds a booking of its own (R5). -/
def State.notifyMismatch (s : State) : State :=
  match s.walker.current with
  | .cells (some x) (some y) =>
    s.notify .partitionMismatch none none (x.entry.tag.toNat + 65536 * y.entry.tag.toNat) none
  | _ => s

/-- Carry out a join, less its notices (R4, R5). -/
def State.join (s : State) (a b : UnitRec) : State :=
  let u := joinRecord a b (s.presenceOf .ab)
  let s1 := (s.updSpace fun p => { p with units := .joined u }).joinBookings s u.occupancy
  let s2 := s1.deriveCore .ab
  ((s2.daylightAcross .a a.mode).daylightAcross .b b.mode).airUpdate

/-! ## Split (R6, R7) -/

/-- The headcount of A at a split: its share by area rounded half up, limited so that neither cell
exceeds 250 (R6). -/
def splitShare (h areaA areaB : Nat) : Nat :=
  let a := (h * areaA + (areaA + areaB) / 2) / (areaA + areaB)
  if a < h - 250 then h - 250 else if 250 < a then 250 else a

/-- The record of a unit at a split, its mode being AB's, the previous mode of the derivation that
follows (R7). -/
def splitRecord (ab : UnitRec) (headcount : Nat) (presence : Bool) : UnitRec :=
  let o : Occupancy := if 0 < headcount ∨ presence = true then .occupied else .vacant
  { UnitRec.fresh with
    headcount := headcount
    count := if ab.headcount = 0 then .exact else .uncertain
    occupancy := o
    mode := ab.mode
    purge := if ab.mode = .purge ∧ o = .vacant then ab.purge else none
    profile := ab.profile
    lingering := if o = .vacant ∧ ab.occupancy ≠ .vacant then none else ab.lingering
    co2Alarm := ab.co2Alarm }

/-- A unit that has become VACANT at a split ends its HELD booking (R3, R43; its place in the split, log entry 83). -/
def State.vacatedBySplit (s : State) (id : UnitId) (before : Occupancy) : State :=
  if s.vacantUnit id = true ∧ before ≠ .vacant then s.endHeld id else s

/-- Carry out a split, less its notice (R6, R7). That the HELD bookings of the units that come out VACANT end, with
the derivations their leaving causes, after both units are derived and before the air update, is the model's choice
(log entry 83). -/
def State.split (s : State) (ab : UnitRec) : State :=
  let area := s.working.settings.area
  let n := splitShare ab.headcount area.a area.b
  let a := splitRecord ab n (s.presenceOf .a)
  let b := splitRecord ab (ab.headcount - n) (s.presenceOf .b)
  let s1 := s.updSpace fun p => { p with units := .split a b }
  let s2 := (s1.deriveCore .a).deriveCore .b
  let s3 := (s2.daylightAcross .a ab.mode).daylightAcross .b ab.mode
  ((s3.vacatedBySplit .a ab.occupancy).vacatedBySplit .b ab.occupancy).airUpdate

/-! ## The arrangement (R1, R2) -/

/-- The arrangement is JOINED when the partition is OPEN and "divisible" is on (R2). -/
def State.shouldJoin (s : State) : Bool :=
  decide (s.space.partition = .opened) && s.working.settings.divisible

/-- The units are joined. -/
def Units.isJoined : Units → Bool
  | .joined _ => true
  | .split _ _ => false

/-- PARTITION_CHANGED, with the partition state and the arrangement (R1, section 11.5). -/
def State.notifyPartition (s : State) : State :=
  s.notify .partitionChanged none none
    ((if s.space.partition = .opened then 1 else 0) + 256 * (if s.space.units.isJoined then 1 else 0)) none

/-- Join or split as R2 calls for, with PARTITION_CHANGED (its place, log entry 44), which is queued without a change of
arrangement when `always` is set: a debounced change of the partition state gives it in every case (R1). -/
def State.arrange (s : State) (always : Bool) : State :=
  match s.space.units, s.shouldJoin with
  | .split a b, true => (s.join a b).notifyPartition.notifyMismatch
  | .joined ab, false => (s.split ab).notifyPartition
  | _, _ => if always then s.notifyPartition else s

/-- The partition debounce completes (R1). -/
def State.completePartition (s : State) : State :=
  match s.space.partitionTimer with
  | none => s
  | some _ =>
    (s.updSpace fun p => { p with partition := p.contact, partitionTimer := none }).arrange true

/-- A change of level at the partition contact (R1). -/
def Space.contactEdge (p : Space) (level : Partition) : Space :=
  if p.contact = level then p
  else { p with contact := level, partitionTimer := if level = p.partition then none else some 0 }

/-! ## Overrides (R16 to R18) -/

/-- Why an override ended, in the code order of section 11.5. -/
inductive OverrideCause where
  | expired | cleared | fire | lapse
  deriving DecidableEq, Repr

/-- The code of a cause. -/
def OverrideCause.code : OverrideCause → Nat
  | .expired => 0
  | .cleared => 1
  | .fire => 2
  | .lapse => 3

/-- The sixteen targets in order. -/
def allTargets : List (Fin 16) := [0, 1, 2, 3, 4, 5, 6, 7, 8, 9, 10, 11, 12, 13, 14, 15]

/-- A damper or valve takes the start or the end of its override at once (R18, R109, R123); lights and
blinds take it at their next step or evaluation. -/
def State.overrideMoved (s : State) (t : Fin 16) : State :=
  match t with
  | 0 => (s.redrive .a).refreshNeeds
  | 1 => (s.redrive .b).refreshNeeds
  | 2 => (s.redriveValve .a).refreshNeeds
  | 3 => (s.redriveValve .b).refreshNeeds
  | _ => s

/-- End the override on a target, if one is in force, with its notice (R17), behind those of a rail that its end
raises against a fault level (the model's choice, log entry 44). -/
def State.endOverride (s : State) (t : Fin 16) (cause : OverrideCause) : State :=
  if s.space.overrides[t].isSome then
    let s1 := s.updSpace fun p => { p with overrides := p.overrides.set t none }
    (s1.overrideMoved t).notify .overrideEnded none (some t.val) cause.code none
  else s

/-- End every override in force, each with its own notice (R17), in the order of their targets (the model's choice, log
entry 44). -/
def State.endOverrides (s : State) (cause : OverrideCause) : State :=
  allTargets.foldl (fun s t => s.endOverride t cause) s

/-! ## Fire (R19 to R21) -/

/-- A change of level at the fire input (R19). -/
def Space.fireEdge (p : Space) (polarity : FirePolarity) (high : Bool) : Space :=
  if p.firePin = high then p
  else
    { p with
      firePin := high
      fireTimer := if polarity.signals high = decide (p.fire = .inForce) then none else some 0 }

/-- Dampers and valves take the change of the fire state at once (R109, R123). -/
def State.redriveAll (s : State) : State :=
  (((s.redrive .a).redrive .b).redriveValve .a).redriveValve .b

/-- Fire comes into force (R20, R120, R139, R156). The order of its notices is the model's choice (log entries 44 and
82). -/
def State.fireOn (s : State) : State :=
  let s1 := (s.updSpace fun p => { p with fire := .inForce, fireTimer := none }).notify .fireOn none none
    noValue none
  let s2 := (s1.endOverrides .fire).deriveAll
  let s3 := ((s2.abortDamperCal .a .fire).abortDamperCal .b .fire).redriveAll
  s3.fireLights.fireBlinds.refreshNeeds

/-- Fire clears (R21). -/
def State.fireOff (s : State) : State :=
  let s1 := (s.updSpace fun p => { p with fire := .clear, fireTimer := none }).notify .fireOff none none
    noValue none
  s1.deriveAll.unfireBlinds.redriveAll.refreshNeeds

/-- The fire debounce completes (R19). -/
def State.completeFire (s : State) : State :=
  match s.space.fireTimer, s.space.fire with
  | none, _ => s
  | some _, .clear => s.fireOn
  | some _, .inForce => s.fireOff

/-- The fire polarity has been written: the input's level is judged afresh (R19). -/
def State.polarityWritten (s : State) : State :=
  let p := s.working.settings.firePolarity
  s.updSpace fun x =>
    { x with fireTimer := if p.signals x.firePin = decide (x.fire = .inForce) then none else some 0 }

/-! ## The lapse of supervision (R178) -/

/-- The code of a lapse reason (section 11.5). -/
def LapseReason.code : LapseReason → Nat
  | .early => 0
  | .late => 1

/-- The requested cap becomes the default supply cap (R101). -/
def State.defaultCap (s : State) : State :=
  s.updAir fun a => { a with requestedCap := s.working.settings.defaultCap, capSource := .default }

/-- Supervision lapses (R178, R145). -/
def State.lapse (s : State) (reason : LapseReason) : State :=
  let s1 := s.updSupervision fun _ => { state := .lapsed, reason := some reason, period := none }
  let s2 := (s1.notify .supervisionLapsed none none reason.code none).endOverrides .lapse
  s2.defaultCap.updBlinds fun b => { b with sunHold := some 0 }

/-- The period timer of a SUPERVISED state reaches P (R178). -/
def State.periodEnd (s : State) : State :=
  if s.supervision.state = .supervised ∧ s.supervision.period.isSome then s.lapse .late else s

end Sys2Proof.Machine
end

