-- ==== Sys2Proof/Machine/Settings.lean ====
section
/-! DEFINITION. The numbered settings (10, section 10.5): the number and instance a request carries, the
codes of enumerated values, each setting's rule, and the reading and writing of the settings record. -/

namespace Sys2Proof.Machine
open Sys2Proof

/-! ## Codes of enumerated settings (section 11.3) -/

/-- The code of a value of an enumerated setting (section 11.3). -/
def FirePolarity.code : FirePolarity → Nat
  | .activeLow => 0
  | .activeHigh => 1

/-- The value of a code. A code not listed does not pass the setting's rule. -/
def FirePolarity.ofCode : Nat → FirePolarity
  | 0 => .activeLow
  | _ => .activeHigh

/-- The code of a value of an enumerated setting (section 11.3). -/
def CellSetting.code : CellSetting → Nat
  | .a => 0
  | .b => 1
  | .off => 2

/-- The value of a code. A code not listed does not pass the setting's rule. -/
def CellSetting.ofCode : Nat → CellSetting
  | 0 => .a
  | 1 => .b
  | _ => .off

/-- The code of a value of an enumerated setting (section 11.3). -/
def BeamEdge.code : BeamEdge → Nat
  | .breakRising => 0
  | .breakFalling => 1
  | .toggle => 2

/-- The value of a code. A code not listed does not pass the setting's rule. -/
def BeamEdge.ofCode : Nat → BeamEdge
  | 0 => .breakRising
  | 1 => .breakFalling
  | _ => .toggle

/-- The code of a value of an enumerated setting (section 11.3). -/
def DetectorEdge.code : DetectorEdge → Nat
  | .rising => 0
  | .falling => 1
  | .both => 2

/-- The value of a code. A code not listed does not pass the setting's rule. -/
def DetectorEdge.ofCode : Nat → DetectorEdge
  | 0 => .rising
  | 1 => .falling
  | _ => .both

/-- The code of a value of an enumerated setting (section 11.3). -/
def ChannelRole.code : ChannelRole → Nat
  | .board => 0
  | .front => 1
  | .window => 2
  | .inner => 3

/-- The value of a code. A code not listed does not pass the setting's rule. -/
def ChannelRole.ofCode : Nat → ChannelRole
  | 0 => .board
  | 1 => .front
  | 2 => .window
  | _ => .inner

/-- The code of a value of an enumerated setting (section 11.3). -/
def BlindSide.code : BlindSide → Nat
  | .windowSide => 0
  | .boardSide => 1

/-- The value of a code. A code not listed does not pass the setting's rule. -/
def BlindSide.ofCode : Nat → BlindSide
  | 0 => .windowSide
  | _ => .boardSide

/-! ## Which setting (R188) -/

/-- A numbered setting with its instance, in the order of section 10.5. -/
inductive SettingKey where
  | divisible
  | firePolarity
  | purgeEndCo2
  | area (c : Cell)
  | endingWarning
  | doorAssign (i : Fin 4)
  | outerEdge (i : Fin 4)
  | innerEdge (i : Fin 4)
  | beamDebounce (i : Fin 4)
  | transitTimeout
  | detectorAssign (i : Fin 6)
  | detectorEdge (i : Fin 6)
  | presenceHold
  | clearingDelay
  | vacancyConfirm
  | airPeriod
  | ra
  | qmax (c : Cell)
  | qmin (c : Cell)
  | alarmThreshold
  | alarmHysteresis
  | defaultCap
  | firePosition (c : Cell)
  | strokeTime (c : Cell)
  | trackingTolerance
  | kpT
  | kiT
  | setbackExtra
  | valveFallback (c : Cell)
  | channelCell (i : Fin 8)
  | channelRole (i : Fin 8)
  | driverMin (i : Fin 8)
  | clearingLevel
  | kd
  | innerBoost
  | blindCell (i : Fin 4)
  | blindSide (i : Fin 4)
  | travelUp (i : Fin 4)
  | travelDown (i : Fin 4)
  | sunPosition
  | sunInterval
  | driveSlots
  | runThreshold
  | stallThreshold
  | co2Span (c : Cell)
  | retryInterval
  | retryLimit
  | supervisionPeriod
  | windowFraction
  deriving DecidableEq, Repr

/-- A setting with one instance takes instance 0. -/
def soleKey (k : SettingKey) (inst : Nat) : Option SettingKey := if inst = 0 then some k else none

/-- The instances of a setting of the cells: A 0, B 1. -/
def cellKey (k : Cell → SettingKey) (inst : Nat) : Option SettingKey :=
  match inst with
  | 0 => some (k .a)
  | 1 => some (k .b)
  | _ => none

/-- The instances of a setting of `n` channels, detectors or groups. -/
def indexKey (n : Nat) (k : Fin n → SettingKey) (inst : Nat) : Option SettingKey :=
  if h : inst < n then some (k ⟨inst, h⟩) else none

/-- The setting of a number and an instance, none outside the table (R188). -/
def settingKey (number inst : Nat) : Option SettingKey :=
  match number with
  | 1 => soleKey .divisible inst
  | 2 => soleKey .firePolarity inst
  | 3 => soleKey .purgeEndCo2 inst
  | 4 => cellKey .area inst
  | 5 => soleKey .endingWarning inst
  | 6 => indexKey 4 .doorAssign inst
  | 7 => indexKey 4 .outerEdge inst
  | 8 => indexKey 4 .innerEdge inst
  | 9 => indexKey 4 .beamDebounce inst
  | 10 => soleKey .transitTimeout inst
  | 11 => indexKey 6 .detectorAssign inst
  | 12 => indexKey 6 .detectorEdge inst
  | 13 => soleKey .presenceHold inst
  | 14 => soleKey .clearingDelay inst
  | 15 => soleKey .vacancyConfirm inst
  | 16 => soleKey .airPeriod inst
  | 17 => soleKey .ra inst
  | 18 => cellKey .qmax inst
  | 19 => cellKey .qmin inst
  | 20 => soleKey .alarmThreshold inst
  | 21 => soleKey .alarmHysteresis inst
  | 22 => soleKey .defaultCap inst
  | 23 => cellKey .firePosition inst
  | 24 => cellKey .strokeTime inst
  | 25 => soleKey .trackingTolerance inst
  | 26 => soleKey .kpT inst
  | 27 => soleKey .kiT inst
  | 28 => soleKey .setbackExtra inst
  | 29 => cellKey .valveFallback inst
  | 30 => indexKey 8 .channelCell inst
  | 31 => indexKey 8 .channelRole inst
  | 32 => indexKey 8 .driverMin inst
  | 33 => soleKey .clearingLevel inst
  | 34 => soleKey .kd inst
  | 35 => soleKey .innerBoost inst
  | 36 => indexKey 4 .blindCell inst
  | 37 => indexKey 4 .blindSide inst
  | 38 => indexKey 4 .travelUp inst
  | 39 => indexKey 4 .travelDown inst
  | 40 => soleKey .sunPosition inst
  | 41 => soleKey .sunInterval inst
  | 42 => soleKey .driveSlots inst
  | 43 => soleKey .runThreshold inst
  | 44 => soleKey .stallThreshold inst
  | 45 => cellKey .co2Span inst
  | 46 => soleKey .retryInterval inst
  | 47 => soleKey .retryLimit inst
  | 48 => soleKey .supervisionPeriod inst
  | 49 => soleKey .windowFraction inst
  | _ => none

/-! ## Rules (the tables of the owning chapters) -/

/-- How a written value is judged: an enumerated code below `n` or refused; a quantity clamped to a
range; one of a list of values or refused; 0 or a quantity clamped to a range. -/
inductive SettingRule where
  | codes (n : Nat)
  | range (lo hi : Nat)
  | oneOf (values : List Nat)
  | offOr (lo hi : Nat)
  deriving DecidableEq, Repr

/-- The rule of a setting. The range of a Qmin ends at its cell's Qmax as it stands (R87). -/
def Settings.rule (w : Settings) : SettingKey → SettingRule
  | .divisible => .codes 2
  | .firePolarity => .codes 2
  | .purgeEndCo2 => .range 400 1200
  | .area _ => .range 10 400
  | .endingWarning => .range 0 30
  | .doorAssign _ => .codes 3
  | .outerEdge _ => .codes 3
  | .innerEdge _ => .codes 3
  | .beamDebounce _ => .range 10 200
  | .transitTimeout => .range 1 10
  | .detectorAssign _ => .codes 3
  | .detectorEdge _ => .codes 3
  | .presenceHold => .range 60 1800
  | .clearingDelay => .range 60 900
  | .vacancyConfirm => .range 300 3600
  | .airPeriod => .range 5 60
  | .ra => .range 0 300
  | .qmax _ => .range 100 20000
  | .qmin c => .range 0 (w.qmax.get c)
  | .alarmThreshold => .range 1500 5000
  | .alarmHysteresis => .range 100 500
  | .defaultCap => .range 0 40000
  | .firePosition _ => .oneOf [0, 1000]
  | .strokeTime _ => .range 30 300
  | .trackingTolerance => .range 20 200
  | .kpT => .range 0 255
  | .kiT => .range 0 255
  | .setbackExtra => .range 0 60
  | .valveFallback _ => .range 0 1000
  | .channelCell _ => .codes 3
  | .channelRole _ => .codes 4
  | .driverMin _ => .range 1 300
  | .clearingLevel => .range 0 500
  | .kd => .range 0 255
  | .innerBoost => .range 0 500
  | .blindCell _ => .codes 3
  | .blindSide _ => .codes 2
  | .travelUp _ => .range 5000 120000
  | .travelDown _ => .range 5000 120000
  | .sunPosition => .range 0 1000
  | .sunInterval => .range 1 30
  | .driveSlots => .range 1 4
  | .runThreshold => .range 50 1000
  | .stallThreshold => .range 500 5000
  | .co2Span _ => .range 2000 5000
  | .retryInterval => .range 10 600
  | .retryLimit => .range 0 10
  | .supervisionPeriod => .offOr 10 600
  | .windowFraction => .oneOf [25, 50, 75, 100]

/-- Judge a written value: the value stored and whether it was clamped, or none where it is refused
(R182, R197). -/
def SettingRule.judge (r : SettingRule) (v : Nat) : Option (Nat × Bool) :=
  match r with
  | .codes n => if v < n then some (v, false) else none
  | .range lo hi => some (clampNat lo hi v, decide (clampNat lo hi v ≠ v))
  | .oneOf l => if l.contains v then some (v, false) else none
  | .offOr lo hi => if v = 0 then some (0, false) else some (clampNat lo hi v, decide (clampNat lo hi v ≠ v))

/-- The ends of a rule's range, as GET_SETTING reports them (log entry 8). A setting that is off or in a range has 0 as
its lower end: the model's choice (log entry 75). -/
def SettingRule.ends : SettingRule → Nat × Nat
  | .codes n => (0, n - 1)
  | .range lo hi => (lo, hi)
  | .oneOf l => (l.headD 0, l.getLastD 0)
  | .offOr _ hi => (0, hi)

/-! ## Reading and writing -/

/-- The value of a setting, as its code or its figure. -/
def Settings.get (w : Settings) : SettingKey → Nat
  | .divisible => if w.divisible then 1 else 0
  | .firePolarity => w.firePolarity.code
  | .purgeEndCo2 => w.purgeEndCo2
  | .area c => w.area.get c
  | .endingWarning => w.endingWarning
  | .doorAssign i => w.doorAssign[i].code
  | .outerEdge i => w.outerEdge[i].code
  | .innerEdge i => w.innerEdge[i].code
  | .beamDebounce i => w.beamDebounce[i]
  | .transitTimeout => w.transitTimeout
  | .detectorAssign i => w.detectorAssign[i].code
  | .detectorEdge i => w.detectorEdge[i].code
  | .presenceHold => w.presenceHold
  | .clearingDelay => w.clearingDelay
  | .vacancyConfirm => w.vacancyConfirm
  | .airPeriod => w.airPeriod
  | .ra => w.ra
  | .qmax c => w.qmax.get c
  | .qmin c => w.qmin.get c
  | .alarmThreshold => w.alarmThreshold
  | .alarmHysteresis => w.alarmHysteresis
  | .defaultCap => w.defaultCap
  | .firePosition c => w.firePosition.get c
  | .strokeTime c => w.strokeTime.get c
  | .trackingTolerance => w.trackingTolerance
  | .kpT => w.kpT
  | .kiT => w.kiT
  | .setbackExtra => w.setbackExtra
  | .valveFallback c => w.valveFallback.get c
  | .channelCell i => w.channelCell[i].code
  | .channelRole i => w.channelRole[i].code
  | .driverMin i => w.driverMin[i]
  | .clearingLevel => w.clearingLevel
  | .kd => w.kd
  | .innerBoost => w.innerBoost
  | .blindCell i => w.blindCell[i].code
  | .blindSide i => w.blindSide[i].code
  | .travelUp i => w.travelUp[i]
  | .travelDown i => w.travelDown[i]
  | .sunPosition => w.sunPosition
  | .sunInterval => w.sunInterval
  | .driveSlots => w.driveSlots
  | .runThreshold => w.runThreshold
  | .stallThreshold => w.stallThreshold
  | .co2Span c => w.co2Span.get c
  | .retryInterval => w.retryInterval
  | .retryLimit => w.retryLimit
  | .supervisionPeriod => w.supervisionPeriod
  | .windowFraction => w.windowFraction

/-- Write a setting from its code or its figure. -/
def Settings.put (w : Settings) (v : Nat) : SettingKey → Settings
  | .divisible => { w with divisible := decide (v = 1) }
  | .firePolarity => { w with firePolarity := FirePolarity.ofCode v }
  | .purgeEndCo2 => { w with purgeEndCo2 := v }
  | .area c => { w with area := w.area.set c v }
  | .endingWarning => { w with endingWarning := v }
  | .doorAssign i => { w with doorAssign := w.doorAssign.set i (CellSetting.ofCode v) }
  | .outerEdge i => { w with outerEdge := w.outerEdge.set i (BeamEdge.ofCode v) }
  | .innerEdge i => { w with innerEdge := w.innerEdge.set i (BeamEdge.ofCode v) }
  | .beamDebounce i => { w with beamDebounce := w.beamDebounce.set i v }
  | .transitTimeout => { w with transitTimeout := v }
  | .detectorAssign i => { w with detectorAssign := w.detectorAssign.set i (CellSetting.ofCode v) }
  | .detectorEdge i => { w with detectorEdge := w.detectorEdge.set i (DetectorEdge.ofCode v) }
  | .presenceHold => { w with presenceHold := v }
  | .clearingDelay => { w with clearingDelay := v }
  | .vacancyConfirm => { w with vacancyConfirm := v }
  | .airPeriod => { w with airPeriod := v }
  | .ra => { w with ra := v }
  | .qmax c => { w with qmax := w.qmax.set c v }
  | .qmin c => { w with qmin := w.qmin.set c v }
  | .alarmThreshold => { w with alarmThreshold := v }
  | .alarmHysteresis => { w with alarmHysteresis := v }
  | .defaultCap => { w with defaultCap := v }
  | .firePosition c => { w with firePosition := w.firePosition.set c v }
  | .strokeTime c => { w with strokeTime := w.strokeTime.set c v }
  | .trackingTolerance => { w with trackingTolerance := v }
  | .kpT => { w with kpT := v }
  | .kiT => { w with kiT := v }
  | .setbackExtra => { w with setbackExtra := v }
  | .valveFallback c => { w with valveFallback := w.valveFallback.set c v }
  | .channelCell i => { w with channelCell := w.channelCell.set i (CellSetting.ofCode v) }
  | .channelRole i => { w with channelRole := w.channelRole.set i (ChannelRole.ofCode v) }
  | .driverMin i => { w with driverMin := w.driverMin.set i v }
  | .clearingLevel => { w with clearingLevel := v }
  | .kd => { w with kd := v }
  | .innerBoost => { w with innerBoost := v }
  | .blindCell i => { w with blindCell := w.blindCell.set i (CellSetting.ofCode v) }
  | .blindSide i => { w with blindSide := w.blindSide.set i (BlindSide.ofCode v) }
  | .travelUp i => { w with travelUp := w.travelUp.set i v }
  | .travelDown i => { w with travelDown := w.travelDown.set i v }
  | .sunPosition => { w with sunPosition := v }
  | .sunInterval => { w with sunInterval := v }
  | .driveSlots => { w with driveSlots := v }
  | .runThreshold => { w with runThreshold := v }
  | .stallThreshold => { w with stallThreshold := v }
  | .co2Span c => { w with co2Span := w.co2Span.set c v }
  | .retryInterval => { w with retryInterval := v }
  | .retryLimit => { w with retryLimit := v }
  | .supervisionPeriod => { w with supervisionPeriod := v }
  | .windowFraction => { w with windowFraction := v }

/-- What the write of a setting does to others, and to itself beside them: a lowered Qmax takes its Qmin
with it (R87), and the run and stall thresholds keep 50 mA apart (R143). The flag says that a value was
clamped so. -/
def Settings.couple (w : Settings) : SettingKey → Settings × Bool
  | .qmax c =>
    if w.qmax.get c < w.qmin.get c then ({ w with qmin := w.qmin.set c (w.qmax.get c) }, true) else (w, false)
  | .stallThreshold =>
    if w.stallThreshold ≤ w.runThreshold then ({ w with stallThreshold := w.runThreshold + 50 }, true)
    else (w, false)
  | .runThreshold =>
    if w.stallThreshold ≤ w.runThreshold then ({ w with runThreshold := w.stallThreshold - 50 }, true)
    else (w, false)
  | _ => (w, false)

/-- A PUT_SETTING's write to the settings record: the record after it, and whether it was clamped; none
where the value is refused (R188). -/
def Settings.write (w : Settings) (k : SettingKey) (v : Nat) : Option (Settings × Bool) :=
  match (w.rule k).judge v with
  | none => none
  | some (stored, clamped) =>
    let r := (w.put stored k).couple k
    some (r.1, clamped || r.2)


/-- Every setting with its instances, in the order of section 10.5. -/
def allSettings : List SettingKey :=
  List.flatten
    [[.divisible, .firePolarity, .purgeEndCo2, .area .a, .area .b, .endingWarning],
     [.doorAssign 0, .doorAssign 1, .doorAssign 2, .doorAssign 3, .outerEdge 0, .outerEdge 1],
     [.outerEdge 2, .outerEdge 3, .innerEdge 0, .innerEdge 1, .innerEdge 2, .innerEdge 3],
     [.beamDebounce 0, .beamDebounce 1, .beamDebounce 2, .beamDebounce 3, .transitTimeout, .detectorAssign 0],
     [.detectorAssign 1, .detectorAssign 2, .detectorAssign 3, .detectorAssign 4, .detectorAssign 5, .detectorEdge 0],
     [.detectorEdge 1, .detectorEdge 2, .detectorEdge 3, .detectorEdge 4, .detectorEdge 5, .presenceHold],
     [.clearingDelay, .vacancyConfirm, .airPeriod, .ra, .qmax .a, .qmax .b],
     [.qmin .a, .qmin .b, .alarmThreshold, .alarmHysteresis, .defaultCap, .firePosition .a],
     [.firePosition .b, .strokeTime .a, .strokeTime .b, .trackingTolerance, .kpT, .kiT],
     [.setbackExtra, .valveFallback .a, .valveFallback .b, .channelCell 0, .channelCell 1, .channelCell 2],
     [.channelCell 3, .channelCell 4, .channelCell 5, .channelCell 6, .channelCell 7, .channelRole 0],
     [.channelRole 1, .channelRole 2, .channelRole 3, .channelRole 4, .channelRole 5, .channelRole 6],
     [.channelRole 7, .driverMin 0, .driverMin 1, .driverMin 2, .driverMin 3, .driverMin 4],
     [.driverMin 5, .driverMin 6, .driverMin 7, .clearingLevel, .kd, .innerBoost],
     [.blindCell 0, .blindCell 1, .blindCell 2, .blindCell 3, .blindSide 0, .blindSide 1],
     [.blindSide 2, .blindSide 3, .travelUp 0, .travelUp 1, .travelUp 2, .travelUp 3],
     [.travelDown 0, .travelDown 1, .travelDown 2, .travelDown 3, .sunPosition, .sunInterval],
     [.driveSlots, .runThreshold, .stallThreshold, .co2Span .a, .co2Span .b, .retryInterval],
     [.retryLimit, .supervisionPeriod, .windowFraction]]

end Sys2Proof.Machine
end

