-- ==== Sys2Proof/Machine/FaultMoves.lean ====
section
/-! DEFINITION. The timers and clearing of fault records (R173, R174), and the effects of a write of each
numbered setting (R188). -/

namespace Sys2Proof.Machine
open Sys2Proof

/-! ## Fault records -/

/-- The sources run under the retry policy: dampers, blind groups, rail (09, section 9.3). -/
inductive Retried where
  | damper (c : Cell)
  | blind (g : Fin 4)
  | rail
  deriving DecidableEq, Repr

/-- The retried source of a source index. -/
def retriedSource (i : Fin 21) : Option Retried :=
  match i with
  | 0 => some (.damper .a)
  | 1 => some (.damper .b)
  | 2 => some (.blind 0)
  | 3 => some (.blind 1)
  | 4 => some (.blind 2)
  | 5 => some (.blind 3)
  | 18 => some .rail
  | _ => none

/-- The doorway channel of a source index. -/
def doorOfSource (i : Fin 21) : Option (Fin 4) :=
  match i with
  | 6 => some 0
  | 7 => some 1
  | 8 => some 2
  | 9 => some 3
  | _ => none

/-- The analog channel of a source index. -/
def sensorOfSource (i : Fin 21) : Option (Fin 8) :=
  match i with
  | 10 => some 0
  | 11 => some 1
  | 12 => some 2
  | 13 => some 3
  | 14 => some 4
  | 15 => some 5
  | 16 => some 6
  | 17 => some 7
  | _ => none

/-- Re-drive a source whose record has returned to CLEAR, through the source's own rule (R173). -/
def State.redriveSource (s : State) : Retried → State
  | .damper c => s.rearmDamper c
  | .blind g => s.rearmBlind g
  | .rail => s.rearmRail

/-- A record's retry timer reaches the retry interval (R173). -/
def State.retryExpiry (s : State) (i : Fin 21) : State :=
  match retriedSource i with
  | none => s
  | some src =>
    if s.faults[i].state = .retryWait then
      (s.updFault i fun r => { r with state := .clear, retryTimer := none }).redriveSource src
    else s

/-- The source reports that it is behaving normally: a damper while tracking runs (R115), a group and
the rail while their record is CLEAR (R155, R161). -/
def State.behaves (s : State) : Retried → Bool
  | .damper c => (s.drives.get c).tracking
  | _ => true

/-- A record runs its normal timer (R173). -/
def State.runsNormal (s : State) (i : Fin 21) : Bool :=
  match retriedSource i with
  | none => false
  | some src => decide (s.faults[i].state = .clear) && decide (0 < s.faults[i].retry) && s.behaves src

/-- A record's normal timer reaches 10 minutes (R173). -/
def State.normalExpiry (s : State) (i : Fin 21) : State :=
  if s.runsNormal i then (s.updFault i fun r => { r with retry := 0, normal := 0 }).notifyFault .faultCleared i
  else s

/-- A record to CLEAR by CLEAR_FAULT, its count returned to 0 unless it is kept (R174). -/
def FaultRec.cleared (r : FaultRec) (keep : Bool) : FaultRec :=
  { r with state := .clear, retryTimer := none, retry := if keep then r.retry else 0,
           normal := if keep then r.normal else 0 }

/-- The doorway counter restarts its stuck timer if the condition still stands (R60, R174). -/
def State.restartStuck (s : State) (i : Fin 21) : State :=
  match doorOfSource i with
  | some d => s.updDoor d fun x => { x with stuck := x.stuck.map fun _ => 0, stuckTold := false }
  | none => s

/-- What CLEAR_FAULT does to a record, or none for WRONG_STATE (R174). FAULT_CLEARED is handed over before
the source is re-driven (log entry 42). -/
def State.clearRecord (s : State) (i : Fin 21) (keep : Bool) : Option State :=
  match s.faults[i].state with
  | .retryWait | .latched =>
    let s1 := (s.updFault i fun r => r.cleared keep).notifyFault .faultCleared i
    match retriedSource i with
    | some src => some (s1.redriveSource src)
    | none => some s1
  | .clear => some (s.updFault i fun r => r.cleared keep)
  | .active =>
    if i = clockSource then none
    else some (((s.updFault i fun r => { r with state := .clear }).notifyFault .faultCleared i).restartStuck i)
  | .holding | .faulted => none

/-! ## The effects of a write (R188) -/

/-- A write of the air update period at or below the elapsed time brings the expiry at once (R88). -/
def State.airPeriodWritten (s : State) : State :=
  if s.working.settings.airPeriod * 1000 ≤ s.air.timer then s.airUpdate else s

/-- A write of the transit timeout applies to every running transit timer at once (R58, R62), in channel order (the
model's choice, log entry 82). -/
def State.transitWritten (s : State) : State :=
  ([0, 1, 2, 3] : List (Fin 4)).foldl (fun s i => if s.transitDue i then s.blockDoor i else s) s

/-- A write of the clearing delay ends at once each clearing that has lasted it (R81), unit A's before unit B's (the
model's choice, log entry 82). -/
def State.clearingWritten (s : State) : State :=
  s.space.units.ids.foldl (fun s id => if s.clearingDue id then s.endClearing id else s) s

/-- A write of vacancy confirm hands the event at once to each unit whose timer has passed it (R67), to unit A before
unit B (the model's choice, log entry 82). -/
def State.vacancyWritten (s : State) : State :=
  s.space.units.ids.foldl (fun s id => if s.vacancyDue id then s.confirmVacancy id else s) s

/-- The retry timer of a record has reached the retry interval as the setting stands (R170). -/
def State.retryDue (s : State) (i : Fin 21) : Bool :=
  s.faults[i].retryTimer.any fun t => decide (s.working.settings.retryInterval * 1000 ≤ t)

/-- The sources under the retry policy, in source order. -/
def retriedIndices : List (Fin 21) := [0, 1, 2, 3, 4, 5, 18]

/-- A write of the retry interval brings at once each expiry it has reached (R170), in source order (the model's
choice, log entry 82). -/
def State.retryWritten (s : State) : State :=
  retriedIndices.foldl (fun s i => if s.retryDue i then s.retryExpiry i else s) s

/-- A write of a cell's stroke time replaces that of its calibration record, with which a running tracking
timer is compared at once (R105, R113, log entry 27). -/
def State.strokeWritten (s : State) (c : Cell) : State :=
  let v := s.working.settings.strokeTime.get c
  let records := s.working.calibrations.upd c fun r => { r with stroke := v }
  let s1 := s.withCalibrations records
  if s1.stallDue c then s1.reportStall c else s1

/-- A write of the default supply cap is followed by a requested cap of source DEFAULT (R101). -/
def State.defaultCapWritten (s : State) : State :=
  if s.air.capSource = .default then s.defaultCap else s

/-- A write of a fire position moves the damper at once while fire is in force (R105). -/
def State.firePositionWritten (s : State) (c : Cell) : State :=
  if s.space.fire = .inForce then (s.redrive c).refreshNeeds else s

/-- A write of the supervision period, whatever the value and the state (R176). -/
def State.periodWritten (s : State) : State :=
  s.updSupervision fun _ => Supervision.fresh s.working.settings.supervisionPeriod

/-- What the owning block does at a write of a setting, the settings record being already written.
`before` is the record as it stood. Settings that are read at their next use do nothing here. -/
def State.settingWritten (s : State) (k : SettingKey) (before : Settings) : State :=
  match k with
  | .divisible => s.arrange false
  | .firePolarity => s.polarityWritten
  | .doorAssign i => s.returnDoor i false false
  | .outerEdge i => s.returnDoor i true false
  | .innerEdge i => s.returnDoor i false true
  | .transitTimeout => s.transitWritten
  | .presenceHold => (s.judgePresence .a).judgePresence .b
  | .clearingDelay => s.clearingWritten
  | .vacancyConfirm => s.vacancyWritten
  | .airPeriod => s.airPeriodWritten
  | .defaultCap => s.defaultCapWritten
  | .firePosition c => s.firePositionWritten c
  | .strokeTime c => s.strokeWritten c
  | .channelCell i => s.channelCellWritten i before.channelCell[i].cell?
  | .driverMin i => s.driverMinWritten i
  | .blindCell g => s.blindCellWritten g
  | .travelUp g => s.travelWritten g false
  | .travelDown g => s.travelWritten g true
  | .driveSlots => s.driveSlotsWritten
  | .retryInterval => s.retryWritten
  | .supervisionPeriod => s.periodWritten
  | _ => s

/-! ## The settings store (R189 to R191) -/

/-- What a save takes as its snapshot (R189, R190). -/
def State.snapshot (s : State) : Image where
  working := s.working
  chain := if s.walker.active.state = .active then some (s.walker.active.entries, s.walker.active.repeating)
    else none

/-- A save begins: the snapshot is taken and the validity mark erased (R190, log entry 38). -/
def State.beginSave (s : State) : State :=
  s.updStore fun _ => { image := none, saving := some { snapshot := s.snapshot, elapsed := 0 } }

/-- A save completes OK: the image is VALID, and the store's fault record CLEAR (R190, R171). -/
def State.saveOk (s : State) (k : Saving) : State :=
  let s1 := s.updStore fun _ => { image := some k.snapshot, saving := none }
  (s1.notify .saveDone none none 0 none).withdrawFault storeSource

/-- A save completes FAILED: the image is NONE, and the fault is reported (R190, R171). -/
def State.saveFailed (s : State) : State :=
  let s1 := s.updStore fun _ => { image := none, saving := none }
  let s2 := s1.notify .saveDone none none 1 none
  (s2.reportPlain storeSource .saveFailed .active).notifyFault .faultRaised storeSource

/-- A restore of the setting leaves its owner's state as it stands, by the owner's chapter: the occupancy tracker
(R86), the air demand unit until its next air update (R104), the terminal drive (R125), the drive slots of the blind
unit (R163). A write of travel times, which is a new
segment from the estimate as it stands, leaves what R163 names (log entry 61). -/
def SettingKey.standsAtRestore : SettingKey → Bool
  | .clearingDelay | .vacancyConfirm | .airPeriod | .firePosition _ | .strokeTime _ | .driveSlots => true
  | _ => false

/-- Restore the image: the settings whole, then for each setting whose value has changed the effects of
its write, in the order of section 10.5, but for those whose owner's chapter has a restore leave the state as it stands
(log entry 61); then the profiles, damper tables and calibration records (R191, log entry 37). -/
def State.restore (s : State) (image : Image) : State :=
  let before := s.working.settings
  let s1 := s.withSettings image.working.settings
  let changed := allSettings.filter fun k =>
    decide (before.get k ≠ image.working.settings.get k) && !k.standsAtRestore
  let s2 := changed.foldl (fun s k => s.settingWritten k before) s1
  ((s2.withProfiles image.working.profiles).withTables image.working.tables).withCalibrations
    image.working.calibrations

end Sys2Proof.Machine
end

