-- ==== Sys2Proof/Machine/Codes.lean ====
section
/-! DEFINITION. The encodings of section 11.1, the codes of section 11.3, and the bytes of a frame (11.2,
11.5). -/

namespace Sys2Proof.Machine
open Sys2Proof

/-! ## Numbers (R195, R196) -/

/-- A one-byte field. A value that does not fit it is carried as a free value (log entry 9). -/
def byte1 (n : Nat) : List Byte := [if n < 256 then BitVec.ofNat 8 n else Config.wideByte n]

/-- A two-byte field. A value that does not fit it is carried as a free value (log entry 9). -/
def byte2 (n : Nat) : List Byte := le16 (if n < 65536 then BitVec.ofNat 16 n else Config.wideField n)

/-- A four-byte field. -/
def byte4 (n : Nat) : List Byte := le32 (BitVec.ofNat 32 n)

/-- A one-byte field that may be absent (R196). -/
def opt1 : Option Nat → List Byte
  | none => [0xFF]
  | some n => byte1 n

/-- A two-byte field that may be absent (R196); a value its all-ones code would swallow is carried as a
free value (log entry 9). -/
def opt2 : Option Nat → List Byte
  | none => [0xFF, 0xFF]
  | some n => le16 (if n < 65535 then BitVec.ofNat 16 n else Config.wideField n)

/-- A four-byte field that may be absent (R196). -/
def opt4 : Option Nat → List Byte
  | none => [0xFF, 0xFF, 0xFF, 0xFF]
  | some n => byte4 n

/-- The signed proportional part, 0x80000000 where it is absent (R195, R196). -/
def signed4 : Option Int → List Byte
  | none => le32 0x80000000
  | some p => le32 (BitVec.ofInt 32 p)

/-- A flag carried as one byte, 0 or 1 (log entry 8). -/
def flag1 (b : Bool) : List Byte := [if b then 1 else 0]

/-- A flags byte, bit 0 first. -/
def flagsByte : List Bool → Nat
  | [] => 0
  | b :: rest => (if b then 1 else 0) + 2 * flagsByte rest

/-- A code of section 11.3. -/
def code1 (n : Nat) : List Byte := [BitVec.ofNat 8 n]

/-- An enumerated field whose codes section 11.3 does not list (log entry 7). -/
def free1 (f : UnlistedField) (n : Nat) : List Byte := [Config.unlistedCode f n]

/-- The whole seconds of a time kept in ms. -/
def secs (ms : Nat) : Nat := ms / 1000

/-- The whole seconds remaining of a time kept in ms, a second begun counting whole. -/
def secsLeft (ms : Nat) : Nat := ceilDiv ms 1000

/-! ## Codes of section 11.3 -/

/-- The code of a reply status. -/
def ReplyStatus.code : ReplyStatus → Nat
  | .ok => 0
  | .clamped => 1
  | .badLength => 2
  | .unknownKind => 3
  | .badValue => 4
  | .busy => 5
  | .wrongState => 6
  | .fireLock => 7

/-- The code of a cell. -/
def cellCode : Cell → Nat
  | .a => 0
  | .b => 1

/-- The code of a unit. -/
def unitCode : UnitId → Nat
  | .a => 0
  | .b => 1
  | .ab => 2

/-- The code of an entry target. -/
def Target.code : Target → Nat
  | .a => 0
  | .b => 1
  | .joined => 2

/-- The code of a room mode. -/
def Mode.code : Mode → Nat
  | .setback => 0
  | .precondition => 1
  | .await => 2
  | .occupied => 3
  | .purge => 4
  | .fire => 5

/-- The code of an occupancy state. -/
def Occupancy.code : Occupancy → Nat
  | .vacant => 0
  | .occupied => 1
  | .clearing => 2

/-- The code of a count state. -/
def CountState.code : CountState → Nat
  | .exact => 0
  | .uncertain => 1

/-- The code of a walker state. -/
def WalkerState.code : WalkerState → Nat
  | .idle => 0
  | .clockWait => 1
  | .running => 2
  | .stalled => 3
  | .paused => 4
  | .finished => 5

/-- The code of a bank state. -/
def BankState.code : BankState → Nat
  | .empty => 0
  | .loading => 1
  | .ready => 2
  | .active => 3

/-- The code of a repeat setting. -/
def Repeating.code : Repeating → Nat
  | .weekly => 0
  | .once => 1

/-- The code of a switch timing. -/
def SwitchTiming.code : SwitchTiming → Nat
  | .now => 0
  | .atWeekEnd => 1
  | .atChainEnd => 2

/-- The code of a stop mark mode (section 11.2). -/
def MarkMode.code : MarkMode → Nat
  | .notifyOnly => 0
  | .pause => 1

/-- The code of a booking state. -/
def BookingState.code : BookingState → Nat
  | .armed => 0
  | .running => 1
  | .held => 2

/-- The code of a slot. -/
def SlotKind.code : SlotKind → Nat
  | .next => 0
  | .current => 1

/-- The code of a blind policy. -/
def BlindPolicy.code : BlindPolicy → Nat
  | .daylight => 0
  | .present => 1
  | .dark => 2

/-- The code of a cap source. -/
def CapSource.code : CapSource → Nat
  | .host => 0
  | .default => 1

/-! ## Enumerated fields without listed codes, in the order their rules name the values -/

/-- The place of a group state in R143's list. -/
def GroupState.order : GroupState → Nat
  | .stopped => 0
  | .queued => 1
  | .movingUp => 2
  | .movingDown => 3
  | .reversing => 4
  | .fault => 5

/-- The place of a relay drive in R143's list: UP, DOWN or none. -/
def Relay.order : Relay → Nat
  | .up => 0
  | .down => 1
  | .none => 2

/-- The place of a rail state in R160's list. -/
def RailState.order : RailState → Nat
  | .off => 0
  | .rising => 1
  | .on => 2
  | .faulted => 3

/-- The place of a sensor state in R164's list. -/
def SensorState.order : SensorState → Nat
  | .normal => 0
  | .holding => 1
  | .faulted => 2

/-- The place of a command source in R105's list. -/
def CommandSource.order : CommandSource → Nat
  | .computed => 0
  | .override => 1
  | .fire => 2
  | .calibration => 3

/-- The place of a calibration phase in R118's table. -/
def DamperPhase.order : DamperPhase → Nat
  | .waitRail => 0
  | .closing => 1
  | .opening => 2

/-- The place of a fade direction in R141's list. -/
def FadeDirection.order : FadeDirection → Nat
  | .up => 0
  | .down => 1
  | .none => 2

/-- The place of a supervision state in R176's list. -/
def SupervisionState.order : SupervisionState → Nat
  | .unsupervised => 0
  | .awaitingFirst => 1
  | .supervised => 2
  | .lapsed => 3

/-! ## Frames (R179, 11.2, 11.5) -/

/-- The SYNC byte. -/
def syncByte : Byte := 0xA5

/-- The sum of bytes, modulo 256. -/
def byteSum (bs : List Byte) : Byte := bs.foldl (· + ·) 0

/-- The bytes of a frame: SYNC, LEN, KIND, TAG, payload and the CHECK that brings their sum to 0. -/
def frameBytes (kind tag : Byte) (payload : List Byte) : List Byte :=
  let body := BitVec.ofNat 8 payload.length :: kind :: tag :: payload
  syncByte :: body ++ [-(byteSum body)]

/-- The payload of a reply: the status and what follows it. -/
def Reply.payload (r : Reply) : List Byte := code1 r.status.code ++ r.data

/-- The code of a notice's unit or cell field (section 11.5). -/
def Place.code : Place → Nat
  | .a => 0
  | .b => 1
  | .ab => 2
  | .both => 3

/-- The KIND of a notice frame, from 0x80 (section 11.2). -/
def NoticeKind.byte (k : NoticeKind) : Byte := BitVec.ofNat 8 (0x80 + k.index.val)

/-- The payload of a notice frame (section 11.5). -/
def Notice.payload (n : Notice) (overflow : Bool) : List Byte :=
  byte1 (flagsByte [overflow, n.tag.isSome, n.clockSet]) ++ opt1 (n.place.map Place.code) ++ opt1 n.source
    ++ byte4 n.value ++ le16 (n.tag.getD 0) ++ byte2 n.minute

/-- The bytes the transmitter sends for a frame; a notice has TAG 0 (R185). -/
def TxFrame.bytes : TxFrame → List Byte
  | .reply r => frameBytes r.kind r.tag r.payload
  | .notice n overflow => frameBytes n.kind.byte 0 (n.payload overflow)

/-- The bytes of a frame on the line: the payload and the five bytes about it. -/
def TxFrame.length : TxFrame → Nat
  | .reply r => r.data.length + 6
  | .notice _ _ => 16

end Sys2Proof.Machine
end

