-- ==== Sys2Proof/Machine/Layouts.lean ====
section
/-! DEFINITION. The reply records (11, sections 11.4, 11.6 to 11.8, and the untabled replies by R195 and log
entry 8), without the status byte. -/

namespace Sys2Proof.Machine
open Sys2Proof

/-! ## Entries and profiles (11.4) -/

/-- The eleven bytes of a chain entry. -/
def Entry.bytes (e : Entry) : List Byte :=
  byte2 e.start ++ byte2 e.duration ++ code1 e.target.code ++ byte1 e.profile.val ++ byte2 e.expected
    ++ byte1 (flagsByte [e.notifyEnd, e.hold, e.last]) ++ le16 e.tag

/-- The forty-seven bytes of a profile record. -/
def Profile.bytes (p : Profile) : List Byte :=
  p.name.toList ++ byte2 p.rp ++ byte2 p.co2Setpoint ++ byte1 p.kp ++ byte1 p.ki ++ byte2 p.imax
    ++ byte2 p.qcap ++ byte2 p.slew ++ byte2 p.comfort ++ byte1 p.standby ++ byte2 p.lux
    ++ code1 (if p.harvest then 1 else 0) ++ byte2 p.board ++ byte2 p.front ++ byte2 p.window
    ++ byte2 p.inner ++ byte2 p.awaitLevel ++ byte2 p.fadeUp ++ byte2 p.fadeDown ++ byte1 p.lead
    ++ byte1 p.noShow ++ byte1 p.earlyVacate ++ byte1 p.purge ++ byte2 p.awaitFraction
    ++ code1 p.policy.code

/-- The nineteen bytes of a damper table: the cell and its nine points. -/
def tableBytes (c : Cell) (points : Vector Nat 9) : List Byte :=
  code1 (cellCode c) ++ points.toList.flatMap byte2

/-! ## The unit status reply (R22, R74, R103, 11.6) -/

/-- The unit's clearing time remaining: the delay less the elapsed time (R81). -/
def State.clearingLeft (s : State) (u : UnitRec) : Option Nat :=
  u.clearing.map fun t => s.working.settings.clearingDelay - secs t

/-- A unit names the cell as one of its own. -/
def unitHas (id : UnitId) (c : Cell) : Bool := id.cells.contains c

/-- The reply to GET_UNIT for the record of a unit that exists. -/
def State.unitBytes (s : State) (id : UnitId) (u : UnitRec) : List Byte :=
  let tag := (s.governingBooking u).map (·.entry.tag)
  byte1 (unitCode id) ++ byte2 u.headcount ++ code1 u.count.code ++ code1 u.occupancy.code
    ++ opt2 (s.clearingLeft u) ++ byte2 u.vacancyTimer ++ byte1 u.forcedTimer ++ code1 u.mode.code
    ++ code1 u.prevMode.code ++ opt2 (u.purge.map secsLeft) ++ byte1 u.profile.val
    ++ opt1 (u.governing.map fun g => cellCode g.1) ++ opt1 (u.governing.map fun g => g.2.code)
    ++ le16 (tag.getD 0) ++ opt1 (u.lingering.map (·.val)) ++ byte2 u.integral ++ byte2 u.demand
    ++ byte2 u.allocation
    ++ byte1 (flagsByte [u.atUpper, u.budgetLimited, u.co2Alarm, s.anyFault, tag.isSome, unitHas id .a, unitHas id .b])
    ++ byte1 (if unitHas id .a then s.drift.a else 0) ++ byte1 (if unitHas id .b then s.drift.b else 0)
    ++ opt2 u.terms.area ++ opt2 u.terms.persons ++ opt4 u.terms.person ++ signed4 u.terms.proportional
    ++ opt4 u.terms.trim ++ opt2 u.terms.upper ++ opt2 u.terms.co2 ++ byte2 s.air.requestedCap
    ++ code1 s.air.capSource.code ++ byte2 s.air.capInForce ++ byte2 s.air.sumDemand
    ++ byte2 s.air.sumAllocation ++ byte1 (secs s.air.timer)

/-- The drift tallies carried are returned to 0 (R74). -/
def State.readDrift (s : State) (id : UnitId) : State :=
  s.updDrift fun d => ⟨if unitHas id .a then 0 else d.a, if unitHas id .b then 0 else d.b⟩

/-! ## The chain state reply (R51, 11.7) -/

/-- A slot record: the booking of a slot, or the empty slot (R196). -/
def slotBytes : Option Booking → List Byte
  | none => 0xFF :: List.replicate 19 0
  | some k =>
    code1 k.state.code ++ opt1 k.index ++ byte2 k.minutes ++ byte2 k.sinceStart ++ byte2 k.vacant
      ++ byte1 (flagsByte [k.seenOccupied, k.startedLate, k.marked]) ++ k.entry.bytes

/-- A bank's state, repeat setting and entry count. -/
def Bank.bytes (b : Bank) : List Byte :=
  code1 b.state.code ++ code1 b.repeating.code ++ byte1 b.entries.length

/-- The part of GET_CHAIN's reply that it always carries. -/
def State.chainBytes (s : State) : List Byte :=
  let w := s.walker
  byte2 s.clock.minute ++ byte1 s.clock.second
    ++ byte1 (flagsByte [s.clock.isSet, !s.clock.crystal, s.clock.degraded]) ++ code1 w.state.code
    ++ w.active.bytes ++ w.standby.bytes ++ opt1 w.cursor ++ byte2 w.cycle ++ byte2 w.offset
    ++ opt1 (w.queuedSwitch.map SwitchTiming.code) ++ opt1 (w.stopMark.map (·.index))
    ++ opt1 (w.stopMark.map fun m => m.mode.code) ++ byte1 s.working.settings.endingWarning
    ++ slotBytes (w.next.inCell .a) ++ slotBytes (w.current.inCell .a) ++ slotBytes (w.next.inCell .b)
    ++ slotBytes (w.current.inCell .b)

/-! ## The fault list (R175, 11.8) -/

/-- The time remaining on a record's retry timer or its sensor's hold timer, whichever runs (R175). -/
def State.faultLeft (s : State) (i : Fin 21) : Option Nat :=
  match s.faults[i].retryTimer, sensorOfSource i with
  | some t, _ => some (s.working.settings.retryInterval - secs t)
  | none, some c => (s.holdRuns c).map fun t => secsLeft (Config.holdMs - t)
  | none, none => none

/-- One record of the fault list. -/
def State.faultBytes (s : State) (i : Fin 21) : List Byte :=
  let r := s.faults[i]
  byte1 i.val ++ code1 r.state.code ++ code1 r.kind.code ++ byte1 r.retry ++ byte1 r.occurrences
    ++ opt2 r.firstSeen ++ opt2 (s.faultLeft i) ++ opt2 (if s.runsNormal i then some (secs r.normal) else none)

/-- The source indices in order. -/
def allSources : List (Fin 21) :=
  [0, 1, 2, 3, 4, 5, 6, 7, 8, 9, 10, 11, 12, 13, 14, 15, 16, 17, 18, 19, 20]

/-- The reply to GET_FAULTS, for every record or for those that are not CLEAR. -/
def State.faultListBytes (s : State) (all : Bool) : List Byte :=
  let listed := allSources.filter fun i => all || decide (s.faults[i].state ≠ .clear)
  flag1 s.anyFault ++ byte2 s.working.settings.retryInterval ++ byte1 s.working.settings.retryLimit
    ++ byte1 listed.length ++ listed.flatMap s.faultBytes

/-! ## Untabled replies (R195; log entry 8) -/

/-- The reply to GET_SETTING: working value, image value, range and default (R188). -/
def State.settingBytes (s : State) (k : SettingKey) : List Byte :=
  let ends := (s.working.settings.rule k).ends
  byte4 (s.working.settings.get k) ++ opt4 (s.store.image.map fun i => i.working.settings.get k)
    ++ byte4 ends.1 ++ byte4 ends.2 ++ byte4 (Settings.factory.get k)

/-- The reply to IDENT (R184). -/
def State.identBytes (s : State) : List Byte :=
  le16 Config.vendorCode ++ le16 Config.familyCode ++ byte2 Config.partNumber ++ le16 Config.logicRevision
    ++ code1 s.link.cause.code ++ byte4 (min 4294967295 (secs s.link.uptimeMs))
    ++ free1 .imageState (if s.store.image.isSome then 0 else 1)
    ++ free1 .storeState (if s.store.saving.isSome then 1 else 0)
    ++ le16 s.link.framesTaken ++ le16 s.link.checkErrors ++ le16 s.link.abandoned ++ le16 s.link.overruns
    ++ flag1 s.link.overflow ++ byte2 s.link.dropped

/-- The opening point of a period: whole seconds after its start (R176). -/
def openingPoint (period fraction : Nat) : Nat := period * (100 - fraction) / 100

/-- The reply to KEEPALIVE, whose outcome is the `outcome`-th of R177's table (R177). -/
def State.keepaliveBytes (s : State) (outcome : Nat) : List Byte :=
  let w := s.working.settings
  let left := fun total : Nat => s.supervision.period.map fun t => total - secs t
  free1 .keepaliveOutcome outcome ++ free1 .supervisionState s.supervision.state.order
    ++ opt2 (left (openingPoint w.supervisionPeriod w.windowFraction)) ++ opt2 (left w.supervisionPeriod)

/-- A channel's value, state and last sample (R23, R169). -/
def Sensor.bytes (c : Sensor) : List Byte :=
  opt2 c.value ++ free1 .sensorState c.state.order ++ opt2 c.lastSample

/-- The value of the override on a target, or absent. -/
def State.overrideBytes (s : State) (t : Fin 16) : List Byte := opt2 (s.space.overrides[t].map (·.value))

/-- GET_CELL's fields of the space coordinator and the sensors (R23, R169). That R169's fields stand inside R23's list,
each last sample behind its sensor's state and the feedback channel between the lux and the damper command, is the
model's choice (log entry 79). The codes of the partition state (CLOSED 0, OPEN 1) and of the arrangement (SPLIT 0,
JOINED 1) are those of the notice PARTITION_CHANGED in section 11.5; that GET_CELL uses them, section 11.3 listing none,
is the model's choice too (log entry 80). -/
def State.cellSpaceBytes (s : State) (c : Cell) : List Byte :=
  let u := s.unitOf c
  let d := s.drives.get c
  code1 (if s.space.partition = .opened then 1 else 0) ++ flag1 s.working.settings.divisible
    ++ code1 (if s.space.units.isJoined then 1 else 0) ++ code1 (unitCode (s.space.units.idOf c))
    ++ code1 u.mode.code ++ byte1 u.profile.val ++ free1 .fireState (if s.space.fire = .inForce then 1 else 0)
    ++ flag1 (s.presence.cells.get c).present ++ s.scanner.channels[co2Channel c].bytes
    ++ s.scanner.channels[tempChannel c].bytes ++ s.scanner.channels[luxChannel c].bytes
    ++ s.scanner.channels[feedbackChannel c].bytes ++ byte2 d.driven ++ opt2 d.feedback ++ byte2 d.valveDriven
    ++ s.overrideBytes (damperTarget c) ++ s.overrideBytes (valveTarget c)
    ++ byte2 (s.working.settings.firePosition.get c)

/-- GET_CELL's fields of the terminal drive (R124). The damper table is its nine points, without the cell (the model's
choice, log entry 73). The setpoint is none as soon as the unit is in FIRE, and after a
fire the last update's until the next: the model's choice (log entry 64). -/
def State.cellDriveBytes (s : State) (c : Cell) : List Byte :=
  let d := s.drives.get c
  let r := s.working.calibrations.get c
  (s.working.tables.get c).toList.flatMap byte2 ++ opt2 d.flow ++ opt2 d.position ++ byte2 d.computed
    ++ byte2 d.driven ++ free1 .commandSource d.source.order ++ byte2 d.output ++ opt2 d.feedback
    ++ flag1 d.feedbackGood ++ flag1 d.tracking ++ opt2 d.reference ++ opt2 (d.trackTimer.map secs)
    ++ flag1 r.calibrated ++ byte2 r.fbLow ++ byte2 r.fbHigh ++ byte2 r.stroke
    ++ (match d.cal with
      | some k => free1 .damperPhase k.phase.order ++ opt2 (some (secs k.elapsed))
      | none => opt1 none ++ opt2 none)
    ++ opt2 (if (s.unitOf c).mode = .fire then none else d.setpoint) ++ byte2 d.integral
    ++ byte2 d.valveComputed ++ byte2 d.valveDriven ++ byte2 d.valveOutput ++ byte2 (secs d.tempTimer)

/-- A beam's debounced level and beam state (R63). The level is one byte, high 1 and low 0: the model's choice (log
entry 59). -/
def Beam.bytes (b : Beam) : List Byte :=
  opt1 (b.debounced.map fun x => if x then 1 else 0) ++ free1 .beamState (if b.broken then 0 else 1)

/-- A detector's line of GET_DOORWAY (R63). -/
def State.detectorBytes (s : State) (i : Fin 6) : List Byte :=
  code1 s.working.settings.detectorAssign[i].code ++ code1 s.working.settings.detectorEdge[i].code
    ++ opt2 (s.presence.detectors[i].sinceMotion.map secs)

/-- A cell's presence and the time since its last motion event (R63). -/
def CellPresence.bytes (p : CellPresence) : List Byte := flag1 p.present ++ opt2 (p.sinceMotion.map secs)

/-- The reply to GET_DOORWAY (R63). -/
def State.doorwayBytes (s : State) (i : Fin 4) : List Byte :=
  let d := s.doors[i]
  let w := s.working.settings
  code1 w.doorAssign[i].code ++ code1 w.outerEdge[i].code ++ code1 w.innerEdge[i].code
    ++ byte4 w.beamDebounce[i] ++ byte2 w.transitTimeout ++ code1 d.passage.code ++ flag1 d.rearm
    ++ d.outer.bytes ++ d.inner.bytes ++ opt2 (d.transit.map secs) ++ opt2 (d.blockClear.map secs)
    ++ opt2 (d.stuck.map secs) ++ le16 d.entries ++ le16 d.exits ++ le16 d.turnBacks ++ le16 d.blocks
    ++ opt1 ((s.doorCell i).map fun c => unitCode (s.space.units.idOf c))
    ++ ([0, 1, 2, 3, 4, 5] : List (Fin 6)).flatMap s.detectorBytes
    ++ s.presence.cells.a.bytes ++ s.presence.cells.b.bytes

/-- The cell fields of GET_CHANNEL (R141). -/
def State.daylightBytes (s : State) (c : Cell) : List Byte :=
  let d := s.lighting.cells.get c
  byte2 d.factor ++ byte2 (s.effectiveFactor c) ++ flag1 d.updated ++ flag1 d.frozen
    ++ opt2 (d.freeze.map secs) ++ opt2 s.scanner.channels[luxChannel c].value
    ++ free1 .sensorState s.scanner.channels[luxChannel c].state.order

/-- The cell fields of GET_CHANNEL for a channel not in use: absent (R141). -/
def noDaylightBytes : List Byte := List.replicate 11 0xFF

/-- The reply to GET_CHANNEL (R141). The pending and the applied PWM duty are two bytes each: the model's choice (log
entry 67). -/
def State.channelBytes (s : State) (i : Fin 8) : List Byte :=
  let r := s.lighting.channels[i]
  let w := s.working.settings
  let cell := s.channelCell i
  let u := cell.map s.unitOf
  code1 w.channelCell[i].code ++ code1 w.channelRole[i].code ++ byte2 w.driverMin[i]
    ++ opt1 (cell.map fun c => unitCode (s.space.units.idOf c)) ++ opt1 (u.map fun u => u.mode.code)
    ++ opt1 (u.map fun u => u.occupancy.code) ++ opt1 (u.map fun u => u.profile.val)
    ++ opt2 (cell.map fun c => (s.profileOf c).scene w.channelRole[i]) ++ byte2 r.computed
    ++ s.overrideBytes (lightTarget i) ++ byte2 r.target ++ byte2 r.output ++ byte2 r.applied
    ++ byte2 r.pendingDuty ++ byte2 r.appliedDuty ++ free1 .fadeDirection r.fade.order ++ opt2 r.stepSize
    ++ (match cell with
      | some c => s.daylightBytes c
      | none => noDaylightBytes)
    ++ byte2 w.clearingLevel ++ byte1 w.kd ++ byte2 w.innerBoost

/-- A queue entry of GET_BLIND, with its kind (R162). -/
def QueueEntry.bytes (e : QueueEntry) : List Byte :=
  byte1 e.group.val ++ byte2 e.target ++ free1 .queueKind (flagsByte [e.reference, e.calibration, e.fire])

/-- A calibration's phase and the time in the current leg (R162). -/
def Group.calBytes (r : Group) : List Byte :=
  match r.cal with
  | some k => free1 .blindPhase k.leg ++ opt4 (if r.state.energised then some r.legMs else none)
  | none => opt1 none ++ opt4 none

/-- The relay energised, or none (R143, R196). -/
def Relay.bytes : Relay → List Byte
  | .none => opt1 Option.none
  | r => free1 .relay r.order

/-- The reply to GET_BLIND (R162). -/
def State.blindBytes (s : State) (g : Fin 4) : List Byte :=
  let r := s.blinds.groups[g]
  let w := s.working.settings
  let b := s.blinds
  let cell := s.groupCell g
  code1 w.blindCell[g].code ++ code1 w.blindSide[g].code ++ byte4 w.travelUp[g] ++ byte4 w.travelDown[g]
    ++ opt1 (cell.map fun c => unitCode (s.space.units.idOf c))
    ++ opt1 (cell.map fun c => (s.unitOf c).mode.code) ++ opt1 (cell.map fun c => (s.profileOf c).policy.code)
    ++ byte2 r.computedTarget ++ s.overrideBytes (blindTarget g) ++ byte2 r.target ++ flag1 r.sunUsed
    ++ byte2 r.estimate ++ flag1 r.referenced ++ free1 .groupState r.state.order
    ++ r.state.relay.bytes ++ opt2 r.current ++ opt2 (r.sinceMove.map secs) ++ r.calBytes
    ++ code1 s.faults[blindSource g].state.code ++ flag1 b.sun
    ++ opt2 (b.sunHold.map fun t => secsLeft (Config.sunHoldMs - t)) ++ byte1 w.driveSlots
    ++ byte1 b.slots.length ++ b.slots.flatMap (fun g => byte1 g.val)
    ++ byte1 b.queue.length ++ b.queue.flatMap QueueEntry.bytes ++ free1 .railState s.rail.state.order
    ++ flag1 s.rail.driveNeed ++ flag1 s.rail.blindNeed
    ++ opt2 ((match s.rail.settle with
      | some t => some t
      | none => s.rail.linger).map secs)

end Sys2Proof.Machine
end

