-- ==== Sys2Proof/Machine/Operands.lean ====
section
/-! DEFINITION. The operands of requests: enumerated bytes, indices and flags as section 11.3 codes them. A
code or index out of range gives none. -/

namespace Sys2Proof.Machine
open Sys2Proof

/-- Cell: A 0, B 1. -/
def cellOperand (b : Byte) : Option Cell :=
  match b.toNat with
  | 0 => some .a
  | 1 => some .b
  | _ => none

/-- Unit: A 0, B 1, AB 2. -/
def unitOperand (b : Byte) : Option UnitId :=
  match b.toNat with
  | 0 => some .a
  | 1 => some .b
  | 2 => some .ab
  | _ => none

/-- An index below `n`: a channel, group, profile, target or source. -/
def indexOperand (n : Nat) (b : Byte) : Option (Fin n) :=
  if h : b.toNat < n then some ⟨b.toNat, h⟩ else none

/-- A two-valued operand: 0 or 1. -/
def bitOperand (b : Byte) : Option Bool :=
  match b.toNat with
  | 0 => some false
  | 1 => some true
  | _ => none

/-- Repeat: WEEKLY 0, ONCE 1. -/
def repeatOperand (b : Byte) : Option Repeating :=
  match b.toNat with
  | 0 => some .weekly
  | 1 => some .once
  | _ => none

/-- Switch timing: NOW 0, AT_WEEK_END 1, AT_CHAIN_END 2. -/
def timingOperand (b : Byte) : Option SwitchTiming :=
  match b.toNat with
  | 0 => some .now
  | 1 => some .atWeekEnd
  | 2 => some .atChainEnd
  | _ => none

/-- Stop mark mode: NOTIFY 0, PAUSE 1. -/
def markOperand (b : Byte) : Option MarkMode :=
  match b.toNat with
  | 0 => some .notifyOnly
  | 1 => some .pause
  | _ => none

/-- Entry target: A 0, B 1, JOINED 2. -/
def targetOperand (b : Byte) : Option Target :=
  match b.toNat with
  | 0 => some .a
  | 1 => some .b
  | 2 => some .joined
  | _ => none

/-- Blind policy: DAYLIGHT 0, PRESENT 1, DARK 2. -/
def policyOperand (b : Byte) : Option BlindPolicy :=
  match b.toNat with
  | 0 => some .daylight
  | 1 => some .present
  | 2 => some .dark
  | _ => none

/-- The all-ones byte: ALL for CLEAR_OVERRIDE and SET_NOTICE_MASK, NONE for SET_STOP_MARK (R196). -/
def allOnes (b : Byte) : Bool := decide (b = 0xFF)

/-- A notice kind, 0x80 to 0x9C, as its place in code order (section 11.2). -/
def noticeOperand (b : Byte) : Option (Fin 29) :=
  if h : 0x80 ≤ b.toNat ∧ b.toNat < 0x80 + 29 then some ⟨b.toNat - 0x80, by omega⟩ else none

/-! ## Booking entries (R30, R197) -/

/-- The most people an entry of a target may expect (R30). -/
def Target.maxExpected : Target → Nat
  | .joined => 500
  | _ => 250

/-- The decoding of an entry's enumerated byte and flags byte (R197): the target, or none. -/
def entryTarget (e : EntryRecord) : Option Target :=
  if e.flags.toNat < 8 then targetOperand e.target else none

/-- The entry as R30 stores it, and whether a field was clamped; none where a field is refused. -/
def judgeEntry (e : EntryRecord) : Option (Entry × Bool) :=
  match entryTarget e, indexOperand 8 e.profile with
  | some t, some p =>
    if 10079 < e.start.toNat ∨ p.val = 0 then none
    else
      let d := clampNat 5 720 e.duration.toNat
      let n := min t.maxExpected e.expected.toNat
      some
        ({ start := e.start.toNat, duration := d, target := t, profile := p, expected := n,
           notifyEnd := e.flags.getLsbD 0, hold := e.flags.getLsbD 1, last := e.flags.getLsbD 2,
           tag := e.tag },
         decide (d ≠ e.duration.toNat) || decide (n ≠ e.expected.toNat))
  | _, _ => none

/-! ## Profiles (R9) -/

/-- The no-show minutes as R9 stores them: 0 stays, 1 to 4 are raised to 5. -/
def clampNoShow (v : Nat) : Nat := if v = 0 then 0 else clampNat 5 60 v

/-- A name character of R9. -/
def nameChar (b : Byte) : Bool := decide (0x20 ≤ b.toNat) && decide (b.toNat ≤ 0x7E)

/-- The record with every numeric field brought into its range (R9). -/
def clampProfile (r : ProfileRecord) (harvest : Bool) (policy : BlindPolicy) : Profile where
  name := r.name
  rp := clampNat 0 200 r.rp.toNat
  co2Setpoint := clampNat 600 1500 r.co2Setpoint.toNat
  kp := r.kp.toNat
  ki := r.ki.toNat
  imax := clampNat 0 10000 r.imax.toNat
  qcap := clampNat 100 1000 r.qcap.toNat
  slew := clampNat 5 1000 r.slew.toNat
  comfort := clampNat 180 260 r.comfort.toNat
  standby := clampNat 0 40 r.standby.toNat
  lux := clampNat 100 1000 r.lux.toNat
  harvest := harvest
  board := clampNat 0 1000 r.board.toNat
  front := clampNat 0 1000 r.front.toNat
  window := clampNat 0 1000 r.window.toNat
  inner := clampNat 0 1000 r.inner.toNat
  awaitLevel := clampNat 0 1000 r.awaitLevel.toNat
  fadeUp := clampNat 10 1000 r.fadeUp.toNat
  fadeDown := clampNat 10 1000 r.fadeDown.toNat
  lead := clampNat 0 120 r.lead.toNat
  noShow := clampNoShow r.noShow.toNat
  earlyVacate := clampNat 5 60 r.earlyVacate.toNat
  purge := clampNat 0 60 r.purge.toNat
  awaitFraction := clampNat 0 1000 r.awaitFraction.toNat
  policy := policy

/-- The record as it was sent, every field whatever its range. -/
def plainProfile (r : ProfileRecord) (harvest : Bool) (policy : BlindPolicy) : Profile where
  name := r.name
  rp := r.rp.toNat
  co2Setpoint := r.co2Setpoint.toNat
  kp := r.kp.toNat
  ki := r.ki.toNat
  imax := r.imax.toNat
  qcap := r.qcap.toNat
  slew := r.slew.toNat
  comfort := r.comfort.toNat
  standby := r.standby.toNat
  lux := r.lux.toNat
  harvest := harvest
  board := r.board.toNat
  front := r.front.toNat
  window := r.window.toNat
  inner := r.inner.toNat
  awaitLevel := r.awaitLevel.toNat
  fadeUp := r.fadeUp.toNat
  fadeDown := r.fadeDown.toNat
  lead := r.lead.toNat
  noShow := r.noShow.toNat
  earlyVacate := r.earlyVacate.toNat
  purge := r.purge.toNat
  awaitFraction := r.awaitFraction.toNat
  policy := policy

/-- The profile as R9 stores it, and whether a field was clamped; none where a field is refused. -/
def judgeProfile (r : ProfileRecord) : Option (Profile × Bool) :=
  match bitOperand r.harvest, policyOperand r.policy with
  | some h, some p =>
    if r.name.toList.all nameChar then
      some (clampProfile r h p, decide (clampProfile r h p ≠ plainProfile r h p))
    else none
  | _, _ => none

/-! ## Damper tables (R106) -/

/-- Each point is greater than the one before. -/
def increasing : List Nat → Bool
  | [] => true
  | [_] => true
  | a :: b :: rest => decide (a < b) && increasing (b :: rest)

/-- The points as R106 clamps them: none above 20000. -/
def clampPoints (f : Vector Half 9) : Vector Nat 9 :=
  #v[min 20000 f[0].toNat, min 20000 f[1].toNat, min 20000 f[2].toNat, min 20000 f[3].toNat,
     min 20000 f[4].toNat, min 20000 f[5].toNat, min 20000 f[6].toNat, min 20000 f[7].toNat,
     min 20000 f[8].toNat]

/-- The table as R106 stores it, and whether a point was lowered; none where it is not increasing. -/
def judgePoints (f : Vector Half 9) : Option (Vector Nat 9 × Bool) :=
  let t := clampPoints f
  if increasing t.toList then some (t, f.toList.any fun h => decide (20000 < h.toNat)) else none

/-! ## The validation of a chain (R31) -/

/-- Two entries claim a cell in common. -/
def Entry.sharesCell (e f : Entry) : Bool := e.target.cells.any fun c => f.target.cells.contains c

/-- Two entries claim the same minute, taken round the week. -/
def Entry.sharesMinute (e f : Entry) : Bool :=
  decide ((f.start + Config.weekMinutes - e.start) % Config.weekMinutes < e.duration)
    || decide ((e.start + Config.weekMinutes - f.start) % Config.weekMinutes < f.duration)

/-- The tests of R31 at one entry: `before` are the entries before it, the nearest first. -/
def entryFailure (before : List Entry) (e : Entry) (final : Bool) : Option Nat :=
  if before.head?.any fun p => decide (e.start < p.start) then some 2
  else if !final && e.last then some 3
  else if final && !e.last then some 4
  else if before.any fun p => p.sharesCell e && p.sharesMinute e then some 5
  else none

/-- The first test failed, in index order: the validation code and the failing index. -/
def chainFailureFrom (before : List Entry) (k : Nat) : List Entry → Option (Nat × Nat)
  | [] => none
  | e :: rest =>
    match entryFailure before e rest.isEmpty with
    | some code => some (code, k)
    | none => chainFailureFrom (e :: before) (k + 1) rest

/-- The validation of a bank's entries (R31). -/
def chainFailure (es : List Entry) : Option (Nat × Nat) :=
  if es.isEmpty then some (1, 0) else chainFailureFrom [] 0 es

end Sys2Proof.Machine
end

