-- ==== Sys2Proof/Machine/Clock.lean ====
section
/-! DEFINITION. The week clock's own events (02, section 2.1). -/

namespace Sys2Proof.Machine
open Sys2Proof

/-- An accepted SET_TIME (R27): the clock is set, the degraded flag may clear, and the walker takes the
clock set (R50). The second carried begins anew (log entry 45). -/
def State.setClock (s : State) (minute second : Nat) : State :=
  let old := s.clock.minute
  let wasSet := s.clock.isSet
  let clears := s.clock.crystal && s.clock.degraded
  let s1 := s.updClock fun c =>
    { c with minute := minute, second := second, isSet := true, subMs := 0,
             degraded := if clears then false else c.degraded }
  let s2 := if clears then s1.withdrawFault clockSource else s1
  s2.clockSet old wasSet

/-- The second advances; from 59 it passes to 0 with a minute event (R25). -/
def State.tickSecond (s : State) : State :=
  if s.clock.second < 59 then s.updClock fun c => { c with second := c.second + 1, subMs := 0 }
  else s.minuteEvent

/-- The monitor finds the crystal stopped (R26). -/
def State.stopCrystal (s : State) : State :=
  if s.clock.crystal then
    let s1 := s.updClock fun c => { c with crystal := false, degraded := true }
    if s.clock.degraded then
      s1.updFault clockSource fun r => { r with occurrences := satAdd 255 r.occurrences 1 }
    else (s1.reportPlain clockSource .clockDegraded .active).notifyFault .clockDegraded clockSource
  else s

/-- The monitor sees the crystal oscillating again (R26). -/
def State.resumeCrystal (s : State) : State := s.updClock fun c => { c with crystal := true }

end Sys2Proof.Machine
end

