-- ==== Sys2Proof/Machine/Answers.lean ====
section
/-! DEFINITION. What each request does when it is taken: its tests in the order of its rule, its effect,
and the answer (R181, and the chapter of its owner). -/

namespace Sys2Proof.Machine
open Sys2Proof

/-- The status of a reply and the bytes after it. -/
structure Answer where
  status : ReplyStatus
  data : List Byte
  deriving DecidableEq, Repr

/-- A refusal: the detail is 0 (R181, R197). -/
def refuse (status : ReplyStatus) (s : State) : Answer × State := ({ status := status, data := [0, 0] }, s)

/-- Carried out as sent, with the reply data of the rule. -/
def accept (data : List Byte) (s : State) : Answer × State := ({ status := .ok, data := data }, s)

/-- Carried out: OK without reply data, or CLAMPED with what was stored or used (R182). Which bytes those are is the
model's choice (log entry 11). -/
def acceptClamped (clamped : Bool) (stored : List Byte) (s : State) : Answer × State :=
  ({ status := if clamped then .clamped else .ok, data := if clamped then stored else [] }, s)

/-- The settings store is WRITING (test 3 of R181). -/
def State.writing (s : State) : Bool := s.store.saving.isSome

/-! ## Link interface and settings (10) -/

/-- IDENT (R184). -/
def State.answerIdent (s : State) : Answer × State := accept s.identBytes s

/-- KEEPALIVE (R177). -/
def State.answerKeepalive (s : State) : Answer × State :=
  let fresh := s.updSupervision fun _ => { state := .supervised, reason := none, period := some 0 }
  match s.supervision.state with
  | .unsupervised => accept (s.keepaliveBytes 0) s
  | .awaitingFirst => accept (fresh.keepaliveBytes 1) fresh
  | .supervised =>
    let opens := openingPoint s.working.settings.supervisionPeriod s.working.settings.windowFraction
    if opens * 1000 ≤ s.supervision.period.getD 0 then accept (fresh.keepaliveBytes 2) fresh
    else
      let s1 := s.lapse .early
      accept (s1.keepaliveBytes 3) s1
  | .lapsed => accept (fresh.keepaliveBytes 4) fresh

/-- SET_TIME (R27). -/
def State.answerSetTime (minute : Half) (second : Byte) (s : State) : Answer × State :=
  if 10079 < minute.toNat ∨ 59 < second.toNat then refuse .badValue s
  else accept [] (s.setClock minute.toNat second.toNat)

/-- RESTART (R192). The warm reset follows when its reply has been sent. -/
def State.answerRestart (s : State) : Answer × State :=
  if s.writing then refuse .busy s else accept [] (s.updLink fun l => { l with restart := .accepted })

/-- SET_NOTICE_MASK (R187). -/
def State.answerSetNoticeMask (kind setting : Byte) (s : State) : Answer × State :=
  match bitOperand setting, noticeOperand kind with
  | none, _ => refuse .badValue s
  | some m, some k => accept [] (s.updLink fun l => { l with masks := l.masks.set k m })
  | some m, none =>
    if allOnes kind then accept [] (s.updLink fun l => { l with masks := Vector.replicate 29 m })
    else refuse .badValue s

/-- PUT_SETTING (R188). -/
def State.answerPutSetting (number inst : Byte) (value : Word32) (s : State) : Answer × State :=
  if s.writing then refuse .busy s
  else
    match settingKey number.toNat inst.toNat with
    | none => refuse .badValue s
    | some k =>
      match s.working.settings.write k value.toNat with
      | none => refuse .badValue s
      | some (w, clamped) =>
        ({ status := if clamped then .clamped else .ok, data := byte4 (w.get k) },
          (s.withSettings w).settingWritten k s.working.settings)

/-- GET_SETTING (R188). -/
def State.answerGetSetting (number inst : Byte) (s : State) : Answer × State :=
  match settingKey number.toNat inst.toNat with
  | none => refuse .badValue s
  | some k => accept (s.settingBytes k) s

/-- SAVE_SETTINGS (R190). -/
def State.answerSaveSettings (s : State) : Answer × State :=
  if s.writing then refuse .busy s else accept [] s.beginSave

/-- RESTORE_SETTINGS (R191). -/
def State.answerRestoreSettings (s : State) : Answer × State :=
  if s.writing then refuse .busy s
  else
    match s.store.image with
    | none => refuse .wrongState s
    | some image => accept [] (s.restore image)

/-! ## Booking walker (02) -/

/-- A bank and index of GET_CHAIN: the entry named, none where either is out of range (R51). -/
def State.chainEntryAt (s : State) (bank index : Byte) : Option Entry :=
  match bank.toNat with
  | 0 => s.walker.active.entries[index.toNat]?
  | 1 => s.walker.standby.entries[index.toNat]?
  | _ => none

/-- GET_CHAIN (R51). -/
def State.answerGetChain (entry : Option (Byte × Byte)) (s : State) : Answer × State :=
  match entry with
  | none => accept s.chainBytes s
  | some (bank, index) =>
    match s.chainEntryAt bank index with
    | none => refuse .badValue s
    | some e => accept (s.chainBytes ++ [bank, index] ++ e.bytes) s

/-- CHAIN_BEGIN (R29). -/
def State.answerChainBegin (repeating : Byte) (s : State) : Answer × State :=
  match repeatOperand repeating with
  | none => refuse .badValue s
  | some r =>
    accept [] (s.updWalker fun w =>
      { w with standby := { entries := [], state := .loading, repeating := r }, queuedSwitch := none })

/-- CHAIN_ENTRY (R30); an entry that cannot be decoded is refused first (R197, log entry 47). -/
def State.answerChainEntry (index : Byte) (e : EntryRecord) (s : State) : Answer × State :=
  let b := s.walker.standby
  if (entryTarget e).isNone then refuse .badValue s
  else if b.state ≠ .loading then refuse .wrongState s
  else if index.toNat ≠ b.entries.length ∨ Config.bankSize ≤ index.toNat then refuse .badValue s
  else
    match judgeEntry e with
    | none => refuse .badValue s
    | some (x, clamped) =>
      acceptClamped clamped x.bytes (s.updWalker fun w =>
        { w with standby := { w.standby with entries := w.standby.entries ++ [x] } })

/-- CHAIN_COMMIT (R31). -/
def State.answerChainCommit (s : State) : Answer × State :=
  if s.walker.standby.state ≠ .loading then refuse .wrongState s
  else
    match chainFailure s.walker.standby.entries with
    | some (code, k) =>
      ({ status := .badValue, data := byte1 code ++ byte1 k },
        s.updWalker fun w => { w with standby := { w.standby with entries := [], state := .empty } })
    | none => accept [] (s.updWalker fun w => { w with standby := { w.standby with state := .ready } })

/-- A CHAIN_SWITCH is made at once: NOW, or AT_CHAIN_END with no LAST entry still to pass (R32). -/
def switchesNow (timing : SwitchTiming) (state : WalkerState) : Bool :=
  match timing with
  | .now => true
  | .atWeekEnd => false
  | .atChainEnd => decide (state = .idle) || decide (state = .finished)

/-- CHAIN_SWITCH (R32). -/
def State.answerChainSwitch (timing : Byte) (s : State) : Answer × State :=
  match timingOperand timing with
  | none => refuse .badValue s
  | some t =>
    if s.walker.standby.state ≠ .ready then refuse .wrongState s
    else if switchesNow t s.walker.state then accept [] s.switchAndPass
    else accept [] (s.updWalker fun w => { w with queuedSwitch := some t })

/-- The walker after a CHAIN_CANCEL, its CURRENT slots still to be left (R49). -/
def Walker.cancelled (w : Walker) : Walker :=
  { w with
    active := { w.active with entries := [], state := .empty }
    state := .idle, cursor := none, cycle := 0, offset := 0, stopMark := none, next := SlotPair.empty }

/-- Cancel the chain (R49); a queued AT_CHAIN_END switch is then made at once. That both NEXT slots are emptied first
and the units then derived once for each booking removed, and that the bookings in CURRENT leave one by one after
that, each with its own derivation, is the model's choice (log entry 85). -/
def State.cancelChain (s : State) : State :=
  let armed := s.walker.next.standing
  let s1 := s.updWalker Walker.cancelled
  let s2 := armed.foldl (fun s k => s.deriveUnits (s.space.units.ofTarget k.1)) s1
  let s3 := s2.walker.current.standing.foldl (fun s k => s.leaveCurrent k.1 k.2 .cancelled false) s2
  if s3.walker.queuedSwitch = some .atChainEnd then s3.switchAndPass else s3

/-- CHAIN_CANCEL (R49). -/
def State.answerChainCancel (s : State) : Answer × State := accept [] s.cancelChain

/-- SET_STOP_MARK (R47). -/
def State.answerSetStopMark (index mode : Byte) (s : State) : Answer × State :=
  if s.walker.active.state ≠ .active then refuse .wrongState s
  else
    match markOperand mode with
    | none => refuse .badValue s
    | some m =>
      if allOnes index then accept [] (s.updWalker fun w => { w with stopMark := none })
      else if s.walker.active.entries.length ≤ index.toNat then refuse .badValue s
      else accept [] (s.updWalker fun w => { w with stopMark := some { index := index.toNat, mode := m } })

/-- WALKER_PAUSE (R48). -/
def State.answerWalkerPause (s : State) : Answer × State :=
  match s.walker.state with
  | .running | .stalled => accept [] (s.updWalker fun w => { w with state := .paused })
  | .paused => accept [] s
  | .idle | .clockWait | .finished => refuse .wrongState s

/-- WALKER_RESUME (R48). -/
def State.answerWalkerResume (s : State) : Answer × State :=
  match s.walker.state with
  | .paused => accept [] (s.updWalker fun w => { w with state := .running }).pass
  | _ => refuse .wrongState s

/-- The HELD booking in a cell's CURRENT slot, with the target it stands under (R43). -/
def State.heldIn (s : State) (c : Cell) : Option (Target × Booking) :=
  s.walker.current.standing.find? fun k => decide (k.2.state = .held) && k.1.cells.contains c

/-- RELEASE_HOLD (R43). -/
def State.answerReleaseHold (cell : Byte) (s : State) : Answer × State :=
  match cellOperand cell with
  | none => refuse .badValue s
  | some c =>
    match s.heldIn c with
    | none => refuse .wrongState s
    | some (t, k) => accept [] (s.leaveCurrent t k .ended false)

/-! ## Space coordinator (01) -/

/-- GET_UNIT (R22, R74). -/
def State.answerGetUnit (unit : Byte) (s : State) : Answer × State :=
  match unitOperand unit with
  | none => refuse .badValue s
  | some id =>
    match s.unit? id with
    | none => refuse .wrongState s
    | some u => accept (s.unitBytes id u) (s.readDrift id)

/-- GET_CELL (R23, R124). -/
def State.answerGetCell (cell : Byte) (s : State) : Answer × State :=
  match cellOperand cell with
  | none => refuse .badValue s
  | some c => accept (s.cellSpaceBytes c ++ s.cellDriveBytes c) s

/-- Store a profile. -/
def State.storeProfile (s : State) (n : Fin 8) (p : Profile) : State :=
  s.withProfiles (s.working.profiles.set n p)

/-- PUT_PROFILE (R9). -/
def State.answerPutProfile (number : Byte) (r : ProfileRecord) (s : State) : Answer × State :=
  if s.writing then refuse .busy s
  else
    match indexOperand 8 number, judgeProfile r with
    | some n, some (p, clamped) => acceptClamped clamped p.bytes (s.storeProfile n p)
    | _, _ => refuse .badValue s

/-- GET_PROFILE (R10). -/
def State.answerGetProfile (number : Byte) (s : State) : Answer × State :=
  match indexOperand 8 number with
  | none => refuse .badValue s
  | some n => accept s.working.profiles[n].bytes s

/-- The light channel of an override target. -/
def channelOfTarget (t : Fin 16) : Option (Fin 8) :=
  if h : 4 ≤ t.val ∧ t.val < 12 then some ⟨t.val - 4, by omega⟩ else none

/-- The target is a light channel whose cell is UNUSED (R16). -/
def State.unusedTarget (s : State) (t : Fin 16) : Bool :=
  match channelOfTarget t with
  | some i => (s.channelCell i).isNone
  | none => false

/-- Put an override in force (R16); its target takes it as the start of an override. -/
def State.placeOverride (s : State) (t : Fin 16) (value minutes : Nat) : State :=
  let o : Override := { value := value, remaining := if minutes = 0 then none else some (minutes * 60000) }
  (s.updSpace fun p => { p with overrides := p.overrides.set t (some o) }).overrideMoved t

/-- SET_OVERRIDE (R16). -/
def State.answerSetOverride (target : Byte) (value expiry : Half) (s : State) : Answer × State :=
  match indexOperand 16 target with
  | none => refuse .badValue s
  | some t =>
    if s.space.fire = .inForce then refuse .fireLock s
    else if s.unusedTarget t then refuse .wrongState s
    else
      acceptClamped (decide (1000 < value.toNat) || decide (480 < expiry.toNat))
        (byte2 (min 1000 value.toNat) ++ byte2 (min 480 expiry.toNat))
        (s.placeOverride t (min 1000 value.toNat) (min 480 expiry.toNat))

/-- CLEAR_OVERRIDE (R17). -/
def State.answerClearOverride (target : Byte) (s : State) : Answer × State :=
  match indexOperand 16 target with
  | some t => accept [] (s.endOverride t .cleared)
  | none => if allOnes target then accept [] (s.endOverrides .cleared) else refuse .badValue s

/-! ## Doorways, occupancy, air (03 to 05) -/

/-- GET_DOORWAY (R63). -/
def State.answerGetDoorway (channel : Byte) (s : State) : Answer × State :=
  match indexOperand 4 channel with
  | none => refuse .badValue s
  | some i => accept (s.doorwayBytes i) s

/-- SET_HEADCOUNT (R79). -/
def State.answerSetHeadcount (unit : Byte) (count : Half) (s : State) : Answer × State :=
  match unitOperand unit with
  | none => refuse .badValue s
  | some id =>
    match s.unit? id with
    | none => refuse .wrongState s
    | some _ =>
      acceptClamped (decide (id.maxHeadcount < count.toNat)) (byte2 (min id.maxHeadcount count.toNat))
        (s.setHeadcount id (min id.maxHeadcount count.toNat) .exact)

/-- Make a cap the requested cap (R101). -/
def State.requestCap (s : State) (cap : Nat) : State :=
  s.updAir fun a => { a with requestedCap := cap, capSource := .host }

/-- SET_SUPPLY_CAP (R101). -/
def State.answerSetSupplyCap (cap : Half) (s : State) : Answer × State :=
  if cap = 0xFFFF then accept [] s.defaultCap
  else
    acceptClamped (decide (40000 < cap.toNat)) (byte2 (min 40000 cap.toNat))
      (s.requestCap (min 40000 cap.toNat))

/-! ## Dampers (06) -/

/-- A damper calibration begins in WAIT_RAIL, and passes to CLOSING at once if the rail is ON (R117,
R118). -/
def State.beginDamperCal (s : State) (c : Cell) : State :=
  let s1 := s.calPhase c { phase := .waitRail, elapsed := 0, fbLow := 0 }
  (if s1.rail.state = .on then s1.calRailOn c else s1).refreshNeeds

/-- CALIBRATE_DAMPER (R117). -/
def State.answerCalibrateDamper (cell : Byte) (s : State) : Answer × State :=
  match cellOperand cell with
  | none => refuse .badValue s
  | some c =>
    if s.space.fire = .inForce then refuse .fireLock s
    else if (s.drives.get c).cal.isSome then refuse .busy s
    else if s.faults[railSource].state = .latched then refuse .wrongState s
    else accept [] (s.beginDamperCal c)

/-- PUT_DAMPER_TABLE (R106). -/
def State.answerPutDamperTable (cell : Byte) (points : Vector Half 9) (s : State) : Answer × State :=
  if s.writing then refuse .busy s
  else
    match cellOperand cell, judgePoints points with
    | some c, some (t, clamped) =>
      acceptClamped clamped (tableBytes c t) (s.withTables (s.working.tables.set c t))
    | _, _ => refuse .badValue s

/-! ## Lighting and blinds (07, 08) -/

/-- GET_CHANNEL (R141). -/
def State.answerGetChannel (channel : Byte) (s : State) : Answer × State :=
  match indexOperand 8 channel with
  | none => refuse .badValue s
  | some i => accept (s.channelBytes i) s

/-- SET_SUN_STATE (R145). -/
def State.answerSetSunState (sun : Byte) (s : State) : Answer × State :=
  match bitOperand sun with
  | none => refuse .badValue s
  | some b => accept [] (s.updBlinds fun x => { x with sun := b, sunHold := none })

/-- CALIBRATE_BLIND (R157). -/
def State.answerCalibrateBlind (group : Byte) (s : State) : Answer × State :=
  match indexOperand 4 group with
  | none => refuse .badValue s
  | some g =>
    if s.space.fire = .inForce then refuse .fireLock s
    else if (s.groupCell g).isNone ∨ s.faults[blindSource g].state ≠ .clear ∨
        s.faults[railSource].state = .latched then refuse .wrongState s
    else if s.blinds.groups[g].cal.isSome then refuse .busy s
    else accept [] (s.beginBlindCal g)

/-- GET_BLIND (R162). -/
def State.answerGetBlind (group : Byte) (s : State) : Answer × State :=
  match indexOperand 4 group with
  | none => refuse .badValue s
  | some g => accept (s.blindBytes g) s

/-! ## Faults (09) -/

/-- GET_FAULTS (R175). -/
def State.answerGetFaults (selection : Byte) (s : State) : Answer × State :=
  match bitOperand selection with
  | none => refuse .badValue s
  | some all => accept (s.faultListBytes all) s

/-- CLEAR_FAULT (R174). -/
def State.answerClearFault (source keepCount : Byte) (s : State) : Answer × State :=
  match indexOperand 21 source, bitOperand keepCount with
  | some i, some keep =>
    match s.clearRecord i keep with
    | some s1 => accept [] s1
    | none => refuse .wrongState s
  | _, _ => refuse .badValue s

/-- A KIND that is no request kind (test 1 of R181). -/
def State.answerUnknownKind (s : State) : Answer × State := refuse .unknownKind s

/-- A length the kind does not permit (test 2 of R181). -/
def State.answerBadLength (s : State) : Answer × State := refuse .badLength s

/-- What a request read from its frame does when it is taken. A command that is no frame is never read
from one. -/
def answer (i : Instr) (s : State) : Answer × State :=
  match i with
  | .ident _ => s.answerIdent
  | .keepalive _ => s.answerKeepalive
  | .setTime _ minute second => s.answerSetTime minute second
  | .restart _ => s.answerRestart
  | .setNoticeMask _ kind setting => s.answerSetNoticeMask kind setting
  | .putSetting _ number inst value => s.answerPutSetting number inst value
  | .getSetting _ number inst => s.answerGetSetting number inst
  | .saveSettings _ => s.answerSaveSettings
  | .restoreSettings _ => s.answerRestoreSettings
  | .getChain _ entry => s.answerGetChain entry
  | .chainBegin _ repeating => s.answerChainBegin repeating
  | .chainEntry _ index entry => s.answerChainEntry index entry
  | .chainCommit _ => s.answerChainCommit
  | .chainSwitch _ timing => s.answerChainSwitch timing
  | .chainCancel _ => s.answerChainCancel
  | .setStopMark _ index mode => s.answerSetStopMark index mode
  | .walkerPause _ => s.answerWalkerPause
  | .walkerResume _ => s.answerWalkerResume
  | .releaseHold _ cell => s.answerReleaseHold cell
  | .getUnit _ unit => s.answerGetUnit unit
  | .getCell _ cell => s.answerGetCell cell
  | .putProfile _ number profile => s.answerPutProfile number profile
  | .getProfile _ number => s.answerGetProfile number
  | .setOverride _ target value expiry => s.answerSetOverride target value expiry
  | .clearOverride _ target => s.answerClearOverride target
  | .getDoorway _ channel => s.answerGetDoorway channel
  | .setHeadcount _ unit count => s.answerSetHeadcount unit count
  | .setSupplyCap _ cap => s.answerSetSupplyCap cap
  | .calibrateDamper _ cell => s.answerCalibrateDamper cell
  | .putDamperTable _ cell points => s.answerPutDamperTable cell points
  | .getChannel _ channel => s.answerGetChannel channel
  | .setSunState _ sun => s.answerSetSunState sun
  | .calibrateBlind _ group => s.answerCalibrateBlind group
  | .getBlind _ group => s.answerGetBlind group
  | .getFaults _ selection => s.answerGetFaults selection
  | .clearFault _ source keepCount => s.answerClearFault source keepCount
  | _ => s.answerUnknownKind

end Sys2Proof.Machine
end

