-- ==== Sys2Proof/Machine/Line.lean ====
section
/-! DEFINITION. The serial line: the receive framer (R179), the request queue (R180), taking a request
(R181), the transmitter (R183, R186). -/

namespace Sys2Proof.Machine
open Sys2Proof

/-! ## The transmitter (R183) -/

/-- The idle transmitter takes the oldest reply, or else the head notice, which carries the overflow flag
and clears it (R183, R186, log entry 4). After the reply to a RESTART nothing is started: the reset follows at once
(R192). -/
def Link.startFrame (l : Link) : Link :=
  match l.tx with
  | some _ => l
  | none =>
    if l.restart = .sent then l
    else
      match l.replies, l.notices with
      | r :: rest, _ => { l with replies := rest, tx := some { frame := .reply r, elapsed := 0 } }
      | [], n :: rest =>
        { l with notices := rest, tx := some { frame := .notice n l.overflow, elapsed := 0 }, overflow := false }
      | [], [] => l

/-! ## Taking requests (R180, R181) -/

/-- A reply joins the tail of the reply queue, under the KIND and TAG of its request. -/
def Link.reply (l : Link) (kind tag : Byte) (a : Answer) : Link :=
  { l with replies := l.replies ++ [{ kind := kind, tag := tag, status := a.status, data := a.data }] }

/-- Take a request: it is carried out as a whole, its reply joins the reply queue, and it counts among the
frames taken. The count rises after the reply is formed, so that an IDENT reply does not count its own frame: the
model's choice (log entry 66). -/
def State.take (s : State) (kind tag : Byte) (h : State → Answer × State) : State :=
  let r := h s
  r.2.updLink fun l => { l.reply kind tag r.1 with framesTaken := l.framesTaken + 1 }

/-- What a complete frame does when it is taken. -/
def handlerOf (f : Frame) : State → Answer × State :=
  match decodeRequest f.kind f.tag f.payload with
  | .command i => answer i
  | .badLength => State.answerBadLength

/-- Take a frame. -/
def State.takeFrame (s : State) (f : Frame) : State := s.take f.kind f.tag (handlerOf f)

/-- The reply queue has room. -/
def Link.replyRoom (l : Link) : Bool := decide (l.replies.length < Config.linkQueueSize)

/-- The transmitter starts what it can, and the head of the request queue is taken whenever the reply
queue has room, at most `n` times. -/
def State.settleUpTo : Nat → State → State
  | 0, s => s.updLink Link.startFrame
  | n + 1, s =>
    let s1 := s.updLink Link.startFrame
    match s1.link.requests with
    | [] => s1
    | f :: rest =>
      if s1.link.replyRoom then
        State.settleUpTo n ((s1.updLink fun l => { l with requests := rest }).takeFrame f)
      else s1

/-- What the link interface does at once after anything that has happened: no step takes more requests
than stand in the queue. -/
def State.settle (s : State) : State := s.settleUpTo s.link.requests.length

/-- A complete frame joins the request queue, or is discarded as an overrun (R180). -/
def Link.offer (l : Link) (f : Frame) : Link :=
  if l.requests.length < Config.linkQueueSize then { l with requests := l.requests ++ [f] }
  else { l with overruns := l.overruns + 1 }

/-- A request command arrives: a complete frame that passes its check. With nothing ahead of it and room
for its reply it is taken at once, by the handler given; otherwise its frame joins the request queue. -/
def State.arrive (s : State) (i : Instr) (h : State → Answer × State) : State :=
  match encodeRequest i with
  | none => s
  | some (kind, tag, payload) =>
    if s.link.requests.isEmpty && s.link.replyRoom then s.take kind tag h
    else s.updLink fun l => l.offer { kind := kind, tag := tag, payload := payload }

/-! ## The receive framer (R179) -/

/-- A frame is abandoned: the counter rises and the framer returns to HUNT. -/
def Link.abandon (l : Link) : Link := { l with framer := Framer.hunting, abandoned := l.abandoned + 1 }

/-- The framer after a byte it takes into the frame. -/
def Framer.advance (r : Framer) (b : Byte) : Framer :=
  match r.state with
  | .hunt => r
  | .length => { r with state := .kind, len := b.toNat, sum := b, gap := 0 }
  | .kind => { r with state := .tag, kind := b, sum := r.sum + b, gap := 0 }
  | .tag =>
    { r with state := if r.len = 0 then .check else .payload, tag := b, sum := r.sum + b, gap := 0 }
  | .payload =>
    { r with
      state := if r.payload.length + 1 < r.len then .payload else .check
      payload := r.payload ++ [b], sum := r.sum + b, gap := 0 }
  | .check => r

/-- The frame in assembly. -/
def Framer.frame (r : Framer) : Frame := { kind := r.kind, tag := r.tag, payload := r.payload }

/-- The framer takes a byte whose stop bit was high (R179). -/
def Link.receive (l : Link) (b : Byte) : Link :=
  match l.framer.state with
  | .hunt => if b = syncByte then { l with framer := { Framer.hunting with state := .length } } else l
  | .length =>
    if Config.maxPayload < b.toNat then l.abandon else { l with framer := l.framer.advance b }
  | .check =>
    let l1 : Link := { l with framer := Framer.hunting }
    if l.framer.sum + b = 0 then l1.offer l.framer.frame else { l1 with checkErrors := l1.checkErrors + 1 }
  | _ => { l with framer := l.framer.advance b }

/-- A byte with its stop bit low is discarded, and abandons a frame that has started (R179). -/
def Link.badStop (l : Link) : Link := if l.framer.state = .hunt then l else l.abandon

/-- A gap longer than 20 ms abandons a frame that has started (R179). -/
def Link.gapEnds (l : Link) : Link := if l.framer.state = .hunt then l else l.abandon

/-- The transmitter has sent its frame to the last byte. After an accepted RESTART's reply the reset is to
follow at once (R192). -/
def Link.frameSent (l : Link) : Link :=
  match l.tx with
  | none => l
  | some t =>
    let restarts : Bool := match t.frame with
      | .reply r => decide (r.kind = 0x04) && decide (r.status = .ok) && decide (l.restart = .accepted)
      | .notice _ _ => false
    { l with tx := none, restart := if restarts then .sent else l.restart }

end Sys2Proof.Machine
end

