-- ==== Sys2Proof/Machine/Resets.lean ====
section
/-! DEFINITION. The resets (R192 to R194). -/

namespace Sys2Proof.Machine
open Sys2Proof

/-- The levels of the input pins, which a reset does not change. -/
def State.pins (s : State) : Pins where
  contact := s.space.contact
  fire := s.space.firePin
  beams := #v[(s.doors[0].outer.pin, s.doors[0].inner.pin), (s.doors[1].outer.pin, s.doors[1].inner.pin),
    (s.doors[2].outer.pin, s.doors[2].inner.pin), (s.doors[3].outer.pin, s.doors[3].inner.pin)]
  detectors := #v[s.presence.detectors[0].pin, s.presence.detectors[1].pin, s.presence.detectors[2].pin,
    s.presence.detectors[3].pin, s.presence.detectors[4].pin, s.presence.detectors[5].pin]
  levels := #v[s.scanner.channels[0].pin, s.scanner.channels[1].pin, s.scanner.channels[2].pin,
    s.scanner.channels[3].pin, s.scanner.channels[4].pin, s.scanner.channels[5].pin,
    s.scanner.channels[6].pin, s.scanner.channels[7].pin]
  currents := #v[s.blinds.groups[0].sensePin, s.blinds.groups[1].sensePin, s.blinds.groups[2].sensePin,
    s.blinds.groups[3].sensePin]
  railFault := s.rail.faultPin

/-- A reset of kind POWER_ON; the warm causes keep the week clock (R192, R193). -/
def ResetCause.powersOn : ResetCause → Bool
  | .powerOn | .brownOut => true
  | .resetLine | .restart => false

/-- The settings image at a reset: NONE if it abandons a save (R190). -/
def Store.afterReset (x : Store) : Option Image := if x.saving.isSome then none else x.image

/-- SETTINGS_LOST, when the image is NONE (R194). -/
def State.reportLost (s : State) : State :=
  if s.store.image.isNone then s.notify .settingsLost none none noValue none else s

/-- CLOCK_DEGRADED, when a warm reset kept the degraded flag set (R194, R26). -/
def State.reportDegraded (s : State) : State :=
  if s.clock.degraded then
    (s.reportPlain clockSource .clockDegraded .active).notifyFault .clockDegraded clockSource
  else s

/-- A walker with a chain and a set clock is RUNNING, placed as for a large clock set (R52). -/
def State.placeWalker (s : State) : State := if s.clock.isSet then s.largeSet else s

/-- The moment of a reset (R193, R194, log entry 49): every block takes its reset state, READY begins, and the notices
of the reset are handed over behind it: SETTINGS_LOST, CLOCK_DEGRADED, then the walker's (the model's choice of order,
log entry 44). -/
def State.resetBy (s : State) (cause : ResetCause) : State :=
  let image := s.store.afterReset
  let working := match image with
    | some i => i.working
    | none => Working.factory
  let clock := if cause.powersOn then WeekClock.fresh else s.clock
  (State.initial working image cause clock s.pins s.pending).reportLost.reportDegraded.placeWalker

end Sys2Proof.Machine
end

