-- ==== Sys2Proof/Machine/LinkRequests.lean ====
section
/-! DEFINITION. The requests of the link interface, supervision, the clock and the settings (09, 10, 02).
Each is the arrival of the request's complete frame (log entry 3); it is carried out when it is taken
(R180). -/

namespace Sys2Proof.Machine
open Sys2Proof

/-- The answer of a step: the next state, after what the link interface does at once (R180, R183). -/
def finish (s : State) : Host.Outcome State Fault Refusal := .next s.settle

/-- IDENT (R184). -/
def execIdent (tag : Byte) (s : State) : Host.Outcome State Fault Refusal :=
  finish (s.arrive (.ident tag) State.answerIdent)

/-- KEEPALIVE (R177). -/
def execKeepalive (tag : Byte) (s : State) : Host.Outcome State Fault Refusal :=
  finish (s.arrive (.keepalive tag) State.answerKeepalive)

/-- SET_TIME (R27). -/
def execSetTime (tag : Byte) (minute : Half) (second : Byte) (s : State) : Host.Outcome State Fault Refusal :=
  finish (s.arrive (.setTime tag minute second) (State.answerSetTime minute second))

/-- RESTART (R192). -/
def execRestart (tag : Byte) (s : State) : Host.Outcome State Fault Refusal :=
  finish (s.arrive (.restart tag) State.answerRestart)

/-- SET_NOTICE_MASK (R187). -/
def execSetNoticeMask (tag : Byte) (kind : Byte) (setting : Byte) (s : State) :
    Host.Outcome State Fault Refusal :=
  finish (s.arrive (.setNoticeMask tag kind setting) (State.answerSetNoticeMask kind setting))

/-- PUT_SETTING (R188). -/
def execPutSetting (tag : Byte) (number : Byte) (inst : Byte) (value : Word32) (s : State) :
    Host.Outcome State Fault Refusal :=
  finish (s.arrive (.putSetting tag number inst value) (State.answerPutSetting number inst value))

/-- GET_SETTING (R188). -/
def execGetSetting (tag : Byte) (number : Byte) (inst : Byte) (s : State) :
    Host.Outcome State Fault Refusal :=
  finish (s.arrive (.getSetting tag number inst) (State.answerGetSetting number inst))

/-- SAVE_SETTINGS (R190). -/
def execSaveSettings (tag : Byte) (s : State) : Host.Outcome State Fault Refusal :=
  finish (s.arrive (.saveSettings tag) State.answerSaveSettings)

/-- RESTORE_SETTINGS (R191). -/
def execRestoreSettings (tag : Byte) (s : State) : Host.Outcome State Fault Refusal :=
  finish (s.arrive (.restoreSettings tag) State.answerRestoreSettings)

end Sys2Proof.Machine
end

