-- ==== Sys2Proof/Machine/ChainRequests.lean ====
section
/-! DEFINITION. The requests of the booking walker (02). Each is the arrival of the request's
complete frame (log entry 3); it is carried out when it is taken (R180). -/

namespace Sys2Proof.Machine
open Sys2Proof

/-- GET_CHAIN (R51). -/
def execGetChain (tag : Byte) (entry : Option (Byte × Byte)) (s : State) : Host.Outcome State Fault Refusal :=
  finish (s.arrive (.getChain tag entry) (State.answerGetChain entry))

/-- CHAIN_BEGIN (R29). -/
def execChainBegin (tag : Byte) (repeating : Byte) (s : State) : Host.Outcome State Fault Refusal :=
  finish (s.arrive (.chainBegin tag repeating) (State.answerChainBegin repeating))

/-- CHAIN_ENTRY (R30). -/
def execChainEntry (tag : Byte) (index : Byte) (entry : EntryRecord) (s : State) :
    Host.Outcome State Fault Refusal :=
  finish (s.arrive (.chainEntry tag index entry) (State.answerChainEntry index entry))

/-- CHAIN_COMMIT (R31). -/
def execChainCommit (tag : Byte) (s : State) : Host.Outcome State Fault Refusal :=
  finish (s.arrive (.chainCommit tag) State.answerChainCommit)

/-- CHAIN_SWITCH (R32). -/
def execChainSwitch (tag : Byte) (timing : Byte) (s : State) : Host.Outcome State Fault Refusal :=
  finish (s.arrive (.chainSwitch tag timing) (State.answerChainSwitch timing))

/-- CHAIN_CANCEL (R49). -/
def execChainCancel (tag : Byte) (s : State) : Host.Outcome State Fault Refusal :=
  finish (s.arrive (.chainCancel tag) State.answerChainCancel)

/-- SET_STOP_MARK (R47). -/
def execSetStopMark (tag : Byte) (index : Byte) (mode : Byte) (s : State) :
    Host.Outcome State Fault Refusal :=
  finish (s.arrive (.setStopMark tag index mode) (State.answerSetStopMark index mode))

/-- WALKER_PAUSE (R48). -/
def execWalkerPause (tag : Byte) (s : State) : Host.Outcome State Fault Refusal :=
  finish (s.arrive (.walkerPause tag) State.answerWalkerPause)

/-- WALKER_RESUME (R48). -/
def execWalkerResume (tag : Byte) (s : State) : Host.Outcome State Fault Refusal :=
  finish (s.arrive (.walkerResume tag) State.answerWalkerResume)

/-- RELEASE_HOLD (R43). -/
def execReleaseHold (tag : Byte) (cell : Byte) (s : State) : Host.Outcome State Fault Refusal :=
  finish (s.arrive (.releaseHold tag cell) (State.answerReleaseHold cell))

end Sys2Proof.Machine
end

