-- ==== Sys2Proof/Machine/RoomRequests.lean ====
section
/-! DEFINITION. The requests of the room's blocks (01, 03 to 09). Each is the arrival of the request's
complete frame (log entry 3); it is carried out when it is taken (R180). -/

namespace Sys2Proof.Machine
open Sys2Proof

/-- GET_UNIT (R22, R74, R103). -/
def execGetUnit (tag : Byte) (unit : Byte) (s : State) : Host.Outcome State Fault Refusal :=
  finish (s.arrive (.getUnit tag unit) (State.answerGetUnit unit))

/-- GET_CELL (R23, R124). -/
def execGetCell (tag : Byte) (cell : Byte) (s : State) : Host.Outcome State Fault Refusal :=
  finish (s.arrive (.getCell tag cell) (State.answerGetCell cell))

/-- PUT_PROFILE (R9). -/
def execPutProfile (tag : Byte) (number : Byte) (profile : ProfileRecord) (s : State) :
    Host.Outcome State Fault Refusal :=
  finish (s.arrive (.putProfile tag number profile) (State.answerPutProfile number profile))

/-- GET_PROFILE (R10). -/
def execGetProfile (tag : Byte) (number : Byte) (s : State) : Host.Outcome State Fault Refusal :=
  finish (s.arrive (.getProfile tag number) (State.answerGetProfile number))

/-- SET_OVERRIDE (R16). -/
def execSetOverride (tag : Byte) (target : Byte) (value : Half) (expiry : Half) (s : State) :
    Host.Outcome State Fault Refusal :=
  finish (s.arrive (.setOverride tag target value expiry) (State.answerSetOverride target value expiry))

/-- CLEAR_OVERRIDE (R17). -/
def execClearOverride (tag : Byte) (target : Byte) (s : State) : Host.Outcome State Fault Refusal :=
  finish (s.arrive (.clearOverride tag target) (State.answerClearOverride target))

/-- GET_DOORWAY (R63). -/
def execGetDoorway (tag : Byte) (channel : Byte) (s : State) : Host.Outcome State Fault Refusal :=
  finish (s.arrive (.getDoorway tag channel) (State.answerGetDoorway channel))

/-- SET_HEADCOUNT (R79). -/
def execSetHeadcount (tag : Byte) (unit : Byte) (count : Half) (s : State) :
    Host.Outcome State Fault Refusal :=
  finish (s.arrive (.setHeadcount tag unit count) (State.answerSetHeadcount unit count))

/-- SET_SUPPLY_CAP (R101). -/
def execSetSupplyCap (tag : Byte) (cap : Half) (s : State) : Host.Outcome State Fault Refusal :=
  finish (s.arrive (.setSupplyCap tag cap) (State.answerSetSupplyCap cap))

/-- CALIBRATE_DAMPER (R117). -/
def execCalibrateDamper (tag : Byte) (cell : Byte) (s : State) : Host.Outcome State Fault Refusal :=
  finish (s.arrive (.calibrateDamper tag cell) (State.answerCalibrateDamper cell))

/-- PUT_DAMPER_TABLE (R106). -/
def execPutDamperTable (tag : Byte) (cell : Byte) (points : Vector Half 9) (s : State) :
    Host.Outcome State Fault Refusal :=
  finish (s.arrive (.putDamperTable tag cell points) (State.answerPutDamperTable cell points))

/-- GET_CHANNEL (R141). -/
def execGetChannel (tag : Byte) (channel : Byte) (s : State) : Host.Outcome State Fault Refusal :=
  finish (s.arrive (.getChannel tag channel) (State.answerGetChannel channel))

/-- SET_SUN_STATE (R145). -/
def execSetSunState (tag : Byte) (sun : Byte) (s : State) : Host.Outcome State Fault Refusal :=
  finish (s.arrive (.setSunState tag sun) (State.answerSetSunState sun))

/-- CALIBRATE_BLIND (R157). -/
def execCalibrateBlind (tag : Byte) (group : Byte) (s : State) : Host.Outcome State Fault Refusal :=
  finish (s.arrive (.calibrateBlind tag group) (State.answerCalibrateBlind group))

/-- GET_BLIND (R162). -/
def execGetBlind (tag : Byte) (group : Byte) (s : State) : Host.Outcome State Fault Refusal :=
  finish (s.arrive (.getBlind tag group) (State.answerGetBlind group))

/-- GET_FAULTS (R175). -/
def execGetFaults (tag : Byte) (selection : Byte) (s : State) : Host.Outcome State Fault Refusal :=
  finish (s.arrive (.getFaults tag selection) (State.answerGetFaults selection))

/-- CLEAR_FAULT (R174). -/
def execClearFault (tag : Byte) (source : Byte) (keepCount : Byte) (s : State) :
    Host.Outcome State Fault Refusal :=
  finish (s.arrive (.clearFault tag source keepCount) (State.answerClearFault source keepCount))

/-- UNKNOWN_KIND (R181): a frame whose KIND is no request kind. A command that is no such frame cannot
reach the part, and is refused. -/
def execUnknownKind (tag kind : Byte) (payload : List Byte) (s : State) :
    Host.Outcome State Fault Refusal :=
  if (Instr.unknownKind tag kind payload).wellFormed then
    finish (s.arrive (.unknownKind tag kind payload) State.answerUnknownKind)
  else .refused .illFormed

end Sys2Proof.Machine
end

