-- ==== Sys2Proof/Machine/LinkEvents.lean ====
section
/-! DEFINITION. The events of the serial line, the resets, the week clock, supervision and the settings
store (10, 02, 09). An event of a timer says that the timer has reached its mark; where the timer does not
run, the event finds nothing to act on (log entry 2). -/

namespace Sys2Proof.Machine
open Sys2Proof

/-- BYTE_RECEIVED (R179). -/
def execByteReceived (value : Byte) (stopHigh : Bool) (s : State) : Host.Outcome State Fault Refusal :=
  finish (s.updLink fun l => if stopHigh then l.receive value else l.badStop)

/-- GAP_TIMEOUT (R179). -/
def execGapTimeout (s : State) : Host.Outcome State Fault Refusal := finish (s.updLink Link.gapEnds)

/-- TRANSMIT_DONE (R183). -/
def execTransmitDone (s : State) : Host.Outcome State Fault Refusal := finish (s.updLink Link.frameSent)

/-- POWER_ON (R192, R193). -/
def execPowerOn (s : State) : Host.Outcome State Fault Refusal := finish (s.resetBy .powerOn)

/-- BROWN_OUT (R192, R193). -/
def execBrownOut (s : State) : Host.Outcome State Fault Refusal := finish (s.resetBy .brownOut)

/-- RESET_LINE (R192, R193). -/
def execResetLine (s : State) : Host.Outcome State Fault Refusal := finish (s.resetBy .resetLine)

/-- RESTART_RESET (R192): the warm reset that follows the last byte of the reply to a RESTART; before that byte,
and with no RESTART accepted, there is nothing to follow (log entry 14). -/
def execRestartReset (s : State) : Host.Outcome State Fault Refusal :=
  finish (if s.link.restart = .sent then s.resetBy .restart else s)

/-- SECOND_TICK (R25). -/
def execSecondTick (s : State) : Host.Outcome State Fault Refusal := finish s.tickSecond

/-- MINUTE_EVENT (R25, R40). -/
def execMinuteEvent (s : State) : Host.Outcome State Fault Refusal := finish s.minuteEvent

/-- CRYSTAL_STOPPED (R26). -/
def execCrystalStopped (s : State) : Host.Outcome State Fault Refusal := finish s.stopCrystal

/-- CRYSTAL_RESUMED (R26). -/
def execCrystalResumed (s : State) : Host.Outcome State Fault Refusal := finish s.resumeCrystal

/-- PERIOD_END (R178). -/
def execPeriodEnd (s : State) : Host.Outcome State Fault Refusal := finish s.periodEnd

/-- SAVE_DONE (R190): the read-back is complete. -/
def execSaveDone (agrees : Bool) (s : State) : Host.Outcome State Fault Refusal :=
  finish (match s.store.saving with
    | none => s
    | some k => if agrees then s.saveOk k else s.saveFailed)

/-- SAVE_WRITE_TIMEOUT (R190). -/
def execSaveWriteTimeout (s : State) : Host.Outcome State Fault Refusal :=
  finish (if s.store.saving.isSome then s.saveFailed else s)

end Sys2Proof.Machine
end

