-- ==== Sys2Proof/Machine/RoomEvents.lean ====
section
/-! DEFINITION. The events of the partition, fire, override, doorway, presence and occupancy blocks (01, 03,
04). An event of a timer says that the timer has reached its mark; where the timer does not run, the event
finds nothing to act on (log entry 2). -/

namespace Sys2Proof.Machine
open Sys2Proof

/-- PARTITION_CONTACT_EDGE (R1). -/
def execPartitionContactEdge (contactOpen : Bool) (s : State) : Host.Outcome State Fault Refusal :=
  finish (s.updSpace fun p => p.contactEdge (if contactOpen then .opened else .closed))

/-- PARTITION_DEBOUNCE (R1, R2, R4 to R7). -/
def execPartitionDebounce (s : State) : Host.Outcome State Fault Refusal := finish s.completePartition

/-- FIRE_INPUT_EDGE (R19). -/
def execFireInputEdge (high : Bool) (s : State) : Host.Outcome State Fault Refusal :=
  finish (s.updSpace fun p => p.fireEdge s.working.settings.firePolarity high)

/-- FIRE_DEBOUNCE (R19 to R21). -/
def execFireDebounce (s : State) : Host.Outcome State Fault Refusal := finish s.completeFire

/-- A unit's purge timer expires (R12). -/
def State.purgeExpiry (s : State) (id : UnitId) : State :=
  match s.unit? id with
  | none => s
  | some u => if u.mode = .purge ∧ u.purge.isSome then s.endPurge id else s

/-- PURGE_TIMER_EXPIRY (R12). -/
def execPurgeTimerExpiry (id : UnitId) (s : State) : Host.Outcome State Fault Refusal :=
  finish (s.purgeExpiry id)

/-- The remaining time of an override, if it has one, reaches 0 (R17). -/
def State.overrideExpires (s : State) (t : Fin 16) : State :=
  if s.space.overrides[t].any fun o => o.remaining.isSome then s.endOverride t .expired else s

/-- OVERRIDE_EXPIRY (R17). -/
def execOverrideExpiry (target : Fin 16) (s : State) : Host.Outcome State Fault Refusal :=
  finish (s.overrideExpires target)

/-- BEAM_PIN_EDGE (R54). -/
def execBeamPinEdge (channel : Fin 4) (side : BeamSide) (high : Bool) (s : State) :
    Host.Outcome State Fault Refusal :=
  finish (s.updDoor channel fun d =>
    d.updBeam side fun b => b.edge high s.working.settings.beamDebounce[channel])

/-- BEAM_DEBOUNCE (R54 to R57). -/
def execBeamDebounce (channel : Fin 4) (side : BeamSide) (s : State) : Host.Outcome State Fault Refusal :=
  finish (s.completeDebounce channel side)

/-- TRANSIT_TIMEOUT (R58). -/
def execTransitTimeout (channel : Fin 4) (s : State) : Host.Outcome State Fault Refusal :=
  finish (s.blockDoor channel)

/-- BLOCK_CLEAR_EXPIRY (R59). -/
def execBlockClearExpiry (channel : Fin 4) (s : State) : Host.Outcome State Fault Refusal :=
  finish (s.unblockDoor channel)

/-- DOORWAY_STUCK (R60). -/
def execDoorwayStuck (channel : Fin 4) (s : State) : Host.Outcome State Fault Refusal :=
  finish (s.stickDoor channel)

/-- DETECTOR_PIN_EDGE (R64). -/
def execDetectorPinEdge (detector : Fin 6) (high : Bool) (s : State) : Host.Outcome State Fault Refusal :=
  finish (s.updDetector detector fun d => d.edge high)

/-- MOTION_EVENT (R64, R65): the detector's filter completes. -/
def execMotionEvent (detector : Fin 6) (s : State) : Host.Outcome State Fault Refusal :=
  finish (s.completeFilter detector)

/-- A cell's time since motion reaches the presence hold (R65). -/
def State.presenceExpiry (s : State) (c : Cell) : State :=
  let p := s.presence.cells.get c
  match p.sinceMotion with
  | some t =>
    if p.present then s.setPresence c false (some (max t (s.working.settings.presenceHold * 1000))) else s
  | none => s

/-- PRESENCE_HOLD_EXPIRY (R65). -/
def execPresenceHoldExpiry (cell : Cell) (s : State) : Host.Outcome State Fault Refusal :=
  finish (s.presenceExpiry cell)

/-- A second of the presence monitor's timer, for every unit (R67, R68). -/
def State.gatedTicks (s : State) : State :=
  let s1 := s.updPresence fun p => { p with tickMs := 0 }
  s1.space.units.ids.foldl State.gatedTick s1

/-- GATED_TIMER_TICK (R67, R68). -/
def execGatedTimerTick (s : State) : Host.Outcome State Fault Refusal := finish s.gatedTicks

/-- A unit's vacancy timer reaches vacancy confirm, its gate holding and the event not yet handed in this
run; an ENTRY taken first has ended the run (R67, R77, R78, R84). -/
def State.vacancyReached (s : State) (id : UnitId) : State :=
  match s.unit? id with
  | none => s
  | some u =>
    if s.presenceOf id || u.vacancyTold then s
    else
      let mark := max u.vacancyTimer s.working.settings.vacancyConfirm
      (s.modifyUnit id fun u => { u with vacancyTimer := mark }).confirmVacancy id

/-- VACANCY_CONFIRMED (R77, R78). -/
def execVacancyConfirmed (id : UnitId) (s : State) : Host.Outcome State Fault Refusal :=
  finish (s.vacancyReached id)

/-- A unit's presence-forced timer reaches 60, its gate holding (R68, R76). -/
def State.forcedReached (s : State) (id : UnitId) : State :=
  match s.unit? id with
  | none => s
  | some u => if s.presenceOf id = true ∧ u.headcount = 0 then s.forcePresence id else s

/-- PRESENCE_FORCED (R68, R76). -/
def execPresenceForced (id : UnitId) (s : State) : Host.Outcome State Fault Refusal :=
  finish (s.forcedReached id)

/-- A unit's running clearing timer reaches the clearing delay (R81). -/
def State.clearingReached (s : State) (id : UnitId) : State :=
  match s.unit? id with
  | none => s
  | some u => if u.clearing.isSome then s.endClearing id else s

/-- CLEARING_EXPIRY (R81). -/
def execClearingExpiry (id : UnitId) (s : State) : Host.Outcome State Fault Refusal :=
  finish (s.clearingReached id)

end Sys2Proof.Machine
end

