-- ==== Sys2Proof/Machine/PlantEvents.lean ====
section
/-! DEFINITION. The events of the air, sensor, damper, valve, lighting, blind, rail and fault blocks (05 to
09). An event of a timer says that the timer has reached its mark; where the timer does not run, the event
finds nothing to act on (log entry 2). -/

namespace Sys2Proof.Machine
open Sys2Proof

/-- AIR_UPDATE (R88, R89). -/
def execAirUpdate (s : State) : Host.Outcome State Fault Refusal := finish s.airUpdate

/-- SENSOR_SAMPLE (R164 to R169). -/
def execSensorSample (levels : Vector Half 8) (s : State) : Host.Outcome State Fault Refusal :=
  finish (s.sensorSample levels)

/-- HOLD_TIMER_EXPIRY (R166). -/
def execHoldTimerExpiry (channel : Fin 8) (s : State) : Host.Outcome State Fault Refusal :=
  finish (s.holdExpiry channel)

/-- DAMPER_STALL (R113). -/
def execDamperStall (cell : Cell) (s : State) : Host.Outcome State Fault Refusal :=
  finish (s.reportStall cell)

/-- 400 s of CLOSING or OPENING pass without stable feedback (R118). -/
def State.calPhaseExpiry (s : State) (c : Cell) : State :=
  match (s.drives.get c).cal with
  | none => s
  | some k =>
    if k.phase = .waitRail then s else (s.endDamperCal c (.failed .notStable)).refreshNeeds

/-- CALIBRATION_PHASE_TIMEOUT (R118). -/
def execCalibrationPhaseTimeout (cell : Cell) (s : State) : Host.Outcome State Fault Refusal :=
  finish (s.calPhaseExpiry cell)

/-- TEMPERATURE_UPDATE (R121 to R123). -/
def execTemperatureUpdate (cell : Cell) (s : State) : Host.Outcome State Fault Refusal :=
  finish (s.temperatureStep cell).refreshNeeds

/-- LIGHTING_STEP (R127). -/
def execLightingStep (s : State) : Host.Outcome State Fault Refusal := finish s.lightingStep

/-- PWM_PERIOD_START (R133). -/
def execPwmPeriodStart (s : State) : Host.Outcome State Fault Refusal := finish s.loadDuties

/-- DAYLIGHT_UPDATE (R134). -/
def execDaylightUpdate (s : State) : Host.Outcome State Fault Refusal := finish s.daylightUpdate

/-- FREEZE_TIMER_EXPIRY (R137). -/
def execFreezeTimerExpiry (cell : Cell) (s : State) : Host.Outcome State Fault Refusal :=
  finish (s.unfreeze cell)

/-- The evaluation timer starts again; the part of its second that the event ends counts in the times
since the groups' last automatic moves (log entry 34). -/
def Blinds.startSecond (b : Blinds) : Blinds :=
  let rest := 1000 - b.evalTimer
  let credit := fun r : Group => { r with sinceMove := r.sinceMove.map (· + rest) }
  { b with
    evalTimer := 0
    groups := #v[credit b.groups[0], credit b.groups[1], credit b.groups[2], credit b.groups[3]] }

/-- BLIND_EVALUATION (R146 to R150). -/
def execBlindEvaluation (s : State) : Host.Outcome State Fault Refusal :=
  finish (s.updBlinds Blinds.startSecond).evaluateBlinds

/-- CURRENT_SAMPLE (R152 to R154). -/
def execCurrentSample (group : Fin 4) (current : Half) (s : State) : Host.Outcome State Fault Refusal :=
  finish ((s.updGroup group fun r => { r with sensePin := current.toNat }).currentSample group current.toNat)

/-- BLIND_LIMIT_UNSEEN (R152). -/
def execBlindLimitUnseen (group : Fin 4) (s : State) : Host.Outcome State Fault Refusal :=
  finish (s.endOverrun group)

/-- REVERSING_END (R150, R158). -/
def execReversingEnd (group : Fin 4) (s : State) : Host.Outcome State Fault Refusal :=
  finish (s.endReversing group)

/-- CALIBRATION_LEG_TIMEOUT (R158). -/
def execCalibrationLegTimeout (group : Fin 4) (s : State) : Host.Outcome State Fault Refusal :=
  finish (s.failLeg group)

/-- The hold timer of the sun flag, if it runs, reaches 60 minutes (R145). -/
def Blinds.endSunHold (b : Blinds) : Blinds :=
  if b.sunHold.isSome then { b with sun := false, sunHold := none } else b

/-- SUN_HOLD_EXPIRY (R145). -/
def execSunHoldExpiry (s : State) : Host.Outcome State Fault Refusal :=
  finish (s.updBlinds Blinds.endSunHold)

/-- RAIL_SETTLE_END (R160). -/
def execRailSettleEnd (s : State) : Host.Outcome State Fault Refusal :=
  finish (if s.rail.state = .rising ∧ s.rail.settle.isSome then s.settleRail else s)

/-- RAIL_LINGER_EXPIRY (R160). -/
def execRailLingerExpiry (s : State) : Host.Outcome State Fault Refusal :=
  finish (if s.rail.state = .on ∧ s.rail.linger.isSome then s.dropRail else s)

/-- A change of level at the rail-fault input (R161). -/
def Rail.pinEdge (r : Rail) (high : Bool) : Rail :=
  if r.faultPin = high then r
  else { r with faultPin := high, lowTimer := if high then none else some 0 }

/-- RAIL_FAULT_PIN_EDGE (R161). -/
def execRailFaultPinEdge (high : Bool) (s : State) : Host.Outcome State Fault Refusal :=
  finish (s.updRail fun r => r.pinEdge high)

/-- A low level has held 20 ms: a fault level, judged while the rail is RISING or ON (R161). -/
def State.railDown (s : State) : State :=
  match s.rail.lowTimer with
  | none => s
  | some t =>
    let s1 := s.updRail fun r => { r with lowTimer := some (max t Config.filterMs) }
    if s1.rail.state.switchedOn then s1.railFault else s1

/-- RAIL_DOWN (R161). -/
def execRailDown (s : State) : Host.Outcome State Fault Refusal := finish s.railDown

/-- RETRY_EXPIRY (R173). -/
def execRetryExpiry (source : Fin 21) (s : State) : Host.Outcome State Fault Refusal :=
  finish (s.retryExpiry source)

/-- NORMAL_TIMER_EXPIRY (R173). -/
def execNormalTimerExpiry (source : Fin 21) (s : State) : Host.Outcome State Fault Refusal :=
  finish (s.normalExpiry source)

end Sys2Proof.Machine
end

