-- ==== Sys2Proof/Machine/Time.lean ====
section
/-! DEFINITION. The passing of time on an empty queue (log entry 1): a millisecond passes for every timer
that runs, and the events then due are queued. The levels of the pins stay as they were last given. -/

namespace Sys2Proof.Machine
open Sys2Proof

/-- A running timer, a millisecond later. -/
def later (t : Option Nat) : Option Nat := t.map (· + 1)

/-- A running countdown, a millisecond later. -/
def sooner (t : Option Nat) : Option Nat := t.map (· - 1)

/-- The six detectors in order. -/
def allDetectors : List (Fin 6) := [0, 1, 2, 3, 4, 5]

/-! ## A millisecond passes -/

/-- The timers of the link interface: the gap of a frame that has started, the frame in transmission, and
the uptime. -/
def Link.elapse (l : Link) : Link :=
  { l with
    framer := if l.framer.state = .hunt then l.framer else { l.framer with gap := l.framer.gap + 1 }
    tx := l.tx.map fun t => { t with elapsed := t.elapsed + 1 }
    uptimeMs := l.uptimeMs + 1 }

/-- The debounce of a beam. -/
def Beam.elapse (b : Beam) : Beam :=
  { b with pending := b.pending.map fun p => { p with elapsed := p.elapsed + 1 } }

/-- The timers of a doorway channel. -/
def Door.elapse (d : Door) : Door :=
  { d with outer := d.outer.elapse, inner := d.inner.elapse, transit := later d.transit,
           blockClear := later d.blockClear, stuck := later d.stuck }

/-- The timers of a detector. -/
def Detector.elapse (d : Detector) : Detector :=
  { d with filter := later d.filter, sinceMotion := later d.sinceMotion }

/-- The timers of the presence monitor. -/
def Presence.elapse (p : Presence) : Presence :=
  { detectors := allDetectors.foldl (fun v i => updAt v i Detector.elapse) p.detectors
    cells := ⟨{ p.cells.a with sinceMotion := later p.cells.a.sinceMotion },
      { p.cells.b with sinceMotion := later p.cells.b.sinceMotion }⟩
    tickMs := p.tickMs + 1 }

/-- The timers of a unit record that count in milliseconds. -/
def UnitRec.elapse (u : UnitRec) : UnitRec := { u with clearing := later u.clearing, purge := sooner u.purge }

/-- The timers of the units. -/
def Units.elapse : Units → Units
  | .split a b => .split a.elapse b.elapse
  | .joined ab => .joined ab.elapse

/-- An override's remaining time. -/
def Override.elapse (o : Override) : Override := { o with remaining := sooner o.remaining }

/-- The timers of the space coordinator. -/
def Space.elapse (p : Space) : Space :=
  { p with
    partitionTimer := later p.partitionTimer
    fireTimer := later p.fireTimer
    units := p.units.elapse
    overrides := allTargets.foldl (fun v t => updAt v t fun o => o.map Override.elapse) p.overrides }

/-- The timers of a terminal drive. -/
def Drive.elapse (d : Drive) : Drive :=
  { d with
    trackTimer := later d.trackTimer
    cal := d.cal.map fun k => { k with elapsed := k.elapsed + 1 }
    tempTimer := d.tempTimer + 1 }

/-- The freeze timer of a cell. -/
def Daylight.elapse (d : Daylight) : Daylight := { d with freeze := later d.freeze }

/-- The timers of the lighting unit. -/
def Lighting.elapse (l : Lighting) : Lighting :=
  { l with cells := ⟨l.cells.a.elapse, l.cells.b.elapse⟩, stepTimer := l.stepTimer + 1,
           daylightTimer := l.daylightTimer + 1 }

/-- The times of a blind group, those counted from the relay while it is energised. -/
def Group.elapse (r : Group) : Group :=
  let r1 : Group :=
    if r.state.energised then
      { r with segMs := r.segMs + 1, runMs := r.runMs + 1, sampleMs := r.sampleMs + 1, legMs := r.legMs + 1,
               overrun := later r.overrun }
    else if r.state = .reversing then { r with reverseMs := r.reverseMs + 1 }
    else r
  { r1 with sinceMove := later r1.sinceMove }

/-- The timers of the blind unit. -/
def Blinds.elapse (b : Blinds) : Blinds :=
  { b with groups := allGroups.foldl (fun v g => updAt v g Group.elapse) b.groups,
           sunHold := later b.sunHold, evalTimer := b.evalTimer + 1 }

/-- The timers of the rail; a low level's time is counted to just past the 20 ms of a fault level. -/
def Rail.elapse (r : Rail) : Rail :=
  { r with settle := later r.settle, linger := later r.linger,
           lowTimer := r.lowTimer.map fun t => min (t + 1) (Config.filterMs + 1) }

/-- The hold timer of a channel; that of a feedback channel pauses while the rail is not ON (R168). -/
def Sensor.elapse (c : Sensor) (runs : Bool) : Sensor := if runs then { c with hold := later c.hold } else c

/-- The timers of the sensor scanner. -/
def Scanner.elapse (x : Scanner) (railOn : Bool) : Scanner :=
  { channels := allChannels.foldl (fun v i => updAt v i fun c => c.elapse (!isFeedback i || railOn)) x.channels
    timer := x.timer + 1 }

/-- The timers of a fault record. -/
def FaultRec.elapse (r : FaultRec) (normal : Bool) : FaultRec :=
  { r with retryTimer := later r.retryTimer, normal := if normal then r.normal + 1 else r.normal }

/-- A millisecond passes for every timer that runs. -/
def State.elapse (s : State) : State :=
  { s with
    link := s.link.elapse
    clock := { s.clock with subMs := s.clock.subMs + 1 }
    doors := allGroups.foldl (fun v i => updAt v i Door.elapse) s.doors
    presence := s.presence.elapse
    space := s.space.elapse
    air := { s.air with timer := s.air.timer + 1 }
    drives := ⟨s.drives.a.elapse, s.drives.b.elapse⟩
    lighting := s.lighting.elapse
    blinds := s.blinds.elapse
    rail := s.rail.elapse
    scanner := s.scanner.elapse (decide (s.rail.state = .on))
    faults := allSources.foldl (fun v i => updAt v i fun r => r.elapse (s.runsNormal i)) s.faults
    supervision := { s.supervision with period := later s.supervision.period }
    store := { s.store with saving := s.store.saving.map fun k => { k with elapsed := k.elapsed + 1 } } }

/-! ## The events then due -/

/-- The event, if it is due. -/
def dueIf (due : Bool) (i : Instr) : List Instr := if due then [i] else []

/-- A running timer has reached a mark. -/
def reached (t : Option Nat) (mark : Nat) : Bool := t.any fun x => decide (mark ≤ x)

/-- A remaining time has run out. -/
def ranOut (t : Option Nat) : Bool := decide (t = some 0)

/-- The last byte of the frame in transmission is out: ten bits a byte at 115200 bit/s (R179). -/
def Transmission.over (t : Transmission) : Bool := decide (t.frame.length * 10000 ≤ t.elapsed * 115200)

/-- The levels at the analog inputs. -/
def State.levels (s : State) : Vector Half 8 :=
  #v[BitVec.ofNat 16 s.scanner.channels[0].pin, BitVec.ofNat 16 s.scanner.channels[1].pin,
     BitVec.ofNat 16 s.scanner.channels[2].pin, BitVec.ofNat 16 s.scanner.channels[3].pin,
     BitVec.ofNat 16 s.scanner.channels[4].pin, BitVec.ofNat 16 s.scanner.channels[5].pin,
     BitVec.ofNat 16 s.scanner.channels[6].pin, BitVec.ofNat 16 s.scanner.channels[7].pin]

/-- The timers of one fault record. -/
def State.sourceDue (s : State) (i : Fin 21) : List Instr :=
  (dueIf (s.retryDue i) (.retryExpiry i))
    ++ dueIf (s.runsNormal i && decide (Config.normalMs ≤ s.faults[i].normal)) (.normalTimerExpiry i)

/-- The limits of one terminal drive. -/
def State.driveDue (s : State) (c : Cell) : List Instr :=
  (dueIf (s.stallDue c) (.damperStall c))
    ++ dueIf ((s.drives.get c).cal.any fun k => k.phase ≠ .waitRail ∧ Config.calPhaseMs ≤ k.elapsed)
      (.calibrationPhaseTimeout c)

/-- The hold timer of one channel, while it runs. -/
def State.holdDue (s : State) (i : Fin 8) : List Instr :=
  dueIf (reached (s.holdRuns i) Config.holdMs) (.holdTimerExpiry i)

/-- The end of one cell's freeze. -/
def State.freezeDue (s : State) (c : Cell) : List Instr :=
  dueIf (reached (s.lighting.cells.get c).freeze Config.freezeMs) (.freezeTimerExpiry c)

/-- The limits of one blind group. -/
def State.groupDue (s : State) (g : Fin 4) : List Instr :=
  let r := s.blinds.groups[g]
  (dueIf (r.state.energised && s.limitDue g) (.blindLimitUnseen g))
    ++ dueIf (decide (r.state = .reversing) && decide (Config.reverseMs ≤ r.reverseMs)) (.reversingEnd g)
    ++ dueIf (r.cal.isSome && r.state.energised && decide (Config.legLimitMs ≤ r.legMs))
      (.calibrationLegTimeout g)

/-- The timers of the plant that run out: fault records, rail, drives, sensors, freezes and blinds. -/
def State.plantDue (s : State) : List Instr :=
  allSources.flatMap s.sourceDue
    ++ dueIf (decide (s.rail.lowTimer = some Config.filterMs)) .railDown
    ++ dueIf (reached s.rail.settle Config.settleMs) .railSettleEnd
    ++ dueIf (reached s.rail.linger Config.lingerMs) .railLingerExpiry
    ++ s.driveDue .a ++ s.driveDue .b
    ++ allChannels.flatMap s.holdDue
    ++ s.freezeDue .a ++ s.freezeDue .b
    ++ allGroups.flatMap s.groupDue
    ++ dueIf (reached s.blinds.sunHold Config.sunHoldMs) .sunHoldExpiry

/-- The events of one unit. -/
def State.unitDue (s : State) (id : UnitId) : List Instr :=
  match s.unit? id with
  | none => []
  | some u =>
    (dueIf (ranOut u.purge) (.purgeTimerExpiry id))
      ++ dueIf (s.clearingDue id) (.clearingExpiry id)
      ++ dueIf (s.vacancyDue id) (.vacancyConfirmed id)
      ++ dueIf (s.presenceOf id && decide (Config.forcedDelay ≤ u.forcedTimer)) (.presenceForced id)

/-- The presence hold of one cell. -/
def State.presenceDue (s : State) (c : Cell) : List Instr :=
  let p := s.presence.cells.get c
  dueIf (p.present && reached p.sinceMotion (s.working.settings.presenceHold * 1000)) (.presenceHoldExpiry c)

/-- The timers of one doorway channel. -/
def State.doorDue (s : State) (i : Fin 4) : List Instr :=
  let d := s.doors[i]
  (dueIf (s.transitDue i) (.transitTimeout i))
    ++ dueIf (reached d.blockClear Config.blockClearMs) (.blockClearExpiry i)
    ++ dueIf (reached d.stuck Config.stuckMs && !d.stuckTold) (.doorwayStuck i)

/-- The expiry of one override. -/
def State.overrideDue (s : State) (t : Fin 16) : List Instr :=
  dueIf (s.space.overrides[t].any fun o => ranOut o.remaining) (.overrideExpiry t)

/-- The timers of the room and of supervision that run out. -/
def State.roomDue (s : State) : List Instr :=
  s.space.units.ids.flatMap s.unitDue
    ++ s.presenceDue .a ++ s.presenceDue .b
    ++ allGroups.flatMap s.doorDue
    ++ allTargets.flatMap s.overrideDue
    ++ dueIf (reached s.supervision.period (s.working.settings.supervisionPeriod * 1000)) .periodEnd

/-- The current sample of one blind group. -/
def State.currentDue (s : State) (g : Fin 4) : List Instr :=
  let r := s.blinds.groups[g]
  dueIf (r.state.energised && decide (Config.currentPeriodMs ≤ r.sampleMs))
    (.currentSample g (BitVec.ofNat 16 r.sensePin))

/-- The temperature update of one cell. -/
def State.temperatureDue (s : State) (c : Cell) : List Instr :=
  dueIf (decide (Config.tempPeriodMs ≤ (s.drives.get c).tempTimer)) (.temperatureUpdate c)

/-- The periods that end: the clocks, the samples and the updates. -/
def State.periodsDue (s : State) : List Instr :=
  allGroups.flatMap s.currentDue
    ++ dueIf (decide (1000 ≤ s.clock.subMs)) .secondTick
    ++ dueIf (decide (1000 ≤ s.presence.tickMs)) .gatedTimerTick
    ++ dueIf (decide (1000 ≤ s.scanner.timer)) (.sensorSample s.levels)
    ++ s.temperatureDue .a ++ s.temperatureDue .b
    ++ dueIf (decide (1000 ≤ s.blinds.evalTimer)) .blindEvaluation
    ++ dueIf (decide (1000 ≤ s.lighting.daylightTimer)) .daylightUpdate
    ++ dueIf (decide (Config.lightingPeriodMs ≤ s.lighting.stepTimer)) .lightingStep
    ++ [.pwmPeriodStart]
    ++ dueIf (decide (s.working.settings.airPeriod * 1000 ≤ s.air.timer)) .airUpdate

/-- The debounces of one doorway channel's beams. -/
def State.beamsDue (s : State) (i : Fin 4) : List Instr :=
  let d := s.doors[i]
  (dueIf (d.outer.pending.any fun p => decide (p.limit ≤ p.elapsed)) (.beamDebounce i .outer))
    ++ dueIf (d.inner.pending.any fun p => decide (p.limit ≤ p.elapsed)) (.beamDebounce i .inner)

/-- The event of one detector. -/
def State.detectorDue (s : State) (i : Fin 6) : List Instr :=
  dueIf (reached s.presence.detectors[i].filter Config.filterMs) (.motionEvent i)

/-- The inputs whose new level has held. -/
def State.inputsDue (s : State) : List Instr :=
  (dueIf (reached s.space.fireTimer Config.fireDebounceMs) .fireDebounce)
    ++ dueIf (reached s.space.partitionTimer Config.partitionDebounceMs) .partitionDebounce
    ++ allGroups.flatMap s.beamsDue
    ++ allDetectors.flatMap s.detectorDue

/-- The events of the serial line and the store. -/
def State.lineDue (s : State) : List Instr :=
  (dueIf (s.store.saving.any fun k => decide (Config.saveLimitMs ≤ k.elapsed)) .saveWriteTimeout)
    ++ dueIf (decide (Config.gapMs < s.link.framer.gap)) .gapTimeout
    ++ dueIf (s.link.tx.any Transmission.over) .transmitDone

/-- The events due, in one fixed order: where the spec lets either of two be taken first, this order is the
model's (log entry 36). The timers that run out stand before the samples, updates and inputs that could start them
again, and the end of a frame, at which a waiting request may be taken, stands last, so that no event in this queue
finds its timer begun anew; the warm reset of a RESTART stands alone. -/
def State.dueEvents (s : State) : List Instr :=
  if s.link.restart = .sent then [.restartReset]
  else s.plantDue ++ (s.roomDue ++ (s.periodsDue ++ (s.inputsDue ++ s.lineDue)))

/-- What the part does while no command waits (log entries 1 and 48). -/
def State.idle (s : State) : State :=
  let s1 := s.elapse
  { s1 with pending := s1.dueEvents }

end Sys2Proof.Machine
end

