-- ==== Sys2Proof/Machine/Dispatch.lean ====
section
/-! DEFINITION. The meaning of every command, one arm each. -/

namespace Sys2Proof.Machine
open Sys2Proof

/-- The effect of a command on everything but the queue. -/
def exec (i : Instr) (s : State) : Host.Outcome State Fault Refusal :=
  match i with
  | .ident tag => Sys2Proof.Machine.execIdent tag s
  | .keepalive tag => Sys2Proof.Machine.execKeepalive tag s
  | .setTime tag minute second => Sys2Proof.Machine.execSetTime tag minute second s
  | .restart tag => Sys2Proof.Machine.execRestart tag s
  | .setNoticeMask tag kind setting => Sys2Proof.Machine.execSetNoticeMask tag kind setting s
  | .putSetting tag number inst value => Sys2Proof.Machine.execPutSetting tag number inst value s
  | .getSetting tag number inst => Sys2Proof.Machine.execGetSetting tag number inst s
  | .saveSettings tag => Sys2Proof.Machine.execSaveSettings tag s
  | .restoreSettings tag => Sys2Proof.Machine.execRestoreSettings tag s
  | .getChain tag entry => Sys2Proof.Machine.execGetChain tag entry s
  | .chainBegin tag repeating => Sys2Proof.Machine.execChainBegin tag repeating s
  | .chainEntry tag index entry => Sys2Proof.Machine.execChainEntry tag index entry s
  | .chainCommit tag => Sys2Proof.Machine.execChainCommit tag s
  | .chainSwitch tag timing => Sys2Proof.Machine.execChainSwitch tag timing s
  | .chainCancel tag => Sys2Proof.Machine.execChainCancel tag s
  | .setStopMark tag index mode => Sys2Proof.Machine.execSetStopMark tag index mode s
  | .walkerPause tag => Sys2Proof.Machine.execWalkerPause tag s
  | .walkerResume tag => Sys2Proof.Machine.execWalkerResume tag s
  | .releaseHold tag cell => Sys2Proof.Machine.execReleaseHold tag cell s
  | .getUnit tag unit => Sys2Proof.Machine.execGetUnit tag unit s
  | .getCell tag cell => Sys2Proof.Machine.execGetCell tag cell s
  | .putProfile tag number profile => Sys2Proof.Machine.execPutProfile tag number profile s
  | .getProfile tag number => Sys2Proof.Machine.execGetProfile tag number s
  | .setOverride tag target value expiry => Sys2Proof.Machine.execSetOverride tag target value expiry s
  | .clearOverride tag target => Sys2Proof.Machine.execClearOverride tag target s
  | .getDoorway tag channel => Sys2Proof.Machine.execGetDoorway tag channel s
  | .setHeadcount tag unit count => Sys2Proof.Machine.execSetHeadcount tag unit count s
  | .setSupplyCap tag cap => Sys2Proof.Machine.execSetSupplyCap tag cap s
  | .calibrateDamper tag cell => Sys2Proof.Machine.execCalibrateDamper tag cell s
  | .putDamperTable tag cell points => Sys2Proof.Machine.execPutDamperTable tag cell points s
  | .getChannel tag channel => Sys2Proof.Machine.execGetChannel tag channel s
  | .setSunState tag sun => Sys2Proof.Machine.execSetSunState tag sun s
  | .calibrateBlind tag group => Sys2Proof.Machine.execCalibrateBlind tag group s
  | .getBlind tag group => Sys2Proof.Machine.execGetBlind tag group s
  | .getFaults tag selection => Sys2Proof.Machine.execGetFaults tag selection s
  | .clearFault tag source keepCount => Sys2Proof.Machine.execClearFault tag source keepCount s
  | .unknownKind tag kind payload => Sys2Proof.Machine.execUnknownKind tag kind payload s
  | .byteReceived value stopHigh => Sys2Proof.Machine.execByteReceived value stopHigh s
  | .gapTimeout => Sys2Proof.Machine.execGapTimeout s
  | .transmitDone => Sys2Proof.Machine.execTransmitDone s
  | .powerOn => Sys2Proof.Machine.execPowerOn s
  | .brownOut => Sys2Proof.Machine.execBrownOut s
  | .resetLine => Sys2Proof.Machine.execResetLine s
  | .restartReset => Sys2Proof.Machine.execRestartReset s
  | .secondTick => Sys2Proof.Machine.execSecondTick s
  | .minuteEvent => Sys2Proof.Machine.execMinuteEvent s
  | .crystalStopped => Sys2Proof.Machine.execCrystalStopped s
  | .crystalResumed => Sys2Proof.Machine.execCrystalResumed s
  | .partitionContactEdge contactOpen => Sys2Proof.Machine.execPartitionContactEdge contactOpen s
  | .partitionDebounce => Sys2Proof.Machine.execPartitionDebounce s
  | .fireInputEdge high => Sys2Proof.Machine.execFireInputEdge high s
  | .fireDebounce => Sys2Proof.Machine.execFireDebounce s
  | .purgeTimerExpiry unit => Sys2Proof.Machine.execPurgeTimerExpiry unit s
  | .overrideExpiry target => Sys2Proof.Machine.execOverrideExpiry target s
  | .beamPinEdge channel side high => Sys2Proof.Machine.execBeamPinEdge channel side high s
  | .beamDebounce channel side => Sys2Proof.Machine.execBeamDebounce channel side s
  | .transitTimeout channel => Sys2Proof.Machine.execTransitTimeout channel s
  | .blockClearExpiry channel => Sys2Proof.Machine.execBlockClearExpiry channel s
  | .doorwayStuck channel => Sys2Proof.Machine.execDoorwayStuck channel s
  | .detectorPinEdge detector high => Sys2Proof.Machine.execDetectorPinEdge detector high s
  | .motionEvent detector => Sys2Proof.Machine.execMotionEvent detector s
  | .presenceHoldExpiry cell => Sys2Proof.Machine.execPresenceHoldExpiry cell s
  | .gatedTimerTick => Sys2Proof.Machine.execGatedTimerTick s
  | .vacancyConfirmed unit => Sys2Proof.Machine.execVacancyConfirmed unit s
  | .presenceForced unit => Sys2Proof.Machine.execPresenceForced unit s
  | .clearingExpiry unit => Sys2Proof.Machine.execClearingExpiry unit s
  | .airUpdate => Sys2Proof.Machine.execAirUpdate s
  | .sensorSample levels => Sys2Proof.Machine.execSensorSample levels s
  | .holdTimerExpiry channel => Sys2Proof.Machine.execHoldTimerExpiry channel s
  | .damperStall cell => Sys2Proof.Machine.execDamperStall cell s
  | .calibrationPhaseTimeout cell => Sys2Proof.Machine.execCalibrationPhaseTimeout cell s
  | .temperatureUpdate cell => Sys2Proof.Machine.execTemperatureUpdate cell s
  | .lightingStep => Sys2Proof.Machine.execLightingStep s
  | .pwmPeriodStart => Sys2Proof.Machine.execPwmPeriodStart s
  | .daylightUpdate => Sys2Proof.Machine.execDaylightUpdate s
  | .freezeTimerExpiry cell => Sys2Proof.Machine.execFreezeTimerExpiry cell s
  | .blindEvaluation => Sys2Proof.Machine.execBlindEvaluation s
  | .currentSample group current => Sys2Proof.Machine.execCurrentSample group current s
  | .blindLimitUnseen group => Sys2Proof.Machine.execBlindLimitUnseen group s
  | .reversingEnd group => Sys2Proof.Machine.execReversingEnd group s
  | .calibrationLegTimeout group => Sys2Proof.Machine.execCalibrationLegTimeout group s
  | .sunHoldExpiry => Sys2Proof.Machine.execSunHoldExpiry s
  | .railSettleEnd => Sys2Proof.Machine.execRailSettleEnd s
  | .railLingerExpiry => Sys2Proof.Machine.execRailLingerExpiry s
  | .railFaultPinEdge high => Sys2Proof.Machine.execRailFaultPinEdge high s
  | .railDown => Sys2Proof.Machine.execRailDown s
  | .retryExpiry source => Sys2Proof.Machine.execRetryExpiry source s
  | .normalTimerExpiry source => Sys2Proof.Machine.execNormalTimerExpiry source s
  | .periodEnd => Sys2Proof.Machine.execPeriodEnd s
  | .saveDone agrees => Sys2Proof.Machine.execSaveDone agrees s
  | .saveWriteTimeout => Sys2Proof.Machine.execSaveWriteTimeout s

end Sys2Proof.Machine
end

