-- ==== Sys2Proof/Machine/Step.lean ====
section
/-! DEFINITION. One step: the command at the front of the queue, or, on an empty queue, a millisecond of
time. -/

namespace Sys2Proof.Machine
open Sys2Proof

/-- One step of the part. The command at the front of the queue is taken and carried out; while none waits,
a millisecond passes and the events then due join the queue (log entry 1). -/
def step (s : State) : Host.Outcome State Fault Refusal :=
  match s.pending with
  | i :: rest => exec i { s with pending := rest }
  | [] => .next s.idle

/-- The state with the command that a word spells put at the front of its queue. No command of the 7320 has
bits in the table of operations, so no word spells one. -/
def State.withFetchWord (s : State) (nbits w : Nat) : State :=
  match decodeTableWord nbits w with
  | some i => { s with pending := i :: s.pending }
  | none => s

end Sys2Proof.Machine
end

