-- ==== Sys2Proof/Safety.lean ====
section
/-! DEFINITION. The terms in which claims about the part are made: the parts of the state and what it is to
leave one alone, and the invariants of the link interface and of the units. -/

namespace Sys2Proof.Machine
open Sys2Proof

/-! ## Parts of the state -/

/-- A part of the state, as frames name it. `headcounts`, `modes` and `arrangement` are facts about the unit
records that more is claimed of than of the records whole. -/
inductive Block where
  | link | notices | clock | walker | doors | presence | drift
  | partition | contact | fire | fireInput | overrides | arrangement | units | headcounts | modes
  | air | drives | lighting | blinds | rail | scanner | faults | supervision | store
  | settings | profiles | tables | calibrations | pending
  deriving DecidableEq, Repr

/-- Notices are handed to a link interface, and nothing else happens to it. -/
def Link.handed (l : Link) (ns : List Notice) : Link := ns.foldl Link.place l

/-- A part of the state is the same in two states. Of the link interface, `link` says that nothing happened
to it but the hand-over of notices, and `notices` that none was handed over. -/
def Block.same (b : Block) (s t : State) : Prop :=
  match b with
  | .link => ∃ ns, t.link = s.link.handed ns
  | .notices => t.link = s.link
  | .clock => t.clock = s.clock
  | .walker => t.walker = s.walker
  | .doors => t.doors = s.doors
  | .presence => t.presence = s.presence
  | .drift => t.drift = s.drift
  | .partition => t.space.partition = s.space.partition
  | .contact => t.space.contact = s.space.contact ∧ t.space.partitionTimer = s.space.partitionTimer
  | .fire => t.space.fire = s.space.fire
  | .fireInput => t.space.firePin = s.space.firePin ∧ t.space.fireTimer = s.space.fireTimer
  | .overrides => t.space.overrides = s.space.overrides
  | .arrangement => t.space.units.ids = s.space.units.ids
  | .units => t.space.units = s.space.units
  | .headcounts => ∀ id, (t.unit? id).map (·.headcount) = (s.unit? id).map (·.headcount)
  | .modes => ∀ id, (t.unit? id).map (·.mode) = (s.unit? id).map (·.mode)
  | .air => t.air = s.air
  | .drives => t.drives = s.drives
  | .lighting => t.lighting = s.lighting
  | .blinds => t.blinds = s.blinds
  | .rail => t.rail = s.rail
  | .scanner => t.scanner = s.scanner
  | .faults => t.faults = s.faults
  | .supervision => t.supervision = s.supervision
  | .store => t.store = s.store
  | .settings => t.working.settings = s.working.settings
  | .profiles => t.working.profiles = s.working.profiles
  | .tables => t.working.tables = s.working.tables
  | .calibrations => t.working.calibrations = s.working.calibrations
  | .pending => t.pending = s.pending

/-- Every part of the state but those listed is the same in two states. -/
structure Keeps (parts : List Block) (s t : State) : Prop where
  same : ∀ b : Block, parts.contains b = false → b.same s t

/-! ## The link interface -/

/-- Nothing waits that the link interface could send or take: an idle transmitter leaves no reply and no
notice waiting (but for the moment between the reply to a RESTART and its reset), and a request waits only
while the reply queue is full (R180, R183). -/
abbrev State.Settled (s : State) : Prop :=
  (s.link.tx = none → s.link.restart ≠ .sent → s.link.replies = [] ∧ s.link.notices = []) ∧
    (s.link.requests = [] ∨ Config.linkQueueSize ≤ s.link.replies.length)

/-- A request that arrives is taken at once: none waits ahead of it and its reply has room (R180). -/
abbrev State.Takes (s : State) : Prop := s.link.requests = [] ∧ s.link.replies.length < Config.linkQueueSize

/-- The framer holds no more than the frame it has begun (R179). -/
abbrev Framer.Sound (r : Framer) : Prop :=
  r.len ≤ Config.maxPayload ∧ r.payload.length ≤ r.len ∧ (r.state = .payload → r.payload.length < r.len) ∧
    (r.state = .length ∨ r.state = .kind ∨ r.state = .tag → r.payload = [])

/-- The bounds and the order of the link interface's queues: at most four frames and four replies (R180), at
most sixteen notices with the HIGH ones ahead of the LOW ones (R186), and no frame longer than the framer
lets one be (R179). -/
abbrev Link.Sound (l : Link) : Prop :=
  l.notices.length ≤ Config.noticeQueueSize ∧ (∀ n ∈ l.lows, n.kind.high = false) ∧
    l.requests.length ≤ Config.linkQueueSize ∧ l.replies.length ≤ Config.linkQueueSize ∧
    l.dropped ≤ 65535 ∧ l.framer.Sound ∧ ∀ f ∈ l.requests, f.payload.length ≤ Config.maxPayload

/-- The link interface once a taken request has been answered: its reply joins the reply queue, it counts
among the frames taken, and the transmitter starts what it can (R180, R183). -/
def Link.answered (l : Link) (kind tag : Byte) (status : ReplyStatus) (data : List Byte) : Link :=
  Link.startFrame
    { l.reply kind tag { status := status, data := data } with framesTaken := l.framesTaken + 1 }

/-- The notice a block hands over, stamped with the week clock of a state (R185). -/
def State.noticeOf (s : State) (kind : NoticeKind) (place : Option Place) (source : Option Nat) (value : Nat)
    (tag : Option Half) : Notice where
  kind := kind
  place := place
  source := source
  value := value
  tag := tag
  minute := s.clock.minute
  clockSet := s.clock.isSet

/-! ## Settings -/

/-- The values the table of section 10.5 lists for a setting, as intervals; an enumerated setting has its codes of
section 11.3. The Qmin of a cell ends at the cell's Qmax as it stands. -/
def Settings.listed (w : Settings) : SettingKey → List (Nat × Nat)
  | .divisible | .firePolarity | .blindSide _ => [(0, 1)]
  | .doorAssign _ | .outerEdge _ | .innerEdge _ | .detectorAssign _ | .detectorEdge _ | .channelCell _
  | .blindCell _ => [(0, 2)]
  | .channelRole _ => [(0, 3)]
  | .firePosition _ => [(0, 0), (1000, 1000)]
  | .windowFraction => [(25, 25), (50, 50), (75, 75), (100, 100)]
  | .supervisionPeriod => [(0, 0), (10, 600)]
  | .purgeEndCo2 => [(400, 1200)]
  | .area _ => [(10, 400)]
  | .endingWarning => [(0, 30)]
  | .beamDebounce _ => [(10, 200)]
  | .transitTimeout => [(1, 10)]
  | .presenceHold => [(60, 1800)]
  | .clearingDelay => [(60, 900)]
  | .vacancyConfirm => [(300, 3600)]
  | .airPeriod => [(5, 60)]
  | .ra => [(0, 300)]
  | .qmax _ => [(100, 20000)]
  | .qmin c => [(0, w.qmax.get c)]
  | .alarmThreshold => [(1500, 5000)]
  | .alarmHysteresis => [(100, 500)]
  | .defaultCap => [(0, 40000)]
  | .strokeTime _ => [(30, 300)]
  | .trackingTolerance => [(20, 200)]
  | .kpT | .kiT | .kd => [(0, 255)]
  | .setbackExtra => [(0, 60)]
  | .valveFallback _ | .sunPosition => [(0, 1000)]
  | .driverMin _ => [(1, 300)]
  | .clearingLevel | .innerBoost => [(0, 500)]
  | .travelUp _ | .travelDown _ => [(5000, 120000)]
  | .sunInterval => [(1, 30)]
  | .driveSlots => [(1, 4)]
  | .runThreshold => [(50, 1000)]
  | .stallThreshold => [(500, 5000)]
  | .co2Span _ => [(2000, 5000)]
  | .retryInterval => [(10, 600)]
  | .retryLimit => [(0, 10)]

/-- The setting names values of a list, and no quantity that is clamped (R182, R197). -/
def SettingKey.named : SettingKey → Bool
  | .divisible | .firePolarity | .doorAssign _ | .outerEdge _ | .innerEdge _ | .detectorAssign _ | .detectorEdge _
  | .firePosition _ | .channelCell _ | .channelRole _ | .blindCell _ | .blindSide _ | .windowFraction => true
  | _ => false

/-- A value is among those listed for a setting. -/
abbrev Settings.lists (w : Settings) (k : SettingKey) (v : Nat) : Prop := ∃ r ∈ w.listed k, r.1 ≤ v ∧ v ≤ r.2

/-- Every setting holds a value listed for it. -/
abbrev Settings.Listed (w : Settings) : Prop := ∀ k : SettingKey, w.lists k (w.get k)

/-! ## The booking walker -/

/-- Where an arming pass leaves the cursor and the walker once it has moved on from entry `k`: at the next entry,
not yet due; past LAST of a ONCE chain, FINISHED; past LAST of a WEEKLY chain, at entry 0, not yet due on the next
week's cycle (R34, R37, R46). -/
def Walker.passesTo (w : Walker) (lead : Entry → Nat) (k : Nat) (w' : Walker) : Prop :=
  (∃ f, w.active.entries[k + 1]? = some f ∧ w.cycle + lead f < f.start + w.offset ∧
      w' = { w with state := .running, cursor := some (k + 1) }) ∨
    (k + 1 = w.active.entries.length ∧ w.queuedSwitch ≠ some .atChainEnd ∧ w.active.repeating = .once ∧
      w' = { w with state := .finished, cursor := none }) ∨
    (k + 1 = w.active.entries.length ∧ w.queuedSwitch ≠ some .atChainEnd ∧ w.active.repeating = .weekly ∧
      ∃ f, w.active.entries[0]? = some f ∧ w'.cycle + lead f < f.start + w'.offset ∧
        w' = { w with
          state := .running
          cursor := some 0
          cycle := if 10080 ≤ w.cycle then w.cycle - 10080 else w.cycle
          offset := if 10080 ≤ w.cycle then w.offset else w.offset + 10080 })

/-! ## Profiles -/

/-- A number of a record: as it is stored, as it was sent, and the range it is stored in. -/
structure Judged where
  stored : Nat
  sent : Nat
  low : Nat
  high : Nat

/-- The numeric fields of a profile in the order of the table of section 1.6, each with its range there; the no-show
minutes, which have two ranges, stand apart. -/
def Profile.numbers (q : Profile) (r : ProfileRecord) : List Judged :=
  [⟨q.rp, r.rp.toNat, 0, 200⟩, ⟨q.co2Setpoint, r.co2Setpoint.toNat, 600, 1500⟩,
   ⟨q.kp, r.kp.toNat, 0, 255⟩, ⟨q.ki, r.ki.toNat, 0, 255⟩, ⟨q.imax, r.imax.toNat, 0, 10000⟩,
   ⟨q.qcap, r.qcap.toNat, 100, 1000⟩, ⟨q.slew, r.slew.toNat, 5, 1000⟩,
   ⟨q.comfort, r.comfort.toNat, 180, 260⟩, ⟨q.standby, r.standby.toNat, 0, 40⟩,
   ⟨q.lux, r.lux.toNat, 100, 1000⟩, ⟨q.board, r.board.toNat, 0, 1000⟩, ⟨q.front, r.front.toNat, 0, 1000⟩,
   ⟨q.window, r.window.toNat, 0, 1000⟩, ⟨q.inner, r.inner.toNat, 0, 1000⟩,
   ⟨q.awaitLevel, r.awaitLevel.toNat, 0, 1000⟩, ⟨q.fadeUp, r.fadeUp.toNat, 10, 1000⟩,
   ⟨q.fadeDown, r.fadeDown.toNat, 10, 1000⟩, ⟨q.lead, r.lead.toNat, 0, 120⟩,
   ⟨q.earlyVacate, r.earlyVacate.toNat, 5, 60⟩, ⟨q.purge, r.purge.toNat, 0, 60⟩,
   ⟨q.awaitFraction, r.awaitFraction.toNat, 0, 1000⟩]

/-! ## Fire and the units -/

/-- A fact about the record of every unit that exists. -/
abbrev State.everyUnit (s : State) (p : UnitId → UnitRec → Prop) : Prop :=
  ∀ id u, s.unit? id = some u → p id u

/-- While fire is in force no override stands (R20), and a unit's mode is FIRE exactly then (R11, R100). -/
abbrev State.FireSound (s : State) : Prop :=
  (s.space.fire = .inForce → ∀ t : Fin 16, s.space.overrides[t] = none) ∧
    s.everyUnit fun _ u => u.mode = .fire ↔ s.space.fire = .inForce

/-- No unit's headcount exceeds its maximum (R72). -/
abbrev State.HeadcountSound (s : State) : Prop := s.everyUnit fun id u => u.headcount ≤ id.maxHeadcount

/-! ## Beams -/

/-- The debounce that runs for a beam, completed now, gives a beam event: a break if `broke`, else a clear
(R54, R55). -/
abbrev State.BeamTurns (s : State) (i : Fin 4) (side : BeamSide) (broke : Bool) : Prop :=
  let b := s.doors[i].beam side
  b.pending.isSome = true ∧ b.debounced = some (!b.pin) ∧ b.broken = !broke ∧
    (s.working.settings.beamEdge i side).follow b.pin b.broken = broke

/-- The fourteen rows of the passage table of R56: the state, the event (the beam, and whether it broke or
cleared) and the next state. -/
def passageRows : List (Passage × BeamSide × Bool × Passage) :=
  [(.idle, .outer, true, .inOuter), (.idle, .inner, true, .outInner),
   (.inOuter, .inner, true, .inBoth), (.inOuter, .outer, false, .idle),
   (.inBoth, .outer, false, .inInner), (.inBoth, .inner, false, .inOuter),
   (.inInner, .inner, false, .idle), (.inInner, .outer, true, .inBoth),
   (.outInner, .outer, true, .outBoth), (.outInner, .inner, false, .idle),
   (.outBoth, .inner, false, .outOuter), (.outBoth, .outer, false, .outInner),
   (.outOuter, .outer, false, .idle), (.outOuter, .inner, true, .outBoth)]

end Sys2Proof.Machine
end

