-- ==== Sys2Proof/Certificates/Slice0/Obligations.lean ====
section
/-! DEFINITION. The statements about the part, for the provers. -/

open Sys2Proof Sys2Proof.Machine

/-! ## Steps, and the line -/

/-- A step takes the command at the front of the queue and carries it out on the state with the queue's rest (log
entry 3 gives the part this queue). -/
def Obligations.StepTakesTheFrontCommand : Prop :=
  ∀ (i : Instr) (rest : List Instr) (s : State),
    step { s with pending := i :: rest } = exec i { s with pending := rest }

/-- Every step keeps the bounds and the order of the link interface's queues (R180, R186), and leaves nothing waiting
that could be sent or taken (R180, R183). -/
def Obligations.StepKeepsTheLinkSound : Prop :=
  ∀ s t : State, s.link.Sound → s.Settled → step s = .next t → t.link.Sound ∧ t.Settled

/-- Every step keeps the fire lock: no override stands while fire is in force, and a unit's mode is FIRE exactly
then. -/
def Obligations.StepKeepsTheFireLock : Prop :=
  ∀ s t : State, s.FireSound → step s = .next t → t.FireSound

/-- Every step keeps every headcount within its unit's maximum. -/
def Obligations.StepKeepsHeadcountsInRange : Prop :=
  ∀ s t : State, s.HeadcountSound → step s = .next t → t.HeadcountSound

/-- The state after the first power-on reset meets the three invariants. -/
def Obligations.ResetMeetsTheInvariants : Prop :=
  State.reset.link.Sound ∧ State.reset.Settled ∧ State.reset.FireSound ∧ State.reset.HeadcountSound

/-- What State.reset holds: the week clock, the units, the walker, the outputs, the rail, the fault table, the link,
as the rules on the state after reset give them; the image NONE is the model's choice of log entry 5. -/
def Obligations.ResetStateIsAsTheRulesSay : Prop :=
  State.reset.clock =
      { minute := 0, second := 0, isSet := false, crystal := true, degraded := false, subMs := 0 } ∧
    State.reset.space.partition = .closed ∧ State.reset.space.fire = .clear ∧
    State.reset.space.units.ids = [.a, .b] ∧
    (∀ t : Fin 16, State.reset.space.overrides[t] = none) ∧
    State.reset.walker.state = .idle ∧ State.reset.walker.active.state = .empty ∧
    State.reset.walker.standby.state = .empty ∧
    (∀ c : Cell, State.reset.walker.next.inCell c = none ∧ State.reset.walker.current.inCell c = none) ∧
    (∀ c : Cell, (State.reset.drives.get c).output = 0 ∧ (State.reset.drives.get c).valveOutput = 0 ∧
      (State.reset.drives.get c).source = .computed ∧ (State.reset.drives.get c).feedbackGood = false ∧
      (State.reset.lighting.cells.get c).factor = 1000) ∧
    (∀ i : Fin 8, State.reset.lighting.channels[i].output = 0 ∧ State.reset.lighting.channels[i].appliedDuty = 0 ∧
      State.reset.scanner.channels[i].state = .normal ∧ State.reset.scanner.channels[i].value = none) ∧
    (∀ g : Fin 4, State.reset.blinds.groups[g].state = .stopped ∧
      State.reset.blinds.groups[g].referenced = false ∧ State.reset.blinds.groups[g].estimate = 1000) ∧
    State.reset.rail.state = .off ∧
    (∀ i : Fin 21, State.reset.faults[i] = FaultRec.fresh) ∧
    State.reset.supervision.state = .unsupervised ∧
    State.reset.link.requests = [] ∧ State.reset.link.replies = [] ∧
    State.reset.link.tx = some { frame := .notice (readyNotice .powerOn State.reset.clock) false, elapsed := 0 } ∧
    State.reset.link.notices = [State.reset.noticeOf .settingsLost none none noValue none]

/-- A request's frame is read back as the request: no bit of any field is dropped. -/
def Obligations.RequestFramesReadBack : Prop :=
  ∀ (i : Instr) (kind tag : Byte) (p : List Byte), i.wellFormed = true →
    encodeRequest i = some (kind, tag, p) →
    p.length ≤ Config.maxPayload ∧ decodeRequest kind tag p = .command i

/-- The bytes of a request's frame, received one by one, do what the request does. -/
def Obligations.FrameBytesActAsTheRequest : Prop :=
  ∀ (i : Instr) (kind tag : Byte) (p : List Byte) (s : State), i.wellFormed = true →
    encodeRequest i = some (kind, tag, p) → s.Settled → s.link.framer = Framer.hunting →
    Sys2Proof.core.run (p.length + 5)
        { s with pending := (frameBytes kind tag p).map fun b => .byteReceived b true } =
      exec i { s with pending := [] }

/-- The framer. In HUNT only a SYNC byte with a good stop bit does anything; a GAP_TIMEOUT there, whose timer does
not run, leaves the state as it was, which is the model's choice (log entry 2). A frame that has started is abandoned
by a low stop bit, a gap of more than 20 ms or a LEN above 250, and a CHECK that does not bring the sum to 0 counts
as a check error; either way the framer is in HUNT. -/
def Obligations.FramerHuntsAndAbandons : Prop :=
  ∀ (s : State) (b : Byte), s.Settled →
    (s.link.framer.state = .hunt →
      exec .gapTimeout s = .next s ∧ exec (.byteReceived b false) s = .next s ∧
      (b ≠ 0xA5 → exec (.byteReceived b true) s = .next s) ∧
      exec (.byteReceived 0xA5 true) s =
        .next { s with link := { s.link with framer := { Framer.hunting with state := .length } } }) ∧
    (s.link.framer.state ≠ .hunt →
      exec .gapTimeout s =
          .next { s with link := { s.link with framer := Framer.hunting, abandoned := s.link.abandoned + 1 } } ∧
      exec (.byteReceived b false) s =
          .next { s with link := { s.link with framer := Framer.hunting, abandoned := s.link.abandoned + 1 } } ∧
      (s.link.framer.state = .length → 250 < b.toNat → exec (.byteReceived b true) s =
          .next { s with link := { s.link with framer := Framer.hunting, abandoned := s.link.abandoned + 1 } }) ∧
      (s.link.framer.state = .check → s.link.framer.sum + b ≠ 0 → exec (.byteReceived b true) s =
          .next { s with link := { s.link with framer := Framer.hunting, checkErrors := s.link.checkErrors + 1 } }))

/-- At the last byte of a frame the transmitter takes the oldest reply, else the head notice with the overflow flag,
else nothing. -/
def Obligations.TransmitterTakesRepliesFirst : Prop :=
  ∀ (s : State) (x : Transmission), s.link.tx = some x → s.link.restart = .none → s.link.requests = [] →
    (∀ r rest, s.link.replies = r :: rest → exec .transmitDone s =
      .next { s with link := { s.link with
        replies := rest, tx := some { frame := .reply r, elapsed := 0 } } }) ∧
    (s.link.replies = [] → ∀ n rest, s.link.notices = n :: rest → exec .transmitDone s =
      .next { s with link := { s.link with
        notices := rest, overflow := false,
        tx := some { frame := .notice n s.link.overflow, elapsed := 0 } } }) ∧
    (s.link.replies = [] → s.link.notices = [] → exec .transmitDone s =
      .next { s with link := { s.link with tx := none } })

/-- A request that finds the reply queue full waits at the tail of the request queue, or is lost as an overrun if
four wait already; nothing else happens. -/
def Obligations.RequestWaitsWhileRepliesAreFull : Prop :=
  ∀ (i : Instr) (kind tag : Byte) (p : List Byte) (s : State), i.wellFormed = true →
    encodeRequest i = some (kind, tag, p) → s.Settled → 4 ≤ s.link.replies.length →
    exec i s = .next { s with link :=
      if s.link.requests.length < 4 then
        { s.link with requests := s.link.requests ++ [{ kind := kind, tag := tag, payload := p }] }
      else { s.link with overruns := s.link.overruns + 1 } }

/-- A frame whose KIND is no request kind is answered UNKNOWN_KIND and does nothing; a command that is no such frame
is refused. A frame of a request kind whose length the kind does not permit, completed by a CHECK byte that agrees,
is answered BAD_LENGTH and does nothing. -/
def Obligations.UnknownKindsAreAnswered : Prop :=
  (∀ (tag kind : Byte) (p : List Byte) (s : State), s.Takes →
    (isRequestKind kind = false → p.length ≤ 250 → exec (.unknownKind tag kind p) s =
      .next { s with link := s.link.answered kind tag .unknownKind [0, 0] }) ∧
    (isRequestKind kind = true ∨ 250 < p.length →
      exec (.unknownKind tag kind p) s = .refused .illFormed)) ∧
  ∀ (b : Byte) (s : State), s.Settled → s.Takes → s.link.framer.state = .check → s.link.framer.sum + b = 0 →
    isRequestKind s.link.framer.kind = true →
    s.link.framer.payload.length ∉ permittedLengths s.link.framer.kind.toNat →
    let hunting : Link := { s.link with framer := Framer.hunting }
    exec (.byteReceived b true) s =
      .next { s with link := hunting.answered s.link.framer.kind s.link.framer.tag .badLength [0, 0] }

/-! ## Requests that read -/

/-- A reading request with a valid operand is answered OK with the bytes of the record it names, and changes nothing:
IDENT, GET_SETTING of any number and instance, GET_CHAIN with and without an entry, GET_CELL, GET_PROFILE,
GET_DOORWAY, GET_CHANNEL, GET_BLIND and GET_FAULTS (R184, R188, R51, R10, R23, R63, R141, R162, R175). That IDENT's
own frame is not yet among the frames taken that it reports is the model's choice (log entry 66). -/
def Obligations.ReadingRequestsChangeNothing : Prop :=
  ∀ (tag x y : Byte) (s : State), s.Takes →
    exec (.ident tag) s = .next { s with link := s.link.answered 0x01 tag .ok s.identBytes } ∧
    (∀ k : SettingKey, settingKey x.toNat y.toNat = some k → exec (.getSetting tag x y) s =
      .next { s with link := s.link.answered 0x07 tag .ok (s.settingBytes k) }) ∧
    exec (.getChain tag none) s = .next { s with link := s.link.answered 0x10 tag .ok s.chainBytes } ∧
    (∀ e : Entry, (x = 0 ∧ s.walker.active.entries[y.toNat]? = some e) ∨
        (x = 1 ∧ s.walker.standby.entries[y.toNat]? = some e) →
      exec (.getChain tag (some (x, y))) s =
        .next { s with link := s.link.answered 0x10 tag .ok (s.chainBytes ++ [x, y] ++ e.bytes) }) ∧
    (∀ c : Cell, x.toNat = cellCode c → exec (.getCell tag x) s =
      .next { s with link := s.link.answered 0x21 tag .ok (s.cellSpaceBytes c ++ s.cellDriveBytes c) }) ∧
    (∀ n : Fin 8, x.toNat = n → exec (.getProfile tag x) s =
      .next { s with link := s.link.answered 0x23 tag .ok s.working.profiles[n].bytes }) ∧
    (∀ i : Fin 4, x.toNat = i → exec (.getDoorway tag x) s =
      .next { s with link := s.link.answered 0x26 tag .ok (s.doorwayBytes i) }) ∧
    (∀ i : Fin 8, x.toNat = i → exec (.getChannel tag x) s =
      .next { s with link := s.link.answered 0x2B tag .ok (s.channelBytes i) }) ∧
    (∀ g : Fin 4, x.toNat = g → exec (.getBlind tag x) s =
      .next { s with link := s.link.answered 0x2E tag .ok (s.blindBytes g) }) ∧
    (∀ all : Bool, x.toNat = (if all then 1 else 0) → exec (.getFaults tag x) s =
      .next { s with link := s.link.answered 0x2F tag .ok (s.faultListBytes all) })

/-- A reading request whose operand is out of range, a setting's number or instance, a bank, an entry's index or the
number of a cell, unit, profile, channel, group or selection, is refused with BAD_VALUE, and changes nothing. -/
def Obligations.ReadingOutOfRangeIsRefused : Prop :=
  ∀ (tag x y : Byte) (s : State), s.Takes →
    (settingKey x.toNat y.toNat = none → exec (.getSetting tag x y) s =
      .next { s with link := s.link.answered 0x07 tag .badValue [0, 0] }) ∧
    ((x = 0 ∧ s.walker.active.entries.length ≤ y.toNat) ∨ (x = 1 ∧ s.walker.standby.entries.length ≤ y.toNat) ∨
        2 ≤ x.toNat → exec (.getChain tag (some (x, y))) s =
      .next { s with link := s.link.answered 0x10 tag .badValue [0, 0] }) ∧
    (2 ≤ x.toNat → exec (.getCell tag x) s =
      .next { s with link := s.link.answered 0x21 tag .badValue [0, 0] }) ∧
    (3 ≤ x.toNat → exec (.getUnit tag x) s =
      .next { s with link := s.link.answered 0x20 tag .badValue [0, 0] }) ∧
    (8 ≤ x.toNat → exec (.getProfile tag x) s =
      .next { s with link := s.link.answered 0x23 tag .badValue [0, 0] }) ∧
    (4 ≤ x.toNat → exec (.getDoorway tag x) s =
      .next { s with link := s.link.answered 0x26 tag .badValue [0, 0] }) ∧
    (8 ≤ x.toNat → exec (.getChannel tag x) s =
      .next { s with link := s.link.answered 0x2B tag .badValue [0, 0] }) ∧
    (4 ≤ x.toNat → exec (.getBlind tag x) s =
      .next { s with link := s.link.answered 0x2E tag .badValue [0, 0] }) ∧
    (2 ≤ x.toNat → exec (.getFaults tag x) s =
      .next { s with link := s.link.answered 0x2F tag .badValue [0, 0] })

/-- GET_UNIT answers with the unit's record and returns to 0 the drift tally of each of the unit's cells, and of no
other cell; a unit that does not exist is refused with WRONG_STATE. -/
def Obligations.GetUnitClearsTheDriftTallies : Prop :=
  ∀ (tag x : Byte) (id : UnitId) (s : State), s.Takes → x.toNat = unitCode id →
    (s.unit? id = none → exec (.getUnit tag x) s =
      .next { s with link := s.link.answered 0x20 tag .wrongState [0, 0] }) ∧
    (∀ u : UnitRec, s.unit? id = some u → ∃ d : PerCell Nat,
      exec (.getUnit tag x) s =
        .next { s with drift := d, link := s.link.answered 0x20 tag .ok (s.unitBytes id u) } ∧
      ∀ c : Cell, d.get c = if c ∈ id.cells then 0 else s.drift.get c)

/-! ## Requests of the link interface, supervision, the clock and the store -/

/-- SET_NOTICE_MASK sets or clears one mask, or all of them (0xFF); notices already waiting stay. -/
def Obligations.SetNoticeMaskWritesTheMask : Prop :=
  ∀ (tag kind setting : Byte) (m : Bool) (s : State), s.Takes → setting.toNat = (if m then 1 else 0) →
    (∀ k : Fin 29, kind.toNat = 0x80 + k → exec (.setNoticeMask tag kind setting) s =
      .next { s with link :=
        ({ s.link with masks := s.link.masks.set k m } : Link).answered 0x05 tag .ok [] }) ∧
    (kind = 0xFF → exec (.setNoticeMask tag kind setting) s =
      .next { s with link :=
        ({ s.link with masks := Vector.replicate 29 m } : Link).answered 0x05 tag .ok [] }) ∧
    (kind.toNat < 0x80 ∨ 0x9C < kind.toNat ∧ kind ≠ 0xFF → exec (.setNoticeMask tag kind setting) s =
      .next { s with link := s.link.answered 0x05 tag .badValue [0, 0] })

/-- KEEPALIVE starts a new period in the states AWAITING_FIRST, LAPSED and, at or after the opening point,
SUPERVISED; in UNSUPERVISED it changes nothing. -/
def Obligations.KeepaliveStartsThePeriod : Prop :=
  ∀ (tag : Byte) (s : State), s.Takes →
    (s.supervision.state = .unsupervised →
      ∃ d, exec (.keepalive tag) s = .next { s with link := s.link.answered 0x02 tag .ok d }) ∧
    (s.supervision.state = .awaitingFirst ∨ s.supervision.state = .lapsed ∨
        s.supervision.state = .supervised ∧
          s.working.settings.supervisionPeriod * (100 - s.working.settings.windowFraction) / 100 * 1000 ≤
            s.supervision.period.getD 0 →
      ∃ d, exec (.keepalive tag) s =
        .next { s with
          supervision := { state := .supervised, reason := none, period := some 0 }
          link := s.link.answered 0x02 tag .ok d })

/-- An early KEEPALIVE and the end of the period lapse supervision: the state is LAPSED with its reason, the period
timer stops, every override ends, the requested cap is the default one and the sun flag's hold timer starts; the sun
flag itself stays. SUPERVISION_LAPSED is told with its reason, and one OVERRIDE_ENDED with cause LAPSE for each
override in force, in this order and in the order of the targets (the model's choice, log entry 44); besides them
stand only the notices of a rail that the end of an override raises against a fault level. The KEEPALIVE is answered
OK with the outcome EARLY, the state LAPSED and no times; the codes of the two are free (log entry 7). -/
def Obligations.LapseEndsOverridesAndTheCap : Prop :=
  ∀ (tag : Byte) (s : State), s.supervision.state = .supervised →
    let told := fun reason : Nat => s.noticeOf .supervisionLapsed none none reason none
    let ended := (List.finRange 16).filterMap fun x =>
      (s.space.overrides[x]).map fun _ => s.noticeOf .overrideEnded none (some x.val) 3 none
    let lapses := fun (t : State) (reason : LapseReason) (ns : List Notice) =>
      t.supervision = { state := .lapsed, reason := some reason, period := none } ∧
        (∀ x : Fin 16, t.space.overrides[x] = none) ∧
        t.air.requestedCap = s.working.settings.defaultCap ∧ t.air.capSource = .default ∧
        t.air.capInForce = s.air.capInForce ∧ t.blinds.sun = s.blinds.sun ∧ t.blinds.sunHold = some 0 ∧
        t.walker = s.walker ∧ t.working = s.working ∧
        ns.filter (fun n => decide (n.kind = .overrideEnded)) = ended ∧
        (s.rail.state ≠ .off ∨ s.rail.faultLevel = false → ns = ended)
    (s.Takes → s.supervision.period.getD 0 <
        s.working.settings.supervisionPeriod * (100 - s.working.settings.windowFraction) / 100 * 1000 →
      ∃ t ns, exec (.keepalive tag) s = .next t ∧ lapses t .early ns ∧
        t.link = (s.link.handed (told 0 :: ns)).answered 0x02 tag .ok
          (free1 .keepaliveOutcome 3 ++ free1 .supervisionState 3 ++ [0xFF, 0xFF, 0xFF, 0xFF])) ∧
    (s.Settled → s.supervision.period.isSome →
      ∃ t ns, exec .periodEnd s = .next t ∧ lapses t .late ns ∧
        t.link = (s.link.handed (told 1 :: ns)).startFrame)

/-- SET_TIME sets the clock to the time carried, and clears the degraded flag exactly when the crystal runs, with the
clock record back to CLEAR and FAULT_CLEARED. An IDLE or FINISHED walker stays, and so does any at a step of 0 with
the clock set before. A small step adds itself to C, which a PAUSED walker leaves at that. A large step, as is every
one with the clock not set before, puts C at the minute, O at 0 and the cursor at the first entry that ends later, or
else at entry 0 with O at 10080; a PAUSED walker stays PAUSED. A walker that is not PAUSED is RUNNING with nothing to
tell while its cursor entry is not due; an entry that a large step finds in progress, with a NEXT slot it needs
occupied and its index in no slot, is passed over with ENTRY_MISSED, a stop mark on it being done. A minute or second
out of range is refused and changes nothing. That the second begins afresh, with none of its milliseconds passed (log
entry 45), that a step of 0 is large with the clock not set before (log entry 40), the order of the notices (log
entry 44), that the end of a ONCE chain outweighs the pause of a missed marked LAST entry (log entry 24) and that a
wrap adds a week to an offset that is 10080 already (log entry 23) are the model's readings. -/
def Obligations.SetTimeSetsTheClock : Prop :=
  ∀ (tag : Byte) (minute : Half) (second : Byte) (s : State), s.Takes →
    (minute.toNat ≤ 10079 → second.toNat ≤ 59 →
      ∃ t ns, exec (.setTime tag minute second) s = .next t ∧
        t.clock = { s.clock with
          minute := minute.toNat, second := second.toNat, isSet := true, subMs := 0
          degraded := s.clock.degraded && !s.clock.crystal } ∧
        t.working = s.working ∧ t.air = s.air ∧ t.supervision = s.supervision ∧ t.doors = s.doors ∧
        t.space.overrides = s.space.overrides ∧
        (let clears : Prop := s.clock.crystal = true ∧ s.clock.degraded = true
         let record := s.faults[clockSource]
         let cleared := if clears ∧ record.state ≠ .clear then
           [t.noticeOf .faultCleared none (some clockSource.val) (256 * record.kind.code) none] else []
         let w := s.walker
         let d := (minute.toNat + 10080 - s.clock.minute) % 10080
         let small : Prop := s.clock.isSet = true ∧ 1 ≤ d ∧ d ≤ 15
         let large : Prop := s.clock.isSet = false ∨ 15 < d
         let c := min 20159 (w.cycle + d)
         let week := if 10080 ≤ c ∧ 10080 ≤ w.offset then 10080 else 0
         let risen : Walker := { w with cycle := c - week, offset := w.offset - week }
         let found := w.active.entries.findIdx? fun e => decide (minute.toNat < e.start + e.duration)
         let placed : Walker := { w with
           cycle := minute.toNat, offset := if found.isSome then 0 else 10080, cursor := some (found.getD 0) }
         let lead := fun e : Entry => s.working.profiles[e.profile].lead
         t.faults = (if clears then s.faults.set clockSource { record with state := .clear } else s.faults) ∧
         t.link = (s.link.handed (cleared ++ ns)).answered 0x03 tag .ok [] ∧
         (s.clock.minute ≤ 10079 →
          (w.state = .idle ∨ w.state = .finished ∨ s.clock.isSet = true ∧ d = 0 → t.walker = w ∧ ns = []) ∧
          (small → w.state = .paused → t.walker = risen ∧ ns = []) ∧
          (large → w.state = .paused → t.walker = placed ∧ ns = []) ∧
          (∀ k e, small → w.state = .running ∨ w.state = .stalled → w.cursor = some k →
            w.active.entries[k]? = some e → risen.cycle + lead e < e.start + risen.offset →
            t.walker = { risen with state := .running } ∧ ns = []) ∧
          (∀ e, large → w.state = .clockWait ∨ w.state = .running ∨ w.state = .stalled →
            w.active.entries[found.getD 0]? = some e →
            let runs : Walker := { placed with state := .running }
            (runs.cycle + lead e < e.start + runs.offset → t.walker = runs ∧ ns = []) ∧
            (∀ w', found.isSome → e.start ≤ minute.toNat →
              (∀ x ∈ e.target.cells, ∀ b, w.next.inCell x = some b ∨ w.current.inCell x = some b → b.index ≠ found) →
              (∃ x ∈ e.target.cells, w.next.inCell x ≠ none) → runs.passesTo lead (found.getD 0) w' →
              let marked := w.stopMark.any fun m => decide (found = some m.index)
              let note := fun (kind : NoticeKind) (value : Nat) =>
                t.noticeOf kind (some e.target.place) found value (some e.tag)
              t.walker = { w' with
                stopMark := if marked then none else w.stopMark
                state := if w'.state = .running ∧ marked ∧ (w.stopMark.any fun m => m.mode == .pause) then .paused
                  else w'.state } ∧
              ns = note .entryMissed noValue :: ((if marked then [note .stopMarkDone 6] else []) ++
                if w'.state = .finished then [t.noticeOf .chainFinished none none noValue none] else [])))))) ∧
    (10079 < minute.toNat ∨ 59 < second.toNat → exec (.setTime tag minute second) s =
      .next { s with link := s.link.answered 0x03 tag .badValue [0, 0] })

/-- SAVE_SETTINGS takes the snapshot (the settings, profiles, damper tables and calibration records as they stand,
and the entries and the repeat setting of the ACTIVE bank, or no chain if it is EMPTY), erases the validity mark and
makes the store WRITING; RESTART is accepted; RESTORE_SETTINGS puts the image's settings, profiles, damper tables and
calibration records in force, and with no image is refused with WRONG_STATE. While the store is WRITING these and the
other three requests that R190 names are refused with BUSY and change nothing. -/
def Obligations.StoreRequestsAreTakenOrBusy : Prop :=
  ∀ (tag a b : Byte) (v : Word32) (r : ProfileRecord) (f : Vector Half 9) (s : State), s.Takes →
    let snapshot : Saving :=
      { elapsed := 0
        snapshot :=
          { working :=
              { settings := s.working.settings, profiles := s.working.profiles, tables := s.working.tables
                calibrations := s.working.calibrations }
            chain :=
              if s.walker.active.state = .active then some (s.walker.active.entries, s.walker.active.repeating)
              else none } }
    (s.store.saving = none →
      exec (.saveSettings tag) s =
        .next { s with
          store := { image := none, saving := some snapshot }
          link := s.link.answered 0x08 tag .ok [] } ∧
      exec (.restart tag) s =
        .next { s with link := ({ s.link with restart := .accepted } : Link).answered 0x04 tag .ok [] } ∧
      (∀ image, s.store.image = some image →
        ∃ t ns, exec (.restoreSettings tag) s = .next t ∧ t.working = image.working ∧
          t.link = (s.link.handed ns).answered 0x09 tag .ok [] ∧ t.store = s.store ∧
          t.walker.active = s.walker.active ∧ t.space.overrides = s.space.overrides ∧
          t.space.fire = s.space.fire) ∧
      (s.store.image = none → exec (.restoreSettings tag) s =
        .next { s with link := s.link.answered 0x09 tag .wrongState [0, 0] })) ∧
    (s.store.saving.isSome →
      exec (.putSetting tag a b v) s = .next { s with link := s.link.answered 0x06 tag .busy [0, 0] } ∧
      exec (.putProfile tag a r) s = .next { s with link := s.link.answered 0x22 tag .busy [0, 0] } ∧
      exec (.putDamperTable tag a f) s = .next { s with link := s.link.answered 0x2A tag .busy [0, 0] } ∧
      exec (.saveSettings tag) s = .next { s with link := s.link.answered 0x08 tag .busy [0, 0] } ∧
      exec (.restoreSettings tag) s = .next { s with link := s.link.answered 0x09 tag .busy [0, 0] } ∧
      exec (.restart tag) s = .next { s with link := s.link.answered 0x04 tag .busy [0, 0] })

/-- The end of a save: agreeing, the snapshot is the image, SAVE_DONE says OK and a store's record that was not CLEAR
returns to CLEAR with FAULT_CLEARED; differing, or at the write timer's 1.5 s, the image is NONE, SAVE_DONE says
FAILED and the store's record is ACTIVE with FAULT_RAISED. Either way the store is IDLE. That SAVE_DONE carries the
result of the read-back as an operand, and stands ahead of the notice of the record, is the model's choice (log
entries 38 and 44). -/
def Obligations.SaveEndsWithItsResult : Prop :=
  ∀ (k : Saving) (s : State), s.Settled → s.store.saving = some k →
    (s.faults[storeSource].state = .clear → exec (.saveDone true) s =
      .next { s with
        store := { image := some k.snapshot, saving := none }
        link := (s.link.place (s.noticeOf .saveDone none none 0 none)).startFrame }) ∧
    (s.faults[storeSource].state ≠ .clear → exec (.saveDone true) s =
      .next { s with
        store := { image := some k.snapshot, saving := none }
        faults := s.faults.set storeSource { s.faults[storeSource] with state := .clear }
        link := ((s.link.place (s.noticeOf .saveDone none none 0 none)).place (s.noticeOf .faultCleared none
          (some storeSource.val) (256 * s.faults[storeSource].kind.code) none)).startFrame }) ∧
    ∀ i : Instr, i = .saveDone false ∨ i = .saveWriteTimeout →
      ∃ t, exec i s = .next t ∧ t = { s with store := t.store, faults := t.faults, link := t.link } ∧
        t.store = { image := none, saving := none } ∧
        t.faults[storeSource].state = .active ∧ t.faults[storeSource].kind = .saveFailed ∧
        t.faults[storeSource].occurrences = min 255 (s.faults[storeSource].occurrences + 1) ∧
        (∀ j : Fin 21, j ≠ storeSource → t.faults[j] = s.faults[j]) ∧
        t.link = ((s.link.place (s.noticeOf .saveDone none none 1 none)).place (s.noticeOf .faultRaised none
          (some storeSource.val) (5 + 256 * FaultKind.saveFailed.code) none)).startFrame

/-- PUT_SETTING of a setting within its rule stores the value judged, answers with the value stored and CLAMPED
exactly when it was clamped. A value that the setting's rule refuses, a number that is no setting's and an instance
that the setting does not have are refused with BAD_VALUE and change nothing. -/
def Obligations.PutSettingStoresTheValue : Prop :=
  ∀ (tag number inst : Byte) (v : Word32) (s : State), s.Takes → s.store.saving = none →
    (∀ k : SettingKey, settingKey number.toNat inst.toNat = some k →
      (∀ w clamped, s.working.settings.write k v.toNat = some (w, clamped) →
        ∃ t ns, exec (.putSetting tag number inst v) s = .next t ∧ t.working.settings = w ∧
          t.working.profiles = s.working.profiles ∧ t.working.tables = s.working.tables ∧
          t.link = (s.link.handed ns).answered 0x06 tag (if clamped then .clamped else .ok) (byte4 (w.get k))) ∧
      (s.working.settings.write k v.toNat = none → exec (.putSetting tag number inst v) s =
        .next { s with link := s.link.answered 0x06 tag .badValue [0, 0] })) ∧
    (number = 0 ∨ 49 < number.toNat ∨ settingKey number.toNat inst.toNat = none →
      exec (.putSetting tag number inst v) s =
        .next { s with link := s.link.answered 0x06 tag .badValue [0, 0] })

/-- A write of a setting. One that names its values stores a listed value as written, with OK, and refuses any other.
A quantity is never refused: it is stored as written within its range and else at the nearer end; the supervision
period is 0 or brought into 10 to 600. A run threshold at or above the stall threshold is stored 50 below it, and a
stall threshold at or below the run threshold 50 above it. A Qmax below its cell's Qmin takes that Qmin down to
itself, and no write changes another setting otherwise. CLAMPED is said exactly where the value stored is not the
value written, or that Qmin was lowered. Settings that hold values listed for them in the table of section 10.5, as
the factory defaults do, hold such values after it. -/
def Obligations.SettingWritesTouchOneSetting : Prop :=
  Settings.factory.Listed ∧
  ∀ (w : Settings) (k : SettingKey) (v : Nat),
    (∀ w' clamped, w.write k v = some (w', clamped) →
      (k.named = true → w'.get k = v ∧ clamped = false) ∧
        (∀ low high, w.listed k = [(low, high)] → k.named = false → k ≠ .runThreshold → k ≠ .stallThreshold →
          w'.get k = max low (min high v)) ∧
        (k = .supervisionPeriod → w'.get k = if v = 0 then 0 else max 10 (min 600 v)) ∧
        (let near := max 50 (min 1000 v)
         k = .runThreshold → w'.get k = (if w.stallThreshold ≤ near then w.stallThreshold - 50 else near) ∧
           (clamped = true ↔ near ≠ v ∨ w.stallThreshold ≤ near)) ∧
        (let near := max 500 (min 5000 v)
         k = .stallThreshold → w'.get k = (if near ≤ w.runThreshold then w.runThreshold + 50 else near) ∧
           (clamped = true ↔ near ≠ v ∨ near ≤ w.runThreshold)) ∧
        (∀ c, k = .qmax c → w'.get (.qmin c) = min (w.get (.qmin c)) (w'.get k)) ∧
        (k ≠ .runThreshold → k ≠ .stallThreshold →
          (clamped = true ↔ w'.get k ≠ v ∨ ∃ c, k = .qmax c ∧ w'.get (.qmin c) ≠ w.get (.qmin c))) ∧
        (∀ k' : SettingKey, k' ≠ k → (∀ c, k = .qmax c → k' ≠ .qmin c) → w'.get k' = w.get k') ∧
        (w.Listed → w'.Listed)) ∧
    (w.write k v = none ↔ k.named = true ∧ ¬ w.lists k v)

/-! ## Resets -/

/-- A reset of kind POWER_ON: the settings are the image's, or the factory defaults while the image is NONE, and an
abandoned save leaves it NONE; the clock, the walker, the doorways, presence, the space, the drift tallies, the air,
the drives, the lights, the blinds, the rail, the scanner, the fault table, supervision and the link interface take
their reset states. The ACTIVE bank holds the image's chain, the walker then in CLOCK_WAIT without a cursor, or is
EMPTY. The link's framer is in HUNT (its other fields: log entry 53), its queues are empty, its counters 0 and its
flags clear; READY begins, and SETTINGS_LOST stands behind it when the image is NONE. The repeat setting of an empty
bank and the drives' values of which the spec says nothing are the model's choice (log entries 25 and 26). -/
def Obligations.PowerResetsStartAfresh : Prop :=
  ∀ (s : State) (cause : ResetCause) (i : Instr),
    (cause = .powerOn ∧ i = .powerOn) ∨ (cause = .brownOut ∧ i = .brownOut) →
    ∃ t image, exec i s = .next t ∧
      (s.store.saving.isSome → image = none) ∧ (s.store.saving = none → image = s.store.image) ∧
      t.store = { image := image, saving := none } ∧
      (∀ m, image = some m → t.working = m.working) ∧ (image = none → t.working = Working.factory) ∧
      t.clock = WeekClock.fresh ∧ t.pending = s.pending ∧ t.pins = s.pins ∧
      t.space = Space.fresh t.working.settings s.pins ∧
      t.space.units = .split UnitRec.fresh UnitRec.fresh ∧ t.space.overrides = noOverrides ∧
      t.space.partition = .closed ∧ t.space.fire = .clear ∧ t.drift = .both 0 ∧
      (let none' : Bank := { entries := [], state := .empty, repeating := .weekly }
       t.walker =
        { active := match image.bind (·.chain) with
            | some (entries, repeating) => { entries := entries, state := .active, repeating := repeating }
            | none => none'
          standby := none'
          state := if (image.bind (·.chain)).isSome then .clockWait else .idle
          cursor := none, cycle := 0, offset := 0, queuedSwitch := none, stopMark := none
          next := .cells none none, current := .cells none none }) ∧
      t.doors = Door.freshAll t.working.settings s.pins ∧
      (∀ d : Fin 4, t.doors[d].passage = .idle ∧ t.doors[d].rearm = false ∧ t.doors[d].entries = 0 ∧
        t.doors[d].exits = 0 ∧ t.doors[d].turnBacks = 0 ∧ t.doors[d].blocks = 0) ∧
      t.presence = Presence.fresh s.pins ∧
      (∀ c : Cell, t.presence.cells.get c = { present := false, sinceMotion := none }) ∧
      t.air = Air.fresh t.working.settings ∧ t.air.requestedCap = t.working.settings.defaultCap ∧
      t.air.capSource = .default ∧
      t.drives = .both Drive.fresh ∧ t.lighting = Lighting.fresh ∧ t.rail = Rail.fresh s.pins ∧
      t.rail.state = .off ∧ t.blinds = Blinds.fresh s.pins ∧ t.blinds.queue = [] ∧ t.blinds.slots = [] ∧
      (∀ g : Fin 4, t.blinds.groups[g].state = .stopped ∧ t.blinds.groups[g].referenced = false ∧
        t.blinds.groups[g].cal = none) ∧
      t.scanner = Scanner.fresh s.pins ∧
      (∀ c : Fin 8, t.scanner.channels[c].state = .normal ∧ t.scanner.channels[c].value = none) ∧
      t.faults = FaultRec.freshAll ∧
      t.supervision = Supervision.fresh t.working.settings.supervisionPeriod ∧ t.supervision.period = none ∧
      t.supervision.state =
        (if t.working.settings.supervisionPeriod = 0 then .unsupervised else .awaitingFirst) ∧
      t.link =
        { framer := Framer.hunting, requests := [], replies := []
          notices := if image = none then [t.noticeOf .settingsLost none none noValue none] else []
          masks := noMasks, overflow := false, dropped := 0, framesTaken := 0, checkErrors := 0, abandoned := 0
          overruns := 0, tx := some { frame := .notice (readyNotice cause t.clock) false, elapsed := 0 }
          restart := .none, cause := cause, uptimeMs := 0 }

/-- A warm reset keeps the week clock as it stands at the end of its holding; the settings come from the image or the
defaults, and the doorways, presence, the drift tallies, the overrides, the air, the drives, the lights, the blinds,
the rail, the scanner, supervision and the link interface take their reset states as at a power-on: the framer in
HUNT (its other fields: log entry 53), the queues empty, the counters 0, the flags clear, READY begun, and
SETTINGS_LOST without an image, CLOCK_DEGRADED with the degraded flag kept, and the walker's notices behind it, in
this order (the model's choice, log entry 44). Without a chain the walker is IDLE, with one and the clock not set in
CLOCK_WAIT. With the clock set it is RUNNING, C at the minute and the cursor at the first entry that ends later, O 0,
or else at entry 0 with O 10080, and the arming pass is made: an entry not yet due waits, a due one is ARMED, or
started late where it is in progress. RESTART_RESET is one once the reply to a RESTART has been sent, and before that
changes nothing, which is the model's choice (log entry 14). The repeat setting of an empty bank and the drives'
values of which the spec says nothing are too (log entries 25 and 26), and so is that a wrap adds a week to an offset
that is 10080 already (log entry 23). -/
def Obligations.WarmResetsKeepTheClock : Prop :=
  ∀ (s : State) (cause : ResetCause) (i : Instr),
    ((cause = .resetLine ∧ i = .resetLine) ∨ (cause = .restart ∧ i = .restartReset ∧ s.link.restart = .sent) →
      ∃ t ns, exec i s = .next t ∧ t.clock = s.clock ∧ t.pending = s.pending ∧ t.pins = s.pins ∧
        t.store.saving = none ∧ (s.store.saving = none → t.store.image = s.store.image) ∧
        (s.store.saving.isSome → t.store.image = none) ∧
        (∀ m, t.store.image = some m → t.working = m.working) ∧
        (t.store.image = none → t.working = Working.factory) ∧
        t.space.overrides = noOverrides ∧ t.space.fire = .clear ∧ t.space.partition = .closed ∧
        t.space.units.ids = [.a, .b] ∧ (t.everyUnit fun _ u => u.headcount = 0 ∧ u.occupancy = .vacant) ∧
        t.doors = Door.freshAll t.working.settings s.pins ∧ t.presence = Presence.fresh s.pins ∧
        t.drift = .both 0 ∧ t.drives = .both Drive.fresh ∧ t.lighting = Lighting.fresh ∧
        t.rail = Rail.fresh s.pins ∧ t.blinds = Blinds.fresh s.pins ∧
        t.air = Air.fresh t.working.settings ∧ t.scanner = Scanner.fresh s.pins ∧
        t.supervision = Supervision.fresh t.working.settings.supervisionPeriod ∧
        (let fresh : Link :=
          { framer := Framer.hunting, requests := [], replies := [], notices := [], masks := noMasks
            overflow := false, dropped := 0, framesTaken := 0, checkErrors := 0, abandoned := 0, overruns := 0
            tx := some { frame := .notice (readyNotice cause s.clock) false, elapsed := 0 }
            restart := .none, cause := cause, uptimeMs := 0 }
         let lost := if t.store.image = none then [t.noticeOf .settingsLost none none noValue none] else []
         let degraded := if s.clock.degraded then [t.noticeOf .clockDegraded none (some clockSource.val)
           (5 + 256 * FaultKind.clockDegraded.code) none] else []
         let bank := fun (entries : List Entry) (state : BankState) (repeating : Repeating) =>
           ({ entries := entries, state := state, repeating := repeating } : Bank)
         let waiting : Walker :=
           { active := bank [] .empty .weekly, standby := bank [] .empty .weekly, state := .idle
             cursor := none, cycle := 0, offset := 0, queuedSwitch := none, stopMark := none
             next := .cells none none, current := .cells none none }
         t.link = fresh.handed (lost ++ degraded ++ ns) ∧
         (t.store.image.bind (·.chain) = none → t.walker = waiting ∧ ns = []) ∧
         (∀ es repeating, t.store.image.bind (·.chain) = some (es, repeating) →
           let loaded : Walker := { waiting with active := bank es .active repeating }
           let found := es.findIdx? fun e => decide (s.clock.minute < e.start + e.duration)
           let k := found.getD 0
           let runs : Walker := { loaded with
             state := .running, cycle := s.clock.minute, offset := if found.isSome then 0 else 10080, cursor := some k }
           let lead := fun e : Entry => t.working.profiles[e.profile].lead
           (s.clock.isSet = false → t.walker = { loaded with state := .clockWait } ∧ ns = []) ∧
           (s.clock.isSet = true → t.walker.active = runs.active ∧ t.walker.standby = waiting.standby ∧
             t.walker.queuedSwitch = none ∧ t.walker.stopMark = none ∧
             (s.clock.minute ≤ 10079 → t.walker.cycle = s.clock.minute) ∧
             ∀ e, es[k]? = some e →
               let begins := e.start + runs.offset
               let booked : Booking :=
                 { index := some k, entry := e, state := .armed, minutes := begins - s.clock.minute, sinceStart := 0
                   vacant := 0, seenOccupied := false, startedLate := false, marked := false }
               (s.clock.minute + lead e < begins → t.walker = runs ∧ ns = []) ∧
               ∀ w', runs.passesTo lead k w' → begins ≤ s.clock.minute + lead e →
                 let finished :=
                   if w'.state = .finished then [t.noticeOf .chainFinished none none noValue none] else []
                 (s.clock.minute < begins →
                   t.walker = { w' with next := runs.next.put e.target booked } ∧ ns = finished) ∧
                 (begins ≤ s.clock.minute → s.clock.minute < begins + e.duration →
                   t.walker = { w' with current := runs.current.put e.target { booked with
                     state := .running, minutes := begins + e.duration - s.clock.minute, startedLate := true } } ∧
                   ns = t.noticeOf .bookingStarted (some e.target.place) (some k) 1 (some e.tag) :: finished)))) ∧
        (s.clock.degraded = true → t.faults[clockSource].state = .active ∧
          t.faults[clockSource].kind = .clockDegraded ∧ t.faults[clockSource].occurrences = 1) ∧
        (s.clock.degraded = false → t.faults = FaultRec.freshAll) ∧
        (∀ j : Fin 21, j ≠ clockSource → t.faults[j] = FaultRec.fresh)) ∧
    (s.Settled → s.link.restart ≠ .sent → exec .restartReset s = .next s)

/-! ## The booking chain and the week clock -/

/-- CHAIN_BEGIN empties the STANDBY bank, gives it the repeat setting carried, puts it in LOADING whatever its state
was, and cancels a queued switch; the reply is OK and no notice is queued. Any other repeat setting is refused with
BAD_VALUE. -/
def Obligations.ChainBeginEmptiesTheStandbyBank : Prop :=
  ∀ (tag x : Byte) (s : State), s.Takes →
    (∀ r : Repeating, x.toNat = r.code → exec (.chainBegin tag x) s =
      .next { s with
        walker := { s.walker with
          standby := { entries := [], state := .loading, repeating := r }, queuedSwitch := none }
        link := s.link.answered 0x11 tag .ok [] }) ∧
    (2 ≤ x.toNat → exec (.chainBegin tag x) s =
      .next { s with link := s.link.answered 0x11 tag .badValue [0, 0] })

/-- CHAIN_ENTRY appends its entry at the next index of a LOADING bank: the duration brought into 5 to 720 minutes,
the expected headcount lowered to what its target may hold, the other fields as sent; the reply is CLAMPED exactly
when one of the two was changed. It is refused with BAD_VALUE, and nothing is stored, for an index that leaves a gap,
repeats or passes 47, a start beyond the week, a profile outside 1 to 7, and, whatever the bank's state, a target or
a flag that is not defined; in any other bank state with WRONG_STATE. That a CLAMPED reply carries the entry as
stored, in its eleven bytes, is the model's reading (log entry 11), and that what cannot be decoded is refused first
is its choice (log entry 47). -/
def Obligations.ChainEntryJoinsTheLoadingBank : Prop :=
  ∀ (tag x : Byte) (e : EntryRecord) (s : State), s.Takes →
    (∀ target : Target, e.target.toNat = target.code → e.flags.toNat < 8 → s.walker.standby.state = .loading →
      x.toNat = s.walker.standby.entries.length → x.toNat < 48 → e.start.toNat ≤ 10079 →
      1 ≤ e.profile.toNat → e.profile.toNat ≤ 7 →
      ∃ y : Entry,
        exec (.chainEntry tag x e) s =
          .next { s with
            walker := { s.walker with
              standby := { s.walker.standby with entries := s.walker.standby.entries ++ [y] } }
            link :=
              if y.duration ≠ e.duration.toNat ∨ y.expected ≠ e.expected.toNat then
                s.link.answered 0x12 tag .clamped y.bytes
              else s.link.answered 0x12 tag .ok [] } ∧
        y.start = e.start.toNat ∧ y.duration = max 5 (min 720 e.duration.toNat) ∧ y.target = target ∧
        y.profile.val = e.profile.toNat ∧
        y.expected = min (if target = .joined then 500 else 250) e.expected.toNat ∧
        y.notifyEnd = e.flags.getLsbD 0 ∧ y.hold = e.flags.getLsbD 1 ∧ y.last = e.flags.getLsbD 2 ∧
        y.tag = e.tag) ∧
    (e.target.toNat < 3 → e.flags.toNat < 8 → s.walker.standby.state = .loading →
      x.toNat ≠ s.walker.standby.entries.length ∨ 48 ≤ x.toNat ∨ 10079 < e.start.toNat ∨ e.profile = 0 ∨
        7 < e.profile.toNat →
      exec (.chainEntry tag x e) s =
        .next { s with link := s.link.answered 0x12 tag .badValue [0, 0] }) ∧
    (3 ≤ e.target.toNat ∨ 8 ≤ e.flags.toNat → exec (.chainEntry tag x e) s =
      .next { s with link := s.link.answered 0x12 tag .badValue [0, 0] }) ∧
    (e.target.toNat < 3 → e.flags.toNat < 8 → s.walker.standby.state ≠ .loading →
      exec (.chainEntry tag x e) s =
        .next { s with link := s.link.answered 0x12 tag .wrongState [0, 0] })

/-- CHAIN_COMMIT makes a LOADING bank whose entries pass every test READY; one that fails is emptied, and the reply
carries the code of the test failed and the index. A chain passes exactly if it has at least one entry, its starts
never fall from one entry to the next, LAST stands on its final entry and on no other, and no two entries that claim
a cell in common claim a minute in common. That the emptied bank keeps its repeat setting is the model's choice (log
entry 25). -/
def Obligations.ChainCommitValidates : Prop :=
  (∀ (tag : Byte) (s : State), s.Takes →
    (s.walker.standby.state = .loading → chainFailure s.walker.standby.entries = none →
      exec (.chainCommit tag) s =
        .next { s with
          walker := { s.walker with standby := { s.walker.standby with state := .ready } }
          link := s.link.answered 0x13 tag .ok [] }) ∧
    (s.walker.standby.state = .loading → ∀ code k, chainFailure s.walker.standby.entries = some (code, k) →
      exec (.chainCommit tag) s =
        .next { s with
          walker := { s.walker with standby := { s.walker.standby with entries := [], state := .empty } }
          link := s.link.answered 0x13 tag .badValue (byte1 code ++ byte1 k) }) ∧
    (s.walker.standby.state ≠ .loading → exec (.chainCommit tag) s =
      .next { s with link := s.link.answered 0x13 tag .wrongState [0, 0] })) ∧
  ∀ es : List Entry, chainFailure es = none ↔
    es ≠ [] ∧ es.Pairwise (fun e f => e.start ≤ f.start) ∧
      es.Pairwise (fun e f => (f.sharesCell e && f.sharesMinute e) = false) ∧
      (∀ e ∈ es.dropLast, e.last = false) ∧ ∀ e ∈ es.getLast?, e.last = true

/-- CHAIN_SWITCH with a READY bank: NOW, and AT_CHAIN_END while the walker is IDLE or FINISHED, make the switch at
once, so that the bank becomes the ACTIVE one, the bank before it is emptied into STANDBY, no switch and no stop mark
remain, and CHAIN_SWITCHED carries the entry count and the cursor's index; AT_WEEK_END, and AT_CHAIN_END otherwise,
queue it. Without a READY bank it is refused with WRONG_STATE, and any other timing with BAD_VALUE. That the emptied
bank keeps its repeat setting, that CHAIN_SWITCHED goes ahead of the notices of the arming pass, and that it carries
the cursor's index as the switch places it, before that pass, is the model's choice (log entries 25, 44 and 84). -/
def Obligations.ChainSwitchChangesTheBanks : Prop :=
  ∀ (tag x : Byte) (s : State), s.Takes →
    (s.walker.standby.state = .ready →
      (x = 0 ∨ (x = 2 ∧ (s.walker.state = .idle ∨ s.walker.state = .finished)) →
        ∃ t ns, exec (.chainSwitch tag x) s = .next t ∧
          t.walker.active = { s.walker.standby with state := .active } ∧
          t.walker.standby = { s.walker.active with entries := [], state := .empty } ∧
          t.walker.queuedSwitch = none ∧ t.walker.stopMark = none ∧ t.clock = s.clock ∧
          t.working = s.working ∧
          (let waits := s.walker.state == .clockWait || (s.walker.state == .idle && !s.clock.isSet)
           let cursor := if waits then 255
             else (s.walker.standby.entries.findIdx? fun e => decide (s.clock.minute < e.start)).getD 0
           t.link = ((s.link.place (s.noticeOf .chainSwitched none none
             (s.walker.standby.entries.length + 256 * cursor) none)).handed ns).answered 0x14 tag .ok [])) ∧
      (x = 1 → exec (.chainSwitch tag x) s =
        .next { s with
          walker := { s.walker with queuedSwitch := some .atWeekEnd }
          link := s.link.answered 0x14 tag .ok [] }) ∧
      (x = 2 → s.walker.state ≠ .idle → s.walker.state ≠ .finished → exec (.chainSwitch tag x) s =
        .next { s with
          walker := { s.walker with queuedSwitch := some .atChainEnd }
          link := s.link.answered 0x14 tag .ok [] })) ∧
    (s.walker.standby.state ≠ .ready → x.toNat ≤ 2 → exec (.chainSwitch tag x) s =
      .next { s with link := s.link.answered 0x14 tag .wrongState [0, 0] }) ∧
    (3 ≤ x.toNat → exec (.chainSwitch tag x) s =
      .next { s with link := s.link.answered 0x14 tag .badValue [0, 0] })

/-- CHAIN_CANCEL, with no switch queued AT_CHAIN_END, empties the ACTIVE bank, puts the walker in IDLE, clears the
stop mark and empties all four slots; the STANDBY bank and a queued switch stay. -/
def Obligations.ChainCancelEmptiesTheChain : Prop :=
  ∀ (tag : Byte) (s : State), s.Takes → s.walker.queuedSwitch ≠ some .atChainEnd →
    ∃ t ns, exec (.chainCancel tag) s = .next t ∧
      t.walker.active.entries = [] ∧ t.walker.active.state = .empty ∧ t.walker.state = .idle ∧
      t.walker.stopMark = none ∧ t.walker.standby = s.walker.standby ∧
      t.walker.queuedSwitch = s.walker.queuedSwitch ∧
      (∀ c : Cell, t.walker.next.inCell c = none ∧ t.walker.current.inCell c = none) ∧
      t.link = (s.link.handed ns).answered 0x15 tag .ok [] ∧
      t.clock = s.clock ∧ t.working = s.working ∧ t.doors = s.doors ∧ t.faults = s.faults

/-- SET_STOP_MARK on an ACTIVE bank sets the mark on an entry of the chain, or with index 0xFF clears it;
WALKER_PAUSE makes a RUNNING or STALLED walker PAUSED; WALKER_RESUME makes a PAUSED walker whose cursor entry is not
due RUNNING. None of them changes anything else. -/
def Obligations.WalkerRequestsMoveTheWalkerState : Prop :=
  ∀ (tag x y : Byte) (m : MarkMode) (s : State), s.Takes →
    (s.walker.active.state = .active → y.toNat = m.code → x.toNat < s.walker.active.entries.length → x ≠ 0xFF →
      exec (.setStopMark tag x y) s =
        .next { s with
          walker := { s.walker with stopMark := some { index := x.toNat, mode := m } }
          link := s.link.answered 0x16 tag .ok [] }) ∧
    (s.walker.active.state = .active → y.toNat = m.code → exec (.setStopMark tag 0xFF y) s =
      .next { s with
        walker := { s.walker with stopMark := none }, link := s.link.answered 0x16 tag .ok [] }) ∧
    (s.walker.state = .running ∨ s.walker.state = .stalled → exec (.walkerPause tag) s =
      .next { s with
        walker := { s.walker with state := .paused }, link := s.link.answered 0x17 tag .ok [] }) ∧
    (∀ k e, s.walker.state = .paused → s.walker.cursor = some k → s.walker.active.entries[k]? = some e →
      s.walker.cycle + s.working.profiles[e.profile].lead < e.start + s.walker.offset →
      exec (.walkerResume tag) s =
        .next { s with
          walker := { s.walker with state := .running }, link := s.link.answered 0x18 tag .ok [] })

/-- RELEASE_HOLD of a cell whose CURRENT slot holds a HELD booking ends it with outcome ENDED: it leaves its slot, a
JOINED one both slots, and the other cell's own booking stays. With NOTIFY_END it gives BOOKING_ENDED, and if it was
marked STOP_MARK_DONE, in this order (the model's choice, log entry 44), and no OVERRUN; a stop mark that names it is
cleared. Its profile lingers in each of its units that is not VACANT. A cell whose CURRENT slot holds no HELD booking
is refused with WRONG_STATE, and a value other than A and B with BAD_VALUE. -/
def Obligations.ReleaseHoldEndsTheHeldBooking : Prop :=
  ∀ (tag x : Byte) (c : Cell) (s : State), s.Takes →
    (x.toNat = cellCode c → ∀ k, s.walker.current.inCell c = some k → k.state = .held →
      ∃ t, exec (.releaseHold tag x) s = .next t ∧
        (let target : Target := match s.walker.current, c with
          | .joined _, _ => .joined
          | .cells _ _, .a => .a
          | .cells _ _, .b => .b
         t.walker.current.inCell c = none ∧
         (∀ d, d ≠ c → t.walker.current.inCell d =
           if target = .joined then none else s.walker.current.inCell d) ∧
         t.link = (s.link.handed
           ((if k.entry.notifyEnd then [s.noticeOf .bookingEnded (some k.entry.target.place) k.index 0
               (some k.entry.tag)] else []) ++
             if k.marked then [s.noticeOf .stopMarkDone (some k.entry.target.place) k.index 0
               (some k.entry.tag)] else [])).answered 0x19 tag .ok [] ∧
         (∀ id u, s.unit? id = some u → ∃ u', t.unit? id = some u' ∧ u'.headcount = u.headcount ∧
           u'.occupancy = u.occupancy ∧
           u'.lingering = (if id ∈ s.space.units.ofTarget target ∧ u.occupancy ≠ .vacant then
             some k.entry.profile else u.lingering))) ∧
        (k.marked = false → t.walker = { s.walker with current := t.walker.current }) ∧
        (∀ m, k.marked = true → s.walker.stopMark = some m → k.index = some m.index →
          t.walker.stopMark = none ∧
          (m.mode = .pause → s.walker.state = .running ∨ s.walker.state = .stalled →
            t.walker.state = .paused)) ∧
        t.walker.next = s.walker.next ∧ t.walker.active = s.walker.active ∧ t.clock = s.clock ∧
        t.working = s.working ∧ t.doors = s.doors ∧ t.presence = s.presence ∧ t.air = s.air ∧
        t.drives = s.drives ∧ t.blinds = s.blinds) ∧
    (x.toNat = cellCode c → (∀ k, s.walker.current.inCell c = some k → k.state ≠ .held) →
      exec (.releaseHold tag x) s =
        .next { s with link := s.link.answered 0x19 tag .wrongState [0, 0] }) ∧
    (2 ≤ x.toNat → exec (.releaseHold tag x) s =
      .next { s with link := s.link.answered 0x19 tag .badValue [0, 0] })

/-- SECOND_TICK within a minute advances the second and nothing else; from 59, and at MINUTE_EVENT, the second is 0
and the minute of week advances by 1, from 10079 to 0. A stop of the crystal makes the oscillator INTERNAL and sets
the degraded flag; with the flag clear and the record CLEAR, the record becomes ACTIVE and CLOCK_DEGRADED is handed
over. The crystal's return changes the oscillator state alone. -/
def Obligations.TheClockCounts : Prop :=
  ∀ s : State, s.Settled →
    (s.clock.second < 59 → exec .secondTick s =
      .next { s with clock := { s.clock with second := s.clock.second + 1, subMs := 0 } }) ∧
    (s.clock.minute ≤ 10079 → ∀ i : Instr, i = .minuteEvent ∨ (i = .secondTick ∧ s.clock.second = 59) →
      ∃ t, exec i s = .next t ∧
        t.clock = { s.clock with
          minute := (s.clock.minute + 1) % 10080, second := 0, subMs := 0 } ∧
        t.working = s.working ∧ t.doors = s.doors ∧ t.air = s.air ∧
        t.space.overrides = s.space.overrides) ∧
    (s.clock.crystal = true → s.clock.degraded = false →
      ∃ t n, exec .crystalStopped s = .next t ∧
        t.clock = { s.clock with crystal := false, degraded := true } ∧
        t.faults[clockSource].state = .active ∧ t.faults[clockSource].kind = .clockDegraded ∧
        t.link = (s.link.place n).startFrame ∧ n.kind = .clockDegraded ∧ t.walker = s.walker) ∧
    exec .crystalResumed s = .next { s with clock := { s.clock with crystal := true } }

/-- At a minute event that finds the one booking in NEXT, of a cell or JOINED, a minute from its start, the booking
starts: it leaves NEXT and runs in CURRENT for its whole duration, seen occupied exactly if its unit, or one of its
units, is OCCUPIED, and BOOKING_STARTED is handed over; the walker being PAUSED and CURRENT empty. -/
def Obligations.MinuteEventStartsABooking : Prop :=
  ∀ (target : Target) (k : Booking) (s : State), s.Settled → s.walker.state = .paused →
    s.walker.queuedSwitch = none → s.walker.next = (SlotPair.cells none none).put target k →
    s.walker.current = .cells none none → k.minutes = 1 →
    ∃ t, exec .minuteEvent s = .next t ∧ t.walker.next = .cells none none ∧
      t.walker.current = (SlotPair.cells none none).put target { k with
        state := .running, minutes := k.entry.duration, sinceStart := 0, vacant := 0
        seenOccupied := s.occupiedTarget target } ∧
      t.link = (s.link.place (t.noticeOf .bookingStarted (some k.entry.target.place) k.index
        (if k.startedLate then 1 else 0) (some k.entry.tag))).startFrame ∧
      t.walker.state = .paused ∧ t.walker.active = s.walker.active ∧ t.drift = s.drift ∧
      t.faults = s.faults ∧ t.blinds = s.blinds

/-- The arming pass, as WALKER_RESUME makes it, at a cursor entry that is due. With a NEXT slot it needs occupied the
walker is STALLED and nothing else moves. Else the entry is ARMED in NEXT for the minutes to its start; or, from its
start on, runs at once in CURRENT for the rest of its time, and an unmarked booking there leaves SUPERSEDED or
HOLD_OVERRIDDEN; or, from its end on, is missed, with ENTRY_MISSED; an entry that stands in a slot already is passed
over. The cursor moves on, from LAST round a WEEKLY chain, or off a ONCE chain with CHAIN_FINISHED, or makes an
AT_CHAIN_END switch. A stop mark on the entry is told as it arms, or is done as it is missed, in PAUSE mode with the
walker PAUSED. A STALLED walker stays so at a minute event that starts no booking. The order of the notices (log
entry 44), that the end of a ONCE chain outweighs the pause of a missed marked LAST entry (log entry 24), that a wrap
adds a week to an offset that is 10080 already (log entry 23), and that the bank an AT_CHAIN_END switch empties keeps
its repeat setting (log entry 25) are the model's choices. -/
def Obligations.CursorEntriesAreArmed : Prop :=
  (∀ (tag : Byte) (k : Nat) (e : Entry) (s : State), s.Takes → s.walker.state = .paused →
    s.walker.cursor = some k → s.walker.active.entries[k]? = some e →
    let w := s.walker
    let lead := fun f : Entry => s.working.profiles[f.profile].lead
    let begins := e.start + w.offset
    let stands : Prop := ∃ c ∈ e.target.cells, ∃ b : Booking,
      (w.next.inCell c = some b ∨ w.current.inCell c = some b) ∧ b.index = some k
    let nextFree : Prop := ∀ c ∈ e.target.cells, w.next.inCell c = none
    let marked := w.stopMark.any fun m => decide (m.index = k)
    let note := fun (kind : NoticeKind) (value : Nat) =>
      s.noticeOf kind (some e.target.place) (some k) value (some e.tag)
    let armed : Booking :=
      { index := some k, entry := e, state := .armed, minutes := begins - w.cycle, sinceStart := 0, vacant := 0
        seenOccupied := false, startedLate := false, marked := marked }
    let late : Booking :=
      { armed with
        state := .running, minutes := begins + e.duration - w.cycle, seenOccupied := s.occupiedTarget e.target
        startedLate := true }
    let told := if marked then [note .stopMarkArmed noValue] else []
    begins ≤ w.cycle + lead e →
      (¬ stands → ¬ nextFree → exec (.walkerResume tag) s = .next { s with
        walker := { w with state := .stalled }, link := s.link.answered 0x18 tag .ok [] }) ∧
      (∀ w', w.passesTo lead k w' →
        let finished := if w'.state = .finished then [s.noticeOf .chainFinished none none noValue none] else []
        (stands → exec (.walkerResume tag) s = .next { s with
          walker := w', link := (s.link.handed finished).answered 0x18 tag .ok [] }) ∧
        (¬ stands → nextFree → w.cycle < begins → ∃ t, exec (.walkerResume tag) s = .next t ∧
          t = { s with
            walker := { w' with next := w.next.put e.target armed }
            link := (s.link.handed (told ++ finished)).answered 0x18 tag .ok []
            space := { s.space with units := t.space.units }, lighting := t.lighting }) ∧
        (¬ stands → nextFree → begins ≤ w.cycle → w.cycle < begins + e.duration →
          (∀ c ∈ e.target.cells, w.current.inCell c = none) → ∃ t, exec (.walkerResume tag) s = .next t ∧
          t = { s with
            walker := { w' with current := w.current.put e.target late }
            link := (s.link.handed (told ++ note .bookingStarted 1 :: finished)).answered 0x18 tag .ok []
            space := { s.space with units := t.space.units }, lighting := t.lighting }) ∧
        (∀ target old, ¬ stands → nextFree → begins ≤ w.cycle → w.cycle < begins + e.duration →
          w.current.meeting e.target = [(target, old)] → old.marked = false →
          ∃ t, exec (.walkerResume tag) s = .next t ∧
          t = { s with
            walker := { w' with current := (w.current.drop target).put e.target late }
            link := (s.link.handed (told ++
              s.noticeOf .bookingEnded (some old.entry.target.place) old.index (if old.state = .held then 4 else 3)
                (some old.entry.tag) :: note .bookingStarted 1 :: finished)).answered 0x18 tag .ok []
            space := { s.space with units := t.space.units }, lighting := t.lighting }) ∧
        (¬ stands → nextFree → begins + e.duration ≤ w.cycle → exec (.walkerResume tag) s = .next { s with
          walker := { w' with
            stopMark := if marked then none else w.stopMark
            state :=
              if w'.state = .running ∧ w.stopMark = some { index := k, mode := .pause } then .paused
              else w'.state }
          link := (s.link.handed (note .entryMissed noValue ::
            ((if marked then [note .stopMarkDone 6] else []) ++ finished))).answered 0x18 tag .ok [] })) ∧
      (stands ∨ nextFree → k + 1 = w.active.entries.length → w.queuedSwitch = some .atChainEnd →
        ∃ t, exec (.walkerResume tag) s = .next t ∧ t.walker.active = { w.standby with state := .active } ∧
          t.walker.standby = { w.active with entries := [], state := .empty } ∧
          t.walker.queuedSwitch = none ∧ t.walker.stopMark = none ∧ t.clock = s.clock ∧
          t.working = s.working)) ∧
  ∀ (target : Target) (b : Booking) (s : State), s.Settled → s.walker.state = .stalled →
    s.walker.queuedSwitch = none → s.walker.next = (SlotPair.cells none none).put target b →
    s.walker.current = .cells none none → 1 < b.minutes →
    ∃ t, exec .minuteEvent s = .next t ∧ t.walker.state = .stalled ∧ t.walker.cursor = s.walker.cursor ∧
      t.walker.next = (SlotPair.cells none none).put target { b with minutes := b.minutes - 1 } ∧
      t.walker.current = .cells none none ∧ t.link = s.link

/-- How the one booking in CURRENT, of a cell or JOINED, ends at a minute event; the walker makes no pass, NEXT is
empty and no week-end switch is queued. A RUNNING booking at its last minute becomes HELD with HOLD and people there,
and else leaves ENDED, with OVERRUN if people are there. Before that BOOKING_ENDING comes at the ending warning, and
the booking leaves NO_SHOW or ENDED_EARLY by its profile's minutes. (That the warning is given whenever the minutes
left come down to the warning point as it stands, also after a late start and a point lowered since, is the model's
choice, log entry 72.) A HELD booking stays. A booking that leaves gives BOOKING_ENDED, OVERRUN and STOP_MARK_DONE in
this order (the model's choice, log entry 44), leaves its profile in each of its units that is not VACANT, and clears
a stop mark that names it. A HELD booking ends ENDED, without a lingering profile, as its unit, or the last of its
units, becomes VACANT. A unit that becomes OCCUPIED marks its RUNNING booking seen, and takes the vacant minutes back
to 0. -/
def Obligations.BookingsEnd : Prop :=
  ∀ (target : Target) (k : Booking) (s : State), s.walker.current = (SlotPair.cells none none).put target k →
    let note := fun (now : State) (kind : NoticeKind) (value : Nat) =>
      now.noticeOf kind (some k.entry.target.place) k.index value (some k.entry.tag)
    let units := s.space.units.ofTarget target
    (s.Settled → s.walker.state = .paused ∨ s.walker.state = .idle ∨ s.walker.state = .finished →
      s.walker.queuedSwitch ≠ some .atWeekEnd → s.walker.next = .cells none none →
      ∃ t, exec .minuteEvent s = .next t ∧ t.walker.next = .cells none none ∧
        t.walker.state = s.walker.state ∧ t.walker.active = s.walker.active ∧
        t.working = s.working ∧ t.doors = s.doors ∧ t.presence = s.presence ∧ t.drift = s.drift ∧
        t.faults = s.faults ∧ t.blinds = s.blinds ∧
        (let empty := units.all s.vacantUnit
         let there := units.filter fun id => !s.vacantUnit id
         let p := s.working.profiles[k.entry.profile]
         let warning := s.working.settings.endingWarning
         let k1 : Booking :=
           { k with
             sinceStart := k.sinceStart + 1
             vacant := if empty then k.vacant + 1 else 0
             minutes := if k.state = .running then k.minutes - 1 else k.minutes }
         let warned := if k1.minutes = warning ∧ warning ≠ 0 ∧ k.entry.notifyEnd = true then
           [note t .bookingEnding warning] else []
         let overrun := t.noticeOf .overrun
           (some (match target, s.space.units with
             | .joined, .split _ _ => if there = [.a, .b] then .both else if there = [.a] then .a else .b
             | _, _ => target.place))
           k.index (there.map fun id => ((s.unit? id).map (·.headcount)).getD 0).sum (some k.entry.tag)
         let stays := fun (k2 : Booking) (ns : List Notice) =>
           t.walker.current = (SlotPair.cells none none).put target k2 ∧ t.walker.stopMark = s.walker.stopMark ∧
             t.link = (s.link.handed ns).startFrame
         let leaves := fun (outcome : Nat) (ns : List Notice) =>
           t.walker.current = .cells none none ∧
             t.link = (s.link.handed (ns ++ if k.marked then [note t .stopMarkDone outcome] else [])).startFrame ∧
             t.walker.stopMark =
               (if k.marked = true ∧ (s.walker.stopMark.any fun m => decide (k.index = some m.index)) = true then none
                else s.walker.stopMark) ∧
             ∀ id u, s.unit? id = some u → ∃ u', t.unit? id = some u' ∧ u'.headcount = u.headcount ∧
               u'.occupancy = u.occupancy ∧
               u'.lingering = (if id ∈ units ∧ u.occupancy ≠ .vacant then some k.entry.profile else u.lingering)
         if k.state ≠ .running then stays k1 []
         else if k1.minutes = 0 then
           if k.entry.hold && !empty then stays { k1 with state := .held } []
           else leaves 0 ((if k.entry.notifyEnd then [note t .bookingEnded 0] else []) ++
             if empty then [] else [overrun])
         else if 0 < p.noShow ∧ p.noShow ≤ k1.sinceStart ∧ k.seenOccupied = false then
           leaves 2 (warned ++ [note t .bookingEnded 2])
         else if k.seenOccupied = true ∧ p.earlyVacate ≤ k1.vacant then
           leaves 1 (warned ++ [note t .bookingEnded 1])
         else stays k1 warned)) ∧
    (∀ id u, s.Settled → id ∈ units → s.unit? id = some u → u.occupancy = .clearing → u.clearing.isSome →
      k.state = .held → ∃ t u', exec (.clearingExpiry id) s = .next t ∧ t.unit? id = some u' ∧
        u'.occupancy = .vacant ∧ u'.lingering = none ∧
        (if ∀ j ∈ units, j ≠ id → s.vacantUnit j = true then
          t.walker.current = .cells none none ∧
          t.link = (s.link.handed ((if k.entry.notifyEnd then [note s .bookingEnded 0] else []) ++
            if k.marked then [note s .stopMarkDone 0] else [])).startFrame
         else t.walker = s.walker ∧ t.link = s.link)) ∧
    (∀ (tag x : Byte) (n : Half) id u, s.Takes → id ∈ units → x.toNat = unitCode id → s.unit? id = some u →
      u.occupancy = .vacant → 0 < n.toNat → ∃ t, exec (.setHeadcount tag x n) s = .next t ∧
        t.walker = { s.walker with current := (SlotPair.cells none none).put target { k with
          seenOccupied := k.seenOccupied || decide (k.state = .running), vacant := 0 } })

/-! ## Profiles, damper tables, overrides, counts and caps -/

/-- PUT_PROFILE replaces one profile as a whole and PUT_DAMPER_TABLE one table, by the record as judged, with CLAMPED
exactly when the record says that it was clamped; a record refused or an index out of range changes nothing. A
profile is refused for a harvest, a policy or a name character that is not defined; else each numeric field is
brought into its range of section 1.6 and the no-show minutes are 0 or brought into 5 to 60, and clamped says that
one was changed. A point of a table is lowered to 20000, and the points so lowered must rise, or the table is
refused; clamped says that one was lowered. That a CLAMPED reply carries the profile or the table as stored is the
model's reading (log entry 11). -/
def Obligations.PutProfileAndPutDamperTableReplaceOne : Prop :=
  ∀ (tag x : Byte) (r : ProfileRecord) (f : Vector Half 9) (s : State), s.Takes → s.store.saving = none →
    (∀ (n : Fin 8) q clamped, x.toNat = n → judgeProfile r = some (q, clamped) → exec (.putProfile tag x r) s =
      .next { s with
        working := { s.working with profiles := s.working.profiles.set n q }
        link := s.link.answered 0x22 tag (if clamped then .clamped else .ok) (if clamped then q.bytes else []) }) ∧
    (8 ≤ x.toNat ∨ judgeProfile r = none → exec (.putProfile tag x r) s =
      .next { s with link := s.link.answered 0x22 tag .badValue [0, 0] }) ∧
    (∀ (c : Cell) q clamped, x.toNat = cellCode c → judgePoints f = some (q, clamped) →
      exec (.putDamperTable tag x f) s =
        .next { s with
          working := { s.working with tables := s.working.tables.set c q }
          link := s.link.answered 0x2A tag (if clamped then .clamped else .ok)
            (if clamped then tableBytes c q else []) }) ∧
    (2 ≤ x.toNat ∨ judgePoints f = none → exec (.putDamperTable tag x f) s =
      .next { s with link := s.link.answered 0x2A tag .badValue [0, 0] }) ∧
    (judgeProfile r = none ↔ 2 ≤ r.harvest.toNat ∨ 3 ≤ r.policy.toNat ∨
      ∃ b ∈ r.name.toList, b.toNat < 0x20 ∨ 0x7E < b.toNat) ∧
    (∀ q clamped, judgeProfile r = some (q, clamped) →
      q.name = r.name ∧ (q.harvest = true ↔ r.harvest = 1) ∧ q.policy.code = r.policy.toNat ∧
      (∀ n ∈ q.numbers r, n.stored = max n.low (min n.high n.sent)) ∧
      q.noShow = (if r.noShow = 0 then 0 else max 5 (min 60 r.noShow.toNat)) ∧
      (clamped = true ↔ q.noShow ≠ r.noShow.toNat ∨ ∃ n ∈ q.numbers r, n.stored ≠ n.sent)) ∧
    (judgePoints f = none ↔ ∃ i : Fin 8, min 20000 f[i.succ].toNat ≤ min 20000 f[i.castSucc].toNat) ∧
    (∀ q clamped, judgePoints f = some (q, clamped) →
      (∀ i : Fin 9, q[i] = min 20000 f[i].toNat) ∧ (clamped = true ↔ ∃ i : Fin 9, 20000 < f[i].toNat))

/-- SET_OVERRIDE puts the value, at most 1000, in force on its target for the minutes carried, at most 480; while
fire is in force it is refused with FIRE_LOCK, a light channel whose cell is UNUSED with WRONG_STATE, and a target
index above 15 with BAD_VALUE. CLEAR_OVERRIDE ends the override of its target, or every one, and replies OK also
where there is none; the end of an override's remaining time ends it with OVERRIDE_ENDED. That a CLAMPED reply
carries the value and the minutes used is the model's reading (log entry 11), and that OVERRIDE_ENDED stands behind
the notices of a rail that the end raises against a fault level is its choice (log entry 44). -/
def Obligations.OverridesBeginAndEnd : Prop :=
  (∀ (tag x : Byte) (value expiry : Half) (i : Fin 16) (s : State), x.toNat = i →
    (s.Takes → s.space.fire = .clear → s.unusedTarget i = false →
      ∃ t ns, exec (.setOverride tag x value expiry) s = .next t ∧
        t.space.overrides = s.space.overrides.set i (some
          { value := min 1000 value.toNat
            remaining := if min 480 expiry.toNat = 0 then none else some (min 480 expiry.toNat * 60000) }) ∧
        t.link =
          (if 1000 < value.toNat ∨ 480 < expiry.toNat then
            (s.link.handed ns).answered 0x24 tag .clamped
              (byte2 (min 1000 value.toNat) ++ byte2 (min 480 expiry.toNat))
          else (s.link.handed ns).answered 0x24 tag .ok []) ∧
        t.space.units = s.space.units ∧ t.space.fire = s.space.fire ∧ t.walker = s.walker ∧
        t.working = s.working ∧ t.air = s.air) ∧
    (s.unusedTarget i = true ↔ ∃ j : Fin 8, i.val = j.val + 4 ∧ s.working.settings.channelCell[j] = .off) ∧
    (s.Takes → s.space.fire = .clear → s.unusedTarget i = true → exec (.setOverride tag x value expiry) s =
      .next { s with link := s.link.answered 0x24 tag .wrongState [0, 0] }) ∧
    (s.Takes → s.space.fire = .inForce → exec (.setOverride tag x value expiry) s =
      .next { s with link := s.link.answered 0x24 tag .fireLock [0, 0] }) ∧
    (s.Takes → s.space.overrides[i] = none → exec (.clearOverride tag x) s =
      .next { s with link := s.link.answered 0x25 tag .ok [] }) ∧
    (s.Takes → s.space.overrides[i] ≠ none →
      ∃ t ns, exec (.clearOverride tag x) s = .next t ∧ t.space.overrides = s.space.overrides.set i none ∧
        t.link = ((s.link.handed ns).place
          (s.noticeOf .overrideEnded none (some i.val) 1 none)).answered 0x25 tag .ok [] ∧
        t.space.units = s.space.units ∧ t.walker = s.walker ∧ t.working = s.working) ∧
    (s.Takes → ∃ t ns, exec (.clearOverride tag 0xFF) s = .next t ∧
      (∀ j : Fin 16, t.space.overrides[j] = none) ∧ t.link = (s.link.handed ns).answered 0x25 tag .ok [] ∧
      t.space.units = s.space.units ∧ t.walker = s.walker ∧ t.working = s.working) ∧
    (s.Settled → ∀ v left, s.space.overrides[i] = some { value := v, remaining := some left } →
      ∃ t ns, exec (.overrideExpiry i) s = .next t ∧ t.space.overrides = s.space.overrides.set i none ∧
        t.link = ((s.link.handed ns).place
          (s.noticeOf .overrideEnded none (some i.val) 0 none)).startFrame ∧
        t.space.units = s.space.units ∧ t.walker = s.walker ∧ t.working = s.working)) ∧
  ∀ (tag x : Byte) (value expiry : Half) (s : State), s.Takes → 15 < x.toNat →
    exec (.setOverride tag x value expiry) s =
      .next { s with link := s.link.answered 0x24 tag .badValue [0, 0] } ∧
    (x ≠ 0xFF → exec (.clearOverride tag x) s =
      .next { s with link := s.link.answered 0x25 tag .badValue [0, 0] })

/-- SET_HEADCOUNT sets the headcount of a unit that exists to the number carried, at most the unit's maximum, and its
count state to EXACT; the other units' headcounts and the drift tallies stay. A unit that does not exist is refused
with WRONG_STATE. That a CLAMPED reply carries the headcount stored is the model's reading (log entry 11). -/
def Obligations.SetHeadcountSetsTheCount : Prop :=
  ∀ (tag x : Byte) (n : Half) (id : UnitId) (s : State), s.Takes → x.toNat = unitCode id →
    (s.unit? id = none → exec (.setHeadcount tag x n) s =
      .next { s with link := s.link.answered 0x27 tag .wrongState [0, 0] }) ∧
    (∀ u, s.unit? id = some u →
      ∃ t ns u', exec (.setHeadcount tag x n) s = .next t ∧ t.unit? id = some u' ∧
        u'.headcount = min id.maxHeadcount n.toNat ∧ u'.count = .exact ∧
        u'.vacancyTimer = u.vacancyTimer ∧ u'.allocation = u.allocation ∧
        (∀ j, j ≠ id → (t.unit? j).map (·.headcount) = (s.unit? j).map (·.headcount)) ∧
        t.link =
          (if id.maxHeadcount < n.toNat then
            (s.link.handed ns).answered 0x27 tag .clamped (byte2 id.maxHeadcount)
          else (s.link.handed ns).answered 0x27 tag .ok []) ∧
        t.drift = s.drift ∧ t.doors = s.doors ∧ t.presence = s.presence ∧ t.working = s.working)

/-- SET_SUPPLY_CAP makes the cap carried, at most 40000, the requested cap of source HOST, or with DEFAULT (0xFFFF)
the default supply cap; SET_SUN_STATE sets the sun flag and stops its hold timer; the end of the hold timer makes the
flag false. None of them changes anything else. That a CLAMPED reply carries the cap stored is the model's reading
(log entry 11). -/
def Obligations.CapAndSunFollowTheHost : Prop :=
  ∀ (tag x : Byte) (cap : Half) (s : State),
    (s.Takes → cap ≠ 0xFFFF → exec (.setSupplyCap tag cap) s =
      .next { s with
        air := { s.air with requestedCap := min 40000 cap.toNat, capSource := .host }
        link :=
          if 40000 < cap.toNat then s.link.answered 0x28 tag .clamped (byte2 40000)
          else s.link.answered 0x28 tag .ok [] }) ∧
    (s.Takes → exec (.setSupplyCap tag 0xFFFF) s =
      .next { s with
        air := { s.air with requestedCap := s.working.settings.defaultCap, capSource := .default }
        link := s.link.answered 0x28 tag .ok [] }) ∧
    (s.Takes → ∀ sun : Bool, x.toNat = (if sun then 1 else 0) → exec (.setSunState tag x) s =
      .next { s with
        blinds := { s.blinds with sun := sun, sunHold := none }, link := s.link.answered 0x2C tag .ok [] }) ∧
    (s.Takes → 2 ≤ x.toNat → exec (.setSunState tag x) s =
      .next { s with link := s.link.answered 0x2C tag .badValue [0, 0] }) ∧
    (s.Settled → s.blinds.sunHold ≠ none → exec .sunHoldExpiry s =
      .next { s with blinds := { s.blinds with sun := false, sunHold := none } })

/-- CALIBRATE_DAMPER with the rail ON begins CLOSING at once, the damper driven to 0; with the rail not ON it waits
in WAIT_RAIL, its command staying, and raises an OFF rail. CALIBRATE_BLIND puts the calibration in flight: a STOPPED
group joins the queue; a QUEUED one has its entry made a calibration entry in place; one moving up begins leg 1 in
place with a new segment from 1000, the leg time running on from the energising of its relay, one moving down
reverses first and one reversing goes on to, each keeping its slot. Both are refused with BAD_VALUE for a cell or
group that does not exist, with FIRE_LOCK during fire, with BUSY where the damper or group calibrates, and with
WRONG_STATE while the rail's record is LATCHED, CALIBRATE_BLIND also where the group is UNUSED or its record is not
CLEAR. CALIBRATE_DAMPER is BUSY before it is WRONG_STATE, CALIBRATE_BLIND the other way round, as their rules list
them. -/
def Obligations.CalibrationsBegin : Prop :=
  ∀ (tag x : Byte) (c : Cell) (g : Fin 4) (s : State), s.Takes →
    (2 ≤ x.toNat → exec (.calibrateDamper tag x) s =
      .next { s with link := s.link.answered 0x29 tag .badValue [0, 0] }) ∧
    (x.toNat = cellCode c → s.space.fire = .inForce → exec (.calibrateDamper tag x) s =
      .next { s with link := s.link.answered 0x29 tag .fireLock [0, 0] }) ∧
    (x.toNat = cellCode c → s.space.fire = .clear → (s.drives.get c).cal ≠ none →
      exec (.calibrateDamper tag x) s =
        .next { s with link := s.link.answered 0x29 tag .busy [0, 0] }) ∧
    (x.toNat = cellCode c → s.space.fire = .clear → (s.drives.get c).cal = none →
      s.faults[railSource].state = .latched → exec (.calibrateDamper tag x) s =
        .next { s with link := s.link.answered 0x29 tag .wrongState [0, 0] }) ∧
    (x.toNat = cellCode c → s.space.fire = .clear → (s.drives.get c).cal = none →
      s.faults[railSource].state ≠ .latched →
      ∃ t ns, exec (.calibrateDamper tag x) s = .next t ∧ t.working = s.working ∧
        t.link = (s.link.handed ns).answered 0x29 tag .ok [] ∧ (t.drives.get c).tracking = false ∧
        (s.rail.state = .on →
          (t.drives.get c).cal = some { phase := .closing, elapsed := 0, fbLow := 0 } ∧
          (t.drives.get c).driven = 0 ∧ (t.drives.get c).source = .calibration ∧ t.rail.state = .on ∧
          t.rail.driveNeed = true ∧ t.faults = s.faults ∧ ns = []) ∧
        (s.rail.state ≠ .on → s.rail.state ≠ .off ∨ s.rail.faultLevel = false →
          (t.drives.get c).cal = some { phase := .waitRail, elapsed := 0, fbLow := 0 } ∧
          (t.drives.get c).driven = (s.drives.get c).driven ∧ (t.drives.get c).source = .calibration ∧
          t.rail.driveNeed = true ∧ t.rail.state = (if s.rail.state = .off then .rising else s.rail.state) ∧
          (s.rail.state = .off → t.rail.settle = some 0) ∧ t.faults = s.faults ∧ ns = []) ∧
        (s.rail.state = .off → s.rail.faultLevel = true →
          t.rail.state = .faulted ∧ t.faults[railSource].state ≠ .clear ∧
          (t.drives.get c).cal = (if t.faults[railSource].state = .latched then none
            else some { phase := .waitRail, elapsed := 0, fbLow := 0 }))) ∧
    (4 ≤ x.toNat → exec (.calibrateBlind tag x) s =
      .next { s with link := s.link.answered 0x2D tag .badValue [0, 0] }) ∧
    (x.toNat = g → s.space.fire = .inForce → exec (.calibrateBlind tag x) s =
      .next { s with link := s.link.answered 0x2D tag .fireLock [0, 0] }) ∧
    (x.toNat = g → s.space.fire = .clear → s.groupCell g = none ∨ s.faults[blindSource g].state ≠ .clear ∨
        s.faults[railSource].state = .latched → exec (.calibrateBlind tag x) s =
      .next { s with link := s.link.answered 0x2D tag .wrongState [0, 0] }) ∧
    (x.toNat = g → s.space.fire = .clear → s.groupCell g ≠ none → s.faults[blindSource g].state = .clear →
      s.faults[railSource].state ≠ .latched →
      let r := s.blinds.groups[g]
      (r.cal ≠ none → exec (.calibrateBlind tag x) s =
        .next { s with link := s.link.answered 0x2D tag .busy [0, 0] }) ∧
      (r.cal = none →
        ∃ t ns, exec (.calibrateBlind tag x) s = .next t ∧
          t.working = s.working ∧ t.link = (s.link.handed ns).answered 0x2D tag .ok [] ∧
          (let r' := t.blinds.groups[g]
           r'.cal = some { leg := 1, travelDown := 0 } ∧
           (r.state = .queued → r'.state = .queued ∨ r'.state = .movingUp) ∧
           (r.state = .stopped → s.rail.state ≠ .on → t.blinds.queue = fireFirst (s.blinds.queue ++
             [{ group := g, target := 0, reference := false, calibration := true, fire := false }])) ∧
           (r.state = .queued → s.rail.state ≠ .on → t.blinds.queue = s.blinds.queue.map fun e =>
             if e.group = g then { e with target := 0, reference := false, calibration := true } else e) ∧
           ((∀ e ∈ s.blinds.queue, e.group ≠ g) → (g ∈ s.blinds.slots → g ∈ t.blinds.slots) ∧
             (r.state = .stopped → r'.state = .queued ∨ r'.state = .movingUp) ∧
             (r.state = .movingUp → r'.state = .movingUp ∧ r'.estimate = 1000 ∧ r'.segStart = 1000 ∧
               r'.segMs = 0 ∧ r'.legMs = r.legMs) ∧
             (r.state = .movingDown → r'.state = .reversing ∧ r'.reverseMs = 0 ∧ r'.estimate = r.estimate) ∧
             (r.state = .reversing → r'.state = .reversing ∧ r'.reverseMs = r.reverseMs)))))

/-- CLEAR_FAULT: a CLEAR record loses its retry count unless keep-count is YES; an ACTIVE doorway or store record
returns to CLEAR with FAULT_CLEARED; a RETRY_WAIT or LATCHED record too, and its source is re-driven: a damper, its
feedback good or the rail not ON, keeps its command; a blind group in FAULT, or STOPPED, is STOPPED and, in use, asks
at once for the move that its estimate calls for; a FAULTED rail without a fault level is OFF, or RISING if needed.
The ACTIVE clock record and a sensor's HOLDING or FAULTED record are refused with WRONG_STATE. A source above 20, or
a keep-count that is neither YES nor NO, is refused with BAD_VALUE. That FAULT_CLEARED is handed over before the
source is re-driven is the model's choice (log entry 42). -/
def Obligations.ClearFaultClearsTheRecord : Prop :=
  (∀ (tag x y : Byte) (i : Fin 21) (keep : Bool) (s : State), s.Takes → x.toNat = i →
    y.toNat = (if keep then 1 else 0) →
    (s.faults[i].state = .clear → exec (.clearFault tag x y) s =
      .next { s with
        faults := s.faults.set i { s.faults[i] with
          retryTimer := none
          retry := if keep then s.faults[i].retry else 0
          normal := if keep then s.faults[i].normal else 0 }
        link := s.link.answered 0x30 tag .ok [] }) ∧
    (s.faults[i].state = .active → i ≠ clockSource →
      ∃ t, exec (.clearFault tag x y) s = .next t ∧
        t.faults = s.faults.set i { s.faults[i] with state := .clear } ∧
        t.link = (s.link.place (s.noticeOf .faultCleared none (some i.val)
          (256 * s.faults[i].kind.code) none)).answered 0x30 tag .ok [] ∧
        (∀ d : Fin 4, i = doorSource d → t.doors[d].stuck = s.doors[d].stuck.map fun _ => 0) ∧
        t.walker = s.walker ∧ t.space = s.space ∧ t.working = s.working) ∧
    (∀ c : Cell, i = damperSource c → s.faults[i].state = .retryWait ∨ s.faults[i].state = .latched →
      s.rail.state ≠ .on ∨ (s.drives.get c).feedbackGood = true →
      ∃ t, exec (.clearFault tag x y) s = .next t ∧
        t.faults = s.faults.set i { s.faults[i] with
          state := .clear
          retryTimer := none
          retry := if keep then s.faults[i].retry else 0
          normal := if keep then s.faults[i].normal else 0 } ∧
        t.link = (s.link.place (s.noticeOf .faultCleared none (some i.val)
          (256 * s.faults[i].kind.code) none)).answered 0x30 tag .ok [] ∧
        (t.drives.get c).driven = (s.drives.get c).driven ∧ t.working = s.working) ∧
    (∀ g : Fin 4, i = blindSource g → s.faults[i].state = .retryWait ∨ s.faults[i].state = .latched →
      ∃ t ns, exec (.clearFault tag x y) s = .next t ∧
        t.faults[i] = { s.faults[i] with
          state := .clear
          retryTimer := none
          retry := if keep then s.faults[i].retry else 0
          normal := if keep then s.faults[i].normal else 0 } ∧
        t.link = ((s.link.place (s.noticeOf .faultCleared none (some i.val)
          (256 * s.faults[i].kind.code) none)).handed ns).answered 0x30 tag .ok [] ∧
        t.working = s.working ∧ t.space = s.space ∧
        (let r := s.blinds.groups[g]
         let r' := t.blinds.groups[g]
         (r.state = .fault ∨ r.state = .stopped →
           r'.state ≠ .fault ∧ (s.groupCell g = none → r'.state = .stopped) ∧
           (s.groupCell g ≠ none → (∀ e ∈ s.blinds.queue, e.group ≠ g) →
             if r.referenced = false ∨ 30 < distance r.target r.estimate then
               r'.state = .queued ∨ r'.state = .movingUp ∨ r'.state = .movingDown
             else r'.state = .stopped)) ∧
         (r.state ≠ .fault → r.state ≠ .stopped → t.blinds = s.blinds))) ∧
    (i = railSource → s.faults[i].state = .retryWait ∨ s.faults[i].state = .latched → s.rail.faultLevel = false →
      ∃ t, exec (.clearFault tag x y) s = .next t ∧
        t.faults = s.faults.set i { s.faults[i] with
          state := .clear
          retryTimer := none
          retry := if keep then s.faults[i].retry else 0
          normal := if keep then s.faults[i].normal else 0 } ∧
        t.link = (s.link.place (s.noticeOf .faultCleared none (some i.val)
          (256 * s.faults[i].kind.code) none)).answered 0x30 tag .ok [] ∧
        t.rail.state = (if s.rail.state ≠ .faulted then s.rail.state
          else if t.rail.driveNeed || t.rail.blindNeed then .rising else .off) ∧
        t.working = s.working ∧ t.space = s.space ∧ t.blinds = s.blinds ∧ t.drives = s.drives) ∧
    (s.faults[i].state = .active ∧ i = clockSource ∨ s.faults[i].state = .holding ∨
        s.faults[i].state = .faulted → exec (.clearFault tag x y) s =
      .next { s with link := s.link.answered 0x30 tag .wrongState [0, 0] })) ∧
  ∀ (tag x y : Byte) (s : State), s.Takes → 20 < x.toNat ∨ 1 < y.toNat → exec (.clearFault tag x y) s =
    .next { s with link := s.link.answered 0x30 tag .badValue [0, 0] }

/-! ## Pins, units, fire -/

/-- A change of level at an input pin starts its debounce or filter from 0, unless the level is the one in force,
which cancels the pending change; an edge to the level the pin shows already changes nothing. Nothing else moves. -/
def Obligations.PinEdgesStartTheDebounce : Prop :=
  ∀ (x : Bool) (p : Partition) (i : Fin 4) (side : BeamSide) (d : Fin 6) (s : State), s.Settled →
    (x = true ↔ p = .opened) →
    (s.space.contact = p → exec (.partitionContactEdge x) s = .next s) ∧
    (s.space.contact ≠ p → exec (.partitionContactEdge x) s = .next { s with space := { s.space with
      contact := p, partitionTimer := if p = s.space.partition then none else some 0 } }) ∧
    (s.space.firePin = x → exec (.fireInputEdge x) s = .next s) ∧
    (s.space.firePin ≠ x → exec (.fireInputEdge x) s = .next { s with space := { s.space with
      firePin := x
      fireTimer :=
        if (x = true ↔ s.working.settings.firePolarity = .activeHigh) ↔ s.space.fire = .inForce then none
        else some 0 } }) ∧
    ((s.doors[i].beam side).pin = x → exec (.beamPinEdge i side x) s = .next s) ∧
    ((s.doors[i].beam side).pin ≠ x → exec (.beamPinEdge i side x) s =
      .next { s with doors := s.doors.set i (s.doors[i].updBeam side fun b => { b with
        pin := x
        pending := if b.debounced = some x then none
          else some { elapsed := 0, limit := s.working.settings.beamDebounce[i] } }) }) ∧
    (s.presence.detectors[d].pin = x → exec (.detectorPinEdge d x) s = .next s) ∧
    (s.presence.detectors[d].pin ≠ x → exec (.detectorPinEdge d x) s =
      .next { s with presence := { s.presence with
        detectors := s.presence.detectors.set d { s.presence.detectors[d] with
          pin := x, filter := if s.presence.detectors[d].filtered = some x then none else some 0 } } }) ∧
    (s.rail.faultPin = x → exec (.railFaultPinEdge x) s = .next s) ∧
    (s.rail.faultPin ≠ x → exec (.railFaultPinEdge x) s =
      .next { s with rail := { s.rail with faultPin := x, lowTimer := if x then none else some 0 } })

/-- A debounced opening of the partition with "divisible" on joins the units: AB has the sum of the headcounts, is
UNCERTAIN if either was, takes A's lingering profile or else B's, is OCCUPIED on evidence, else VACANT or CLEARING;
an air update follows, and PARTITION_CHANGED, with PARTITION_MISMATCH behind it when each CURRENT slot holds a
booking of its own: that the notices go in this order is the model's choice (log entry 44). With "divisible" off only
the partition state and PARTITION_CHANGED come about. -/
def Obligations.JoinFormsUnitAB : Prop :=
  ∀ (a b : UnitRec) (s : State), s.Settled → s.space.partitionTimer.isSome → s.space.contact = .opened →
    s.space.units = .split a b →
    (s.working.settings.divisible = false → exec .partitionDebounce s = .next { s with
      space := { s.space with partition := .opened, partitionTimer := none }
      link := (s.link.place (s.noticeOf .partitionChanged none none 1 none)).startFrame }) ∧
    (s.working.settings.divisible = true →
      ∃ t u ns, exec .partitionDebounce s = .next t ∧ t.space.units = .joined u ∧
        t.space.partition = .opened ∧ t.space.partitionTimer = none ∧
        u.headcount = a.headcount + b.headcount ∧
        (u.count = .uncertain ↔ a.count = .uncertain ∨ b.count = .uncertain) ∧
        u.lingering = (if a.lingering = none then b.lingering else a.lingering) ∧
        u.vacancyTimer = 0 ∧ u.forcedTimer = 0 ∧
        (0 < u.headcount ∨ s.presenceOf .ab = true → u.occupancy = .occupied ∧ u.clearing = none) ∧
        (u.headcount = 0 → s.presenceOf .ab = false → a.occupancy = .vacant → b.occupancy = .vacant →
          u.occupancy = .vacant ∧ u.clearing = none) ∧
        (u.headcount = 0 → s.presenceOf .ab = false → a.occupancy ≠ .vacant ∨ b.occupancy ≠ .vacant →
          u.occupancy = .clearing ∧ u.clearing = some 0) ∧
        t.air.timer = 0 ∧ t.air.capInForce = s.air.requestedCap ∧ t.walker.next = s.walker.next ∧
        (∀ c : Cell, (t.walker.current.inCell c).map (·.entry) = (s.walker.current.inCell c).map (·.entry)) ∧
        t.drift = s.drift ∧ t.doors = s.doors ∧ t.presence = s.presence ∧ t.working = s.working ∧
        t.space.overrides = s.space.overrides ∧ t.space.fire = s.space.fire ∧
        (∀ x y, s.walker.current = .cells (some x) (some y) →
          t.link = (((s.link.handed ns).place (s.noticeOf .partitionChanged none none 257 none)).place
            (s.noticeOf .partitionMismatch none none
              (x.entry.tag.toNat + 65536 * y.entry.tag.toNat) none)).startFrame) ∧
        ((∀ x y, s.walker.current ≠ .cells (some x) (some y)) →
          t.link = ((s.link.handed ns).place
            (s.noticeOf .partitionChanged none none 257 none)).startFrame))

/-- At a split, by a debounced closing of the partition or by a write or a reload of "divisible" off, the headcount H
of AB is shared by floor area: A takes its area share rounded half up, raised to H − 250 or lowered to 250, and B the
rest. Both counts become UNCERTAIN, or EXACT if H is 0; the two headcounts sum to H and each is at most 250. -/
def Obligations.SplitSharesTheHeadcount : Prop :=
  ∀ (ab : UnitRec) (tag : Byte) (m : Image) (i : Instr) (s : State),
    s.space.units = .joined ab → ab.headcount ≤ 500 →
    (i = .partitionDebounce ∧ s.Settled ∧ s.space.partitionTimer.isSome ∧ s.space.contact = .closed) ∨
      (i = .putSetting tag 1 0 0 ∧ s.Takes ∧ s.store.saving = none) ∨
      (i = .restoreSettings tag ∧ s.Takes ∧ s.store = { image := some m, saving := none } ∧
        s.working.settings.divisible = true ∧
        m.working.settings = { s.working.settings with divisible := false }) →
    ∃ t a b, exec i s = .next t ∧ t.space.units = .split a b ∧
      a.headcount =
        (let h := ab.headcount
         let areaA := s.working.settings.area.a
         let areaB := s.working.settings.area.b
         let share := (h * areaA + (areaA + areaB) / 2) / (areaA + areaB)
         if share < h - 250 then h - 250 else if 250 < share then 250 else share) ∧
      b.headcount = ab.headcount - a.headcount ∧ a.headcount + b.headcount = ab.headcount ∧
      a.headcount ≤ 250 ∧ b.headcount ≤ 250 ∧
      (ab.headcount = 0 → a.count = .exact ∧ b.count = .exact) ∧
      (ab.headcount ≠ 0 → a.count = .uncertain ∧ b.count = .uncertain) ∧
      t.drift = s.drift ∧ t.doors = s.doors ∧ t.presence = s.presence ∧ t.walker.next = s.walker.next ∧
      t.space.overrides = s.space.overrides ∧ t.space.fire = s.space.fire

/-- When fire comes into force every override has ended, every unit is in FIRE, every light channel in use is full,
every damper is driven to its fire position and every valve to 0, the damper calibrations are over and every waiting
blind move is a fire request with target 0. The blind calibrations are over too, before any group is evaluated, which
is the model's choice (log entry 52). That FIRE_ON goes ahead of the other notices is the model's choice (log entry
44). Headcounts, bookings and settings stay. -/
def Obligations.FireComesIntoForce : Prop :=
  ∀ s : State, s.Settled → s.space.fireTimer.isSome → s.space.fire = .clear →
    ∃ t ns, exec .fireDebounce s = .next t ∧ t.space.fire = .inForce ∧ t.space.fireTimer = none ∧
      (∀ x : Fin 16, t.space.overrides[x] = none) ∧
      t.space.units.ids = s.space.units.ids ∧ (t.everyUnit fun _ u => u.mode = .fire) ∧
      (∀ id, (t.unit? id).map (·.headcount) = (s.unit? id).map (·.headcount)) ∧
      (∀ i : Fin 8, s.working.settings.channelCell[i] ≠ .off →
        t.lighting.channels[i] = { s.lighting.channels[i] with
          target := 1000, output := 1000, applied := 1000, pendingDuty := 4095 }) ∧
      (∀ i : Fin 8, s.working.settings.channelCell[i] = .off →
        t.lighting.channels[i] = s.lighting.channels[i]) ∧
      (∀ c : Cell, (t.drives.get c).cal = none ∧ (t.drives.get c).source = .fire ∧
        (t.drives.get c).driven = s.working.settings.firePosition.get c ∧
        (t.drives.get c).valveDriven = 0 ∧ (t.drives.get c).valveOutput = 0 ∧
        (t.drives.get c).computed = (s.drives.get c).computed) ∧
      (∀ e ∈ t.blinds.queue, e.target = 0 ∧ e.fire = true) ∧
      (∀ g : Fin 4, t.blinds.groups[g].cal = none) ∧
      t.walker = s.walker ∧ t.working = s.working ∧ t.drift = s.drift ∧ t.doors = s.doors ∧
      t.presence = s.presence ∧ t.scanner = s.scanner ∧ t.air = s.air ∧
      t.link = ((s.link.place (s.noticeOf .fireOn none none noValue none)).handed ns).startFrame

/-- When fire clears no unit is in FIRE or PURGE, and a unit not VACANT is OCCUPIED; a damper that is not calibrating
steps to its computed command and a valve to its own, the waiting blind moves are ordinary ones, and the lights stay
until they fade. AT_UPPER and BUDGET_LIMITED are clear from then on, where R100 has them clear at the next air update
(the model's choice, log entry 63); a lost sensor's valve takes the fallback setting as it stands (the model's
choice, log entry 65), and FIRE_OFF goes ahead of the other notices (the model's choice, log entry 44). -/
def Obligations.FireClears : Prop :=
  ∀ s : State, s.Settled → s.FireSound → s.space.fireTimer.isSome → s.space.fire = .inForce →
    ∃ t ns, exec .fireDebounce s = .next t ∧ t.space.fire = .clear ∧ t.space.fireTimer = none ∧
      t.space.units.ids = s.space.units.ids ∧
      (t.everyUnit fun _ u => u.mode ≠ .fire ∧ u.mode ≠ .purge ∧ u.purge = none ∧
        u.atUpper = false ∧ u.budgetLimited = false ∧ (u.occupancy ≠ .vacant → u.mode = .occupied)) ∧
      (∀ id, (t.unit? id).map (·.headcount) = (s.unit? id).map (·.headcount)) ∧
      (∀ c : Cell, (s.drives.get c).cal = none →
        (t.drives.get c).source = .computed ∧ (t.drives.get c).driven = (s.drives.get c).computed) ∧
      (∀ c : Cell, (t.drives.get c).valveDriven =
        if s.scanner.channels[tempChannel c].lost then s.working.settings.valveFallback.get c
        else (s.drives.get c).valveComputed) ∧
      (∀ e ∈ t.blinds.queue, e.fire = false) ∧ (∀ g : Fin 4, t.blinds.groups[g] = s.blinds.groups[g]) ∧
      t.lighting.channels = s.lighting.channels ∧ t.space.overrides = s.space.overrides ∧
      t.walker = s.walker ∧ t.working = s.working ∧ t.drift = s.drift ∧ t.doors = s.doors ∧
      t.presence = s.presence ∧ t.scanner = s.scanner ∧ t.air = s.air ∧
      t.link = ((s.link.place (s.noticeOf .fireOff none none noValue none)).handed ns).startFrame

/-- The timers of a unit: a purge that runs out leaves PURGE for the mode its slots call for; the clearing delay, and
the confirmed vacancy, leave the unit VACANT without a lingering profile, the latter with a headcount of 0, EXACT,
and COUNT_ZEROED if there was one; a confirmed vacancy that an ENTRY taken first has put off, or that has been handed
in this run, does nothing (R84, R67); presence without a headcount gives it a headcount of 1, UNCERTAIN. These events
act whatever the timers hold, which is the model's choice (log entry 2), and so is that COUNT_ZEROED stands ahead of
the notices of a HELD booking that the zeroing ends (log entry 44). -/
def Obligations.UnitTimersAct : Prop :=
  ∀ (id : UnitId) (u : UnitRec) (s : State), s.Settled → s.unit? id = some u →
    (u.mode = .purge → u.purge.isSome → s.space.fire = .clear → u.occupancy = .vacant →
      ∃ t u', exec (.purgeTimerExpiry id) s = .next t ∧ t.unit? id = some u' ∧
        t = { s with space := { s.space with units := t.space.units } } ∧ u'.purge = none ∧
        u'.mode = (if id.cells.any fun c => (s.walker.current.inCell c).isSome then .await
          else if id.cells.any fun c => (s.walker.next.inCell c).isSome then .precondition else .setback) ∧
        u'.headcount = u.headcount ∧ u'.occupancy = .vacant ∧
        ∀ j, j ≠ id → t.unit? j = s.unit? j) ∧
    (u.occupancy = .clearing → u.clearing.isSome →
      ∃ t u' ns, exec (.clearingExpiry id) s = .next t ∧ t.unit? id = some u' ∧
        u'.occupancy = .vacant ∧ u'.clearing = none ∧ u'.lingering = none ∧ u'.headcount = u.headcount ∧
        u'.count = u.count ∧ u'.vacancyTimer = u.vacancyTimer ∧ t.link = (s.link.handed ns).startFrame ∧
        t.drift = s.drift ∧ t.doors = s.doors ∧ t.presence = s.presence ∧ t.working = s.working ∧
        t.drives = s.drives ∧ t.blinds = s.blinds ∧ t.air = s.air) ∧
    (s.presenceOf id = false → u.vacancyTold = false →
      ∃ t u' ns, exec (.vacancyConfirmed id) s = .next t ∧ t.unit? id = some u' ∧
        u'.headcount = 0 ∧ u'.count = .exact ∧ u'.occupancy = .vacant ∧ u'.clearing = none ∧
        u'.vacancyTold = true ∧ u'.vacancyTimer = max u.vacancyTimer s.working.settings.vacancyConfirm ∧
        (u.occupancy ≠ .vacant → u'.lingering = none) ∧
        t.link = ((if 0 < u.headcount then s.link.place (s.noticeOf .countZeroed (some id.place) none
          (u.headcount + 65536 * if u.count = .uncertain then 1 else 0) none) else s.link).handed ns).startFrame ∧
        t.drift = s.drift ∧ t.doors = s.doors ∧ t.presence = s.presence ∧ t.working = s.working ∧
        t.drives = s.drives ∧ t.blinds = s.blinds ∧ t.air = s.air) ∧
    (u.vacancyTold = true ∨ s.presenceOf id = true → exec (.vacancyConfirmed id) s = .next s) ∧
    (s.presenceOf id = true → u.headcount = 0 →
      ∃ t u', exec (.presenceForced id) s = .next t ∧ t.unit? id = some u' ∧
        u'.headcount = 1 ∧ u'.count = .uncertain ∧ u'.forcedTimer = 0 ∧ u'.occupancy = .occupied ∧
        u'.vacancyTimer = u.vacancyTimer ∧ (∀ j, j ≠ id → t.unit? j = s.unit? j) ∧
        t.link = s.link ∧ t.drift = s.drift ∧ t.doors = s.doors ∧ t.presence = s.presence ∧
        t.working = s.working ∧ t.drives = s.drives ∧ t.blinds = s.blinds ∧ t.air = s.air)

/-! ## Doorways and presence -/

/-- Every row of the passage table: a beam event moves the passage state to the row's next state, starts the transit
timer on leaving IDLE and stops it on the way back, and counts an entry, an exit or a turn-back on the rows that
return to IDLE. An ENTRY raises the unit's headcount by 1, or at its maximum makes the count UNCERTAIN, and without
presence ends the run of the vacancy timer; an EXIT lowers it by 1, or at 0 raises the cell's drift tally. A DISABLED
channel follows its beam alone, as any channel does at a level that gives no beam event. A first level after a reset
that means BROKEN puts the passage back to IDLE and sets the rearm wait of a channel in use, which is the model's
reading (log entry 31), and leaves the rearm wait of a DISABLED channel clear, which is its choice (log entry 81). -/
def Obligations.PassagesAreCounted : Prop :=
  ∀ (i : Fin 4) (side : BeamSide) (broke : Bool) (s : State), s.Settled →
    (∀ c next, s.BeamTurns i side broke → s.doorCell i = some c → s.doors[i].rearm = false →
      (s.doors[i].passage, side, broke, next) ∈ passageRows →
      ∃ t, exec (.beamDebounce i side) s = .next t ∧
        t.doors = s.doors.set i { (s.doors[i].updBeam side fun b => { b with
            debounced := some b.pin, pending := none, broken := broke }) with
          passage := next
          transit := if next = .idle then none
            else if s.doors[i].passage = .idle then some 0 else s.doors[i].transit
          entries := s.doors[i].entries + (if next = .idle ∧ s.doors[i].passage = .inInner then 1 else 0)
          exits := s.doors[i].exits + (if next = .idle ∧ s.doors[i].passage = .outOuter then 1 else 0)
          turnBacks := s.doors[i].turnBacks +
            (if next = .idle ∧ (s.doors[i].passage = .inOuter ∨ s.doors[i].passage = .outInner) then 1
             else 0) } ∧
        t.presence = s.presence ∧ t.working = s.working ∧ t.link = s.link ∧ t.air = s.air ∧
        (next ≠ .idle ∨ s.doors[i].passage = .inOuter ∨ s.doors[i].passage = .outInner →
          t = { s with doors := t.doors }) ∧
        (next = .idle → s.doors[i].passage = .inInner →
          ∃ u', t.unit? (s.space.units.idOf c) = some u' ∧ t.drift = s.drift ∧ u'.occupancy = .occupied ∧
            (s.presenceOf (s.space.units.idOf c) = false → u'.vacancyTimer = 0 ∧ u'.vacancyTold = true) ∧
            (if (s.unitOf c).headcount < (s.space.units.idOf c).maxHeadcount then
              u'.headcount = (s.unitOf c).headcount + 1 ∧ u'.count = (s.unitOf c).count
             else u'.headcount = (s.unitOf c).headcount ∧ u'.count = .uncertain)) ∧
        (next = .idle → s.doors[i].passage = .outOuter → 0 < (s.unitOf c).headcount →
          ∃ u', t.unit? (s.space.units.idOf c) = some u' ∧ t.drift = s.drift ∧
            u'.headcount = (s.unitOf c).headcount - 1 ∧ u'.count = (s.unitOf c).count) ∧
        (next = .idle → s.doors[i].passage = .outOuter → (s.unitOf c).headcount = 0 →
          t = { s with doors := t.doors, drift := s.drift.set c (min 255 (s.drift.get c + 1)) })) ∧
    (s.BeamTurns i side broke → s.doorCell i = none → exec (.beamDebounce i side) s =
      .next { s with doors := s.doors.set i (s.doors[i].updBeam side fun b => { b with
        debounced := some b.pin, pending := none, broken := broke }) }) ∧
    ((s.doors[i].beam side).pending.isSome →
      ((s.doors[i].beam side).debounced = some (s.doors[i].beam side).pin ∨
        ((s.doors[i].beam side).debounced = none ∧
          (s.working.settings.beamEdge i side).breaks (s.doors[i].beam side).pin ≠ some true) →
        exec (.beamDebounce i side) s =
          .next { s with doors := s.doors.set i (s.doors[i].updBeam side fun b => { b with
            debounced := some b.pin, pending := none }) }) ∧
      ((s.doors[i].beam side).debounced = none →
        (s.working.settings.beamEdge i side).breaks (s.doors[i].beam side).pin = some true →
        ∃ t, exec (.beamDebounce i side) s = .next t ∧ t = { s with doors := t.doors } ∧
          t.doors[i].passage = .idle ∧ (t.doors[i].rearm = true ↔ s.doorCell i ≠ none) ∧
          (t.doors[i].beam side).broken = true ∧
          (t.doors[i].beam side).debounced = some (s.doors[i].beam side).pin ∧
          t.doors[i].entries = s.doors[i].entries ∧ t.doors[i].exits = s.doors[i].exits))

/-- A passage that outlasts the transit timeout blocks its channel: BLOCKED, the blocks counter up by 1, the unit's
count UNCERTAIN, DOOR_BLOCKED queued. In BLOCKED the block-clear timer starts at the event that leaves both beams
CLEAR and stops at a break; its end returns the channel to IDLE. In rearm wait the flag stays until both beams are
CLEAR. A channel stuck for 10 minutes has its record ACTIVE, with FAULT_RAISED. -/
def Obligations.BlockedDoorways : Prop :=
  ∀ (i : Fin 4) (side : BeamSide) (broke : Bool) (c : Cell) (s : State), s.Settled → s.doorCell i = some c →
    (s.doors[i].transit.isSome → exec (.transitTimeout i) s = .next { s with
      doors := s.doors.set i { s.doors[i] with
        passage := .blocked, transit := none, blockClear := none, blocks := s.doors[i].blocks + 1
        stuck := some 0, stuckTold := false }
      space := { s.space with
        units := s.space.units.modify (s.space.units.idOf c) fun u => { u with count := .uncertain } }
      link := (s.link.place (s.noticeOf .doorBlocked (some c.place) (some i.val)
        s.doors[i].passage.code none)).startFrame }) ∧
    (s.BeamTurns i side broke → s.doors[i].passage = .blocked → exec (.beamDebounce i side) s = .next { s with
      doors := s.doors.set i { (s.doors[i].updBeam side fun b => { b with
          debounced := some b.pin, pending := none, broken := broke }) with
        blockClear := if broke = false ∧ (s.doors[i].beam
          (match side with | .outer => .inner | .inner => .outer)).broken = false then some 0 else none } }) ∧
    (s.BeamTurns i side broke → s.doors[i].passage = .idle → s.doors[i].rearm = true →
      ∃ t, exec (.beamDebounce i side) s = .next t ∧ t.doors[i].passage = .idle ∧
        (if broke = false ∧ (s.doors[i].beam
            (match side with | .outer => .inner | .inner => .outer)).broken = false then
          t.doors[i].rearm = false ∧ t.doors[i].stuck = none ∧ t.faults[doorSource i].state = .clear
         else t.doors[i].rearm = true ∧ t.doors[i].stuck = s.doors[i].stuck ∧ t.faults = s.faults) ∧
        t.space = s.space ∧ t.drift = s.drift ∧ t.doors[i].entries = s.doors[i].entries ∧
        t.doors[i].exits = s.doors[i].exits) ∧
    (s.doors[i].passage = .blocked → s.doors[i].blockClear.isSome →
      ∃ t ns, exec (.blockClearExpiry i) s = .next t ∧
        t.doors = s.doors.set i { s.doors[i] with
          passage := .idle, blockClear := none, stuck := none, stuckTold := false } ∧
        (s.doors[i].rearm = false → t.faults[doorSource i].state = .clear) ∧
        t.space = s.space ∧ t.drift = s.drift ∧ t.link = (s.link.handed ns).startFrame) ∧
    (∀ k, s.doors[i].stuck = some k → s.doors[i].stuckTold = false →
      ∃ t, exec (.doorwayStuck i) s = .next t ∧
        t.doors = s.doors.set i { s.doors[i] with stuck := some (max k 600000), stuckTold := true } ∧
        t.faults[doorSource i].state = .active ∧ t.faults[doorSource i].kind = .doorwayStuck ∧
        t.faults[doorSource i].occurrences = min 255 (s.faults[doorSource i].occurrences + 1) ∧
        (s.faults[doorSource i].state = .clear → s.faults[doorSource i].retry = 0 →
          t.faults[doorSource i].firstSeen = some s.clock.minute) ∧
        (∀ j : Fin 21, j ≠ doorSource i → t.faults[j] = s.faults[j]) ∧
        t.link = (s.link.place (s.noticeOf .faultRaised none (some (doorSource i).val)
          (5 + 256 * FaultKind.doorwayStuck.code) none)).startFrame ∧
        t.space = s.space ∧ t.drift = s.drift)

/-- A selected change of a detector's filtered level is a motion event: the presence of its cell is true from 0 and
its unit is OCCUPIED; a change not selected, and one of a DISABLED detector, reach no cell. The end of the presence
hold makes the presence false, and an empty OCCUPIED unit without presence passes to CLEARING. Each second the gated
timers of every unit count by their gates. -/
def Obligations.PresenceFollowsMotion : Prop :=
  ∀ (d : Fin 6) (s : State), s.Settled →
    (s.presence.detectors[d].filter.isSome →
      s.presence.detectors[d].filtered = some (!s.presence.detectors[d].pin) →
      ((s.working.settings.detectorEdge[d] = .both ∨
          (s.working.settings.detectorEdge[d] = .rising ↔ s.presence.detectors[d].pin = true)) →
        (∀ c, s.working.settings.detectorAssign[d].cell? = some c →
          ∃ t u, exec (.motionEvent d) s = .next t ∧
            t.presence = { s.presence with
              detectors := s.presence.detectors.set d { s.presence.detectors[d] with
                filtered := some s.presence.detectors[d].pin, filter := none, sinceMotion := some 0 }
              cells := s.presence.cells.set c { present := true, sinceMotion := some 0 } } ∧
            t.unit? (s.space.units.idOf c) = some u ∧ u.headcount = (s.unitOf c).headcount ∧
            (s.presenceOf (s.space.units.idOf c) = false → u.occupancy = .occupied ∧ u.vacancyTimer = 0) ∧
            (s.presenceOf (s.space.units.idOf c) = true → t = { s with presence := t.presence }) ∧
            t.link = s.link ∧ t.doors = s.doors ∧ t.working = s.working ∧ t.drift = s.drift) ∧
        (s.working.settings.detectorAssign[d].cell? = none → exec (.motionEvent d) s =
          .next { s with presence := { s.presence with
            detectors := s.presence.detectors.set d { s.presence.detectors[d] with
              filtered := some s.presence.detectors[d].pin, filter := none, sinceMotion := some 0 } } })) ∧
      (¬ (s.working.settings.detectorEdge[d] = .both ∨
          (s.working.settings.detectorEdge[d] = .rising ↔ s.presence.detectors[d].pin = true)) →
        exec (.motionEvent d) s = .next { s with presence := { s.presence with
          detectors := s.presence.detectors.set d { s.presence.detectors[d] with
            filtered := some s.presence.detectors[d].pin, filter := none } } })) ∧
    (∀ c k, s.presence.cells.get c = { present := true, sinceMotion := some k } →
      ∃ t u, exec (.presenceHoldExpiry c) s = .next t ∧
        t.presence = { s.presence with
          cells := s.presence.cells.set c
            { present := false, sinceMotion := some (max k (s.working.settings.presenceHold * 1000)) } } ∧
        t.unit? (s.space.units.idOf c) = some u ∧ u.headcount = (s.unitOf c).headcount ∧
        (t.presenceOf (s.space.units.idOf c) = false → u.forcedTimer = 0 ∧
          ((s.unitOf c).occupancy = .occupied → (s.unitOf c).headcount = 0 →
            u.occupancy = .clearing ∧ u.clearing = some 0)) ∧
        (t.presenceOf (s.space.units.idOf c) = true → t = { s with presence := t.presence }) ∧
        t.link = s.link ∧ t.doors = s.doors ∧ t.working = s.working ∧ t.drift = s.drift) ∧
    (∃ t, exec .gatedTimerTick s = .next t ∧
      t = { s with
        presence := { s.presence with tickMs := 0 }, space := { s.space with units := t.space.units } } ∧
      ∀ id u, s.unit? id = some u → t.unit? id = some { u with
        vacancyTimer := if s.presenceOf id then u.vacancyTimer else min 65535 (u.vacancyTimer + 1)
        vacancyTold := u.vacancyTold && (s.presenceOf id || u.vacancyTimer != 0)
        forcedTimer := if s.presenceOf id = true ∧ u.headcount = 0 then min 60 (u.forcedTimer + 1)
          else u.forcedTimer })

/-! ## Air, sensors, dampers, valves -/

/-- An air update puts the requested cap C in force and shares it. JOINED, AB has min(D, C). SPLIT: demands that fit
are met; else each unit has its floor, its area term capped by its demand, and a share of the remainder in proportion
to what it asks above its floor, the leftover going to the larger ask, or A; floors that do not fit are scaled to C,
the leftover going to the larger floor, or A. A unit in FIRE, whose demand is 0, has nothing. BUDGET_LIMITED says
that an allocation is less than the demand. The sums are formed, the sum of the allocations never exceeds C, and the
timer starts again. Each cell's flow is handed on: its unit's allocation, or JOINED AB's divided by Qmax. The
computed position of the flow follows from the cell's damper table, and the computed command moves toward it by at
most the slew step, or stays while the damper's record is LATCHED; without a calibration the damper takes the fire
position, the override or the computed command. -/
def Obligations.AirUpdateSharesTheCap : Prop :=
  ∀ (s : State), s.Settled →
    ∃ t ns, exec .airUpdate s = .next t ∧ t.link = (s.link.handed ns).startFrame ∧
      t.air.capInForce = s.air.requestedCap ∧ t.air.requestedCap = s.air.requestedCap ∧ t.air.timer = 0 ∧
      t.walker = s.walker ∧ t.working = s.working ∧ t.presence = s.presence ∧ t.drift = s.drift ∧
      (∀ ab, s.space.units = .joined ab → ∃ u, t.space.units = .joined u ∧
        u.allocation = min u.demand s.air.requestedCap ∧
        (u.budgetLimited = true ↔ s.air.requestedCap < u.demand) ∧
        t.air.sumDemand = u.demand ∧ t.air.sumAllocation = u.allocation) ∧
      t.air.sumAllocation ≤ t.air.capInForce ∧
      (∀ c : Cell, ∃ q p, (t.drives.get c).flow = some q ∧ (t.drives.get c).position = some p ∧
        (let table := s.working.tables.get c
         let d := s.drives.get c
         let d' := t.drives.get c
         let step := (s.profileOf c).slew
         let share := fun u : UnitRec =>
           u.allocation * s.working.settings.qmax.a / (s.working.settings.qmax.a + s.working.settings.qmax.b)
         (∀ u, t.space.units = .joined u → q = match c with
           | .a => share u
           | .b => u.allocation - share u) ∧
         (q ≤ table[0] → p = 0) ∧
         (table[0] < q → table[8] ≤ q → p = 1000) ∧
         (∀ k : Fin 8, table[0] < q → q < table[8] → q < table[k.succ] →
           (∀ j : Fin 8, j < k → table[j.succ] ≤ q) →
           p = 125 * k + ((q - table[k.castSucc]) * 250 + (table[k.succ] - table[k.castSucc])) /
             (2 * (table[k.succ] - table[k.castSucc]))) ∧
         d'.computed =
           (if s.faults[damperSource c].state = .latched then d.computed
            else if distance d.computed p ≤ step then p
            else if d.computed < p then d.computed + step else d.computed - step) ∧
         (d.cal = none → d'.driven =
           (if s.space.fire = .inForce then s.working.settings.firePosition.get c
            else match s.space.overrides[damperTarget c] with
              | some v => v.value
              | none => d'.computed)))) ∧
      (∀ a b, s.space.units = .split a b →
        ∃ x y, t.space.units = .split x y ∧
          (let cap := s.air.requestedCap
           let fA := min (s.working.settings.area.a * s.working.settings.ra / 10) x.demand
           let fB := min (s.working.settings.area.b * s.working.settings.ra / 10) y.demand
           let rA := x.demand - fA
           let rB := y.demand - fB
           let rest := cap - fA - fB
           (x.demand + y.demand ≤ cap → x.allocation = x.demand ∧ y.allocation = y.demand) ∧
           (cap < x.demand + y.demand → fA + fB ≤ cap →
             x.allocation = fA + rest * rA / (rA + rB) +
               (if rB ≤ rA then rest - rest * rA / (rA + rB) - rest * rB / (rA + rB) else 0) ∧
             y.allocation = fB + rest * rB / (rA + rB) +
               (if rB ≤ rA then 0 else rest - rest * rA / (rA + rB) - rest * rB / (rA + rB)) ∧
             rest - rest * rA / (rA + rB) - rest * rB / (rA + rB) ≤ 1 ∧
             rest * rA / (rA + rB) ≤ rA ∧ rest * rB / (rA + rB) ≤ rB ∧
             x.allocation + y.allocation = cap) ∧
           (cap < fA + fB →
             x.allocation = cap * fA / (fA + fB) +
               (if fB ≤ fA then cap - cap * fA / (fA + fB) - cap * fB / (fA + fB) else 0) ∧
             y.allocation = cap * fB / (fA + fB) +
               (if fB ≤ fA then 0 else cap - cap * fA / (fA + fB) - cap * fB / (fA + fB)) ∧
             cap - cap * fA / (fA + fB) - cap * fB / (fA + fB) ≤ 1 ∧
             x.allocation ≤ fA ∧ y.allocation ≤ fB ∧ x.allocation + y.allocation = cap) ∧
           x.allocation + y.allocation ≤ cap) ∧
          x.allocation ≤ x.demand ∧ y.allocation ≤ y.demand ∧
          (x.budgetLimited = true ↔ x.allocation < x.demand) ∧
          (y.budgetLimited = true ↔ y.allocation < y.demand) ∧
          t.air.sumDemand = x.demand + y.demand ∧ t.air.sumAllocation = x.allocation + y.allocation ∧
          (t.drives.get .a).flow = some x.allocation ∧ (t.drives.get .b).flow = some y.allocation)

/-- The demand of a unit at an air update. In FIRE it is 0 with the terms absent and the integral held. Else: the
area term; the effective persons, the headcount in OCCUPIED and the await fraction of the expected ones in AWAIT,
rounded up; the person term; in AWAIT and OCCUPIED with a healthy CO2 the trim, its proportional part and integral,
the integral held where AT_UPPER or BUDGET_LIMITED stood and the error is positive; Upper, the quiet cap, or Qmax in
PURGE and in alarm; and the demand by mode, with AT_UPPER where Upper cut it. The CO2 alarm sets at its threshold and
clears at the threshold less the hysteresis or without a healthy CO2, and each change is told, unit A's ahead of unit
B's (the model's choice, log entry 82); behind these notices stand those of a rail that the update raises against a
fault level, and no others. -/
def Obligations.AirUpdateFormsTheDemand : Prop :=
  ∀ (id : UnitId) (u : UnitRec) (s : State), s.Settled → s.unit? id = some u →
    let w := s.working.settings
    let alarm := fun (j : UnitId) (set : Bool) => match s.co2Of j with
      | none => false
      | some v => if set then decide (w.alarmThreshold - w.alarmHysteresis < v) else decide (w.alarmThreshold ≤ v)
    let told := fun j : UnitId => match s.unit? j with
      | none => []
      | some r =>
        if alarm j r.co2Alarm = r.co2Alarm then []
        else [s.noticeOf (if r.co2Alarm then .co2Normal else .co2High) (some j.place) none
          ((s.co2Of j).getD noValue) none]
    ∃ t u' ns, exec .airUpdate s = .next t ∧ t.unit? id = some u' ∧
      t.link = (s.link.handed (s.space.units.ids.flatMap told ++ ns)).startFrame ∧
      (s.rail.state ≠ .off ∨ s.rail.faultLevel = false → ns = []) ∧
      u'.co2Alarm = alarm id u.co2Alarm ∧ u'.mode = u.mode ∧ u'.headcount = u.headcount ∧
      u'.occupancy = u.occupancy ∧ u'.profile = u.profile ∧
      (u.mode = .fire → u'.demand = 0 ∧ u'.allocation = 0 ∧ u'.atUpper = false ∧ u'.budgetLimited = false ∧
        u'.integral = u.integral ∧ u'.terms = AirTerms.absent) ∧
      (u.mode ≠ .fire →
        let p := s.working.profiles[u.profile]
        let area := id.sum w.area * w.ra / 10
        let expected := ((s.governingBooking u).map (·.entry.expected)).getD 0
        let persons :=
          if u.mode = .occupied then u.headcount
          else if u.mode = .await then (expected * p.awaitFraction + 999) / 1000
          else 0
        let qmin := id.sum w.qmin
        let qmax := id.sum w.qmax
        let upper := if u'.co2Alarm = true ∨ u.mode = .purge then qmax else max qmin (qmax * p.qcap / 1000)
        let peopled : Prop := u.mode = .await ∨ u.mode = .occupied
        let need := area + p.rp * persons + u'.terms.trim.getD 0
        u'.terms.area = some area ∧ u'.terms.persons = some persons ∧ u'.terms.person = some (p.rp * persons) ∧
          u'.terms.upper = some upper ∧ u'.terms.co2 = s.co2Of id ∧
          (∀ v, peopled → s.co2Of id = some v →
            let e : Int := (v : Int) - p.co2Setpoint
            let held := min u.integral p.imax
            u'.terms.proportional = some (truncDiv (p.kp * e) 16) ∧
              u'.integral = (if 0 < e ∧ (u.atUpper = true ∨ u.budgetLimited = true) then held
                else clampInt 0 p.imax (held + truncDiv (p.ki * e) 256)) ∧
              u'.terms.trim = some (truncDiv (p.kp * e) 16 + u'.integral).toNat) ∧
          (¬ peopled ∨ s.co2Of id = none →
            u'.terms.proportional = none ∧ u'.terms.trim = some 0 ∧ u'.integral = min u.integral p.imax) ∧
          (u.mode = .setback → u'.demand = qmin ∧ u'.atUpper = false) ∧
          (u.mode = .precondition → u'.demand = clampNat qmin upper area ∧ u'.atUpper = false) ∧
          (u.mode = .purge → u'.demand = qmax ∧ u'.atUpper = false) ∧
          (peopled → u'.demand = clampNat qmin upper need ∧ (u'.atUpper = true ↔ upper < need)))

/-- At a sample every channel that is judged (any but a feedback channel while the rail is not ON) takes a good
sample into its window, or afresh into all of it after a loss, and forms its value from it; a lost sample makes a
NORMAL channel HOLDING with its value and its record HOLDING. A feedback channel not judged takes any sample while
NORMAL and otherwise keeps its window. A HOLDING channel whose hold timer ends is FAULTED, and FAULT_RAISED is
queued; the hold timer of a feedback channel pauses while the rail is not ON, and a paused one ends nothing. (That it
runs on as soon as the rail is ON, and so may end before the first sample taken then, is the model's choice, log
entry 76; the order in which the channels are taken, log entry 16.) -/
def Obligations.SensorSamplesAreTaken : Prop :=
  ∀ (levels : Vector Half 8) (i : Fin 8) (s : State), s.Settled →
    (∃ t ns, exec (.sensorSample levels) s = .next t ∧ t.link = (s.link.handed ns).startFrame ∧
      t.scanner.timer = 0 ∧ t.working.settings = s.working.settings ∧ t.doors = s.doors ∧
      t.presence = s.presence ∧ t.drift = s.drift ∧ t.air = s.air ∧
      (let c := s.scanner.channels[i]
       let c' := t.scanner.channels[i]
       let m := levels[i].toNat
       let good : Prop := 1600 ≤ m ∧ m ≤ 10400
       let judged : Prop := i.val < 6 ∨ s.rail.state = .on
       c'.lastSample = some m ∧
       ((judged ∧ good) ∨ (¬ judged ∧ c.state = .normal) →
         c'.state = .normal ∧ c'.hold = none ∧
         ∃ w, c'.window = some w ∧
           (∀ v, c.state = .normal → c.window = some v → w = { s0 := v.s1, s1 := v.s2, s2 := v.s3, s3 := m }) ∧
           (c.state ≠ .normal ∨ c.window = none → w = { s0 := m, s1 := m, s2 := m, s3 := m }) ∧
           (∀ hi, engineeringTop i s.working.settings.co2Span = some hi → c'.value =
             some ((scaleSample w.s0 hi + scaleSample w.s1 hi + scaleSample w.s2 hi + scaleSample w.s3 hi) / 4)) ∧
           (6 ≤ i.val → c'.value = some ((w.s0 + w.s1 + w.s2 + w.s3) / 4))) ∧
       (judged → good → c.state ≠ .normal → t.faults[sensorSource i].state = .clear) ∧
       (judged → ¬ good → c.state = .normal →
         c'.state = .holding ∧ c'.hold = some 0 ∧ c'.value = c.value ∧ c'.window = c.window ∧
         t.faults[sensorSource i].state = .holding ∧
         t.faults[sensorSource i].kind = (if m < 1600 then .inputLow else .inputHigh)) ∧
       (¬ (judged ∧ good) → c.state ≠ .normal →
         c'.state = c.state ∧ c'.hold = c.hold ∧ c'.value = c.value ∧ c'.window = c.window) ∧
       (∀ cell, i = feedbackChannel cell → (s.rail.state = .on →
         ((t.drives.get cell).feedbackGood = true ↔ good)) ∧
         (s.rail.state ≠ .on → (t.drives.get cell).feedbackGood = (s.drives.get cell).feedbackGood)))) ∧
    (6 ≤ i.val → s.rail.state ≠ .on → exec (.holdTimerExpiry i) s = .next s) ∧
    (s.scanner.channels[i].state = .holding → s.scanner.channels[i].hold.isSome →
      i.val < 6 ∨ s.rail.state = .on →
      ∃ t ns, exec (.holdTimerExpiry i) s = .next t ∧
        t.scanner.channels = s.scanner.channels.set i
          { s.scanner.channels[i] with state := .faulted, hold := none } ∧
        t.faults[sensorSource i] = { s.faults[sensorSource i] with state := .faulted } ∧
        t.link = ((s.link.place (s.noticeOf .faultRaised none (some (sensorSource i).val)
          (4 + 256 * s.faults[sensorSource i].kind.code) none)).handed ns).startFrame ∧
        t.working = s.working ∧ t.space = s.space ∧ t.walker = s.walker)

/-- DAMPER_STALL reported ends tracking and puts the record in RETRY_WAIT, or LATCHED at the retry limit, the
damper's command staying; a calibration phase that outlasts its limit ends the calibration FAILED, NOT_STABLE, with
the records as they were. A feedback sample that finds a calibrating damper's mean stable, 5 s into its phase, takes
it from CLOSING, with fbLow, to OPENING, driven to 1000, and from there to its end: OK with its record and stroke
time for a span of 4800 mV or more, else FAILED, SPAN; a lost sample ends it FAILED, FEEDBACK_LOST, and any other
leaves the phase. The means compared and the stroke time are the model's reading (log entry 54), the time credited by
a sample its choice (log entry 34), and a retry count held at 10 its reading (log entry 30). A temperature update
forms the setpoint by the mode and the valve by the reheat loop, and drives the valve by fire, override, fallback or
the loop. -/
def Obligations.DamperTimersAct : Prop :=
  ∀ (c : Cell) (s : State), s.Settled →
    (s.faults[damperSource c].state = .clear → (s.drives.get c).tracking = true →
      (s.drives.get c).trackTimer.isSome →
      ∃ t n, exec (.damperStall c) s = .next t ∧
        t.faults[damperSource c].kind = .damperStall ∧
        t.faults[damperSource c].retry = min 10 (s.faults[damperSource c].retry + 1) ∧
        t.faults[damperSource c].normal = 0 ∧
        (if min 10 (s.faults[damperSource c].retry + 1) < s.working.settings.retryLimit then
          t.faults[damperSource c].state = .retryWait ∧ t.faults[damperSource c].retryTimer = some 0 ∧
            n = s.noticeOf .faultRaised none (some (damperSource c).val) (1 + 256 * FaultKind.damperStall.code) none
         else t.faults[damperSource c].state = .latched ∧ t.faults[damperSource c].retryTimer = none ∧
            n = s.noticeOf .faultLatched none (some (damperSource c).val) (2 + 256 * FaultKind.damperStall.code) none) ∧
        t.link = (s.link.place n).startFrame ∧
        t.drives = s.drives.set c { s.drives.get c with tracking := false, trackTimer := none } ∧
        t.working = s.working ∧ t.space = s.space ∧ t.rail = s.rail) ∧
    (∀ k, (s.drives.get c).cal = some k → k.phase ≠ .waitRail →
      ∃ t ns, exec (.calibrationPhaseTimeout c) s = .next t ∧ (t.drives.get c).cal = none ∧
        (s.space.fire = .clear → s.space.overrides[damperTarget c] = none →
          (t.drives.get c).driven = (s.drives.get c).computed ∧ (t.drives.get c).source = .computed) ∧
        (∀ v, s.space.fire = .clear → s.space.overrides[damperTarget c] = some v →
          (t.drives.get c).driven = v.value ∧ (t.drives.get c).source = .override) ∧
        t.link = ((s.link.place (s.noticeOf .calibrationDone (some c.place) (some (damperSource c).val)
          (0 + 16777216) none)).handed ns).startFrame ∧
        t.working = s.working ∧ t.space = s.space) ∧
    (∀ (levels : Vector Half 8) k, (s.drives.get c).cal = some k → k.phase ≠ .waitRail → s.rail.state = .on →
      ∃ t ns ns', exec (.sensorSample levels) s = .next t ∧ t.working.settings = s.working.settings ∧
        (let m := levels[feedbackChannel c].toNat
         let good : Prop := 1600 ≤ m ∧ m ≤ 10400
         let mean := (t.scanner.channels[feedbackChannel c].value).getD 0
         let elapsed := k.elapsed + (1000 - s.scanner.timer)
         let stable : Prop :=
           5000 ≤ elapsed ∧ ∃ v, (s.drives.get c).means[4]? = some v ∧ distance mean v < 40
         let ends := fun value : Nat => (t.drives.get c).cal = none ∧
           t.link = (((s.link.handed ns).place (s.noticeOf .calibrationDone (some c.place)
             (some (damperSource c).val) value none)).handed ns').startFrame ∧
           (s.space.fire = .clear → s.space.overrides[damperTarget c] = none →
             (t.drives.get c).driven = (s.drives.get c).computed ∧ (t.drives.get c).source = .computed)
         let kept := t.working.calibrations.get c = s.working.calibrations.get c
         (¬ good → ends (1 + 16777216) ∧ kept) ∧
         (good → ¬ stable → (t.drives.get c).cal = some { k with elapsed := elapsed } ∧ kept) ∧
         (good → stable → k.phase = .closing →
           (t.drives.get c).cal = some { phase := .opening, elapsed := 0, fbLow := mean } ∧
           (t.drives.get c).driven = 1000 ∧ (t.drives.get c).source = .calibration ∧ kept) ∧
         (good → stable → k.phase = .opening → mean < k.fbLow + 4800 → ends (2 + 16777216) ∧ kept) ∧
         (good → stable → k.phase = .opening → k.fbLow + 4800 ≤ mean →
           let stroke := max 30 (min 300 ((elapsed - 5000) / 1000))
           ends stroke ∧ t.working.calibrations.get c =
             { calibrated := true, fbLow := k.fbLow, fbHigh := mean, stroke := stroke }))) ∧
    (∃ t ns, exec (.temperatureUpdate c) s = .next t ∧ t.link = (s.link.handed ns).startFrame ∧
      t.working = s.working ∧ t.space = s.space ∧ t.scanner = s.scanner ∧
      (let d := s.drives.get c
       let d' := t.drives.get c
       let p := s.profileOf c
       let mode := (s.unitOf c).mode
       d'.tempTimer = 0 ∧ (d.cal = none → d'.driven = d.driven) ∧
       (mode = .occupied ∨ mode = .await ∨ mode = .precondition → d'.setpoint = some p.comfort) ∧
       (mode = .setback ∨ mode = .purge →
         d'.setpoint = some (p.comfort - p.standby - s.working.settings.setbackExtra)) ∧
       (mode = .fire → d'.setpoint = none) ∧
       (∀ sp temp, d'.setpoint = some sp → s.scanner.channels[tempChannel c].usable = some temp →
         let e : Int := (sp : Int) - temp
         d'.valveComputed = clampInt 0 1000 (truncDiv (s.working.settings.kpT * e) 8 + d.integral) ∧
         d'.integral =
           (if (d'.valveComputed = 1000 ∧ 0 < e) ∨ (d'.valveComputed = 0 ∧ e < 0) then d.integral
            else clampInt 0 1000 (d.integral + truncDiv (s.working.settings.kiT * e) 64))) ∧
       (d'.setpoint = none ∨ s.scanner.channels[tempChannel c].usable = none →
         d'.valveComputed = d.valveComputed ∧ d'.integral = d.integral) ∧
       d'.valveDriven =
         (if s.space.fire = .inForce then 0
          else match s.space.overrides[valveTarget c] with
            | some v => v.value
            | none => if s.scanner.channels[tempChannel c].lost then s.working.settings.valveFallback.get c
              else d'.valveComputed) ∧
       d'.valveOutput = 10 * d'.valveDriven))

/-! ## Lights, blinds, rail, faults -/

/-- A lighting step forms each used channel's computed target from its unit's mode: 1000 in FIRE; in OCCUPIED the
scene level of its role, for WINDOW and INNER times the daylight factor of its cell (1000 without harvest or a lux
reading), and in CLEARING the clearing level at most for these and 0 for the others; in AWAIT the await level for
these and 0 for the others; else 0. It takes the override or the computed target, moves the output level toward it by
at most the step size of the fade, and forms the applied level and the pending duty again when the output has
changed; the start of a PWM period loads the pending duties; a daylight update moves the factor of a cell in OCCUPIED
with harvest on, a lux reading and no freeze, and of no other; the end of a freeze clears its flag. Nothing else
moves. -/
def Obligations.LightsFollowTheirTargets : Prop :=
  ∀ s : State, s.Settled →
    (∃ t, exec .lightingStep s = .next t ∧
      t = { s with lighting := { s.lighting with channels := t.lighting.channels, stepTimer := 0 } } ∧
      ∀ i : Fin 8,
        (s.channelCell i = none → t.lighting.channels[i] = s.lighting.channels[i]) ∧
        (∀ c, s.channelCell i = some c →
          let r := s.lighting.channels[i]
          let r' := t.lighting.channels[i]
          let p := s.profileOf c
          let up := max 1 (p.fadeUp / 10)
          let down := max 1 (p.fadeDown / 10)
          let w := s.working.settings
          let role := w.channelRole[i]
          let dark : Prop := role = .board ∨ role = .front
          let scene := match role with
            | .board => p.board
            | .front => p.front
            | .window => p.window
            | .inner => p.inner
          let lux := s.scanner.channels[luxChannel c]
          let lost : Prop := lux.state = .faulted ∨ (lux.state = .holding ∧ lux.value = none)
          let factor := if p.harvest = true ∧ ¬ lost then (s.lighting.cells.get c).factor else 1000
          ((s.unitOf c).mode = .occupied → (s.unitOf c).occupancy = .occupied → r'.computed =
            match role with
            | .board | .front => scene
            | .window => scene * factor / 1000
            | .inner => scene * min 1000 (factor + w.innerBoost) / 1000) ∧
          ((s.unitOf c).mode = .occupied → (s.unitOf c).occupancy = .clearing →
            r'.computed = if dark then 0 else min scene w.clearingLevel) ∧
          ((s.unitOf c).mode = .await → r'.computed = if dark then 0 else p.awaitLevel) ∧
          r'.target = (match s.space.overrides[lightTarget i] with
            | some v => v.value
            | none => r'.computed) ∧
          r'.output = (if r.output < r'.target then min r'.target (r.output + up)
            else max r'.target (r.output - down)) ∧
          (r'.output = r.output → r'.applied = r.applied ∧ r'.pendingDuty = r.pendingDuty) ∧
          (r'.output ≠ r.output →
            r'.applied = (if r'.output = 0 then 0 else max r'.output s.working.settings.driverMin[i]) ∧
            r'.pendingDuty = (r'.applied * r'.applied * 4095 + 500000) / 1000000) ∧
          r'.appliedDuty = r.appliedDuty ∧
          ((s.unitOf c).mode = .fire → r'.computed = 1000) ∧
          ((s.unitOf c).mode = .setback ∨ (s.unitOf c).mode = .precondition ∨ (s.unitOf c).mode = .purge →
            r'.computed = 0))) ∧
    (∃ t, exec .pwmPeriodStart s = .next t ∧
      t = { s with lighting := { s.lighting with channels := t.lighting.channels } } ∧
      ∀ i : Fin 8, t.lighting.channels[i] =
        { s.lighting.channels[i] with appliedDuty := s.lighting.channels[i].pendingDuty }) ∧
    (∃ t, exec .daylightUpdate s = .next t ∧
      t = { s with lighting := { s.lighting with cells := t.lighting.cells, daylightTimer := 0 } } ∧
      ∀ c : Cell,
        let d := s.lighting.cells.get c
        let on : Prop := (s.unitOf c).mode = .occupied ∧ (s.profileOf c).harvest = true ∧ d.frozen = false
        (∀ lux, on → s.scanner.channels[luxChannel c].usable = some lux → t.lighting.cells.get c =
          { d with
            updated := true
            factor := clampInt 0 1000 ((d.factor : Int) +
              truncDiv ((((s.profileOf c).lux : Int) - lux) * s.working.settings.kd) 256) }) ∧
        (¬ on ∨ s.scanner.channels[luxChannel c].usable = none →
          t.lighting.cells.get c = { d with updated := false })) ∧
    (∀ c : Cell, (s.lighting.cells.get c).freeze.isSome → exec (.freezeTimerExpiry c) s =
      .next { s with lighting := { s.lighting with
        cells := s.lighting.cells.set c { s.lighting.cells.get c with frozen := false, freeze := none } } })

/-- The evaluation of the blinds forms the computed target of each group in use by its mode, policy and side from a
sun value: the sun flag, which becomes the value used, or, while another target than that of the value used would
follow and the last automatic move lies less than the sun move interval back, the value used, so that the change
waits. (That time may start again within the evaluation for a group that stands in the queue. That the part of its
second that the evaluation closes counts in it is the model's choice, log entry 34.) A STOPPED group that may move
requests its move exactly when it is unreferenced or its target lies beyond the deadband. A moving group goes on
while its target is the one it moves toward (log entry 56); with another one it stops within the deadband, goes on
toward a target ahead, or reverses. The target is the override or the computed target; that of a group under
calibration takes no override, which for one accepted before the calibration is the model's reading (log entry 68),
and is not acted on. -/
def Obligations.BlindEvaluationFormsTheTargets : Prop :=
  ∀ (g : Fin 4) (c : Cell) (s : State), s.Settled → s.groupCell g = some c →
    let w := s.working.settings
    let shade := fun sun : Bool => if sun then w.sunPosition else 0
    let formed := fun sun : Bool =>
      match (s.unitOf c).mode, (s.profileOf c).policy, w.blindSide[g] with
      | .fire, _, _ => 0
      | .setback, _, _ | .precondition, _, _ | .purge, _, _ => shade sun
      | .await, .daylight, _ | .occupied, .daylight, _ => shade sun
      | .await, .present, .windowSide | .occupied, .present, .windowSide => shade sun
      | .await, .present, .boardSide | .occupied, .present, .boardSide => 1000
      | .await, .dark, _ | .occupied, .dark, _ => 1000
    let flag := s.blinds.sun
    let used := s.blinds.groups[g].sunUsed
    let waits : Prop := formed flag ≠ formed used ∧
      ∃ since, s.blinds.groups[g].sinceMove = some since ∧
        since + (1000 - s.blinds.evalTimer) < w.sunInterval * 60000
    ∃ t ns, exec .blindEvaluation s = .next t ∧ t.link = (s.link.handed ns).startFrame ∧
      t.blinds.evalTimer = 0 ∧ t.blinds.sun = s.blinds.sun ∧ t.working = s.working ∧ t.space = s.space ∧
      t.blinds.groups[g].computedTarget = formed t.blinds.groups[g].sunUsed ∧
      (formed flag = formed used → t.blinds.groups[g].sunUsed = flag) ∧
      (waits → t.blinds.groups[g].sunUsed = used) ∧
      (¬ waits → (∀ e ∈ s.blinds.queue, e.group ≠ g) → t.blinds.groups[g].sunUsed = flag) ∧
      (t.blinds.groups[g].sunUsed = flag ∨ t.blinds.groups[g].sunUsed = used) ∧
      t.blinds.groups[g].target = (match s.space.overrides[blindTarget g] with
        | some v => if s.blinds.groups[g].cal = none then v.value else s.blinds.groups[g].target
        | none => t.blinds.groups[g].computedTarget) ∧
      (s.blinds.groups[g].state = .stopped → s.blinds.groups[g].cal = none →
        s.faults[blindSource g].state = .clear → (∀ e ∈ s.blinds.queue, e.group ≠ g) →
        if s.blinds.groups[g].referenced = false ∨
            30 < distance t.blinds.groups[g].target s.blinds.groups[g].estimate then
          t.blinds.groups[g].state = .queued ∨ t.blinds.groups[g].state = .movingUp ∨
            t.blinds.groups[g].state = .movingDown
        else t.blinds.groups[g].state = .stopped ∧
          t.blinds.groups[g].estimate = s.blinds.groups[g].estimate) ∧
      (s.blinds.groups[g].state = .movingUp ∨ s.blinds.groups[g].state = .movingDown →
        s.blinds.groups[g].cal = none → s.blinds.groups[g].refMove = false →
        (∀ e ∈ s.blinds.queue, e.group ≠ g) →
        let r := s.blinds.groups[g]
        let r' := t.blinds.groups[g]
        let endAhead := if r.state = .movingDown then 1000 else 0
        r'.estimate = r.estimate ∧
          (if r'.target = r.goal ∨ r'.target = endAhead then r'.state = r.state ∧ r'.goal = r'.target
           else if distance r'.target r.estimate ≤ 30 then r'.state = .stopped ∧ g ∉ t.blinds.slots
           else if (r.state = .movingDown ↔ r.estimate < r'.target) then
             r'.state = r.state ∧ r'.goal = r'.target
           else r'.state = .reversing ∧ r'.goal = r'.target))

/-- The ends of a blind's move. A current sample that finds no fault moves the estimate by the time run; at an
intermediate goal the group stops and frees its slot, at an end the overrun starts. A current above the stall
threshold for 1 s (20 samples, the model's reading of log entry 17) is the fault STALL; a current below the run
threshold after the 800 ms test is the end switch within 200 of the end ahead, and on a reference move of an
unreferenced group wherever the estimate stands; elsewhere it is MOTOR_CUTOUT. At the 800 ms test a silent motor
stands at the end it was to reach, where the group is unreferenced or within 200 of it, and else is the fault
NO_MOTOR. A calibration leg ends at its end switch wherever the estimate stands: leg 1 with the estimate 0 and the
group referenced (the flag is the model's reading, log entry 21), each of the first two with the pause before the
next, leg 3 with the measured travel times, the group referenced and CALIBRATION_DONE; a leg 2 or 3 shorter than 5 s
ends it FAILED, SHORT_TRAVEL. At the 800 ms test a silent motor ends leg 1 at the top, and in the other legs is the
fault NO_MOTOR (the model's choice, log entry 69). That STALL and the end switch outweigh the target test of a sample
is the model's reading (log entry 18). An overrun that ends, a pause that ends, and a leg that sees no end switch act
as their rules say. The part of the 50 ms that the sample closes counts as run (log entry 34). -/
def Obligations.BlindMovesEnd : Prop :=
  ∀ (g : Fin 4) (current : Half) (s : State), s.Settled →
    (let r := s.blinds.groups[g]
     let down : Prop := r.state = .movingDown
     let endAhead := if r.state = .movingDown then 1000 else 0
     let travel := if r.state = .movingDown then s.working.settings.travelDown[g] else s.working.settings.travelUp[g]
     let moved := (r.segMs + (50 - r.sampleMs)) * 1000 / travel
     let est := if r.state = .movingDown then min 1000 (r.segStart + moved) else min 1000 (r.segStart - moved)
     let energised : Prop := r.state = .movingUp ∨ r.state = .movingDown
     (energised → r.cal = none → s.working.settings.runThreshold ≤ current.toNat →
       current.toNat ≤ s.working.settings.stallThreshold → (∀ e ∈ s.blinds.queue, e.group ≠ g) →
       ∃ t ns, exec (.currentSample g current) s = .next t ∧ t.link = (s.link.handed ns).startFrame ∧
         t.blinds.groups[g].estimate = est ∧ t.blinds.groups[g].current = some current.toNat ∧
         t.working = s.working ∧ t.space = s.space ∧
         (let there : Prop := (down ∧ r.goal ≤ est) ∨ (¬ down ∧ est ≤ r.goal)
          (there → r.goal ≠ endAhead → t.blinds.groups[g].state = .stopped ∧ g ∉ t.blinds.slots) ∧
          (there → r.goal = endAhead →
            t.blinds.groups[g].state = r.state ∧ t.blinds.groups[g].overrun.isSome) ∧
          (¬ there → t.blinds.groups[g].state = r.state ∧ t.blinds.groups[g].goal = r.goal))) ∧
     (energised → s.working.settings.stallThreshold < current.toNat → 19 ≤ r.stallCount →
       ∃ t, exec (.currentSample g current) s = .next t ∧ t.blinds.groups[g].state = .fault ∧
         t.blinds.groups[g].cal = none ∧ g ∉ t.blinds.slots ∧ t.faults[blindSource g].kind = .stall ∧
         t.faults[blindSource g].state ≠ .clear) ∧
     (energised → r.cal = none → r.runTested = true → current.toNat < s.working.settings.runThreshold →
       current.toNat ≤ s.working.settings.stallThreshold →
       (distance endAhead est ≤ 200 ∨ (r.referenced = false ∧ r.refMove = true) →
         ∃ t ns, exec (.currentSample g current) s = .next t ∧
           t.link = (s.link.handed ns).startFrame ∧ t.blinds.groups[g].estimate = endAhead ∧
           t.blinds.groups[g].referenced = true ∧ t.blinds.groups[g].state = .stopped ∧ g ∉ t.blinds.slots) ∧
       (200 < distance endAhead est → r.referenced = true ∨ r.refMove = false →
         ∃ t, exec (.currentSample g current) s = .next t ∧
           t.blinds.groups[g].referenced = false ∧ t.blinds.groups[g].state = .fault ∧ g ∉ t.blinds.slots ∧
           t.faults[blindSource g].kind = .motorCutout ∧ t.faults[blindSource g].state ≠ .clear)) ∧
     (energised → r.cal = none → r.runTested = false → 800 ≤ r.runMs + (50 - r.sampleMs) →
       current.toNat < s.working.settings.runThreshold → current.toNat ≤ s.working.settings.stallThreshold →
       let atEnd : Prop := r.goal = endAhead ∧ (r.referenced = false ∨ distance endAhead est ≤ 200)
       (atEnd → ∃ t ns, exec (.currentSample g current) s = .next t ∧
         t.link = (s.link.handed ns).startFrame ∧ t.blinds.groups[g].estimate = endAhead ∧
         t.blinds.groups[g].referenced = true ∧ t.blinds.groups[g].state = .stopped ∧ g ∉ t.blinds.slots) ∧
       (¬ atEnd → ∃ t, exec (.currentSample g current) s = .next t ∧ t.blinds.groups[g].state = .fault ∧
         t.blinds.groups[g].estimate = est ∧ t.blinds.groups[g].referenced = r.referenced ∧
         g ∉ t.blinds.slots ∧ t.faults[blindSource g].kind = .noMotor ∧
         t.faults[blindSource g].state ≠ .clear)) ∧
     (∀ k, energised → r.cal = some k → current.toNat < s.working.settings.runThreshold →
       current.toNat ≤ s.working.settings.stallThreshold → (∀ e ∈ s.blinds.queue, e.group ≠ g) →
       let leg := r.legMs + (50 - r.sampleMs)
       let w := s.working.settings
       ∃ t ns, exec (.currentSample g current) s = .next t ∧ t.space = s.space ∧
         (let r' := t.blinds.groups[g]
          let pauses := fun (next : BlindCal) => r'.state = .reversing ∧ r'.cal = some next ∧ r'.reverseMs = 0 ∧
            (g ∈ s.blinds.slots → g ∈ t.blinds.slots) ∧ t.working = s.working
          let ends := fun value : Nat => r'.state = .stopped ∧ r'.cal = none ∧ g ∉ t.blinds.slots ∧
            t.link = ((s.link.place (s.noticeOf .calibrationDone none (some (blindSource g).val) value
              none)).handed ns).startFrame
          (r.runTested = true → k.leg ≠ 1 → leg < 5000 →
            ends (6 + 16777216) ∧ r'.referenced = false ∧ t.working = s.working) ∧
          (r.runTested = true → k.leg = 2 → 5000 ≤ leg → pauses { leg := 3, travelDown := leg }) ∧
          (r.runTested = true → k.leg = 3 → 5000 ≤ leg →
            ends k.travelDown ∧ r'.referenced = true ∧ r'.estimate = 0 ∧
            t.working = { s.working with settings := { w with
              travelDown := w.travelDown.set g k.travelDown, travelUp := w.travelUp.set g leg } }) ∧
          (r.runTested = true ∨ 800 ≤ r.runMs + (50 - r.sampleMs) → k.leg = 1 →
            pauses { k with leg := 2 } ∧ r'.estimate = 0 ∧ r'.referenced = true) ∧
          (r.runTested = false → 800 ≤ r.runMs + (50 - r.sampleMs) → k.leg ≠ 1 →
            r'.state = .fault ∧ r'.cal = none ∧ g ∉ t.blinds.slots ∧
            t.faults[blindSource g].kind = .noMotor ∧ t.faults[blindSource g].state ≠ .clear ∧
            t.working = s.working))) ∧
     (energised → r.overrun.isSome →
       ∃ t ns, exec (.blindLimitUnseen g) s = .next t ∧ t.blinds.groups[g].estimate = endAhead ∧
         t.blinds.groups[g].referenced = true ∧ t.blinds.groups[g].state = .stopped ∧ g ∉ t.blinds.slots ∧
         t.link = ((s.link.place (s.noticeOf .blindLimitUnseen none (some g.val) endAhead
           none)).handed ns).startFrame ∧ t.working = s.working ∧ t.space = s.space) ∧
     (energised → r.cal.isSome →
       ∃ t ns, exec (.calibrationLegTimeout g) s = .next t ∧ t.blinds.groups[g].cal = none ∧
         t.blinds.groups[g].state = .stopped ∧ t.blinds.groups[g].referenced = false ∧ g ∉ t.blinds.slots ∧
         t.link = ((s.link.place (s.noticeOf .calibrationDone none (some (blindSource g).val)
           (5 + 16777216) none)).handed ns).startFrame ∧ t.working = s.working ∧ t.space = s.space) ∧
     (r.state = .reversing → (∀ e ∈ s.blinds.queue, e.group ≠ g) →
       ∃ t ns, exec (.reversingEnd g) s = .next t ∧ t.link = (s.link.handed ns).startFrame ∧
         t.working = s.working ∧ t.space = s.space ∧
         (r.cal = none → distance r.goal r.estimate ≤ 30 → t.blinds.groups[g].state = .stopped) ∧
         (r.cal = none → 30 < distance r.goal r.estimate →
           t.blinds.groups[g].state = (if r.estimate < r.goal then .movingDown else .movingUp) ∧
           t.blinds.groups[g].segStart = r.estimate ∧ t.blinds.groups[g].segMs = 0) ∧
         (∀ k, r.cal = some k → t.blinds.groups[g].cal = some k ∧
           t.blinds.groups[g].state = (if k.leg = 2 then .movingDown else .movingUp))))

/-- The rail settles to ON, with slots granted while both the queue and free slots last and every waiting damper
calibration in CLOSING; it lingers to OFF, with tracking ended; a fault level makes it FAULTED while it is switched
on, with RAIL_DOWN, and is not judged otherwise. That FAULT_LATCHED stands ahead of RAIL_DOWN, both ahead of the
notices of the calibrations that the fault ends, and that the retry count is held at 10, is the model's choice (log
entries 44 and 30). -/
def Obligations.RailEventsMoveTheRail : Prop :=
  ∀ s : State, s.Settled →
    (s.rail.state = .rising → s.rail.settle.isSome →
      ∃ t, exec .railSettleEnd s = .next t ∧ t.rail.state = .on ∧ t.rail.settle = none ∧
        t.rail.linger = (if t.rail.driveNeed || t.rail.blindNeed then none else some 0) ∧
        (t.blinds.queue = [] ∨ s.working.settings.driveSlots ≤ t.blinds.slots.length) ∧
        (∀ c k, (s.drives.get c).cal = some k → k.phase = .waitRail →
          (t.drives.get c).cal = some { k with phase := .closing, elapsed := 0 } ∧ (t.drives.get c).driven = 0) ∧
        t.link = s.link ∧ t.working = s.working ∧ t.space = s.space ∧ t.faults = s.faults) ∧
    (s.rail.state = .on → s.rail.linger.isSome →
      ∃ t, exec .railLingerExpiry s = .next t ∧
        t = { s with rail := { s.rail with state := .off, linger := none }, drives := t.drives } ∧
        ∀ c, t.drives.get c = { s.drives.get c with tracking := false, trackTimer := none }) ∧
    (s.rail.state = .rising ∨ s.rail.state = .on → s.rail.lowTimer.isSome →
      s.faults[railSource].state = .clear →
      ∃ t ns, exec .railDown s = .next t ∧ t.rail.state = .faulted ∧ t.rail.settle = none ∧
        t.rail.linger = none ∧
        t.faults[railSource].kind = .railFault ∧
        t.faults[railSource].retry = min 10 (s.faults[railSource].retry + 1) ∧
        t.faults[railSource].normal = 0 ∧
        (if min 10 (s.faults[railSource].retry + 1) < s.working.settings.retryLimit then
          t.faults[railSource].state = .retryWait ∧ t.faults[railSource].retryTimer = some 0 ∧
          t.link = ((s.link.place (s.noticeOf .railDown none (some railSource.val)
            (1 + 256 * FaultKind.railFault.code) none)).handed ns).startFrame
         else t.faults[railSource].state = .latched ∧ t.faults[railSource].retryTimer = none ∧
          t.link = (((s.link.place (s.noticeOf .faultLatched none (some railSource.val)
            (2 + 256 * FaultKind.railFault.code) none)).place (s.noticeOf .railDown none (some railSource.val)
            (2 + 256 * FaultKind.railFault.code) none)).handed ns).startFrame) ∧
        (s.rail.state = .on → t.blinds.slots = []) ∧
        (∀ c, (t.drives.get c).tracking = false ∧
          ∀ k, (s.drives.get c).cal = some k → k.phase ≠ .waitRail → (t.drives.get c).cal = none) ∧
        t.working = s.working ∧ t.space = s.space) ∧
    (∀ k, s.rail.state = .off ∨ s.rail.state = .faulted → s.rail.lowTimer = some k → exec .railDown s =
      .next { s with rail := { s.rail with lowTimer := some (max k 20) } })

/-- A retry interval that ends returns the record to CLEAR with its count kept and re-drives the source: a blind
group in FAULT, or STOPPED, is STOPPED and, in use, asks at once for the move that its estimate calls for; a FAULTED
rail is OFF or RISING. A normal timer that ends returns the count to 0 with FAULT_CLEARED. -/
def Obligations.RetriesAndNormalTimersEnd : Prop :=
  ∀ (i : Fin 21) (s : State), s.Settled →
    (s.faults[i].state = .retryWait → (∃ g, i = blindSource g) ∨ (i = railSource ∧ s.rail.faultLevel = false) ∨
        (∃ c, i = damperSource c ∧ (s.rail.state ≠ .on ∨ (s.drives.get c).feedbackGood = true)) →
      ∃ t ns, exec (.retryExpiry i) s = .next t ∧ t.link = (s.link.handed ns).startFrame ∧
        t.faults[i] = { s.faults[i] with state := .clear, retryTimer := none } ∧
        t.working = s.working ∧ t.space = s.space ∧
        (∀ g, i = blindSource g → s.blinds.groups[g].state = .fault ∨ s.blinds.groups[g].state = .stopped →
          t.blinds.groups[g].state ≠ .fault ∧ (s.groupCell g = none → t.blinds.groups[g].state = .stopped) ∧
          (s.groupCell g ≠ none → (∀ e ∈ s.blinds.queue, e.group ≠ g) →
            s.blinds.groups[g].referenced = false ∨
              30 < distance s.blinds.groups[g].target s.blinds.groups[g].estimate →
            t.blinds.groups[g].state = .queued ∨ t.blinds.groups[g].state = .movingUp ∨
              t.blinds.groups[g].state = .movingDown)) ∧
        (i = railSource → s.rail.state = .faulted →
          t.rail.state = if t.rail.driveNeed || t.rail.blindNeed then .rising else .off) ∧
        (∀ c, i = damperSource c → t = { s with faults := t.faults, drives := t.drives } ∧
          (t.drives.get c).driven = (s.drives.get c).driven ∧
          ((t.drives.get c).tracking = true ↔ s.rail.state = .on ∧ (s.drives.get c).cal = none))) ∧
    (s.faults[i].state = .clear → 0 < s.faults[i].retry →
      i = railSource ∨ (∃ g, i = blindSource g) ∨ (∃ c, i = damperSource c ∧ (s.drives.get c).tracking = true) →
      exec (.normalTimerExpiry i) s = .next { s with
        faults := s.faults.set i { s.faults[i] with retry := 0, normal := 0 }
        link := (s.link.place (s.noticeOf .faultCleared none (some i.val)
          (256 * s.faults[i].kind.code) none)).startFrame })
end

