-- ==== Sys2Proof/Laws/State.lean ====
section
/-! SUPPORT. What every update of one field of the state leaves in every field. -/

namespace Sys2Proof.Machine
open Sys2Proof

section notify
variable (s : State) (k : NoticeKind) (p : Option Place) (i : Option Nat) (v : Nat) (t : Option Half)

@[simp] theorem State.notify_link : (s.notify k p i v t).link = s.link.place (s.noticeOf k p i v t) := rfl
@[simp] theorem State.notify_clock : (s.notify k p i v t).clock = s.clock := rfl
@[simp] theorem State.notify_walker : (s.notify k p i v t).walker = s.walker := rfl
@[simp] theorem State.notify_doors : (s.notify k p i v t).doors = s.doors := rfl
@[simp] theorem State.notify_presence : (s.notify k p i v t).presence = s.presence := rfl
@[simp] theorem State.notify_drift : (s.notify k p i v t).drift = s.drift := rfl
@[simp] theorem State.notify_space : (s.notify k p i v t).space = s.space := rfl
@[simp] theorem State.notify_air : (s.notify k p i v t).air = s.air := rfl
@[simp] theorem State.notify_drives : (s.notify k p i v t).drives = s.drives := rfl
@[simp] theorem State.notify_lighting : (s.notify k p i v t).lighting = s.lighting := rfl
@[simp] theorem State.notify_blinds : (s.notify k p i v t).blinds = s.blinds := rfl
@[simp] theorem State.notify_rail : (s.notify k p i v t).rail = s.rail := rfl
@[simp] theorem State.notify_scanner : (s.notify k p i v t).scanner = s.scanner := rfl
@[simp] theorem State.notify_faults : (s.notify k p i v t).faults = s.faults := rfl
@[simp] theorem State.notify_supervision : (s.notify k p i v t).supervision = s.supervision := rfl
@[simp] theorem State.notify_store : (s.notify k p i v t).store = s.store := rfl
@[simp] theorem State.notify_working : (s.notify k p i v t).working = s.working := rfl
@[simp] theorem State.notify_pending : (s.notify k p i v t).pending = s.pending := rfl

end notify

section updLink
variable (s : State) (f : Link → Link)

@[simp] theorem State.updLink_link : (s.updLink f).link = f s.link := rfl
@[simp] theorem State.updLink_clock : (s.updLink f).clock = s.clock := rfl
@[simp] theorem State.updLink_walker : (s.updLink f).walker = s.walker := rfl
@[simp] theorem State.updLink_doors : (s.updLink f).doors = s.doors := rfl
@[simp] theorem State.updLink_presence : (s.updLink f).presence = s.presence := rfl
@[simp] theorem State.updLink_drift : (s.updLink f).drift = s.drift := rfl
@[simp] theorem State.updLink_space : (s.updLink f).space = s.space := rfl
@[simp] theorem State.updLink_air : (s.updLink f).air = s.air := rfl
@[simp] theorem State.updLink_drives : (s.updLink f).drives = s.drives := rfl
@[simp] theorem State.updLink_lighting : (s.updLink f).lighting = s.lighting := rfl
@[simp] theorem State.updLink_blinds : (s.updLink f).blinds = s.blinds := rfl
@[simp] theorem State.updLink_rail : (s.updLink f).rail = s.rail := rfl
@[simp] theorem State.updLink_scanner : (s.updLink f).scanner = s.scanner := rfl
@[simp] theorem State.updLink_faults : (s.updLink f).faults = s.faults := rfl
@[simp] theorem State.updLink_supervision : (s.updLink f).supervision = s.supervision := rfl
@[simp] theorem State.updLink_store : (s.updLink f).store = s.store := rfl
@[simp] theorem State.updLink_working : (s.updLink f).working = s.working := rfl
@[simp] theorem State.updLink_pending : (s.updLink f).pending = s.pending := rfl

end updLink

section updClock
variable (s : State) (f : WeekClock → WeekClock)

@[simp] theorem State.updClock_link : (s.updClock f).link = s.link := rfl
@[simp] theorem State.updClock_clock : (s.updClock f).clock = f s.clock := rfl
@[simp] theorem State.updClock_walker : (s.updClock f).walker = s.walker := rfl
@[simp] theorem State.updClock_doors : (s.updClock f).doors = s.doors := rfl
@[simp] theorem State.updClock_presence : (s.updClock f).presence = s.presence := rfl
@[simp] theorem State.updClock_drift : (s.updClock f).drift = s.drift := rfl
@[simp] theorem State.updClock_space : (s.updClock f).space = s.space := rfl
@[simp] theorem State.updClock_air : (s.updClock f).air = s.air := rfl
@[simp] theorem State.updClock_drives : (s.updClock f).drives = s.drives := rfl
@[simp] theorem State.updClock_lighting : (s.updClock f).lighting = s.lighting := rfl
@[simp] theorem State.updClock_blinds : (s.updClock f).blinds = s.blinds := rfl
@[simp] theorem State.updClock_rail : (s.updClock f).rail = s.rail := rfl
@[simp] theorem State.updClock_scanner : (s.updClock f).scanner = s.scanner := rfl
@[simp] theorem State.updClock_faults : (s.updClock f).faults = s.faults := rfl
@[simp] theorem State.updClock_supervision : (s.updClock f).supervision = s.supervision := rfl
@[simp] theorem State.updClock_store : (s.updClock f).store = s.store := rfl
@[simp] theorem State.updClock_working : (s.updClock f).working = s.working := rfl
@[simp] theorem State.updClock_pending : (s.updClock f).pending = s.pending := rfl

end updClock

section updWalker
variable (s : State) (f : Walker → Walker)

@[simp] theorem State.updWalker_link : (s.updWalker f).link = s.link := rfl
@[simp] theorem State.updWalker_clock : (s.updWalker f).clock = s.clock := rfl
@[simp] theorem State.updWalker_walker : (s.updWalker f).walker = f s.walker := rfl
@[simp] theorem State.updWalker_doors : (s.updWalker f).doors = s.doors := rfl
@[simp] theorem State.updWalker_presence : (s.updWalker f).presence = s.presence := rfl
@[simp] theorem State.updWalker_drift : (s.updWalker f).drift = s.drift := rfl
@[simp] theorem State.updWalker_space : (s.updWalker f).space = s.space := rfl
@[simp] theorem State.updWalker_air : (s.updWalker f).air = s.air := rfl
@[simp] theorem State.updWalker_drives : (s.updWalker f).drives = s.drives := rfl
@[simp] theorem State.updWalker_lighting : (s.updWalker f).lighting = s.lighting := rfl
@[simp] theorem State.updWalker_blinds : (s.updWalker f).blinds = s.blinds := rfl
@[simp] theorem State.updWalker_rail : (s.updWalker f).rail = s.rail := rfl
@[simp] theorem State.updWalker_scanner : (s.updWalker f).scanner = s.scanner := rfl
@[simp] theorem State.updWalker_faults : (s.updWalker f).faults = s.faults := rfl
@[simp] theorem State.updWalker_supervision : (s.updWalker f).supervision = s.supervision := rfl
@[simp] theorem State.updWalker_store : (s.updWalker f).store = s.store := rfl
@[simp] theorem State.updWalker_working : (s.updWalker f).working = s.working := rfl
@[simp] theorem State.updWalker_pending : (s.updWalker f).pending = s.pending := rfl

end updWalker

section updPresence
variable (s : State) (f : Presence → Presence)

@[simp] theorem State.updPresence_link : (s.updPresence f).link = s.link := rfl
@[simp] theorem State.updPresence_clock : (s.updPresence f).clock = s.clock := rfl
@[simp] theorem State.updPresence_walker : (s.updPresence f).walker = s.walker := rfl
@[simp] theorem State.updPresence_doors : (s.updPresence f).doors = s.doors := rfl
@[simp] theorem State.updPresence_presence : (s.updPresence f).presence = f s.presence := rfl
@[simp] theorem State.updPresence_drift : (s.updPresence f).drift = s.drift := rfl
@[simp] theorem State.updPresence_space : (s.updPresence f).space = s.space := rfl
@[simp] theorem State.updPresence_air : (s.updPresence f).air = s.air := rfl
@[simp] theorem State.updPresence_drives : (s.updPresence f).drives = s.drives := rfl
@[simp] theorem State.updPresence_lighting : (s.updPresence f).lighting = s.lighting := rfl
@[simp] theorem State.updPresence_blinds : (s.updPresence f).blinds = s.blinds := rfl
@[simp] theorem State.updPresence_rail : (s.updPresence f).rail = s.rail := rfl
@[simp] theorem State.updPresence_scanner : (s.updPresence f).scanner = s.scanner := rfl
@[simp] theorem State.updPresence_faults : (s.updPresence f).faults = s.faults := rfl
@[simp] theorem State.updPresence_supervision : (s.updPresence f).supervision = s.supervision := rfl
@[simp] theorem State.updPresence_store : (s.updPresence f).store = s.store := rfl
@[simp] theorem State.updPresence_working : (s.updPresence f).working = s.working := rfl
@[simp] theorem State.updPresence_pending : (s.updPresence f).pending = s.pending := rfl

end updPresence

section updDrift
variable (s : State) (f : PerCell Nat → PerCell Nat)

@[simp] theorem State.updDrift_link : (s.updDrift f).link = s.link := rfl
@[simp] theorem State.updDrift_clock : (s.updDrift f).clock = s.clock := rfl
@[simp] theorem State.updDrift_walker : (s.updDrift f).walker = s.walker := rfl
@[simp] theorem State.updDrift_doors : (s.updDrift f).doors = s.doors := rfl
@[simp] theorem State.updDrift_presence : (s.updDrift f).presence = s.presence := rfl
@[simp] theorem State.updDrift_drift : (s.updDrift f).drift = f s.drift := rfl
@[simp] theorem State.updDrift_space : (s.updDrift f).space = s.space := rfl
@[simp] theorem State.updDrift_air : (s.updDrift f).air = s.air := rfl
@[simp] theorem State.updDrift_drives : (s.updDrift f).drives = s.drives := rfl
@[simp] theorem State.updDrift_lighting : (s.updDrift f).lighting = s.lighting := rfl
@[simp] theorem State.updDrift_blinds : (s.updDrift f).blinds = s.blinds := rfl
@[simp] theorem State.updDrift_rail : (s.updDrift f).rail = s.rail := rfl
@[simp] theorem State.updDrift_scanner : (s.updDrift f).scanner = s.scanner := rfl
@[simp] theorem State.updDrift_faults : (s.updDrift f).faults = s.faults := rfl
@[simp] theorem State.updDrift_supervision : (s.updDrift f).supervision = s.supervision := rfl
@[simp] theorem State.updDrift_store : (s.updDrift f).store = s.store := rfl
@[simp] theorem State.updDrift_working : (s.updDrift f).working = s.working := rfl
@[simp] theorem State.updDrift_pending : (s.updDrift f).pending = s.pending := rfl

end updDrift

section updAir
variable (s : State) (f : Air → Air)

@[simp] theorem State.updAir_link : (s.updAir f).link = s.link := rfl
@[simp] theorem State.updAir_clock : (s.updAir f).clock = s.clock := rfl
@[simp] theorem State.updAir_walker : (s.updAir f).walker = s.walker := rfl
@[simp] theorem State.updAir_doors : (s.updAir f).doors = s.doors := rfl
@[simp] theorem State.updAir_presence : (s.updAir f).presence = s.presence := rfl
@[simp] theorem State.updAir_drift : (s.updAir f).drift = s.drift := rfl
@[simp] theorem State.updAir_space : (s.updAir f).space = s.space := rfl
@[simp] theorem State.updAir_air : (s.updAir f).air = f s.air := rfl
@[simp] theorem State.updAir_drives : (s.updAir f).drives = s.drives := rfl
@[simp] theorem State.updAir_lighting : (s.updAir f).lighting = s.lighting := rfl
@[simp] theorem State.updAir_blinds : (s.updAir f).blinds = s.blinds := rfl
@[simp] theorem State.updAir_rail : (s.updAir f).rail = s.rail := rfl
@[simp] theorem State.updAir_scanner : (s.updAir f).scanner = s.scanner := rfl
@[simp] theorem State.updAir_faults : (s.updAir f).faults = s.faults := rfl
@[simp] theorem State.updAir_supervision : (s.updAir f).supervision = s.supervision := rfl
@[simp] theorem State.updAir_store : (s.updAir f).store = s.store := rfl
@[simp] theorem State.updAir_working : (s.updAir f).working = s.working := rfl
@[simp] theorem State.updAir_pending : (s.updAir f).pending = s.pending := rfl

end updAir

section updLighting
variable (s : State) (f : Lighting → Lighting)

@[simp] theorem State.updLighting_link : (s.updLighting f).link = s.link := rfl
@[simp] theorem State.updLighting_clock : (s.updLighting f).clock = s.clock := rfl
@[simp] theorem State.updLighting_walker : (s.updLighting f).walker = s.walker := rfl
@[simp] theorem State.updLighting_doors : (s.updLighting f).doors = s.doors := rfl
@[simp] theorem State.updLighting_presence : (s.updLighting f).presence = s.presence := rfl
@[simp] theorem State.updLighting_drift : (s.updLighting f).drift = s.drift := rfl
@[simp] theorem State.updLighting_space : (s.updLighting f).space = s.space := rfl
@[simp] theorem State.updLighting_air : (s.updLighting f).air = s.air := rfl
@[simp] theorem State.updLighting_drives : (s.updLighting f).drives = s.drives := rfl
@[simp] theorem State.updLighting_lighting : (s.updLighting f).lighting = f s.lighting := rfl
@[simp] theorem State.updLighting_blinds : (s.updLighting f).blinds = s.blinds := rfl
@[simp] theorem State.updLighting_rail : (s.updLighting f).rail = s.rail := rfl
@[simp] theorem State.updLighting_scanner : (s.updLighting f).scanner = s.scanner := rfl
@[simp] theorem State.updLighting_faults : (s.updLighting f).faults = s.faults := rfl
@[simp] theorem State.updLighting_supervision : (s.updLighting f).supervision = s.supervision := rfl
@[simp] theorem State.updLighting_store : (s.updLighting f).store = s.store := rfl
@[simp] theorem State.updLighting_working : (s.updLighting f).working = s.working := rfl
@[simp] theorem State.updLighting_pending : (s.updLighting f).pending = s.pending := rfl

end updLighting

section updScanner
variable (s : State) (f : Scanner → Scanner)

@[simp] theorem State.updScanner_link : (s.updScanner f).link = s.link := rfl
@[simp] theorem State.updScanner_clock : (s.updScanner f).clock = s.clock := rfl
@[simp] theorem State.updScanner_walker : (s.updScanner f).walker = s.walker := rfl
@[simp] theorem State.updScanner_doors : (s.updScanner f).doors = s.doors := rfl
@[simp] theorem State.updScanner_presence : (s.updScanner f).presence = s.presence := rfl
@[simp] theorem State.updScanner_drift : (s.updScanner f).drift = s.drift := rfl
@[simp] theorem State.updScanner_space : (s.updScanner f).space = s.space := rfl
@[simp] theorem State.updScanner_air : (s.updScanner f).air = s.air := rfl
@[simp] theorem State.updScanner_drives : (s.updScanner f).drives = s.drives := rfl
@[simp] theorem State.updScanner_lighting : (s.updScanner f).lighting = s.lighting := rfl
@[simp] theorem State.updScanner_blinds : (s.updScanner f).blinds = s.blinds := rfl
@[simp] theorem State.updScanner_rail : (s.updScanner f).rail = s.rail := rfl
@[simp] theorem State.updScanner_scanner : (s.updScanner f).scanner = f s.scanner := rfl
@[simp] theorem State.updScanner_faults : (s.updScanner f).faults = s.faults := rfl
@[simp] theorem State.updScanner_supervision : (s.updScanner f).supervision = s.supervision := rfl
@[simp] theorem State.updScanner_store : (s.updScanner f).store = s.store := rfl
@[simp] theorem State.updScanner_working : (s.updScanner f).working = s.working := rfl
@[simp] theorem State.updScanner_pending : (s.updScanner f).pending = s.pending := rfl

end updScanner

section updSupervision
variable (s : State) (f : Supervision → Supervision)

@[simp] theorem State.updSupervision_link : (s.updSupervision f).link = s.link := rfl
@[simp] theorem State.updSupervision_clock : (s.updSupervision f).clock = s.clock := rfl
@[simp] theorem State.updSupervision_walker : (s.updSupervision f).walker = s.walker := rfl
@[simp] theorem State.updSupervision_doors : (s.updSupervision f).doors = s.doors := rfl
@[simp] theorem State.updSupervision_presence : (s.updSupervision f).presence = s.presence := rfl
@[simp] theorem State.updSupervision_drift : (s.updSupervision f).drift = s.drift := rfl
@[simp] theorem State.updSupervision_space : (s.updSupervision f).space = s.space := rfl
@[simp] theorem State.updSupervision_air : (s.updSupervision f).air = s.air := rfl
@[simp] theorem State.updSupervision_drives : (s.updSupervision f).drives = s.drives := rfl
@[simp] theorem State.updSupervision_lighting : (s.updSupervision f).lighting = s.lighting := rfl
@[simp] theorem State.updSupervision_blinds : (s.updSupervision f).blinds = s.blinds := rfl
@[simp] theorem State.updSupervision_rail : (s.updSupervision f).rail = s.rail := rfl
@[simp] theorem State.updSupervision_scanner : (s.updSupervision f).scanner = s.scanner := rfl
@[simp] theorem State.updSupervision_faults : (s.updSupervision f).faults = s.faults := rfl
@[simp] theorem State.updSupervision_supervision : (s.updSupervision f).supervision = f s.supervision := rfl
@[simp] theorem State.updSupervision_store : (s.updSupervision f).store = s.store := rfl
@[simp] theorem State.updSupervision_working : (s.updSupervision f).working = s.working := rfl
@[simp] theorem State.updSupervision_pending : (s.updSupervision f).pending = s.pending := rfl

end updSupervision

section updStore
variable (s : State) (f : Store → Store)

@[simp] theorem State.updStore_link : (s.updStore f).link = s.link := rfl
@[simp] theorem State.updStore_clock : (s.updStore f).clock = s.clock := rfl
@[simp] theorem State.updStore_walker : (s.updStore f).walker = s.walker := rfl
@[simp] theorem State.updStore_doors : (s.updStore f).doors = s.doors := rfl
@[simp] theorem State.updStore_presence : (s.updStore f).presence = s.presence := rfl
@[simp] theorem State.updStore_drift : (s.updStore f).drift = s.drift := rfl
@[simp] theorem State.updStore_space : (s.updStore f).space = s.space := rfl
@[simp] theorem State.updStore_air : (s.updStore f).air = s.air := rfl
@[simp] theorem State.updStore_drives : (s.updStore f).drives = s.drives := rfl
@[simp] theorem State.updStore_lighting : (s.updStore f).lighting = s.lighting := rfl
@[simp] theorem State.updStore_blinds : (s.updStore f).blinds = s.blinds := rfl
@[simp] theorem State.updStore_rail : (s.updStore f).rail = s.rail := rfl
@[simp] theorem State.updStore_scanner : (s.updStore f).scanner = s.scanner := rfl
@[simp] theorem State.updStore_faults : (s.updStore f).faults = s.faults := rfl
@[simp] theorem State.updStore_supervision : (s.updStore f).supervision = s.supervision := rfl
@[simp] theorem State.updStore_store : (s.updStore f).store = f s.store := rfl
@[simp] theorem State.updStore_working : (s.updStore f).working = s.working := rfl
@[simp] theorem State.updStore_pending : (s.updStore f).pending = s.pending := rfl

end updStore

section withProfiles
variable (s : State) (w : Vector Profile 8)

@[simp] theorem State.withProfiles_link : (s.withProfiles w).link = s.link := rfl
@[simp] theorem State.withProfiles_clock : (s.withProfiles w).clock = s.clock := rfl
@[simp] theorem State.withProfiles_walker : (s.withProfiles w).walker = s.walker := rfl
@[simp] theorem State.withProfiles_doors : (s.withProfiles w).doors = s.doors := rfl
@[simp] theorem State.withProfiles_presence : (s.withProfiles w).presence = s.presence := rfl
@[simp] theorem State.withProfiles_drift : (s.withProfiles w).drift = s.drift := rfl
@[simp] theorem State.withProfiles_space : (s.withProfiles w).space = s.space := rfl
@[simp] theorem State.withProfiles_air : (s.withProfiles w).air = s.air := rfl
@[simp] theorem State.withProfiles_drives : (s.withProfiles w).drives = s.drives := rfl
@[simp] theorem State.withProfiles_lighting : (s.withProfiles w).lighting = s.lighting := rfl
@[simp] theorem State.withProfiles_blinds : (s.withProfiles w).blinds = s.blinds := rfl
@[simp] theorem State.withProfiles_rail : (s.withProfiles w).rail = s.rail := rfl
@[simp] theorem State.withProfiles_scanner : (s.withProfiles w).scanner = s.scanner := rfl
@[simp] theorem State.withProfiles_faults : (s.withProfiles w).faults = s.faults := rfl
@[simp] theorem State.withProfiles_supervision : (s.withProfiles w).supervision = s.supervision := rfl
@[simp] theorem State.withProfiles_store : (s.withProfiles w).store = s.store := rfl
@[simp] theorem State.withProfiles_working : (s.withProfiles w).working = { s.working with profiles := w } := rfl
@[simp] theorem State.withProfiles_pending : (s.withProfiles w).pending = s.pending := rfl

end withProfiles

section withTables
variable (s : State) (w : PerCell (Vector Nat 9))

@[simp] theorem State.withTables_link : (s.withTables w).link = s.link := rfl
@[simp] theorem State.withTables_clock : (s.withTables w).clock = s.clock := rfl
@[simp] theorem State.withTables_walker : (s.withTables w).walker = s.walker := rfl
@[simp] theorem State.withTables_doors : (s.withTables w).doors = s.doors := rfl
@[simp] theorem State.withTables_presence : (s.withTables w).presence = s.presence := rfl
@[simp] theorem State.withTables_drift : (s.withTables w).drift = s.drift := rfl
@[simp] theorem State.withTables_space : (s.withTables w).space = s.space := rfl
@[simp] theorem State.withTables_air : (s.withTables w).air = s.air := rfl
@[simp] theorem State.withTables_drives : (s.withTables w).drives = s.drives := rfl
@[simp] theorem State.withTables_lighting : (s.withTables w).lighting = s.lighting := rfl
@[simp] theorem State.withTables_blinds : (s.withTables w).blinds = s.blinds := rfl
@[simp] theorem State.withTables_rail : (s.withTables w).rail = s.rail := rfl
@[simp] theorem State.withTables_scanner : (s.withTables w).scanner = s.scanner := rfl
@[simp] theorem State.withTables_faults : (s.withTables w).faults = s.faults := rfl
@[simp] theorem State.withTables_supervision : (s.withTables w).supervision = s.supervision := rfl
@[simp] theorem State.withTables_store : (s.withTables w).store = s.store := rfl
@[simp] theorem State.withTables_working : (s.withTables w).working = { s.working with tables := w } := rfl
@[simp] theorem State.withTables_pending : (s.withTables w).pending = s.pending := rfl

end withTables

section withCalibrations
variable (s : State) (w : PerCell CalRecord)

@[simp] theorem State.withCalibrations_link : (s.withCalibrations w).link = s.link := rfl
@[simp] theorem State.withCalibrations_clock : (s.withCalibrations w).clock = s.clock := rfl
@[simp] theorem State.withCalibrations_walker : (s.withCalibrations w).walker = s.walker := rfl
@[simp] theorem State.withCalibrations_doors : (s.withCalibrations w).doors = s.doors := rfl
@[simp] theorem State.withCalibrations_presence : (s.withCalibrations w).presence = s.presence := rfl
@[simp] theorem State.withCalibrations_drift : (s.withCalibrations w).drift = s.drift := rfl
@[simp] theorem State.withCalibrations_space : (s.withCalibrations w).space = s.space := rfl
@[simp] theorem State.withCalibrations_air : (s.withCalibrations w).air = s.air := rfl
@[simp] theorem State.withCalibrations_drives : (s.withCalibrations w).drives = s.drives := rfl
@[simp] theorem State.withCalibrations_lighting : (s.withCalibrations w).lighting = s.lighting := rfl
@[simp] theorem State.withCalibrations_blinds : (s.withCalibrations w).blinds = s.blinds := rfl
@[simp] theorem State.withCalibrations_rail : (s.withCalibrations w).rail = s.rail := rfl
@[simp] theorem State.withCalibrations_scanner : (s.withCalibrations w).scanner = s.scanner := rfl
@[simp] theorem State.withCalibrations_faults : (s.withCalibrations w).faults = s.faults := rfl
@[simp] theorem State.withCalibrations_supervision : (s.withCalibrations w).supervision = s.supervision := rfl
@[simp] theorem State.withCalibrations_store : (s.withCalibrations w).store = s.store := rfl
@[simp] theorem State.withCalibrations_working : (s.withCalibrations w).working = { s.working with calibrations := w } := rfl
@[simp] theorem State.withCalibrations_pending : (s.withCalibrations w).pending = s.pending := rfl

end withCalibrations

section updDoor
variable (s : State) (i : Fin 4) (f : Door → Door)

@[simp] theorem State.updDoor_link : (s.updDoor i f).link = s.link := rfl
@[simp] theorem State.updDoor_clock : (s.updDoor i f).clock = s.clock := rfl
@[simp] theorem State.updDoor_walker : (s.updDoor i f).walker = s.walker := rfl
@[simp] theorem State.updDoor_doors : (s.updDoor i f).doors = updAt s.doors i f := rfl
@[simp] theorem State.updDoor_presence : (s.updDoor i f).presence = s.presence := rfl
@[simp] theorem State.updDoor_drift : (s.updDoor i f).drift = s.drift := rfl
@[simp] theorem State.updDoor_space : (s.updDoor i f).space = s.space := rfl
@[simp] theorem State.updDoor_air : (s.updDoor i f).air = s.air := rfl
@[simp] theorem State.updDoor_drives : (s.updDoor i f).drives = s.drives := rfl
@[simp] theorem State.updDoor_lighting : (s.updDoor i f).lighting = s.lighting := rfl
@[simp] theorem State.updDoor_blinds : (s.updDoor i f).blinds = s.blinds := rfl
@[simp] theorem State.updDoor_rail : (s.updDoor i f).rail = s.rail := rfl
@[simp] theorem State.updDoor_scanner : (s.updDoor i f).scanner = s.scanner := rfl
@[simp] theorem State.updDoor_faults : (s.updDoor i f).faults = s.faults := rfl
@[simp] theorem State.updDoor_supervision : (s.updDoor i f).supervision = s.supervision := rfl
@[simp] theorem State.updDoor_store : (s.updDoor i f).store = s.store := rfl
@[simp] theorem State.updDoor_working : (s.updDoor i f).working = s.working := rfl
@[simp] theorem State.updDoor_pending : (s.updDoor i f).pending = s.pending := rfl

end updDoor

section updDetector
variable (s : State) (i : Fin 6) (f : Detector → Detector)

@[simp] theorem State.updDetector_link : (s.updDetector i f).link = s.link := rfl
@[simp] theorem State.updDetector_clock : (s.updDetector i f).clock = s.clock := rfl
@[simp] theorem State.updDetector_walker : (s.updDetector i f).walker = s.walker := rfl
@[simp] theorem State.updDetector_doors : (s.updDetector i f).doors = s.doors := rfl
@[simp] theorem State.updDetector_presence : (s.updDetector i f).presence = { s.presence with detectors := updAt s.presence.detectors i f } := rfl
@[simp] theorem State.updDetector_drift : (s.updDetector i f).drift = s.drift := rfl
@[simp] theorem State.updDetector_space : (s.updDetector i f).space = s.space := rfl
@[simp] theorem State.updDetector_air : (s.updDetector i f).air = s.air := rfl
@[simp] theorem State.updDetector_drives : (s.updDetector i f).drives = s.drives := rfl
@[simp] theorem State.updDetector_lighting : (s.updDetector i f).lighting = s.lighting := rfl
@[simp] theorem State.updDetector_blinds : (s.updDetector i f).blinds = s.blinds := rfl
@[simp] theorem State.updDetector_rail : (s.updDetector i f).rail = s.rail := rfl
@[simp] theorem State.updDetector_scanner : (s.updDetector i f).scanner = s.scanner := rfl
@[simp] theorem State.updDetector_faults : (s.updDetector i f).faults = s.faults := rfl
@[simp] theorem State.updDetector_supervision : (s.updDetector i f).supervision = s.supervision := rfl
@[simp] theorem State.updDetector_store : (s.updDetector i f).store = s.store := rfl
@[simp] theorem State.updDetector_working : (s.updDetector i f).working = s.working := rfl
@[simp] theorem State.updDetector_pending : (s.updDetector i f).pending = s.pending := rfl

end updDetector

section updSpace
variable (s : State) (f : Space → Space)

@[simp] theorem State.updSpace_link : (s.updSpace f).link = s.link := rfl
@[simp] theorem State.updSpace_clock : (s.updSpace f).clock = s.clock := rfl
@[simp] theorem State.updSpace_walker : (s.updSpace f).walker = s.walker := rfl
@[simp] theorem State.updSpace_doors : (s.updSpace f).doors = s.doors := rfl
@[simp] theorem State.updSpace_presence : (s.updSpace f).presence = s.presence := rfl
@[simp] theorem State.updSpace_drift : (s.updSpace f).drift = s.drift := rfl
@[simp] theorem State.updSpace_space : (s.updSpace f).space = f s.space := rfl
@[simp] theorem State.updSpace_air : (s.updSpace f).air = s.air := rfl
@[simp] theorem State.updSpace_drives : (s.updSpace f).drives = s.drives := rfl
@[simp] theorem State.updSpace_lighting : (s.updSpace f).lighting = s.lighting := rfl
@[simp] theorem State.updSpace_blinds : (s.updSpace f).blinds = s.blinds := rfl
@[simp] theorem State.updSpace_rail : (s.updSpace f).rail = s.rail := rfl
@[simp] theorem State.updSpace_scanner : (s.updSpace f).scanner = s.scanner := rfl
@[simp] theorem State.updSpace_faults : (s.updSpace f).faults = s.faults := rfl
@[simp] theorem State.updSpace_supervision : (s.updSpace f).supervision = s.supervision := rfl
@[simp] theorem State.updSpace_store : (s.updSpace f).store = s.store := rfl
@[simp] theorem State.updSpace_working : (s.updSpace f).working = s.working := rfl
@[simp] theorem State.updSpace_pending : (s.updSpace f).pending = s.pending := rfl

end updSpace

section modifyUnit
variable (s : State) (i : UnitId) (f : UnitRec → UnitRec)

@[simp] theorem State.modifyUnit_link : (s.modifyUnit i f).link = s.link := rfl
@[simp] theorem State.modifyUnit_clock : (s.modifyUnit i f).clock = s.clock := rfl
@[simp] theorem State.modifyUnit_walker : (s.modifyUnit i f).walker = s.walker := rfl
@[simp] theorem State.modifyUnit_doors : (s.modifyUnit i f).doors = s.doors := rfl
@[simp] theorem State.modifyUnit_presence : (s.modifyUnit i f).presence = s.presence := rfl
@[simp] theorem State.modifyUnit_drift : (s.modifyUnit i f).drift = s.drift := rfl
@[simp] theorem State.modifyUnit_space : (s.modifyUnit i f).space = { s.space with units := s.space.units.modify i f } := rfl
@[simp] theorem State.modifyUnit_air : (s.modifyUnit i f).air = s.air := rfl
@[simp] theorem State.modifyUnit_drives : (s.modifyUnit i f).drives = s.drives := rfl
@[simp] theorem State.modifyUnit_lighting : (s.modifyUnit i f).lighting = s.lighting := rfl
@[simp] theorem State.modifyUnit_blinds : (s.modifyUnit i f).blinds = s.blinds := rfl
@[simp] theorem State.modifyUnit_rail : (s.modifyUnit i f).rail = s.rail := rfl
@[simp] theorem State.modifyUnit_scanner : (s.modifyUnit i f).scanner = s.scanner := rfl
@[simp] theorem State.modifyUnit_faults : (s.modifyUnit i f).faults = s.faults := rfl
@[simp] theorem State.modifyUnit_supervision : (s.modifyUnit i f).supervision = s.supervision := rfl
@[simp] theorem State.modifyUnit_store : (s.modifyUnit i f).store = s.store := rfl
@[simp] theorem State.modifyUnit_working : (s.modifyUnit i f).working = s.working := rfl
@[simp] theorem State.modifyUnit_pending : (s.modifyUnit i f).pending = s.pending := rfl

end modifyUnit

section updDrive
variable (s : State) (c : Cell) (f : Drive → Drive)

@[simp] theorem State.updDrive_link : (s.updDrive c f).link = s.link := rfl
@[simp] theorem State.updDrive_clock : (s.updDrive c f).clock = s.clock := rfl
@[simp] theorem State.updDrive_walker : (s.updDrive c f).walker = s.walker := rfl
@[simp] theorem State.updDrive_doors : (s.updDrive c f).doors = s.doors := rfl
@[simp] theorem State.updDrive_presence : (s.updDrive c f).presence = s.presence := rfl
@[simp] theorem State.updDrive_drift : (s.updDrive c f).drift = s.drift := rfl
@[simp] theorem State.updDrive_space : (s.updDrive c f).space = s.space := rfl
@[simp] theorem State.updDrive_air : (s.updDrive c f).air = s.air := rfl
@[simp] theorem State.updDrive_drives : (s.updDrive c f).drives = s.drives.upd c f := rfl
@[simp] theorem State.updDrive_lighting : (s.updDrive c f).lighting = s.lighting := rfl
@[simp] theorem State.updDrive_blinds : (s.updDrive c f).blinds = s.blinds := rfl
@[simp] theorem State.updDrive_rail : (s.updDrive c f).rail = s.rail := rfl
@[simp] theorem State.updDrive_scanner : (s.updDrive c f).scanner = s.scanner := rfl
@[simp] theorem State.updDrive_faults : (s.updDrive c f).faults = s.faults := rfl
@[simp] theorem State.updDrive_supervision : (s.updDrive c f).supervision = s.supervision := rfl
@[simp] theorem State.updDrive_store : (s.updDrive c f).store = s.store := rfl
@[simp] theorem State.updDrive_working : (s.updDrive c f).working = s.working := rfl
@[simp] theorem State.updDrive_pending : (s.updDrive c f).pending = s.pending := rfl

end updDrive

section updChannel
variable (s : State) (i : Fin 8) (f : LightChannel → LightChannel)

@[simp] theorem State.updChannel_link : (s.updChannel i f).link = s.link := rfl
@[simp] theorem State.updChannel_clock : (s.updChannel i f).clock = s.clock := rfl
@[simp] theorem State.updChannel_walker : (s.updChannel i f).walker = s.walker := rfl
@[simp] theorem State.updChannel_doors : (s.updChannel i f).doors = s.doors := rfl
@[simp] theorem State.updChannel_presence : (s.updChannel i f).presence = s.presence := rfl
@[simp] theorem State.updChannel_drift : (s.updChannel i f).drift = s.drift := rfl
@[simp] theorem State.updChannel_space : (s.updChannel i f).space = s.space := rfl
@[simp] theorem State.updChannel_air : (s.updChannel i f).air = s.air := rfl
@[simp] theorem State.updChannel_drives : (s.updChannel i f).drives = s.drives := rfl
@[simp] theorem State.updChannel_lighting : (s.updChannel i f).lighting = { s.lighting with channels := updAt s.lighting.channels i f } := rfl
@[simp] theorem State.updChannel_blinds : (s.updChannel i f).blinds = s.blinds := rfl
@[simp] theorem State.updChannel_rail : (s.updChannel i f).rail = s.rail := rfl
@[simp] theorem State.updChannel_scanner : (s.updChannel i f).scanner = s.scanner := rfl
@[simp] theorem State.updChannel_faults : (s.updChannel i f).faults = s.faults := rfl
@[simp] theorem State.updChannel_supervision : (s.updChannel i f).supervision = s.supervision := rfl
@[simp] theorem State.updChannel_store : (s.updChannel i f).store = s.store := rfl
@[simp] theorem State.updChannel_working : (s.updChannel i f).working = s.working := rfl
@[simp] theorem State.updChannel_pending : (s.updChannel i f).pending = s.pending := rfl

end updChannel

section updDaylight
variable (s : State) (c : Cell) (f : Daylight → Daylight)

@[simp] theorem State.updDaylight_link : (s.updDaylight c f).link = s.link := rfl
@[simp] theorem State.updDaylight_clock : (s.updDaylight c f).clock = s.clock := rfl
@[simp] theorem State.updDaylight_walker : (s.updDaylight c f).walker = s.walker := rfl
@[simp] theorem State.updDaylight_doors : (s.updDaylight c f).doors = s.doors := rfl
@[simp] theorem State.updDaylight_presence : (s.updDaylight c f).presence = s.presence := rfl
@[simp] theorem State.updDaylight_drift : (s.updDaylight c f).drift = s.drift := rfl
@[simp] theorem State.updDaylight_space : (s.updDaylight c f).space = s.space := rfl
@[simp] theorem State.updDaylight_air : (s.updDaylight c f).air = s.air := rfl
@[simp] theorem State.updDaylight_drives : (s.updDaylight c f).drives = s.drives := rfl
@[simp] theorem State.updDaylight_lighting : (s.updDaylight c f).lighting = { s.lighting with cells := s.lighting.cells.upd c f } := rfl
@[simp] theorem State.updDaylight_blinds : (s.updDaylight c f).blinds = s.blinds := rfl
@[simp] theorem State.updDaylight_rail : (s.updDaylight c f).rail = s.rail := rfl
@[simp] theorem State.updDaylight_scanner : (s.updDaylight c f).scanner = s.scanner := rfl
@[simp] theorem State.updDaylight_faults : (s.updDaylight c f).faults = s.faults := rfl
@[simp] theorem State.updDaylight_supervision : (s.updDaylight c f).supervision = s.supervision := rfl
@[simp] theorem State.updDaylight_store : (s.updDaylight c f).store = s.store := rfl
@[simp] theorem State.updDaylight_working : (s.updDaylight c f).working = s.working := rfl
@[simp] theorem State.updDaylight_pending : (s.updDaylight c f).pending = s.pending := rfl

end updDaylight

section updBlinds
variable (s : State) (f : Blinds → Blinds)

@[simp] theorem State.updBlinds_link : (s.updBlinds f).link = s.link := rfl
@[simp] theorem State.updBlinds_clock : (s.updBlinds f).clock = s.clock := rfl
@[simp] theorem State.updBlinds_walker : (s.updBlinds f).walker = s.walker := rfl
@[simp] theorem State.updBlinds_doors : (s.updBlinds f).doors = s.doors := rfl
@[simp] theorem State.updBlinds_presence : (s.updBlinds f).presence = s.presence := rfl
@[simp] theorem State.updBlinds_drift : (s.updBlinds f).drift = s.drift := rfl
@[simp] theorem State.updBlinds_space : (s.updBlinds f).space = s.space := rfl
@[simp] theorem State.updBlinds_air : (s.updBlinds f).air = s.air := rfl
@[simp] theorem State.updBlinds_drives : (s.updBlinds f).drives = s.drives := rfl
@[simp] theorem State.updBlinds_lighting : (s.updBlinds f).lighting = s.lighting := rfl
@[simp] theorem State.updBlinds_blinds : (s.updBlinds f).blinds = f s.blinds := rfl
@[simp] theorem State.updBlinds_rail : (s.updBlinds f).rail = s.rail := rfl
@[simp] theorem State.updBlinds_scanner : (s.updBlinds f).scanner = s.scanner := rfl
@[simp] theorem State.updBlinds_faults : (s.updBlinds f).faults = s.faults := rfl
@[simp] theorem State.updBlinds_supervision : (s.updBlinds f).supervision = s.supervision := rfl
@[simp] theorem State.updBlinds_store : (s.updBlinds f).store = s.store := rfl
@[simp] theorem State.updBlinds_working : (s.updBlinds f).working = s.working := rfl
@[simp] theorem State.updBlinds_pending : (s.updBlinds f).pending = s.pending := rfl

end updBlinds

section updGroup
variable (s : State) (g : Fin 4) (f : Group → Group)

@[simp] theorem State.updGroup_link : (s.updGroup g f).link = s.link := rfl
@[simp] theorem State.updGroup_clock : (s.updGroup g f).clock = s.clock := rfl
@[simp] theorem State.updGroup_walker : (s.updGroup g f).walker = s.walker := rfl
@[simp] theorem State.updGroup_doors : (s.updGroup g f).doors = s.doors := rfl
@[simp] theorem State.updGroup_presence : (s.updGroup g f).presence = s.presence := rfl
@[simp] theorem State.updGroup_drift : (s.updGroup g f).drift = s.drift := rfl
@[simp] theorem State.updGroup_space : (s.updGroup g f).space = s.space := rfl
@[simp] theorem State.updGroup_air : (s.updGroup g f).air = s.air := rfl
@[simp] theorem State.updGroup_drives : (s.updGroup g f).drives = s.drives := rfl
@[simp] theorem State.updGroup_lighting : (s.updGroup g f).lighting = s.lighting := rfl
@[simp] theorem State.updGroup_blinds : (s.updGroup g f).blinds = { s.blinds with groups := updAt s.blinds.groups g f } := rfl
@[simp] theorem State.updGroup_rail : (s.updGroup g f).rail = s.rail := rfl
@[simp] theorem State.updGroup_scanner : (s.updGroup g f).scanner = s.scanner := rfl
@[simp] theorem State.updGroup_faults : (s.updGroup g f).faults = s.faults := rfl
@[simp] theorem State.updGroup_supervision : (s.updGroup g f).supervision = s.supervision := rfl
@[simp] theorem State.updGroup_store : (s.updGroup g f).store = s.store := rfl
@[simp] theorem State.updGroup_working : (s.updGroup g f).working = s.working := rfl
@[simp] theorem State.updGroup_pending : (s.updGroup g f).pending = s.pending := rfl

end updGroup

section updRail
variable (s : State) (f : Rail → Rail)

@[simp] theorem State.updRail_link : (s.updRail f).link = s.link := rfl
@[simp] theorem State.updRail_clock : (s.updRail f).clock = s.clock := rfl
@[simp] theorem State.updRail_walker : (s.updRail f).walker = s.walker := rfl
@[simp] theorem State.updRail_doors : (s.updRail f).doors = s.doors := rfl
@[simp] theorem State.updRail_presence : (s.updRail f).presence = s.presence := rfl
@[simp] theorem State.updRail_drift : (s.updRail f).drift = s.drift := rfl
@[simp] theorem State.updRail_space : (s.updRail f).space = s.space := rfl
@[simp] theorem State.updRail_air : (s.updRail f).air = s.air := rfl
@[simp] theorem State.updRail_drives : (s.updRail f).drives = s.drives := rfl
@[simp] theorem State.updRail_lighting : (s.updRail f).lighting = s.lighting := rfl
@[simp] theorem State.updRail_blinds : (s.updRail f).blinds = s.blinds := rfl
@[simp] theorem State.updRail_rail : (s.updRail f).rail = f s.rail := rfl
@[simp] theorem State.updRail_scanner : (s.updRail f).scanner = s.scanner := rfl
@[simp] theorem State.updRail_faults : (s.updRail f).faults = s.faults := rfl
@[simp] theorem State.updRail_supervision : (s.updRail f).supervision = s.supervision := rfl
@[simp] theorem State.updRail_store : (s.updRail f).store = s.store := rfl
@[simp] theorem State.updRail_working : (s.updRail f).working = s.working := rfl
@[simp] theorem State.updRail_pending : (s.updRail f).pending = s.pending := rfl

end updRail

section updSensor
variable (s : State) (i : Fin 8) (f : Sensor → Sensor)

@[simp] theorem State.updSensor_link : (s.updSensor i f).link = s.link := rfl
@[simp] theorem State.updSensor_clock : (s.updSensor i f).clock = s.clock := rfl
@[simp] theorem State.updSensor_walker : (s.updSensor i f).walker = s.walker := rfl
@[simp] theorem State.updSensor_doors : (s.updSensor i f).doors = s.doors := rfl
@[simp] theorem State.updSensor_presence : (s.updSensor i f).presence = s.presence := rfl
@[simp] theorem State.updSensor_drift : (s.updSensor i f).drift = s.drift := rfl
@[simp] theorem State.updSensor_space : (s.updSensor i f).space = s.space := rfl
@[simp] theorem State.updSensor_air : (s.updSensor i f).air = s.air := rfl
@[simp] theorem State.updSensor_drives : (s.updSensor i f).drives = s.drives := rfl
@[simp] theorem State.updSensor_lighting : (s.updSensor i f).lighting = s.lighting := rfl
@[simp] theorem State.updSensor_blinds : (s.updSensor i f).blinds = s.blinds := rfl
@[simp] theorem State.updSensor_rail : (s.updSensor i f).rail = s.rail := rfl
@[simp] theorem State.updSensor_scanner : (s.updSensor i f).scanner = { s.scanner with channels := updAt s.scanner.channels i f } := rfl
@[simp] theorem State.updSensor_faults : (s.updSensor i f).faults = s.faults := rfl
@[simp] theorem State.updSensor_supervision : (s.updSensor i f).supervision = s.supervision := rfl
@[simp] theorem State.updSensor_store : (s.updSensor i f).store = s.store := rfl
@[simp] theorem State.updSensor_working : (s.updSensor i f).working = s.working := rfl
@[simp] theorem State.updSensor_pending : (s.updSensor i f).pending = s.pending := rfl

end updSensor

section updFault
variable (s : State) (i : Fin 21) (f : FaultRec → FaultRec)

@[simp] theorem State.updFault_link : (s.updFault i f).link = s.link := rfl
@[simp] theorem State.updFault_clock : (s.updFault i f).clock = s.clock := rfl
@[simp] theorem State.updFault_walker : (s.updFault i f).walker = s.walker := rfl
@[simp] theorem State.updFault_doors : (s.updFault i f).doors = s.doors := rfl
@[simp] theorem State.updFault_presence : (s.updFault i f).presence = s.presence := rfl
@[simp] theorem State.updFault_drift : (s.updFault i f).drift = s.drift := rfl
@[simp] theorem State.updFault_space : (s.updFault i f).space = s.space := rfl
@[simp] theorem State.updFault_air : (s.updFault i f).air = s.air := rfl
@[simp] theorem State.updFault_drives : (s.updFault i f).drives = s.drives := rfl
@[simp] theorem State.updFault_lighting : (s.updFault i f).lighting = s.lighting := rfl
@[simp] theorem State.updFault_blinds : (s.updFault i f).blinds = s.blinds := rfl
@[simp] theorem State.updFault_rail : (s.updFault i f).rail = s.rail := rfl
@[simp] theorem State.updFault_scanner : (s.updFault i f).scanner = s.scanner := rfl
@[simp] theorem State.updFault_faults : (s.updFault i f).faults = updAt s.faults i f := rfl
@[simp] theorem State.updFault_supervision : (s.updFault i f).supervision = s.supervision := rfl
@[simp] theorem State.updFault_store : (s.updFault i f).store = s.store := rfl
@[simp] theorem State.updFault_working : (s.updFault i f).working = s.working := rfl
@[simp] theorem State.updFault_pending : (s.updFault i f).pending = s.pending := rfl

end updFault

section withSettings
variable (s : State) (w : Settings)

@[simp] theorem State.withSettings_link : (s.withSettings w).link = s.link := rfl
@[simp] theorem State.withSettings_clock : (s.withSettings w).clock = s.clock := rfl
@[simp] theorem State.withSettings_walker : (s.withSettings w).walker = s.walker := rfl
@[simp] theorem State.withSettings_doors : (s.withSettings w).doors = s.doors := rfl
@[simp] theorem State.withSettings_presence : (s.withSettings w).presence = s.presence := rfl
@[simp] theorem State.withSettings_drift : (s.withSettings w).drift = s.drift := rfl
@[simp] theorem State.withSettings_space : (s.withSettings w).space = s.space := rfl
@[simp] theorem State.withSettings_air : (s.withSettings w).air = s.air := rfl
@[simp] theorem State.withSettings_drives : (s.withSettings w).drives = s.drives := rfl
@[simp] theorem State.withSettings_lighting : (s.withSettings w).lighting = s.lighting := rfl
@[simp] theorem State.withSettings_blinds : (s.withSettings w).blinds = s.blinds := rfl
@[simp] theorem State.withSettings_rail : (s.withSettings w).rail = s.rail := rfl
@[simp] theorem State.withSettings_scanner : (s.withSettings w).scanner = s.scanner := rfl
@[simp] theorem State.withSettings_faults : (s.withSettings w).faults = s.faults := rfl
@[simp] theorem State.withSettings_supervision : (s.withSettings w).supervision = s.supervision := rfl
@[simp] theorem State.withSettings_store : (s.withSettings w).store = s.store := rfl
@[simp] theorem State.withSettings_working : (s.withSettings w).working = { s.working with settings := w } := rfl
@[simp] theorem State.withSettings_pending : (s.withSettings w).pending = s.pending := rfl

end withSettings

/-! ## Pairs, vectors and units -/

@[simp] theorem PerCell.get_set_self {α : Type} (p : PerCell α) (c : Cell) (v : α) : (p.set c v).get c = v := by
  cases c <;> rfl

theorem PerCell.get_set_other {α : Type} (p : PerCell α) {c d : Cell} (v : α) (h : d ≠ c) :
    (p.set c v).get d = p.get d := by
  cases c <;> cases d <;> first | rfl | exact absurd rfl h

@[simp] theorem PerCell.get_upd_self {α : Type} (p : PerCell α) (c : Cell) (f : α → α) :
    (p.upd c f).get c = f (p.get c) := by
  cases c <;> rfl

theorem PerCell.get_upd_other {α : Type} (p : PerCell α) {c d : Cell} (f : α → α) (h : d ≠ c) :
    (p.upd c f).get d = p.get d := by
  cases c <;> cases d <;> first | rfl | exact absurd rfl h

@[simp] theorem updAt_self {α : Type} {n : Nat} (v : Vector α n) (i : Fin n) (f : α → α) :
    (updAt v i f)[i] = f v[i] := by
  simp [updAt]

theorem updAt_other {α : Type} {n : Nat} (v : Vector α n) {i j : Fin n} (f : α → α) (h : j ≠ i) :
    (updAt v i f)[j] = v[j] := by
  have : (i : Nat) ≠ j := fun e => h (Fin.ext e.symm)
  simp [updAt, this]

@[simp] theorem Units.ids_modify (u : Units) (i : UnitId) (f : UnitRec → UnitRec) : (u.modify i f).ids = u.ids := by
  cases u <;> cases i <;> rfl

theorem Units.get?_modify_self (u : Units) (i : UnitId) (f : UnitRec → UnitRec) :
    (u.modify i f).get? i = (u.get? i).map f := by
  cases u <;> cases i <;> rfl

theorem Units.get?_modify_other (u : Units) {i j : UnitId} (f : UnitRec → UnitRec) (h : j ≠ i) :
    (u.modify i f).get? j = u.get? j := by
  cases u <;> cases i <;> cases j <;> first | rfl | exact absurd rfl h

@[simp] theorem State.unit?_modifyUnit_self (s : State) (i : UnitId) (f : UnitRec → UnitRec) :
    (s.modifyUnit i f).unit? i = (s.unit? i).map f := s.space.units.get?_modify_self i f

theorem State.unit?_modifyUnit_other (s : State) {i j : UnitId} (f : UnitRec → UnitRec) (h : j ≠ i) :
    (s.modifyUnit i f).unit? j = s.unit? j := s.space.units.get?_modify_other f h

end Sys2Proof.Machine
end

