-- ==== Sys2Proof/Laws/Keeps.lean ====
section
/-! SUPPORT. The algebra of frames: what an operation leaves alone composes, and what each update of the
state leaves alone. -/

namespace Sys2Proof.Machine
open Sys2Proof

theorem Link.handed_append (l : Link) (xs ys : List Notice) : l.handed (xs ++ ys) = (l.handed xs).handed ys :=
  List.foldl_append

theorem Block.same_refl (b : Block) (s : State) : b.same s s := by
  cases b <;> simp [Block.same]
  exact ⟨[], rfl⟩

theorem Block.same_trans {b : Block} {s t u : State} (h : b.same s t) (k : b.same t u) : b.same s u := by
  cases b <;> simp only [Block.same] at *
  case link =>
    obtain ⟨xs, hx⟩ := h
    obtain ⟨ys, hy⟩ := k
    exact ⟨xs ++ ys, by rw [hy, hx, Link.handed_append]⟩
  case contact => exact ⟨k.1.trans h.1, k.2.trans h.2⟩
  case fireInput => exact ⟨k.1.trans h.1, k.2.trans h.2⟩
  case headcounts => exact fun id => (k id).trans (h id)
  case modes => exact fun id => (k id).trans (h id)
  all_goals exact k.trans h

theorem Keeps.refl (xs : List Block) (s : State) : Keeps xs s s := ⟨fun b _ => b.same_refl s⟩

theorem Keeps.trans {xs : List Block} {s t u : State} (h : Keeps xs s t) (k : Keeps xs t u) : Keeps xs s u :=
  ⟨fun b hb => Block.same_trans (h.same b hb) (k.same b hb)⟩

/-- Every part in the first list is in the second. -/
def within (xs ys : List Block) : Bool := xs.all ys.contains

theorem Keeps.mono {xs ys : List Block} {s t : State} (h : Keeps xs s t) (w : within xs ys = true) :
    Keeps ys s t := by
  refine ⟨fun b hb => h.same b ?_⟩
  rw [Bool.eq_false_iff]
  intro hx
  have hx : b ∈ xs := by simpa using hx
  have := List.all_eq_true.mp w b hx
  rw [hb] at this
  cases this

/-- After a state that keeps parts, an operation that keeps them. -/
theorem Keeps.after {xs ys : List Block} {s t u : State} (k : Keeps xs t u) (w : within xs ys = true)
    (h : Keeps ys s t) : Keeps ys s u := h.trans (k.mono w)

theorem Keeps.foldl {α : Type} {ys : List Block} {s t : State} (f : State → α → State) (l : List α)
    (h : Keeps ys s t) (step : ∀ x a, Keeps ys x (f x a)) : Keeps ys s (l.foldl f t) := by
  induction l generalizing t with
  | nil => exact h
  | cons a l ih => exact ih (h.trans (step t a))

theorem Keeps.ite {ys : List Block} {s t u : State} {c : Prop} [Decidable c] (h : Keeps ys s t)
    (k : Keeps ys s u) : Keeps ys s (if c then t else u) := by
  split
  · exact h
  · exact k

/-! ## The updates -/

theorem State.updSpace_keeps (s : State) (f : Space → Space) :
    Keeps [.partition, .contact, .fire, .fireInput, .overrides, .arrangement, .units, .headcounts, .modes] s
      (s.updSpace f) := by
  refine ⟨fun b hb => ?_⟩
  cases b <;> first | (simp at hb; done) | exact rfl | exact ⟨[], rfl⟩

theorem State.updSpace_partition_partitionTimer_keeps (s : State) (f : Space → Partition) (g : Space → Option Nat) :
    Keeps [.partition, .contact] s (s.updSpace fun p => { p with partition := f p, partitionTimer := g p }) := by
  refine ⟨fun b hb => ?_⟩
  cases b <;> first | (simp at hb; done) | exact rfl | exact ⟨[], rfl⟩ | exact ⟨rfl, rfl⟩ | exact fun _ => rfl

theorem State.updSpace_contact_partitionTimer_keeps (s : State) (f : Space → Partition) (g : Space → Option Nat) :
    Keeps [.contact] s (s.updSpace fun p => { p with contact := f p, partitionTimer := g p }) := by
  refine ⟨fun b hb => ?_⟩
  cases b <;> first | (simp at hb; done) | exact rfl | exact ⟨[], rfl⟩ | exact ⟨rfl, rfl⟩ | exact fun _ => rfl

theorem State.updSpace_fire_fireTimer_keeps (s : State) (f : Space → FireState) (g : Space → Option Nat) :
    Keeps [.fire, .fireInput] s (s.updSpace fun p => { p with fire := f p, fireTimer := g p }) := by
  refine ⟨fun b hb => ?_⟩
  cases b <;> first | (simp at hb; done) | exact rfl | exact ⟨[], rfl⟩ | exact ⟨rfl, rfl⟩ | exact fun _ => rfl

theorem State.updSpace_firePin_fireTimer_keeps (s : State) (f : Space → Bool) (g : Space → Option Nat) :
    Keeps [.fireInput] s (s.updSpace fun p => { p with firePin := f p, fireTimer := g p }) := by
  refine ⟨fun b hb => ?_⟩
  cases b <;> first | (simp at hb; done) | exact rfl | exact ⟨[], rfl⟩ | exact ⟨rfl, rfl⟩ | exact fun _ => rfl

theorem State.updSpace_fireTimer_keeps (s : State) (f : Space → Option Nat) :
    Keeps [.fireInput] s (s.updSpace fun p => { p with fireTimer := f p }) := by
  refine ⟨fun b hb => ?_⟩
  cases b <;> first | (simp at hb; done) | exact rfl | exact ⟨[], rfl⟩ | exact ⟨rfl, rfl⟩ | exact fun _ => rfl

theorem State.updSpace_overrides_keeps (s : State) (f : Space → Vector (Option Override) 16) :
    Keeps [.overrides] s (s.updSpace fun p => { p with overrides := f p }) := by
  refine ⟨fun b hb => ?_⟩
  cases b <;> first | (simp at hb; done) | exact rfl | exact ⟨[], rfl⟩ | exact ⟨rfl, rfl⟩ | exact fun _ => rfl

theorem State.updSpace_units_keeps (s : State) (f : Space → Units) :
    Keeps [.arrangement, .units, .headcounts, .modes] s (s.updSpace fun p => { p with units := f p }) := by
  refine ⟨fun b hb => ?_⟩
  cases b <;> first | (simp at hb; done) | exact rfl | exact ⟨[], rfl⟩ | exact ⟨rfl, rfl⟩ | exact fun _ => rfl

/-- A hand-over of a notice is what `Block.link` allows. -/
theorem State.notify_keeps (s : State) (k : NoticeKind) (p : Option Place) (i : Option Nat) (v : Nat)
    (t : Option Half) : Keeps [.notices] s (s.notify k p i v t) := by
  refine ⟨fun b hb => ?_⟩
  cases b
  case link => exact ⟨[s.noticeOf k p i v t], rfl⟩
  all_goals first | (simp at hb; done) | exact rfl | exact ⟨rfl, rfl⟩ | exact fun _ => rfl

theorem State.updLink_keeps (s : State) (f : Link → Link) : Keeps [.link, .notices] s (s.updLink f) := by
  refine ⟨fun b hb => ?_⟩
  cases b <;> first | (simp at hb; done) | exact rfl | exact ⟨[], rfl⟩ | exact ⟨rfl, rfl⟩ | exact fun _ => rfl

theorem State.updPresence_keeps (s : State) (f : Presence → Presence) : Keeps [.presence] s (s.updPresence f) := by
  refine ⟨fun b hb => ?_⟩
  cases b <;> first | (simp at hb; done) | exact rfl | exact ⟨[], rfl⟩ | exact ⟨rfl, rfl⟩ | exact fun _ => rfl

theorem State.updDrift_keeps (s : State) (f : PerCell Nat → PerCell Nat) : Keeps [.drift] s (s.updDrift f) := by
  refine ⟨fun b hb => ?_⟩
  cases b <;> first | (simp at hb; done) | exact rfl | exact ⟨[], rfl⟩ | exact ⟨rfl, rfl⟩ | exact fun _ => rfl

theorem State.updAir_keeps (s : State) (f : Air → Air) : Keeps [.air] s (s.updAir f) := by
  refine ⟨fun b hb => ?_⟩
  cases b <;> first | (simp at hb; done) | exact rfl | exact ⟨[], rfl⟩ | exact ⟨rfl, rfl⟩ | exact fun _ => rfl

theorem State.updLighting_keeps (s : State) (f : Lighting → Lighting) : Keeps [.lighting] s (s.updLighting f) := by
  refine ⟨fun b hb => ?_⟩
  cases b <;> first | (simp at hb; done) | exact rfl | exact ⟨[], rfl⟩ | exact ⟨rfl, rfl⟩ | exact fun _ => rfl

theorem State.updScanner_keeps (s : State) (f : Scanner → Scanner) : Keeps [.scanner] s (s.updScanner f) := by
  refine ⟨fun b hb => ?_⟩
  cases b <;> first | (simp at hb; done) | exact rfl | exact ⟨[], rfl⟩ | exact ⟨rfl, rfl⟩ | exact fun _ => rfl

theorem State.updSupervision_keeps (s : State) (f : Supervision → Supervision) : Keeps [.supervision] s (s.updSupervision f) := by
  refine ⟨fun b hb => ?_⟩
  cases b <;> first | (simp at hb; done) | exact rfl | exact ⟨[], rfl⟩ | exact ⟨rfl, rfl⟩ | exact fun _ => rfl

theorem State.updStore_keeps (s : State) (f : Store → Store) : Keeps [.store] s (s.updStore f) := by
  refine ⟨fun b hb => ?_⟩
  cases b <;> first | (simp at hb; done) | exact rfl | exact ⟨[], rfl⟩ | exact ⟨rfl, rfl⟩ | exact fun _ => rfl

theorem State.withProfiles_keeps (s : State) (w : Vector Profile 8) : Keeps [.profiles] s (s.withProfiles w) := by
  refine ⟨fun b hb => ?_⟩
  cases b <;> first | (simp at hb; done) | exact rfl | exact ⟨[], rfl⟩ | exact ⟨rfl, rfl⟩ | exact fun _ => rfl

theorem State.withTables_keeps (s : State) (w : PerCell (Vector Nat 9)) : Keeps [.tables] s (s.withTables w) := by
  refine ⟨fun b hb => ?_⟩
  cases b <;> first | (simp at hb; done) | exact rfl | exact ⟨[], rfl⟩ | exact ⟨rfl, rfl⟩ | exact fun _ => rfl

theorem State.withCalibrations_keeps (s : State) (w : PerCell CalRecord) : Keeps [.calibrations] s (s.withCalibrations w) := by
  refine ⟨fun b hb => ?_⟩
  cases b <;> first | (simp at hb; done) | exact rfl | exact ⟨[], rfl⟩ | exact ⟨rfl, rfl⟩ | exact fun _ => rfl

theorem State.updFault_keeps (s : State) (i : Fin 21) (f : FaultRec → FaultRec) : Keeps [.faults] s (s.updFault i f) := by
  refine ⟨fun b hb => ?_⟩
  cases b <;> first | (simp at hb; done) | exact rfl | exact ⟨[], rfl⟩ | exact ⟨rfl, rfl⟩ | exact fun _ => rfl

theorem State.updClock_keeps (s : State) (f : WeekClock → WeekClock) : Keeps [.clock] s (s.updClock f) := by
  refine ⟨fun b hb => ?_⟩
  cases b <;> first | (simp at hb; done) | exact rfl | exact ⟨[], rfl⟩ | exact ⟨rfl, rfl⟩ | exact fun _ => rfl

theorem State.updWalker_keeps (s : State) (f : Walker → Walker) : Keeps [.walker] s (s.updWalker f) := by
  refine ⟨fun b hb => ?_⟩
  cases b <;> first | (simp at hb; done) | exact rfl | exact ⟨[], rfl⟩ | exact ⟨rfl, rfl⟩ | exact fun _ => rfl

theorem State.updDoor_keeps (s : State) (i : Fin 4) (f : Door → Door) : Keeps [.doors] s (s.updDoor i f) := by
  refine ⟨fun b hb => ?_⟩
  cases b <;> first | (simp at hb; done) | exact rfl | exact ⟨[], rfl⟩ | exact ⟨rfl, rfl⟩ | exact fun _ => rfl

theorem State.updDetector_keeps (s : State) (i : Fin 6) (f : Detector → Detector) : Keeps [.presence] s (s.updDetector i f) := by
  refine ⟨fun b hb => ?_⟩
  cases b <;> first | (simp at hb; done) | exact rfl | exact ⟨[], rfl⟩ | exact ⟨rfl, rfl⟩ | exact fun _ => rfl

theorem State.updDrive_keeps (s : State) (c : Cell) (f : Drive → Drive) : Keeps [.drives] s (s.updDrive c f) := by
  refine ⟨fun b hb => ?_⟩
  cases b <;> first | (simp at hb; done) | exact rfl | exact ⟨[], rfl⟩ | exact ⟨rfl, rfl⟩ | exact fun _ => rfl

theorem State.updChannel_keeps (s : State) (i : Fin 8) (f : LightChannel → LightChannel) : Keeps [.lighting] s (s.updChannel i f) := by
  refine ⟨fun b hb => ?_⟩
  cases b <;> first | (simp at hb; done) | exact rfl | exact ⟨[], rfl⟩ | exact ⟨rfl, rfl⟩ | exact fun _ => rfl

theorem State.updDaylight_keeps (s : State) (c : Cell) (f : Daylight → Daylight) : Keeps [.lighting] s (s.updDaylight c f) := by
  refine ⟨fun b hb => ?_⟩
  cases b <;> first | (simp at hb; done) | exact rfl | exact ⟨[], rfl⟩ | exact ⟨rfl, rfl⟩ | exact fun _ => rfl

theorem State.updBlinds_keeps (s : State) (f : Blinds → Blinds) : Keeps [.blinds] s (s.updBlinds f) := by
  refine ⟨fun b hb => ?_⟩
  cases b <;> first | (simp at hb; done) | exact rfl | exact ⟨[], rfl⟩ | exact ⟨rfl, rfl⟩ | exact fun _ => rfl

theorem State.updGroup_keeps (s : State) (g : Fin 4) (f : Group → Group) : Keeps [.blinds] s (s.updGroup g f) := by
  refine ⟨fun b hb => ?_⟩
  cases b <;> first | (simp at hb; done) | exact rfl | exact ⟨[], rfl⟩ | exact ⟨rfl, rfl⟩ | exact fun _ => rfl

theorem State.updRail_keeps (s : State) (f : Rail → Rail) : Keeps [.rail] s (s.updRail f) := by
  refine ⟨fun b hb => ?_⟩
  cases b <;> first | (simp at hb; done) | exact rfl | exact ⟨[], rfl⟩ | exact ⟨rfl, rfl⟩ | exact fun _ => rfl

theorem State.updSensor_keeps (s : State) (i : Fin 8) (f : Sensor → Sensor) : Keeps [.scanner] s (s.updSensor i f) := by
  refine ⟨fun b hb => ?_⟩
  cases b <;> first | (simp at hb; done) | exact rfl | exact ⟨[], rfl⟩ | exact ⟨rfl, rfl⟩ | exact fun _ => rfl

theorem State.withSettings_keeps (s : State) (w : Settings) : Keeps [.settings] s (s.withSettings w) := by
  refine ⟨fun b hb => ?_⟩
  cases b <;> first | (simp at hb; done) | exact rfl | exact ⟨[], rfl⟩ | exact ⟨rfl, rfl⟩ | exact fun _ => rfl

theorem Units.get?_modify_map {α : Type} (u : Units) (i j : UnitId) (f : UnitRec → UnitRec) (g : UnitRec → α)
    (h : ∀ u, g (f u) = g u) : ((u.modify i f).get? j).map g = (u.get? j).map g := by
  cases u <;> cases i <;> cases j <;> simp [Units.modify, Units.get?, h]

theorem State.unit?_modifyUnit_map {α : Type} (s : State) (i j : UnitId) (f : UnitRec → UnitRec) (g : UnitRec → α)
    (h : ∀ u, g (f u) = g u) : ((s.modifyUnit i f).unit? j).map g = (s.unit? j).map g :=
  s.space.units.get?_modify_map i j f g h

theorem State.modifyUnit_keeps (s : State) (i : UnitId) (f : UnitRec → UnitRec) :
    Keeps [.units, .headcounts, .modes] s (s.modifyUnit i f) := by
  refine ⟨fun b hb => ?_⟩
  cases b
  case arrangement => exact Units.ids_modify _ _ _
  all_goals first | (simp at hb; done) | exact rfl | exact ⟨[], rfl⟩ | exact ⟨rfl, rfl⟩

theorem State.modifyUnit_keeps_modes (s : State) (i : UnitId) (f : UnitRec → UnitRec)
    (h : ∀ u, (f u).mode = u.mode) : Keeps [.units, .headcounts] s (s.modifyUnit i f) := by
  refine ⟨fun b hb => ?_⟩
  cases b
  case modes => exact fun j => s.unit?_modifyUnit_map i j f _ h
  all_goals first | (simp at hb; done) | exact (s.modifyUnit_keeps i f).same _ (by simp)

theorem State.modifyUnit_keeps_headcounts (s : State) (i : UnitId) (f : UnitRec → UnitRec)
    (h : ∀ u, (f u).headcount = u.headcount) : Keeps [.units, .modes] s (s.modifyUnit i f) := by
  refine ⟨fun b hb => ?_⟩
  cases b
  case headcounts => exact fun j => s.unit?_modifyUnit_map i j f _ h
  all_goals first | (simp at hb; done) | exact (s.modifyUnit_keeps i f).same _ (by simp)

theorem State.modifyUnit_keeps_both (s : State) (i : UnitId) (f : UnitRec → UnitRec)
    (h : ∀ u, (f u).headcount = u.headcount) (k : ∀ u, (f u).mode = u.mode) :
    Keeps [.units] s (s.modifyUnit i f) := by
  refine ⟨fun b hb => ?_⟩
  cases b
  case headcounts => exact fun j => s.unit?_modifyUnit_map i j f _ h
  case modes => exact fun j => s.unit?_modifyUnit_map i j f _ k
  all_goals first | (simp at hb; done) | exact (s.modifyUnit_keeps i f).same _ (by simp)

end Sys2Proof.Machine
end

