-- ==== Sys2Proof/Laws/Reports.lean ====
section
/-! SUPPORT. What the operations of Ops, Modes, Bookings leave alone. -/

namespace Sys2Proof.Machine
open Sys2Proof

theorem State.notifyFault_keeps (s : State) (kind : NoticeKind) (i : Fin 21) :
    Keeps [.notices] s (s.notifyFault kind i) := by
  unfold State.notifyFault
  dsimp only
  repeat' first
    | with_reducible exact .refl _ _ | with_reducible apply Keeps.after (State.notify_keeps ..) | decide

theorem State.reportPlain_keeps (s : State) (i : Fin 21) (kind : FaultKind) (state : FaultState) :
    Keeps [.faults] s (s.reportPlain i kind state) := by
  unfold State.reportPlain
  repeat' first
    | with_reducible exact .refl _ _ | with_reducible apply Keeps.after (State.updFault_keeps ..) | decide

theorem State.withdrawFault_keeps (s : State) (i : Fin 21) :
    Keeps [.notices, .faults] s (s.withdrawFault i) := by
  unfold State.withdrawFault
  repeat' first
    | with_reducible exact .refl _ _ | with_reducible apply Keeps.after (State.notifyFault_keeps ..)
    | with_reducible apply Keeps.after (State.updFault_keeps ..) | with_reducible apply Keeps.ite | decide
    | split

theorem State.reportRetry_keeps (s : State) (i : Fin 21) (kind : FaultKind) :
    Keeps [.notices, .faults] s (s.reportRetry i kind) := by
  unfold State.reportRetry
  dsimp only
  repeat' first
    | with_reducible exact .refl _ _ | with_reducible apply Keeps.after (State.notifyFault_keeps ..)
    | with_reducible apply Keeps.after (State.updFault_keeps ..) | with_reducible apply Keeps.ite | decide
    | split

theorem State.deriveCore_keeps (s : State) (id : UnitId) :
    Keeps [.units, .modes] s (s.deriveCore id) := by
  unfold State.deriveCore
  repeat' first
    | with_reducible exact .refl _ _
    | with_reducible apply Keeps.after (State.modifyUnit_keeps_headcounts _ _ _ ?_)
    | exact fun (u : UnitRec) => rfl | decide

theorem State.fullDaylight_keeps (s : State) (c : Cell) :
    Keeps [.lighting] s (s.fullDaylight c) := by
  unfold State.fullDaylight
  repeat' first
    | with_reducible exact .refl _ _ | with_reducible apply Keeps.after (State.updLighting_keeps ..)
    | decide

theorem State.derive_keeps (s : State) (id : UnitId) :
    Keeps [.units, .modes, .lighting] s (s.derive id) := by
  unfold State.derive
  dsimp only
  repeat' first
    | with_reducible exact .refl _ _ | with_reducible apply Keeps.after (State.fullDaylight_keeps ..)
    | with_reducible apply Keeps.after (State.deriveCore_keeps ..)
    | with_reducible refine .foldl _ _ ?_ (fun _ _ => ?_) | with_reducible apply Keeps.ite | decide | split

theorem State.deriveUnits_keeps (s : State) (ids : List UnitId) :
    Keeps [.units, .modes, .lighting] s (s.deriveUnits ids) := by
  unfold State.deriveUnits
  repeat' first
    | with_reducible exact .refl _ _ | with_reducible apply Keeps.after (State.derive_keeps ..)
    | with_reducible refine .foldl _ _ ?_ (fun _ _ => ?_) | decide

theorem State.deriveAll_keeps (s : State) :
    Keeps [.units, .modes, .lighting] s (s.deriveAll) := by
  unfold State.deriveAll
  repeat' first
    | with_reducible exact .refl _ _ | with_reducible apply Keeps.after (State.deriveUnits_keeps ..)
    | decide

theorem State.endPurge_keeps (s : State) (id : UnitId) :
    Keeps [.units, .modes, .lighting] s (s.endPurge id) := by
  unfold State.endPurge
  repeat' first
    | with_reducible exact .refl _ _ | with_reducible apply Keeps.after (State.derive_keeps ..)
    | with_reducible apply Keeps.after (State.modifyUnit_keeps_both _ _ _ ?_ ?_)
    | exact fun (u : UnitRec) => rfl | decide

theorem State.notifyBooking_keeps (s : State) (kind : NoticeKind) (k : Booking) (value : Nat) :
    Keeps [.notices] s (s.notifyBooking kind k value) := by
  unfold State.notifyBooking
  repeat' first
    | with_reducible exact .refl _ _ | with_reducible apply Keeps.after (State.notify_keeps ..) | decide

theorem State.notifyOverrun_keeps (s : State) (t : Target) (k : Booking) :
    Keeps [.notices] s (s.notifyOverrun t k) := by
  unfold State.notifyOverrun
  dsimp only
  repeat' first
    | with_reducible exact .refl _ _ | with_reducible apply Keeps.after (State.notify_keeps ..)
    | with_reducible apply Keeps.ite | decide | split

theorem State.linger_keeps (s : State) (t : Target) (k : Booking) :
    Keeps [.units] s (s.linger t k) := by
  unfold State.linger
  repeat' first
    | with_reducible exact .refl _ _
    | with_reducible apply Keeps.after (State.modifyUnit_keeps_both _ _ _ ?_ ?_)
    | with_reducible refine .foldl _ _ ?_ (fun _ _ => ?_) | with_reducible apply Keeps.ite
    | exact fun (u : UnitRec) => rfl | (refine fun (u : UnitRec) => ?_; split <;> rfl) | decide | split

theorem State.markDone_keeps (s : State) (k : Booking) (o : BookingOutcome) :
    Keeps [.notices, .walker] s (s.markDone k o) := by
  unfold State.markDone
  dsimp only
  repeat' first
    | with_reducible exact .refl _ _ | with_reducible apply Keeps.after (State.notifyBooking_keeps ..)
    | with_reducible apply Keeps.after (State.updWalker_keeps ..) | with_reducible apply Keeps.ite | decide
    | split

theorem State.retire_keeps (s : State) (t : Target) (k : Booking) (o : BookingOutcome) (atEnd : Bool) :
    Keeps [.notices, .walker, .units] s (s.retire t k o atEnd) := by
  unfold State.retire
  dsimp only
  repeat' first
    | with_reducible exact .refl _ _ | with_reducible apply Keeps.after (State.markDone_keeps ..)
    | with_reducible apply Keeps.after (State.linger_keeps ..)
    | with_reducible apply Keeps.after (State.notifyOverrun_keeps ..)
    | with_reducible apply Keeps.after (State.notifyBooking_keeps ..) | with_reducible apply Keeps.ite
    | decide | split

theorem State.leaveCurrent_keeps (s : State) (t : Target) (k : Booking) (o : BookingOutcome) (atEnd : Bool) :
    Keeps [.notices, .walker, .units, .modes, .lighting] s (s.leaveCurrent t k o atEnd) := by
  unfold State.leaveCurrent
  dsimp only
  repeat' first
    | with_reducible exact .refl _ _ | with_reducible apply Keeps.after (State.retire_keeps ..)
    | with_reducible apply Keeps.after (State.deriveUnits_keeps ..)
    | with_reducible apply Keeps.after (State.updWalker_keeps ..) | decide

theorem State.startBooking_keeps (s : State) (t : Target) (k : Booking) (remaining : Nat) :
    Keeps [.notices, .walker, .units, .modes, .lighting] s (s.startBooking t k remaining) := by
  unfold State.startBooking
  dsimp only
  repeat' first
    | with_reducible exact .refl _ _ | with_reducible apply Keeps.after (State.retire_keeps ..)
    | with_reducible apply Keeps.after (State.notifyBooking_keeps ..)
    | with_reducible apply Keeps.after (State.deriveUnits_keeps ..)
    | with_reducible apply Keeps.after (State.updWalker_keeps ..)
    | with_reducible refine .foldl _ _ ?_ (fun _ _ => ?_) | with_reducible apply Keeps.ite | decide | split

theorem State.switchChain_keeps (s : State) :
    Keeps [.notices, .walker, .units, .modes, .lighting] s (s.switchChain) := by
  unfold State.switchChain
  dsimp only
  repeat' first
    | with_reducible exact .refl _ _ | with_reducible apply Keeps.after (State.deriveUnits_keeps ..)
    | with_reducible apply Keeps.after (State.updWalker_keeps ..)
    | with_reducible apply Keeps.after (State.notify_keeps ..)
    | with_reducible refine .foldl _ _ ?_ (fun _ _ => ?_) | decide

theorem State.moveCursor_keeps (s : State) (k : Nat) :
    Keeps [.notices, .walker, .units, .modes, .lighting] s (s.moveCursor k) := by
  unfold State.moveCursor
  repeat' first
    | with_reducible exact .refl _ _ | with_reducible apply Keeps.after (State.switchChain_keeps ..)
    | with_reducible apply Keeps.after (State.updWalker_keeps ..)
    | with_reducible apply Keeps.after (State.notify_keeps ..) | with_reducible apply Keeps.ite | decide
    | split

theorem State.armEntry_keeps (s : State) (e : Entry) (k : Nat) (late : Bool) :
    Keeps [.notices, .walker, .units, .modes, .lighting] s (s.armEntry e k late) := by
  unfold State.armEntry
  dsimp only
  repeat' first
    | with_reducible exact .refl _ _ | with_reducible apply Keeps.after (State.startBooking_keeps ..)
    | with_reducible apply Keeps.after (State.notifyBooking_keeps ..)
    | with_reducible apply Keeps.after (State.deriveUnits_keeps ..)
    | with_reducible apply Keeps.after (State.updWalker_keeps ..) | with_reducible apply Keeps.ite | decide
    | split

theorem State.missEntry_keeps (s : State) (e : Entry) (k : Nat) :
    Keeps [.notices, .walker] s (s.missEntry e k) := by
  unfold State.missEntry
  dsimp only
  repeat' first
    | with_reducible exact .refl _ _ | with_reducible apply Keeps.after (State.updWalker_keeps ..)
    | with_reducible apply Keeps.after (State.notify_keeps ..) | with_reducible apply Keeps.ite | decide
    | split

theorem State.armingPass_keeps (afterSet : Bool) (n : Nat) (s : State) :
    Keeps [.notices, .walker, .units, .modes, .lighting] s (State.armingPass afterSet n s) := by
  induction n generalizing s with
  | zero => exact .refl _ _
  | succ n ih =>
    unfold State.armingPass
    dsimp only
    split
    · exact .refl _ _
    split
    · exact .refl _ _
    split
    · exact s.updWalker_keeps _ |>.mono rfl
    split
    · exact s.updWalker_keeps _ |>.mono rfl
    next s1 h =>
      have h1 : Keeps [.notices, .walker, .units, .modes, .lighting] s s1 := by
        repeat' split at h
        all_goals first
          | (cases h; done)
          | (cases h; exact .refl _ _)
          | (cases h; exact .after (State.armEntry_keeps ..) rfl (.refl _ _))
          | (cases h; exact .after (State.missEntry_keeps ..) rfl (.refl _ _))
      split
      · exact (h1.trans ((State.moveCursor_keeps ..).mono rfl)).trans (ih _)
      · exact (h1.trans ((State.moveCursor_keeps ..).mono rfl)).trans (ih _)
      · exact h1.trans ((State.moveCursor_keeps ..).mono rfl)

theorem State.pass_keeps (s : State) :
    Keeps [.notices, .walker, .units, .modes, .lighting] s (s.pass) := by
  unfold State.pass
  repeat' first
    | with_reducible exact .refl _ _ | with_reducible apply Keeps.after (State.armingPass_keeps ..)
    | with_reducible apply Keeps.ite | decide | split

theorem State.switchAndPass_keeps (s : State) :
    Keeps [.notices, .walker, .units, .modes, .lighting] s (s.switchAndPass) := by
  unfold State.switchAndPass
  dsimp only
  repeat' first
    | with_reducible exact .refl _ _ | with_reducible apply Keeps.after (State.pass_keeps ..)
    | with_reducible apply Keeps.after (State.switchChain_keeps ..) | with_reducible apply Keeps.ite
    | decide | split

theorem State.minuteCurrent_keeps (s : State) (t : Target) (k : Booking) :
    Keeps [.notices, .walker, .units, .modes, .lighting] s (s.minuteCurrent t k) := by
  unfold State.minuteCurrent
  dsimp only
  repeat' first
    | with_reducible exact .refl _ _ | with_reducible apply Keeps.after (State.leaveCurrent_keeps ..)
    | with_reducible apply Keeps.after (State.notifyBooking_keeps ..)
    | with_reducible apply Keeps.after (State.deriveUnits_keeps ..)
    | with_reducible apply Keeps.after (State.updWalker_keeps ..) | with_reducible apply Keeps.ite | decide
    | split

theorem State.minuteNext_keeps (s : State) (t : Target) (k : Booking) :
    Keeps [.notices, .walker, .units, .modes, .lighting] s (s.minuteNext t k) := by
  unfold State.minuteNext
  repeat' first
    | with_reducible exact .refl _ _ | with_reducible apply Keeps.after (State.startBooking_keeps ..)
    | with_reducible apply Keeps.after (State.updWalker_keeps ..) | with_reducible apply Keeps.ite | decide
    | split

theorem State.walkMinute_keeps (s : State) (weekEnd : Bool) :
    Keeps [.notices, .walker, .units, .modes, .lighting] s (s.walkMinute weekEnd) := by
  unfold State.walkMinute
  dsimp only
  repeat' first
    | with_reducible exact .refl _ _ | with_reducible apply Keeps.after (State.minuteNext_keeps ..)
    | with_reducible apply Keeps.after (State.minuteCurrent_keeps ..)
    | with_reducible apply Keeps.after (State.switchAndPass_keeps ..)
    | with_reducible apply Keeps.after (State.pass_keeps ..)
    | with_reducible apply Keeps.after (State.updWalker_keeps ..)
    | with_reducible refine .foldl _ _ ?_ (fun _ _ => ?_) | with_reducible apply Keeps.ite | decide | split

theorem State.minuteEvent_keeps (s : State) :
    Keeps [.notices, .clock, .walker, .units, .modes, .lighting] s (s.minuteEvent) := by
  unfold State.minuteEvent
  dsimp only
  repeat' first
    | with_reducible exact .refl _ _ | with_reducible apply Keeps.after (State.walkMinute_keeps ..)
    | with_reducible apply Keeps.after (State.updClock_keeps ..) | with_reducible apply Keeps.ite | decide
    | split

theorem State.largeSet_keeps (s : State) :
    Keeps [.notices, .walker, .units, .modes, .lighting] s (s.largeSet) := by
  unfold State.largeSet
  repeat' first
    | with_reducible exact .refl _ _ | with_reducible apply Keeps.after (State.armingPass_keeps ..)
    | with_reducible apply Keeps.after (State.updWalker_keeps ..) | with_reducible apply Keeps.ite | decide
    | split

theorem State.clockSet_keeps (s : State) (old : Nat) (wasSet : Bool) :
    Keeps [.notices, .walker, .units, .modes, .lighting] s (s.clockSet old wasSet) := by
  unfold State.clockSet
  dsimp only
  repeat' first
    | with_reducible exact .refl _ _ | with_reducible apply Keeps.after (State.largeSet_keeps ..)
    | with_reducible apply Keeps.after (State.pass_keeps ..)
    | with_reducible apply Keeps.after (State.updWalker_keeps ..) | with_reducible apply Keeps.ite | decide
    | split

end Sys2Proof.Machine
end

