-- ==== Sys2Proof/Laws/Rooms.lean ====
section
/-! SUPPORT. What the operations of Occupancy, Doorways leave alone. -/

namespace Sys2Proof.Machine
open Sys2Proof

theorem State.seeOccupied_keeps (s : State) (id : UnitId) :
    Keeps [.walker] s (s.seeOccupied id) := by
  unfold State.seeOccupied
  repeat' first
    | with_reducible exact .refl _ _ | with_reducible apply Keeps.after (State.updWalker_keeps ..)
    | with_reducible apply Keeps.ite | decide | split

theorem State.clearVacant_keeps (s : State) (id : UnitId) :
    Keeps [.walker] s (s.clearVacant id) := by
  unfold State.clearVacant
  repeat' first
    | with_reducible exact .refl _ _ | with_reducible apply Keeps.after (State.updWalker_keeps ..)
    | with_reducible apply Keeps.ite | decide | split

theorem State.endHeld_keeps (s : State) (id : UnitId) :
    Keeps [.notices, .walker, .units, .modes, .lighting] s (s.endHeld id) := by
  unfold State.endHeld
  repeat' first
    | with_reducible exact .refl _ _ | with_reducible apply Keeps.after (State.leaveCurrent_keeps ..)
    | with_reducible refine .foldl _ _ ?_ (fun _ _ => ?_) | with_reducible apply Keeps.ite | decide | split

theorem State.becomeVacant_keeps (s : State) (id : UnitId) :
    Keeps [.notices, .walker, .units, .modes, .lighting] s (s.becomeVacant id) := by
  unfold State.becomeVacant
  dsimp only
  repeat' first
    | with_reducible exact .refl _ _ | with_reducible apply Keeps.after (State.endHeld_keeps ..)
    | with_reducible apply Keeps.after (State.derive_keeps ..)
    | with_reducible apply Keeps.after (State.modifyUnit_keeps_both _ _ _ ?_ ?_)
    | exact fun (u : UnitRec) => rfl | decide

theorem State.occupancyChanged_keeps (s : State) (id : UnitId) (old new : Occupancy) :
    Keeps [.notices, .walker, .units, .modes, .lighting] s (s.occupancyChanged id old new) := by
  unfold State.occupancyChanged
  dsimp only
  repeat' first
    | with_reducible exact .refl _ _ | with_reducible apply Keeps.after (State.becomeVacant_keeps ..)
    | with_reducible apply Keeps.after (State.clearVacant_keeps ..)
    | with_reducible apply Keeps.after (State.seeOccupied_keeps ..)
    | with_reducible apply Keeps.after (State.derive_keeps ..) | with_reducible apply Keeps.ite | decide
    | split

theorem State.setOccupancy_keeps (s : State) (id : UnitId) (new : Occupancy) (clearing : Option Nat) :
    Keeps [.notices, .walker, .units, .modes, .lighting] s (s.setOccupancy id new clearing) := by
  unfold State.setOccupancy
  repeat' first
    | with_reducible exact .refl _ _ | with_reducible apply Keeps.after (State.occupancyChanged_keeps ..)
    | with_reducible apply Keeps.after (State.modifyUnit_keeps_both _ _ _ ?_ ?_)
    | with_reducible apply Keeps.ite | exact fun (u : UnitRec) => rfl
    | (refine fun (u : UnitRec) => ?_; split <;> rfl) | decide | split

theorem State.evaluate_keeps (s : State) (id : UnitId) :
    Keeps [.notices, .walker, .units, .modes, .lighting] s (s.evaluate id) := by
  unfold State.evaluate
  dsimp only
  repeat' first
    | with_reducible exact .refl _ _ | with_reducible apply Keeps.after (State.setOccupancy_keeps ..)
    | with_reducible apply Keeps.ite | decide | split

theorem State.setHeadcount_keeps (s : State) (id : UnitId) (n : Nat) (count : CountState) :
    Keeps [.notices, .walker, .units, .headcounts, .modes, .lighting] s (s.setHeadcount id n count) := by
  unfold State.setHeadcount
  repeat' first
    | with_reducible exact .refl _ _ | with_reducible apply Keeps.after (State.evaluate_keeps ..)
    | with_reducible apply Keeps.after (State.modifyUnit_keeps_modes _ _ _ ?_)
    | with_reducible apply Keeps.ite | exact fun (u : UnitRec) => rfl
    | (refine fun (u : UnitRec) => ?_; split <;> rfl) | decide | split

theorem State.enter_keeps (s : State) (c : Cell) :
    Keeps [.notices, .walker, .units, .headcounts, .modes, .lighting] s (s.enter c) := by
  unfold State.enter
  dsimp only
  repeat' first
    | with_reducible exact .refl _ _ | with_reducible apply Keeps.after (State.setHeadcount_keeps ..)
    | with_reducible apply Keeps.after (State.modifyUnit_keeps_both _ _ _ ?_ ?_)
    | with_reducible apply Keeps.ite | exact fun (u : UnitRec) => rfl
    | (refine fun (u : UnitRec) => ?_; split <;> rfl) | decide | split

theorem State.leave_keeps (s : State) (c : Cell) :
    Keeps [.notices, .walker, .drift, .units, .headcounts, .modes, .lighting] s (s.leave c) := by
  unfold State.leave
  dsimp only
  repeat' first
    | with_reducible exact .refl _ _ | with_reducible apply Keeps.after (State.setHeadcount_keeps ..)
    | with_reducible apply Keeps.after (State.updDrift_keeps ..) | with_reducible apply Keeps.ite | decide
    | split

theorem State.blockedDoor_keeps (s : State) (c : Cell) :
    Keeps [.units] s (s.blockedDoor c) := by
  unfold State.blockedDoor
  repeat' first
    | with_reducible exact .refl _ _
    | with_reducible apply Keeps.after (State.modifyUnit_keeps_both _ _ _ ?_ ?_)
    | exact fun (u : UnitRec) => rfl | decide

theorem State.forcePresence_keeps (s : State) (id : UnitId) :
    Keeps [.notices, .walker, .units, .headcounts, .modes, .lighting] s (s.forcePresence id) := by
  unfold State.forcePresence
  repeat' first
    | with_reducible exact .refl _ _ | with_reducible apply Keeps.after (State.setHeadcount_keeps ..)
    | decide

theorem State.confirmVacancy_keeps (s : State) (id : UnitId) :
    Keeps [.notices, .walker, .units, .headcounts, .modes, .lighting] s (s.confirmVacancy id) := by
  unfold State.confirmVacancy
  dsimp only
  repeat' first
    | with_reducible exact .refl _ _ | with_reducible apply Keeps.after (State.setOccupancy_keeps ..)
    | with_reducible apply Keeps.after (State.modifyUnit_keeps_modes _ _ _ ?_)
    | with_reducible apply Keeps.after (State.notify_keeps ..) | with_reducible apply Keeps.ite
    | exact fun (u : UnitRec) => rfl | (refine fun (u : UnitRec) => ?_; split <;> rfl) | decide | split

theorem State.endClearing_keeps (s : State) (id : UnitId) :
    Keeps [.notices, .walker, .units, .modes, .lighting] s (s.endClearing id) := by
  unfold State.endClearing
  repeat' first
    | with_reducible exact .refl _ _ | with_reducible apply Keeps.after (State.setOccupancy_keeps ..)
    | decide

theorem State.unitPresence_keeps (s : State) (id : UnitId) (p : Bool) :
    Keeps [.notices, .walker, .units, .modes, .lighting] s (s.unitPresence id p) := by
  unfold State.unitPresence
  dsimp only
  repeat' first
    | with_reducible exact .refl _ _ | with_reducible apply Keeps.after (State.evaluate_keeps ..)
    | with_reducible apply Keeps.after (State.modifyUnit_keeps_both _ _ _ ?_ ?_)
    | with_reducible apply Keeps.ite | exact fun (u : UnitRec) => rfl
    | (refine fun (u : UnitRec) => ?_; split <;> rfl) | decide | split

theorem State.setPresence_keeps (s : State) (c : Cell) (p : Bool) (since : Option Nat) :
    Keeps [.notices, .walker, .presence, .units, .modes, .lighting] s (s.setPresence c p since) := by
  unfold State.setPresence
  dsimp only
  repeat' first
    | with_reducible exact .refl _ _ | with_reducible apply Keeps.after (State.unitPresence_keeps ..)
    | with_reducible apply Keeps.after (State.updPresence_keeps ..) | with_reducible apply Keeps.ite
    | decide | split

theorem State.judgePresence_keeps (s : State) (c : Cell) :
    Keeps [.notices, .walker, .presence, .units, .modes, .lighting] s (s.judgePresence c) := by
  unfold State.judgePresence
  dsimp only
  repeat' first
    | with_reducible exact .refl _ _ | with_reducible apply Keeps.after (State.setPresence_keeps ..)
    | with_reducible apply Keeps.ite | decide | split

theorem State.gatedTick_keeps (s : State) (id : UnitId) :
    Keeps [.units] s (s.gatedTick id) := by
  unfold State.gatedTick
  dsimp only
  repeat' first
    | with_reducible exact .refl _ _
    | with_reducible apply Keeps.after (State.modifyUnit_keeps_both _ _ _ ?_ ?_)
    | with_reducible apply Keeps.ite | exact fun (u : UnitRec) => rfl
    | (refine fun (u : UnitRec) => ?_; split <;> rfl) | decide | split

theorem State.withdrawDoor_keeps (s : State) (i : Fin 4) :
    Keeps [.notices, .faults] s (s.withdrawDoor i) := by
  unfold State.withdrawDoor
  repeat' first
    | with_reducible exact .refl _ _ | with_reducible apply Keeps.after (State.withdrawFault_keeps ..)
    | with_reducible apply Keeps.ite | decide | split

theorem State.returnDoor_keeps (s : State) (i : Fin 4) (outerWritten innerWritten : Bool) :
    Keeps [.notices, .doors, .faults] s (s.returnDoor i outerWritten innerWritten) := by
  unfold State.returnDoor
  dsimp only
  repeat' first
    | with_reducible exact .refl _ _ | with_reducible apply Keeps.after (State.withdrawDoor_keeps ..)
    | with_reducible apply Keeps.after (State.updDoor_keeps ..) | decide

theorem State.handCount_keeps (s : State) (c : Cell) (n : Counted) :
    Keeps [.notices, .walker, .drift, .units, .headcounts, .modes, .lighting] s (s.handCount c n) := by
  cases n
  · exact .refl _ _
  · exact .refl _ _
  · exact .after (s.enter_keeps c) (by decide) (.refl _ _)
  · exact .after (s.leave_keeps c) (by decide) (.refl _ _)

theorem State.beamEvent_keeps (s : State) (i : Fin 4) (side : BeamSide) (broke : Bool) :
    Keeps [.notices, .walker, .doors, .drift, .units, .headcounts, .modes, .lighting, .faults] s (s.beamEvent i side broke) := by
  unfold State.beamEvent
  dsimp only
  repeat' first
    | with_reducible exact .refl _ _ | with_reducible apply Keeps.after (State.handCount_keeps ..)
    | with_reducible apply Keeps.after (State.withdrawDoor_keeps ..)
    | with_reducible apply Keeps.after (State.updDoor_keeps ..) | with_reducible apply Keeps.ite | decide
    | split

theorem State.firstLevel_keeps (s : State) (i : Fin 4) (side : BeamSide) (high : Bool) :
    Keeps [.doors] s (s.firstLevel i side high) := by
  unfold State.firstLevel
  repeat' first
    | with_reducible exact .refl _ _ | with_reducible apply Keeps.after (State.updDoor_keeps ..)
    | with_reducible apply Keeps.ite | decide | split

theorem State.completeDebounce_keeps (s : State) (i : Fin 4) (side : BeamSide) :
    Keeps [.notices, .walker, .doors, .drift, .units, .headcounts, .modes, .lighting, .faults] s (s.completeDebounce i side) := by
  unfold State.completeDebounce
  dsimp only
  repeat' first
    | with_reducible exact .refl _ _ | with_reducible apply Keeps.after (State.firstLevel_keeps ..)
    | with_reducible apply Keeps.after (State.beamEvent_keeps ..)
    | with_reducible apply Keeps.after (State.updDoor_keeps ..) | with_reducible apply Keeps.ite | decide
    | split

theorem State.blockDoor_keeps (s : State) (i : Fin 4) :
    Keeps [.notices, .doors, .units] s (s.blockDoor i) := by
  unfold State.blockDoor
  dsimp only
  repeat' first
    | with_reducible exact .refl _ _ | with_reducible apply Keeps.after (State.blockedDoor_keeps ..)
    | with_reducible apply Keeps.after (State.updDoor_keeps ..)
    | with_reducible apply Keeps.after (State.notify_keeps ..) | with_reducible apply Keeps.ite | decide
    | split

theorem State.unblockDoor_keeps (s : State) (i : Fin 4) :
    Keeps [.notices, .doors, .faults] s (s.unblockDoor i) := by
  unfold State.unblockDoor
  dsimp only
  repeat' first
    | with_reducible exact .refl _ _ | with_reducible apply Keeps.after (State.withdrawDoor_keeps ..)
    | with_reducible apply Keeps.after (State.updDoor_keeps ..) | with_reducible apply Keeps.ite | decide
    | split

theorem State.stickDoor_keeps (s : State) (i : Fin 4) :
    Keeps [.notices, .doors, .faults] s (s.stickDoor i) := by
  unfold State.stickDoor
  dsimp only
  repeat' first
    | with_reducible exact .refl _ _ | with_reducible apply Keeps.after (State.reportPlain_keeps ..)
    | with_reducible apply Keeps.after (State.notifyFault_keeps ..)
    | with_reducible apply Keeps.after (State.updDoor_keeps ..) | with_reducible apply Keeps.ite | decide
    | split

theorem State.completeFilter_keeps (s : State) (i : Fin 6) :
    Keeps [.notices, .walker, .presence, .units, .modes, .lighting] s (s.completeFilter i) := by
  unfold State.completeFilter
  dsimp only
  repeat' first
    | with_reducible exact .refl _ _ | with_reducible apply Keeps.after (State.setPresence_keeps ..)
    | with_reducible apply Keeps.after (State.updDetector_keeps ..) | with_reducible apply Keeps.ite
    | decide | split

end Sys2Proof.Machine
end

