-- ==== Sys2Proof/Laws/Plant.lean ====
section
/-! SUPPORT. What the operations of Drives, Blinds, Rail, BlindMoves, AirUpdate leave alone. -/

namespace Sys2Proof.Machine
open Sys2Proof

theorem State.redrive_keeps (s : State) (c : Cell) :
    Keeps [.drives] s (s.redrive c) := by
  unfold State.redrive
  dsimp only
  repeat' first
    | with_reducible exact .refl _ _ | with_reducible apply Keeps.after (State.updDrive_keeps ..) | decide

theorem State.refreshTracking_keeps (s : State) (c : Cell) :
    Keeps [.drives] s (s.refreshTracking c) := by
  unfold State.refreshTracking
  repeat' first
    | with_reducible exact .refl _ _ | with_reducible apply Keeps.after (State.updDrive_keeps ..)
    | with_reducible apply Keeps.ite | decide | split

theorem State.reportStall_keeps (s : State) (c : Cell) :
    Keeps [.notices, .drives, .faults] s (s.reportStall c) := by
  unfold State.reportStall
  repeat' first
    | with_reducible exact .refl _ _ | with_reducible apply Keeps.after (State.refreshTracking_keeps ..)
    | with_reducible apply Keeps.after (State.reportRetry_keeps ..) | with_reducible apply Keeps.ite
    | decide | split

theorem State.rearmDamper_keeps (s : State) (c : Cell) :
    Keeps [.notices, .drives, .faults] s (s.rearmDamper c) := by
  unfold State.rearmDamper
  dsimp only
  repeat' first
    | with_reducible exact .refl _ _ | with_reducible apply Keeps.after (State.refreshTracking_keeps ..)
    | with_reducible apply Keeps.after (State.reportRetry_keeps ..) | with_reducible apply Keeps.ite
    | decide | split

theorem State.handOverCell_keeps (s : State) (c : Cell) :
    Keeps [.drives] s (s.handOverCell c) := by
  unfold State.handOverCell
  dsimp only
  repeat' first
    | with_reducible exact .refl _ _ | with_reducible apply Keeps.after (State.redrive_keeps ..)
    | with_reducible apply Keeps.after (State.updDrive_keeps ..) | with_reducible apply Keeps.ite | decide
    | split

theorem State.handOver_keeps (s : State) :
    Keeps [.drives] s (s.handOver) := by
  unfold State.handOver
  repeat' first
    | with_reducible exact .refl _ _ | with_reducible apply Keeps.after (State.handOverCell_keeps ..)
    | decide

theorem State.endDamperCal_keeps (s : State) (c : Cell) (r : CalResult) :
    Keeps [.notices, .drives] s (s.endDamperCal c r) := by
  unfold State.endDamperCal
  dsimp only
  repeat' first
    | with_reducible exact .refl _ _ | with_reducible apply Keeps.after (State.refreshTracking_keeps ..)
    | with_reducible apply Keeps.after (State.redrive_keeps ..)
    | with_reducible apply Keeps.after (State.updDrive_keeps ..)
    | with_reducible apply Keeps.after (State.notify_keeps ..) | decide

theorem State.abortDamperCal_keeps (s : State) (c : Cell) (r : CalReason) :
    Keeps [.notices, .drives] s (s.abortDamperCal c r) := by
  unfold State.abortDamperCal
  repeat' first
    | with_reducible exact .refl _ _ | with_reducible apply Keeps.after (State.endDamperCal_keeps ..)
    | with_reducible apply Keeps.ite | decide | split

theorem State.calPhase_keeps (s : State) (c : Cell) (k : DamperCal) :
    Keeps [.drives] s (s.calPhase c k) := by
  unfold State.calPhase
  repeat' first
    | with_reducible exact .refl _ _ | with_reducible apply Keeps.after (State.refreshTracking_keeps ..)
    | with_reducible apply Keeps.after (State.redrive_keeps ..)
    | with_reducible apply Keeps.after (State.updDrive_keeps ..) | decide

theorem State.calRailOn_keeps (s : State) (c : Cell) :
    Keeps [.drives] s (s.calRailOn c) := by
  unfold State.calRailOn
  repeat' first
    | with_reducible exact .refl _ _ | with_reducible apply Keeps.after (State.calPhase_keeps ..)
    | with_reducible apply Keeps.ite | decide | split

theorem State.calRailFault_keeps (s : State) (c : Cell) :
    Keeps [.notices, .drives] s (s.calRailFault c) := by
  unfold State.calRailFault
  repeat' first
    | with_reducible exact .refl _ _ | with_reducible apply Keeps.after (State.endDamperCal_keeps ..)
    | with_reducible apply Keeps.ite | decide | split

theorem State.finishCal_keeps (s : State) (c : Cell) (fbLow fbHigh elapsed : Nat) :
    Keeps [.notices, .drives, .calibrations] s (s.finishCal c fbLow fbHigh elapsed) := by
  unfold State.finishCal
  dsimp only
  repeat' first
    | with_reducible exact .refl _ _ | with_reducible apply Keeps.after (State.endDamperCal_keeps ..)
    | with_reducible apply Keeps.after (State.withCalibrations_keeps ..) | with_reducible apply Keeps.ite
    | decide | split

theorem State.calSample_keeps (s : State) (c : Cell) (mv : Nat) (mean : Option Nat) (means : List Nat) :
    Keeps [.notices, .drives, .calibrations] s (s.calSample c mv mean means) := by
  unfold State.calSample
  repeat' first
    | with_reducible exact .refl _ _ | with_reducible apply Keeps.after (State.finishCal_keeps ..)
    | with_reducible apply Keeps.after (State.calPhase_keeps ..)
    | with_reducible apply Keeps.after (State.endDamperCal_keeps ..) | with_reducible apply Keeps.ite
    | decide | split

theorem State.feedbackSample_keeps (s : State) (c : Cell) (mv : Nat) (mean : Option Nat) :
    Keeps [.notices, .drives, .faults, .calibrations] s (s.feedbackSample c mv mean) := by
  unfold State.feedbackSample
  dsimp only
  repeat' first
    | with_reducible exact .refl _ _ | with_reducible apply Keeps.after (State.calSample_keeps ..)
    | with_reducible apply Keeps.after (State.refreshTracking_keeps ..)
    | with_reducible apply Keeps.after (State.reportRetry_keeps ..)
    | with_reducible apply Keeps.after (State.updDrive_keeps ..) | with_reducible apply Keeps.ite | decide
    | split

theorem State.redriveValve_keeps (s : State) (c : Cell) :
    Keeps [.drives] s (s.redriveValve c) := by
  unfold State.redriveValve
  dsimp only
  repeat' first
    | with_reducible exact .refl _ _ | with_reducible apply Keeps.after (State.updDrive_keeps ..)
    | with_reducible apply Keeps.ite | decide | split

theorem State.temperatureStep_keeps (s : State) (c : Cell) :
    Keeps [.drives] s (s.temperatureStep c) := by
  unfold State.temperatureStep
  dsimp only
  repeat' first
    | with_reducible exact .refl _ _ | with_reducible apply Keeps.after (State.redriveValve_keeps ..)
    | with_reducible apply Keeps.after (State.updDrive_keeps ..) | with_reducible apply Keeps.ite | decide
    | split

theorem State.request_keeps (s : State) (g : Fin 4) (target : Nat) (reference calibration : Bool) :
    Keeps [.blinds] s (s.request g target reference calibration) := by
  unfold State.request
  dsimp only
  repeat' first
    | with_reducible exact .refl _ _ | with_reducible apply Keeps.after (State.updGroup_keeps ..)
    | with_reducible apply Keeps.after (State.updBlinds_keeps ..) | decide

theorem State.stopGroup_keeps (s : State) (g : Fin 4) (state : GroupState) :
    Keeps [.blinds] s (s.stopGroup g state) := by
  unfold State.stopGroup
  repeat' first
    | with_reducible exact .refl _ _ | with_reducible apply Keeps.after (State.updGroup_keeps ..)
    | with_reducible apply Keeps.after (State.updBlinds_keeps ..) | decide

theorem State.grantEntry_keeps (s : State) (e : QueueEntry) :
    Keeps [.blinds] s (s.grantEntry e) := by
  unfold State.grantEntry
  dsimp only
  repeat' first
    | with_reducible exact .refl _ _ | with_reducible apply Keeps.after (State.updGroup_keeps ..)
    | with_reducible apply Keeps.after (State.updBlinds_keeps ..) | with_reducible apply Keeps.ite | decide
    | split

theorem State.grantUpTo_keeps (n : Nat) (s : State) : Keeps [.blinds] s (State.grantUpTo n s) := by
  induction n generalizing s with
  | zero => exact .refl _ _
  | succ n ih =>
    unfold State.grantUpTo
    split
    · split
      · exact .refl _ _
      · exact (s.grantEntry_keeps _).trans (ih _)
    · exact .refl _ _

theorem State.grants_keeps (s : State) :
    Keeps [.blinds] s (s.grants) := by
  unfold State.grants
  repeat' first
    | with_reducible exact .refl _ _ | with_reducible apply Keeps.after (State.grantUpTo_keeps ..) | decide

theorem State.endBlindCal_keeps (s : State) (g : Fin 4) (state : GroupState) (r : CalResult) :
    Keeps [.notices, .blinds] s (s.endBlindCal g state r) := by
  unfold State.endBlindCal
  dsimp only
  repeat' first
    | with_reducible exact .refl _ _ | with_reducible apply Keeps.after (State.stopGroup_keeps ..)
    | with_reducible apply Keeps.after (State.updGroup_keeps ..)
    | with_reducible apply Keeps.after (State.notify_keeps ..) | with_reducible apply Keeps.ite | decide
    | split

theorem State.abortBlindCal_keeps (s : State) (g : Fin 4) (r : CalReason) :
    Keeps [.notices, .blinds] s (s.abortBlindCal g r) := by
  unfold State.abortBlindCal
  repeat' first
    | with_reducible exact .refl _ _ | with_reducible apply Keeps.after (State.endBlindCal_keeps ..)
    | with_reducible apply Keeps.ite | decide | split

theorem State.returnToQueue_keeps (s : State) (gs : List (Fin 4)) :
    Keeps [.blinds] s (s.returnToQueue gs) := by
  unfold State.returnToQueue
  dsimp only
  repeat' first
    | with_reducible exact .refl _ _ | with_reducible apply Keeps.after (State.updGroup_keeps ..)
    | with_reducible apply Keeps.after (State.updBlinds_keeps ..)
    | with_reducible refine .foldl _ _ ?_ (fun _ _ => ?_) | decide

theorem State.loseSlots_keeps (s : State) :
    Keeps [.notices, .blinds] s (s.loseSlots) := by
  unfold State.loseSlots
  dsimp only
  repeat' first
    | with_reducible exact .refl _ _ | with_reducible apply Keeps.after (State.returnToQueue_keeps ..)
    | with_reducible apply Keeps.after (State.abortBlindCal_keeps ..)
    | with_reducible refine .foldl _ _ ?_ (fun _ _ => ?_) | with_reducible apply Keeps.ite | decide | split

theorem State.trimSlots_keeps (s : State) :
    Keeps [.notices, .blinds] s (s.trimSlots) := by
  unfold State.trimSlots
  dsimp only
  repeat' first
    | with_reducible exact .refl _ _ | with_reducible apply Keeps.after (State.returnToQueue_keeps ..)
    | with_reducible apply Keeps.after (State.abortBlindCal_keeps ..)
    | with_reducible refine .foldl _ _ ?_ (fun _ _ => ?_) | decide

theorem State.handMotion_keeps (s : State) :
    Keeps [.lighting] s (s.handMotion) := by
  unfold State.handMotion
  repeat' first
    | with_reducible exact .refl _ _ | with_reducible apply Keeps.after (State.updLighting_keeps ..)
    | decide

theorem State.writeNeeds_keeps (s : State) :
    Keeps [.rail] s (s.writeNeeds) := by
  unfold State.writeNeeds
  dsimp only
  repeat' first
    | with_reducible exact .refl _ _ | with_reducible apply Keeps.after (State.updRail_keeps ..)
    | with_reducible apply Keeps.ite | decide | split

theorem State.railToTracking_keeps (s : State) :
    Keeps [.drives] s (s.railToTracking) := by
  unfold State.railToTracking
  repeat' first
    | with_reducible exact .refl _ _ | with_reducible apply Keeps.after (State.refreshTracking_keeps ..)
    | decide

theorem State.railFault_keeps (s : State) :
    Keeps [.notices, .drives, .lighting, .blinds, .rail, .faults] s (s.railFault) := by
  unfold State.railFault
  dsimp only
  repeat' first
    | with_reducible exact .refl _ _ | with_reducible apply Keeps.after (State.railToTracking_keeps ..)
    | with_reducible apply Keeps.after (State.writeNeeds_keeps ..)
    | with_reducible apply Keeps.after (State.handMotion_keeps ..)
    | with_reducible apply Keeps.after (State.loseSlots_keeps ..)
    | with_reducible apply Keeps.after (State.calRailFault_keeps ..)
    | with_reducible apply Keeps.after (State.reportRetry_keeps ..)
    | with_reducible apply Keeps.after (State.updRail_keeps ..) | with_reducible apply Keeps.ite | decide
    | split

theorem State.raiseRail_keeps (s : State) :
    Keeps [.notices, .drives, .lighting, .blinds, .rail, .faults] s (s.raiseRail) := by
  unfold State.raiseRail
  dsimp only
  repeat' first
    | with_reducible exact .refl _ _ | with_reducible apply Keeps.after (State.railFault_keeps ..)
    | with_reducible apply Keeps.after (State.updRail_keeps ..) | with_reducible apply Keeps.ite | decide
    | split

theorem State.refreshNeeds_keeps (s : State) :
    Keeps [.notices, .drives, .lighting, .blinds, .rail, .faults] s (s.refreshNeeds) := by
  unfold State.refreshNeeds
  repeat' first
    | with_reducible exact .refl _ _ | with_reducible apply Keeps.after (State.raiseRail_keeps ..)
    | with_reducible apply Keeps.after (State.writeNeeds_keeps ..) | decide

theorem State.afterBlinds_keeps (s : State) :
    Keeps [.notices, .drives, .lighting, .blinds, .rail, .faults] s (s.afterBlinds) := by
  unfold State.afterBlinds
  repeat' first
    | with_reducible exact .refl _ _ | with_reducible apply Keeps.after (State.refreshNeeds_keeps ..)
    | with_reducible apply Keeps.after (State.handMotion_keeps ..)
    | with_reducible apply Keeps.after (State.grants_keeps ..) | decide

theorem State.settleRail_keeps (s : State) :
    Keeps [.notices, .drives, .lighting, .blinds, .rail, .faults] s (s.settleRail) := by
  unfold State.settleRail
  dsimp only
  repeat' first
    | with_reducible exact .refl _ _ | with_reducible apply Keeps.after (State.afterBlinds_keeps ..)
    | with_reducible apply Keeps.after (State.railToTracking_keeps ..)
    | with_reducible apply Keeps.after (State.calRailOn_keeps ..)
    | with_reducible apply Keeps.after (State.updRail_keeps ..) | with_reducible apply Keeps.ite | decide
    | split

theorem State.dropRail_keeps (s : State) :
    Keeps [.drives, .rail] s (s.dropRail) := by
  unfold State.dropRail
  repeat' first
    | with_reducible exact .refl _ _ | with_reducible apply Keeps.after (State.railToTracking_keeps ..)
    | with_reducible apply Keeps.after (State.updRail_keeps ..) | decide

theorem State.rearmRail_keeps (s : State) :
    Keeps [.notices, .drives, .lighting, .blinds, .rail, .faults] s (s.rearmRail) := by
  unfold State.rearmRail
  repeat' first
    | with_reducible exact .refl _ _ | with_reducible apply Keeps.after (State.refreshNeeds_keeps ..)
    | with_reducible apply Keeps.after (State.updRail_keeps ..) | with_reducible apply Keeps.ite | decide
    | split

theorem State.writeTarget_keeps (s : State) (g : Fin 4) (c : Cell) :
    Keeps [.blinds] s (s.writeTarget g c) := by
  unfold State.writeTarget
  dsimp only
  repeat' first
    | with_reducible exact .refl _ _ | with_reducible apply Keeps.after (State.updGroup_keeps ..)
    | with_reducible apply Keeps.ite | decide | split

theorem State.requestMove_keeps (s : State) (g : Fin 4) :
    Keeps [.blinds] s (s.requestMove g) := by
  unfold State.requestMove
  dsimp only
  repeat' first
    | with_reducible exact .refl _ _ | with_reducible apply Keeps.after (State.request_keeps ..)
    | with_reducible apply Keeps.ite | decide | split

theorem State.retargetQueued_keeps (s : State) (g : Fin 4) :
    Keeps [.blinds] s (s.retargetQueued g) := by
  unfold State.retargetQueued
  dsimp only
  repeat' first
    | with_reducible exact .refl _ _ | with_reducible apply Keeps.after (State.stopGroup_keeps ..)
    | with_reducible apply Keeps.after (State.updBlinds_keeps ..) | with_reducible apply Keeps.ite | decide
    | split

theorem State.retargetMoving_keeps (s : State) (g : Fin 4) :
    Keeps [.blinds] s (s.retargetMoving g) := by
  unfold State.retargetMoving
  dsimp only
  repeat' first
    | with_reducible exact .refl _ _ | with_reducible apply Keeps.after (State.stopGroup_keeps ..)
    | with_reducible apply Keeps.after (State.updGroup_keeps ..) | with_reducible apply Keeps.ite | decide
    | split

theorem State.actOnTarget_keeps (s : State) (g : Fin 4) :
    Keeps [.blinds] s (s.actOnTarget g) := by
  unfold State.actOnTarget
  repeat' first
    | with_reducible exact .refl _ _ | with_reducible apply Keeps.after (State.retargetMoving_keeps ..)
    | with_reducible apply Keeps.after (State.retargetQueued_keeps ..)
    | with_reducible apply Keeps.after (State.requestMove_keeps ..)
    | with_reducible apply Keeps.after (State.updGroup_keeps ..) | with_reducible apply Keeps.ite | decide
    | split

theorem State.evaluateGroup_keeps (s : State) (g : Fin 4) :
    Keeps [.notices, .drives, .lighting, .blinds, .rail, .faults] s (s.evaluateGroup g) := by
  unfold State.evaluateGroup
  dsimp only
  repeat' first
    | with_reducible exact .refl _ _ | with_reducible apply Keeps.after (State.actOnTarget_keeps ..)
    | with_reducible apply Keeps.after (State.writeTarget_keeps ..)
    | with_reducible apply Keeps.after (State.afterBlinds_keeps ..) | with_reducible apply Keeps.ite
    | decide | split

theorem State.evaluateBlinds_keeps (s : State) :
    Keeps [.notices, .drives, .lighting, .blinds, .rail, .faults] s (s.evaluateBlinds) := by
  unfold State.evaluateBlinds
  repeat' first
    | with_reducible exact .refl _ _ | with_reducible apply Keeps.after (State.evaluateGroup_keeps ..)
    | with_reducible refine .foldl _ _ ?_ (fun _ _ => ?_) | decide

theorem State.blindFault_keeps (s : State) (g : Fin 4) (kind : FaultKind) :
    Keeps [.notices, .blinds, .faults] s (s.blindFault g kind) := by
  unfold State.blindFault
  dsimp only
  repeat' first
    | with_reducible exact .refl _ _ | with_reducible apply Keeps.after (State.endBlindCal_keeps ..)
    | with_reducible apply Keeps.after (State.stopGroup_keeps ..)
    | with_reducible apply Keeps.after (State.reportRetry_keeps ..)
    | with_reducible apply Keeps.after (State.updGroup_keeps ..) | with_reducible apply Keeps.ite | decide
    | split

theorem State.rearmBlind_keeps (s : State) (g : Fin 4) :
    Keeps [.notices, .drives, .lighting, .blinds, .rail, .faults] s (s.rearmBlind g) := by
  unfold State.rearmBlind
  dsimp only
  repeat' first
    | with_reducible exact .refl _ _ | with_reducible apply Keeps.after (State.requestMove_keeps ..)
    | with_reducible apply Keeps.after (State.afterBlinds_keeps ..)
    | with_reducible apply Keeps.after (State.updGroup_keeps ..) | with_reducible apply Keeps.ite | decide
    | split

theorem State.reachEnd_keeps (s : State) (g : Fin 4) :
    Keeps [.blinds] s (s.reachEnd g) := by
  unfold State.reachEnd
  dsimp only
  repeat' first
    | with_reducible exact .refl _ _ | with_reducible apply Keeps.after (State.stopGroup_keeps ..)
    | with_reducible apply Keeps.after (State.updGroup_keeps ..) | decide

theorem State.finishBlindCal_keeps (s : State) (g : Fin 4) (down up : Nat) :
    Keeps [.notices, .blinds, .settings] s (s.finishBlindCal g down up) := by
  unfold State.finishBlindCal
  dsimp only
  repeat' first
    | with_reducible exact .refl _ _ | with_reducible apply Keeps.after (State.endBlindCal_keeps ..)
    | with_reducible apply Keeps.after (State.withSettings_keeps ..) | decide

theorem State.finishLeg_keeps (s : State) (g : Fin 4) (k : BlindCal) :
    Keeps [.notices, .blinds, .settings] s (s.finishLeg g k) := by
  unfold State.finishLeg
  dsimp only
  repeat' first
    | with_reducible exact .refl _ _ | with_reducible apply Keeps.after (State.finishBlindCal_keeps ..)
    | with_reducible apply Keeps.after (State.endBlindCal_keeps ..)
    | with_reducible apply Keeps.after (State.updGroup_keeps ..) | with_reducible apply Keeps.ite | decide
    | split

theorem State.endSwitch_keeps (s : State) (g : Fin 4) :
    Keeps [.notices, .blinds, .faults, .settings] s (s.endSwitch g) := by
  unfold State.endSwitch
  dsimp only
  repeat' first
    | with_reducible exact .refl _ _ | with_reducible apply Keeps.after (State.finishLeg_keeps ..)
    | with_reducible apply Keeps.after (State.reachEnd_keeps ..)
    | with_reducible apply Keeps.after (State.blindFault_keeps ..) | with_reducible apply Keeps.ite | decide
    | split

theorem State.motorSilent_keeps (s : State) (g : Fin 4) :
    Keeps [.notices, .blinds, .faults, .settings] s (s.motorSilent g) := by
  unfold State.motorSilent
  dsimp only
  repeat' first
    | with_reducible exact .refl _ _ | with_reducible apply Keeps.after (State.finishLeg_keeps ..)
    | with_reducible apply Keeps.after (State.reachEnd_keeps ..)
    | with_reducible apply Keeps.after (State.blindFault_keeps ..) | with_reducible apply Keeps.ite | decide
    | split

theorem State.targetTest_keeps (s : State) (g : Fin 4) :
    Keeps [.blinds] s (s.targetTest g) := by
  unfold State.targetTest
  dsimp only
  repeat' first
    | with_reducible exact .refl _ _ | with_reducible apply Keeps.after (State.stopGroup_keeps ..)
    | with_reducible apply Keeps.after (State.updGroup_keeps ..) | with_reducible apply Keeps.ite | decide
    | split

theorem State.judgeSample_keeps (s : State) (g : Fin 4) (current : Nat) :
    Keeps [.notices, .blinds, .faults, .settings] s (s.judgeSample g current) := by
  unfold State.judgeSample
  dsimp only
  repeat' first
    | with_reducible exact .refl _ _ | with_reducible apply Keeps.after (State.targetTest_keeps ..)
    | with_reducible apply Keeps.after (State.motorSilent_keeps ..)
    | with_reducible apply Keeps.after (State.endSwitch_keeps ..)
    | with_reducible apply Keeps.after (State.blindFault_keeps ..)
    | with_reducible apply Keeps.after (State.updGroup_keeps ..) | with_reducible apply Keeps.ite | decide
    | split

theorem State.currentSample_keeps (s : State) (g : Fin 4) (current : Nat) :
    Keeps [.notices, .drives, .lighting, .blinds, .rail, .faults, .settings] s (s.currentSample g current) := by
  unfold State.currentSample
  dsimp only
  repeat' first
    | with_reducible exact .refl _ _ | with_reducible apply Keeps.after (State.judgeSample_keeps ..)
    | with_reducible apply Keeps.after (State.afterBlinds_keeps ..)
    | with_reducible apply Keeps.after (State.updGroup_keeps ..) | with_reducible apply Keeps.ite | decide
    | split

theorem State.endOverrun_keeps (s : State) (g : Fin 4) :
    Keeps [.notices, .drives, .lighting, .blinds, .rail, .faults] s (s.endOverrun g) := by
  unfold State.endOverrun
  dsimp only
  repeat' first
    | with_reducible exact .refl _ _ | with_reducible apply Keeps.after (State.reachEnd_keeps ..)
    | with_reducible apply Keeps.after (State.afterBlinds_keeps ..)
    | with_reducible apply Keeps.after (State.notify_keeps ..) | with_reducible apply Keeps.ite | decide
    | split

theorem State.endReversing_keeps (s : State) (g : Fin 4) :
    Keeps [.notices, .drives, .lighting, .blinds, .rail, .faults] s (s.endReversing g) := by
  unfold State.endReversing
  dsimp only
  repeat' first
    | with_reducible exact .refl _ _ | with_reducible apply Keeps.after (State.afterBlinds_keeps ..)
    | with_reducible apply Keeps.after (State.stopGroup_keeps ..)
    | with_reducible apply Keeps.after (State.updGroup_keeps ..) | with_reducible apply Keeps.ite | decide
    | split

theorem State.failLeg_keeps (s : State) (g : Fin 4) :
    Keeps [.notices, .drives, .lighting, .blinds, .rail, .faults] s (s.failLeg g) := by
  unfold State.failLeg
  dsimp only
  repeat' first
    | with_reducible exact .refl _ _ | with_reducible apply Keeps.after (State.afterBlinds_keeps ..)
    | with_reducible apply Keeps.after (State.endBlindCal_keeps ..) | with_reducible apply Keeps.ite
    | decide | split

theorem State.beginBlindCal_keeps (s : State) (g : Fin 4) :
    Keeps [.notices, .drives, .lighting, .blinds, .rail, .faults] s (s.beginBlindCal g) := by
  unfold State.beginBlindCal
  dsimp only
  repeat' first
    | with_reducible exact .refl _ _ | with_reducible apply Keeps.after (State.afterBlinds_keeps ..)
    | with_reducible apply Keeps.after (State.request_keeps ..)
    | with_reducible apply Keeps.after (State.updGroup_keeps ..)
    | with_reducible apply Keeps.after (State.updBlinds_keeps ..) | with_reducible apply Keeps.ite | decide
    | split

theorem State.fireBlinds_keeps (s : State) :
    Keeps [.notices, .drives, .lighting, .blinds, .rail, .faults] s (s.fireBlinds) := by
  unfold State.fireBlinds
  dsimp only
  repeat' first
    | with_reducible exact .refl _ _ | with_reducible apply Keeps.after (State.evaluateBlinds_keeps ..)
    | with_reducible apply Keeps.after (State.abortBlindCal_keeps ..)
    | with_reducible apply Keeps.after (State.updBlinds_keeps ..)
    | with_reducible refine .foldl _ _ ?_ (fun _ _ => ?_) | decide

theorem State.unfireBlinds_keeps (s : State) :
    Keeps [.blinds] s (s.unfireBlinds) := by
  unfold State.unfireBlinds
  repeat' first
    | with_reducible exact .refl _ _ | with_reducible apply Keeps.after (State.updBlinds_keeps ..) | decide

theorem State.blindCellWritten_keeps (s : State) (g : Fin 4) :
    Keeps [.notices, .drives, .lighting, .blinds, .rail, .faults] s (s.blindCellWritten g) := by
  unfold State.blindCellWritten
  dsimp only
  repeat' first
    | with_reducible exact .refl _ _ | with_reducible apply Keeps.after (State.afterBlinds_keeps ..)
    | with_reducible apply Keeps.after (State.abortBlindCal_keeps ..)
    | with_reducible apply Keeps.after (State.stopGroup_keeps ..) | with_reducible apply Keeps.ite | decide
    | split

theorem State.travelWritten_keeps (s : State) (g : Fin 4) (down : Bool) :
    Keeps [.blinds] s (s.travelWritten g down) := by
  unfold State.travelWritten
  repeat' first
    | with_reducible exact .refl _ _ | with_reducible apply Keeps.after (State.updGroup_keeps ..)
    | with_reducible apply Keeps.ite | decide | split

theorem State.driveSlotsWritten_keeps (s : State) :
    Keeps [.notices, .drives, .lighting, .blinds, .rail, .faults] s (s.driveSlotsWritten) := by
  unfold State.driveSlotsWritten
  repeat' first
    | with_reducible exact .refl _ _ | with_reducible apply Keeps.after (State.afterBlinds_keeps ..)
    | with_reducible apply Keeps.after (State.trimSlots_keeps ..) | decide

theorem State.judgeAlarm_keeps (s : State) (id : UnitId) :
    Keeps [.notices, .units] s (s.judgeAlarm id) := by
  unfold State.judgeAlarm
  dsimp only
  repeat' first
    | with_reducible exact .refl _ _
    | with_reducible apply Keeps.after (State.modifyUnit_keeps_both _ _ _ ?_ ?_)
    | with_reducible apply Keeps.after (State.notify_keeps ..) | with_reducible apply Keeps.ite
    | exact fun (u : UnitRec) => rfl | (refine fun (u : UnitRec) => ?_; split <;> rfl) | decide | split

theorem State.demandRecord_headcount (s : State) (id : UnitId) (u : UnitRec) :
    (s.demandRecord id u).headcount = u.headcount := by
  unfold State.demandRecord
  split <;> rfl

theorem State.demandRecord_mode (s : State) (id : UnitId) (u : UnitRec) :
    (s.demandRecord id u).mode = u.mode := by
  unfold State.demandRecord
  split <;> rfl

theorem State.formDemand_keeps (s : State) (id : UnitId) : Keeps [.notices, .units] s (s.formDemand id) := by
  unfold State.formDemand
  exact .after (State.modifyUnit_keeps_both _ _ _ (State.demandRecord_headcount _ _) (State.demandRecord_mode _ _))
    (by decide) (s.judgeAlarm_keeps id)

theorem Units.allotAll_get? {α : Type} (u : Units) (cap : Nat) (id : UnitId) (g : UnitRec → α)
    (h : ∀ (r : UnitRec) n, g (r.allot n) = g r) : ((u.allotAll cap).get? id).map g = (u.get? id).map g := by
  cases u <;> cases id <;> simp [Units.allotAll, Units.get?, h]

theorem State.shareCap_keeps (s : State) : Keeps [.units, .air] s s.shareCap := by
  refine ⟨fun b hb => ?_⟩
  cases b
  case arrangement => show (s.space.units.allotAll _).ids = _; cases s.space.units <;> rfl
  case headcounts => exact fun id => s.space.units.allotAll_get? _ id _ fun _ _ => rfl
  case modes => exact fun id => s.space.units.allotAll_get? _ id _ fun _ _ => rfl
  all_goals first | (simp at hb; done) | exact rfl | exact ⟨[], rfl⟩ | exact ⟨rfl, rfl⟩

theorem State.airUpdate_keeps (s : State) :
    Keeps [.notices, .units, .air, .drives, .lighting, .blinds, .rail, .faults] s (s.airUpdate) := by
  unfold State.airUpdate
  dsimp only
  repeat' first
    | with_reducible exact .refl _ _ | with_reducible apply Keeps.after (State.shareCap_keeps ..)
    | with_reducible apply Keeps.after (State.formDemand_keeps ..)
    | with_reducible apply Keeps.after (State.refreshNeeds_keeps ..)
    | with_reducible apply Keeps.after (State.handOver_keeps ..)
    | with_reducible apply Keeps.after (State.updAir_keeps ..)
    | with_reducible refine .foldl _ _ ?_ (fun _ _ => ?_) | decide

end Sys2Proof.Machine
end

