-- ==== Sys2Proof/Laws/House.lean ====
section
/-! SUPPORT. What the operations of Lights, Sensors, Spaces leave alone. -/

namespace Sys2Proof.Machine
open Sys2Proof

theorem State.channelStep_keeps (s : State) (i : Fin 8) :
    Keeps [.lighting] s (s.channelStep i) := by
  unfold State.channelStep
  dsimp only
  repeat' first
    | with_reducible exact .refl _ _ | with_reducible apply Keeps.after (State.updChannel_keeps ..)
    | with_reducible apply Keeps.ite | decide | split

theorem State.lightingStep_keeps (s : State) :
    Keeps [.lighting] s (s.lightingStep) := by
  unfold State.lightingStep
  repeat' first
    | with_reducible exact .refl _ _ | with_reducible apply Keeps.after (State.channelStep_keeps ..)
    | with_reducible apply Keeps.after (State.updLighting_keeps ..)
    | with_reducible refine .foldl _ _ ?_ (fun _ _ => ?_) | decide

theorem State.loadDuties_keeps (s : State) :
    Keeps [.lighting] s (s.loadDuties) := by
  unfold State.loadDuties
  repeat' first
    | with_reducible exact .refl _ _ | with_reducible apply Keeps.after (State.updChannel_keeps ..)
    | with_reducible refine .foldl _ _ ?_ (fun _ _ => ?_) | decide

theorem State.fireLights_keeps (s : State) :
    Keeps [.lighting] s (s.fireLights) := by
  unfold State.fireLights
  repeat' first
    | with_reducible exact .refl _ _ | with_reducible apply Keeps.after (State.updChannel_keeps ..)
    | with_reducible refine .foldl _ _ ?_ (fun _ _ => ?_) | with_reducible apply Keeps.ite | decide | split

theorem State.channelCellWritten_keeps (s : State) (i : Fin 8) (before : Option Cell) :
    Keeps [.lighting] s (s.channelCellWritten i before) := by
  unfold State.channelCellWritten
  dsimp only
  repeat' first
    | with_reducible exact .refl _ _ | with_reducible apply Keeps.after (State.updChannel_keeps ..)
    | with_reducible apply Keeps.ite | decide | split

theorem State.driverMinWritten_keeps (s : State) (i : Fin 8) :
    Keeps [.lighting] s (s.driverMinWritten i) := by
  unfold State.driverMinWritten
  dsimp only
  repeat' first
    | with_reducible exact .refl _ _ | with_reducible apply Keeps.after (State.updChannel_keeps ..) | decide

theorem State.daylightCell_keeps (s : State) (c : Cell) :
    Keeps [.lighting] s (s.daylightCell c) := by
  unfold State.daylightCell
  dsimp only
  repeat' first
    | with_reducible exact .refl _ _ | with_reducible apply Keeps.after (State.updDaylight_keeps ..)
    | with_reducible apply Keeps.ite | decide | split

theorem State.daylightUpdate_keeps (s : State) :
    Keeps [.lighting] s (s.daylightUpdate) := by
  unfold State.daylightUpdate
  dsimp only
  repeat' first
    | with_reducible exact .refl _ _ | with_reducible apply Keeps.after (State.daylightCell_keeps ..)
    | with_reducible apply Keeps.after (State.updLighting_keeps ..) | decide

theorem State.unfreeze_keeps (s : State) (c : Cell) :
    Keeps [.lighting] s (s.unfreeze c) := by
  unfold State.unfreeze
  repeat' first
    | with_reducible exact .refl _ _ | with_reducible apply Keeps.after (State.updDaylight_keeps ..)
    | with_reducible apply Keeps.ite | decide | split

theorem State.sensorFault_keeps (s : State) (i : Fin 8) (before : SensorState) (mv : Nat) :
    Keeps [.notices, .faults] s (s.sensorFault i before mv) := by
  unfold State.sensorFault
  dsimp only
  repeat' first
    | with_reducible exact .refl _ _ | with_reducible apply Keeps.after (State.reportPlain_keeps ..)
    | with_reducible apply Keeps.after (State.notifyFault_keeps ..)
    | with_reducible apply Keeps.after (State.updFault_keeps ..) | with_reducible apply Keeps.ite | decide
    | split

theorem State.sampleChannel_keeps (s : State) (i : Fin 8) (mv : Nat) :
    Keeps [.notices, .scanner, .faults] s (s.sampleChannel i mv) := by
  unfold State.sampleChannel
  dsimp only
  repeat' first
    | with_reducible exact .refl _ _ | with_reducible apply Keeps.after (State.sensorFault_keeps ..)
    | with_reducible apply Keeps.after (State.updSensor_keeps ..) | with_reducible apply Keeps.ite | decide
    | split

theorem State.purgeEndTest_keeps (s : State) (id : UnitId) :
    Keeps [.units, .modes, .lighting] s (s.purgeEndTest id) := by
  unfold State.purgeEndTest
  repeat' first
    | with_reducible exact .refl _ _ | with_reducible apply Keeps.after (State.endPurge_keeps ..)
    | with_reducible apply Keeps.ite | decide | split

theorem State.temperatureHealth_keeps (s : State) (c : Cell) (before : Bool) :
    Keeps [.drives] s (s.temperatureHealth c before) := by
  unfold State.temperatureHealth
  repeat' first
    | with_reducible exact .refl _ _ | with_reducible apply Keeps.after (State.redriveValve_keeps ..)
    | with_reducible apply Keeps.ite | decide | split

theorem State.creditCal_keeps (s : State) (c : Cell) (ms : Nat) :
    Keeps [.drives] s (s.creditCal c ms) := by
  unfold State.creditCal
  repeat' first
    | with_reducible exact .refl _ _ | with_reducible apply Keeps.after (State.updDrive_keeps ..) | decide

theorem State.handFeedback_keeps (s : State) (c : Cell) (mv : Nat) :
    Keeps [.notices, .drives, .faults, .calibrations] s (s.handFeedback c mv) := by
  unfold State.handFeedback
  repeat' first
    | with_reducible exact .refl _ _ | with_reducible apply Keeps.after (State.feedbackSample_keeps ..)
    | decide

theorem State.sensorSample_keeps (s : State) (levels : Vector Half 8) :
    Keeps [.notices, .units, .modes, .drives, .lighting, .blinds, .rail, .scanner, .faults, .calibrations] s (s.sensorSample levels) := by
  unfold State.sensorSample
  dsimp only
  repeat' first
    | with_reducible exact .refl _ _ | with_reducible apply Keeps.after (State.handFeedback_keeps ..)
    | with_reducible apply Keeps.after (State.creditCal_keeps ..)
    | with_reducible apply Keeps.after (State.temperatureHealth_keeps ..)
    | with_reducible apply Keeps.after (State.purgeEndTest_keeps ..)
    | with_reducible apply Keeps.after (State.sampleChannel_keeps ..)
    | with_reducible apply Keeps.after (State.refreshNeeds_keeps ..)
    | with_reducible apply Keeps.after (State.updScanner_keeps ..)
    | with_reducible refine .foldl _ _ ?_ (fun _ _ => ?_) | decide

theorem State.holdExpiry_keeps (s : State) (i : Fin 8) :
    Keeps [.notices, .drives, .lighting, .blinds, .rail, .scanner, .faults] s (s.holdExpiry i) := by
  unfold State.holdExpiry
  dsimp only
  repeat' first
    | with_reducible exact .refl _ _ | with_reducible apply Keeps.after (State.refreshNeeds_keeps ..)
    | with_reducible apply Keeps.after (State.redriveValve_keeps ..)
    | with_reducible apply Keeps.after (State.fullDaylight_keeps ..)
    | with_reducible apply Keeps.after (State.notifyFault_keeps ..)
    | with_reducible apply Keeps.after (State.updSensor_keeps ..)
    | with_reducible apply Keeps.after (State.updFault_keeps ..) | with_reducible apply Keeps.ite | decide
    | split

theorem State.daylightAcross_keeps (s : State) (c : Cell) (before : Mode) :
    Keeps [.lighting] s (s.daylightAcross c before) := by
  unfold State.daylightAcross
  repeat' first
    | with_reducible exact .refl _ _ | with_reducible apply Keeps.after (State.fullDaylight_keeps ..)
    | with_reducible apply Keeps.ite | decide | split

theorem State.joinBookings_keeps (s before : State) (o : Occupancy) :
    Keeps [.walker] s (s.joinBookings before o) := by
  unfold State.joinBookings
  repeat' first
    | with_reducible exact .refl _ _ | with_reducible apply Keeps.after (State.updWalker_keeps ..)
    | with_reducible apply Keeps.ite | decide | split

theorem State.notifyMismatch_keeps (s : State) :
    Keeps [.notices] s (s.notifyMismatch) := by
  unfold State.notifyMismatch
  repeat' first
    | with_reducible exact .refl _ _ | with_reducible apply Keeps.after (State.notify_keeps ..)
    | with_reducible apply Keeps.ite | decide | split

theorem State.join_keeps (s : State) (a b : UnitRec) :
    Keeps [.notices, .walker, .arrangement, .units, .headcounts, .modes, .air, .drives, .lighting, .blinds, .rail, .faults] s (s.join a b) := by
  unfold State.join
  dsimp only
  repeat' first
    | with_reducible exact .refl _ _ | with_reducible apply Keeps.after (State.joinBookings_keeps ..)
    | with_reducible apply Keeps.after (State.daylightAcross_keeps ..)
    | with_reducible apply Keeps.after (State.airUpdate_keeps ..)
    | with_reducible apply Keeps.after (State.deriveCore_keeps ..)
    | with_reducible apply Keeps.after (State.updSpace_units_keeps ..) | decide

theorem State.vacatedBySplit_keeps (s : State) (id : UnitId) (before : Occupancy) :
    Keeps [.notices, .walker, .units, .modes, .lighting] s (s.vacatedBySplit id before) := by
  unfold State.vacatedBySplit
  repeat' first
    | with_reducible exact .refl _ _ | with_reducible apply Keeps.after (State.endHeld_keeps ..)
    | with_reducible apply Keeps.ite | decide | split

theorem State.split_keeps (s : State) (ab : UnitRec) :
    Keeps [.notices, .walker, .arrangement, .units, .headcounts, .modes, .air, .drives, .lighting, .blinds, .rail, .faults] s (s.split ab) := by
  unfold State.split
  dsimp only
  repeat' first
    | with_reducible exact .refl _ _ | with_reducible apply Keeps.after (State.vacatedBySplit_keeps ..)
    | with_reducible apply Keeps.after (State.daylightAcross_keeps ..)
    | with_reducible apply Keeps.after (State.airUpdate_keeps ..)
    | with_reducible apply Keeps.after (State.deriveCore_keeps ..)
    | with_reducible apply Keeps.after (State.updSpace_units_keeps ..) | decide

theorem State.notifyPartition_keeps (s : State) :
    Keeps [.notices] s (s.notifyPartition) := by
  unfold State.notifyPartition
  repeat' first
    | with_reducible exact .refl _ _ | with_reducible apply Keeps.after (State.notify_keeps ..)
    | with_reducible apply Keeps.ite | decide | split

theorem State.arrange_keeps (s : State) (always : Bool) :
    Keeps [.notices, .walker, .arrangement, .units, .headcounts, .modes, .air, .drives, .lighting, .blinds, .rail, .faults] s (s.arrange always) := by
  unfold State.arrange
  repeat' first
    | with_reducible exact .refl _ _ | with_reducible apply Keeps.after (State.notifyPartition_keeps ..)
    | with_reducible apply Keeps.after (State.split_keeps ..)
    | with_reducible apply Keeps.after (State.join_keeps ..)
    | with_reducible apply Keeps.after (State.notifyMismatch_keeps ..) | with_reducible apply Keeps.ite
    | decide | split

theorem State.completePartition_keeps (s : State) :
    Keeps [.notices, .walker, .partition, .contact, .arrangement, .units, .headcounts, .modes, .air, .drives, .lighting, .blinds, .rail, .faults] s (s.completePartition) := by
  unfold State.completePartition
  repeat' first
    | with_reducible exact .refl _ _ | with_reducible apply Keeps.after (State.arrange_keeps ..)
    | with_reducible apply Keeps.after (State.updSpace_partition_partitionTimer_keeps ..)
    | with_reducible apply Keeps.ite | decide | split

theorem State.overrideMoved_keeps (s : State) (t : Fin 16) :
    Keeps [.notices, .drives, .lighting, .blinds, .rail, .faults] s (s.overrideMoved t) := by
  unfold State.overrideMoved
  repeat' first
    | with_reducible exact .refl _ _ | with_reducible apply Keeps.after (State.refreshNeeds_keeps ..)
    | with_reducible apply Keeps.after (State.redriveValve_keeps ..)
    | with_reducible apply Keeps.after (State.redrive_keeps ..) | with_reducible apply Keeps.ite | decide
    | split

theorem State.endOverride_keeps (s : State) (t : Fin 16) (cause : OverrideCause) :
    Keeps [.notices, .overrides, .drives, .lighting, .blinds, .rail, .faults] s (s.endOverride t cause) := by
  unfold State.endOverride
  dsimp only
  repeat' first
    | with_reducible exact .refl _ _ | with_reducible apply Keeps.after (State.overrideMoved_keeps ..)
    | with_reducible apply Keeps.after (State.notify_keeps ..)
    | with_reducible apply Keeps.after (State.updSpace_overrides_keeps ..) | with_reducible apply Keeps.ite
    | decide | split

theorem State.endOverrides_keeps (s : State) (cause : OverrideCause) :
    Keeps [.notices, .overrides, .drives, .lighting, .blinds, .rail, .faults] s (s.endOverrides cause) := by
  unfold State.endOverrides
  repeat' first
    | with_reducible exact .refl _ _ | with_reducible apply Keeps.after (State.endOverride_keeps ..)
    | with_reducible refine .foldl _ _ ?_ (fun _ _ => ?_) | decide

theorem State.redriveAll_keeps (s : State) :
    Keeps [.drives] s (s.redriveAll) := by
  unfold State.redriveAll
  repeat' first
    | with_reducible exact .refl _ _ | with_reducible apply Keeps.after (State.redriveValve_keeps ..)
    | with_reducible apply Keeps.after (State.redrive_keeps ..) | decide

theorem State.fireOn_keeps (s : State) :
    Keeps [.notices, .fire, .fireInput, .overrides, .units, .modes, .drives, .lighting, .blinds, .rail, .faults] s (s.fireOn) := by
  unfold State.fireOn
  dsimp only
  repeat' first
    | with_reducible exact .refl _ _ | with_reducible apply Keeps.after (State.redriveAll_keeps ..)
    | with_reducible apply Keeps.after (State.endOverrides_keeps ..)
    | with_reducible apply Keeps.after (State.fireLights_keeps ..)
    | with_reducible apply Keeps.after (State.fireBlinds_keeps ..)
    | with_reducible apply Keeps.after (State.refreshNeeds_keeps ..)
    | with_reducible apply Keeps.after (State.abortDamperCal_keeps ..)
    | with_reducible apply Keeps.after (State.deriveAll_keeps ..)
    | with_reducible apply Keeps.after (State.notify_keeps ..)
    | with_reducible apply Keeps.after (State.updSpace_fire_fireTimer_keeps ..) | decide

theorem State.fireOff_keeps (s : State) :
    Keeps [.notices, .fire, .fireInput, .units, .modes, .drives, .lighting, .blinds, .rail, .faults] s (s.fireOff) := by
  unfold State.fireOff
  dsimp only
  repeat' first
    | with_reducible exact .refl _ _ | with_reducible apply Keeps.after (State.redriveAll_keeps ..)
    | with_reducible apply Keeps.after (State.unfireBlinds_keeps ..)
    | with_reducible apply Keeps.after (State.refreshNeeds_keeps ..)
    | with_reducible apply Keeps.after (State.deriveAll_keeps ..)
    | with_reducible apply Keeps.after (State.notify_keeps ..)
    | with_reducible apply Keeps.after (State.updSpace_fire_fireTimer_keeps ..) | decide

theorem State.completeFire_keeps (s : State) :
    Keeps [.notices, .fire, .fireInput, .overrides, .units, .modes, .drives, .lighting, .blinds, .rail, .faults] s (s.completeFire) := by
  unfold State.completeFire
  repeat' first
    | with_reducible exact .refl _ _ | with_reducible apply Keeps.after (State.fireOff_keeps ..)
    | with_reducible apply Keeps.after (State.fireOn_keeps ..) | with_reducible apply Keeps.ite | decide
    | split

theorem State.polarityWritten_keeps (s : State) :
    Keeps [.fireInput] s (s.polarityWritten) := by
  unfold State.polarityWritten
  dsimp only
  repeat' first
    | with_reducible exact .refl _ _ | with_reducible apply Keeps.after (State.updSpace_fireTimer_keeps ..)
    | with_reducible apply Keeps.ite | decide | split

theorem State.defaultCap_keeps (s : State) :
    Keeps [.air] s (s.defaultCap) := by
  unfold State.defaultCap
  repeat' first
    | with_reducible exact .refl _ _ | with_reducible apply Keeps.after (State.updAir_keeps ..) | decide

theorem State.lapse_keeps (s : State) (reason : LapseReason) :
    Keeps [.notices, .overrides, .air, .drives, .lighting, .blinds, .rail, .faults, .supervision] s (s.lapse reason) := by
  unfold State.lapse
  dsimp only
  repeat' first
    | with_reducible exact .refl _ _ | with_reducible apply Keeps.after (State.defaultCap_keeps ..)
    | with_reducible apply Keeps.after (State.endOverrides_keeps ..)
    | with_reducible apply Keeps.after (State.updSupervision_keeps ..)
    | with_reducible apply Keeps.after (State.updBlinds_keeps ..)
    | with_reducible apply Keeps.after (State.notify_keeps ..) | decide

theorem State.periodEnd_keeps (s : State) :
    Keeps [.notices, .overrides, .air, .drives, .lighting, .blinds, .rail, .faults, .supervision] s (s.periodEnd) := by
  unfold State.periodEnd
  repeat' first
    | with_reducible exact .refl _ _ | with_reducible apply Keeps.after (State.lapse_keeps ..)
    | with_reducible apply Keeps.ite | decide | split

end Sys2Proof.Machine
end

