-- ==== Sys2Proof/Laws/Moves.lean ====
section
/-! SUPPORT. What the operations of FaultMoves, Layouts, Clock, Answers, Resets, RoomEvents, PlantEvents leave alone. -/

namespace Sys2Proof.Machine
open Sys2Proof

theorem State.redriveSource_keeps (s : State) (x : Retried) :
    Keeps [.notices, .drives, .lighting, .blinds, .rail, .faults] s (s.redriveSource x) := by
  cases x
  · exact .after (State.rearmDamper_keeps ..) (by decide) (.refl _ _)
  · exact .after (State.rearmBlind_keeps ..) (by decide) (.refl _ _)
  · exact .after (State.rearmRail_keeps ..) (by decide) (.refl _ _)

theorem State.retryExpiry_keeps (s : State) (i : Fin 21) :
    Keeps [.notices, .drives, .lighting, .blinds, .rail, .faults] s (s.retryExpiry i) := by
  unfold State.retryExpiry
  repeat' first
    | with_reducible exact .refl _ _ | with_reducible apply Keeps.after (State.redriveSource_keeps ..)
    | with_reducible apply Keeps.after (State.updFault_keeps ..) | with_reducible apply Keeps.ite | decide
    | split

theorem State.normalExpiry_keeps (s : State) (i : Fin 21) :
    Keeps [.notices, .faults] s (s.normalExpiry i) := by
  unfold State.normalExpiry
  repeat' first
    | with_reducible exact .refl _ _ | with_reducible apply Keeps.after (State.notifyFault_keeps ..)
    | with_reducible apply Keeps.after (State.updFault_keeps ..) | with_reducible apply Keeps.ite | decide
    | split

theorem State.restartStuck_keeps (s : State) (i : Fin 21) :
    Keeps [.doors] s (s.restartStuck i) := by
  unfold State.restartStuck
  repeat' first
    | with_reducible exact .refl _ _ | with_reducible apply Keeps.after (State.updDoor_keeps ..)
    | with_reducible apply Keeps.ite | decide | split

theorem State.airPeriodWritten_keeps (s : State) :
    Keeps [.notices, .units, .air, .drives, .lighting, .blinds, .rail, .faults] s (s.airPeriodWritten) := by
  unfold State.airPeriodWritten
  repeat' first
    | with_reducible exact .refl _ _ | with_reducible apply Keeps.after (State.airUpdate_keeps ..)
    | with_reducible apply Keeps.ite | decide | split

theorem State.transitWritten_keeps (s : State) :
    Keeps [.notices, .doors, .units] s (s.transitWritten) := by
  unfold State.transitWritten
  repeat' first
    | with_reducible exact .refl _ _ | with_reducible apply Keeps.after (State.blockDoor_keeps ..)
    | with_reducible refine .foldl _ _ ?_ (fun _ _ => ?_) | with_reducible apply Keeps.ite | decide | split

theorem State.clearingWritten_keeps (s : State) :
    Keeps [.notices, .walker, .units, .modes, .lighting] s (s.clearingWritten) := by
  unfold State.clearingWritten
  repeat' first
    | with_reducible exact .refl _ _ | with_reducible apply Keeps.after (State.endClearing_keeps ..)
    | with_reducible refine .foldl _ _ ?_ (fun _ _ => ?_) | with_reducible apply Keeps.ite | decide | split

theorem State.vacancyWritten_keeps (s : State) :
    Keeps [.notices, .walker, .units, .headcounts, .modes, .lighting] s (s.vacancyWritten) := by
  unfold State.vacancyWritten
  repeat' first
    | with_reducible exact .refl _ _ | with_reducible apply Keeps.after (State.confirmVacancy_keeps ..)
    | with_reducible refine .foldl _ _ ?_ (fun _ _ => ?_) | with_reducible apply Keeps.ite | decide | split

theorem State.retryWritten_keeps (s : State) :
    Keeps [.notices, .drives, .lighting, .blinds, .rail, .faults] s (s.retryWritten) := by
  unfold State.retryWritten
  repeat' first
    | with_reducible exact .refl _ _ | with_reducible apply Keeps.after (State.retryExpiry_keeps ..)
    | with_reducible refine .foldl _ _ ?_ (fun _ _ => ?_) | with_reducible apply Keeps.ite | decide | split

theorem State.strokeWritten_keeps (s : State) (c : Cell) :
    Keeps [.notices, .drives, .faults, .calibrations] s (s.strokeWritten c) := by
  unfold State.strokeWritten
  dsimp only
  repeat' first
    | with_reducible exact .refl _ _ | with_reducible apply Keeps.after (State.reportStall_keeps ..)
    | with_reducible apply Keeps.after (State.withCalibrations_keeps ..) | with_reducible apply Keeps.ite
    | decide | split

theorem State.defaultCapWritten_keeps (s : State) :
    Keeps [.air] s (s.defaultCapWritten) := by
  unfold State.defaultCapWritten
  repeat' first
    | with_reducible exact .refl _ _ | with_reducible apply Keeps.after (State.defaultCap_keeps ..)
    | with_reducible apply Keeps.ite | decide | split

theorem State.firePositionWritten_keeps (s : State) (c : Cell) :
    Keeps [.notices, .drives, .lighting, .blinds, .rail, .faults] s (s.firePositionWritten c) := by
  unfold State.firePositionWritten
  repeat' first
    | with_reducible exact .refl _ _ | with_reducible apply Keeps.after (State.refreshNeeds_keeps ..)
    | with_reducible apply Keeps.after (State.redrive_keeps ..) | with_reducible apply Keeps.ite | decide
    | split

theorem State.periodWritten_keeps (s : State) :
    Keeps [.supervision] s (s.periodWritten) := by
  unfold State.periodWritten
  repeat' first
    | with_reducible exact .refl _ _ | with_reducible apply Keeps.after (State.updSupervision_keeps ..)
    | decide

theorem State.settingWritten_keeps (s : State) (k : SettingKey) (before : Settings) :
    Keeps [.notices, .walker, .doors, .presence, .fireInput, .arrangement, .units, .headcounts, .modes, .air, .drives, .lighting, .blinds, .rail, .faults, .supervision, .calibrations] s (s.settingWritten k before) := by
  unfold State.settingWritten
  repeat' first
    | with_reducible exact .refl _ _ | with_reducible apply Keeps.after (State.periodWritten_keeps ..)
    | with_reducible apply Keeps.after (State.firePositionWritten_keeps ..)
    | with_reducible apply Keeps.after (State.defaultCapWritten_keeps ..)
    | with_reducible apply Keeps.after (State.strokeWritten_keeps ..)
    | with_reducible apply Keeps.after (State.retryWritten_keeps ..)
    | with_reducible apply Keeps.after (State.vacancyWritten_keeps ..)
    | with_reducible apply Keeps.after (State.clearingWritten_keeps ..)
    | with_reducible apply Keeps.after (State.transitWritten_keeps ..)
    | with_reducible apply Keeps.after (State.airPeriodWritten_keeps ..)
    | with_reducible apply Keeps.after (State.defaultCap_keeps ..)
    | with_reducible apply Keeps.after (State.polarityWritten_keeps ..)
    | with_reducible apply Keeps.after (State.arrange_keeps ..)
    | with_reducible apply Keeps.after (State.driverMinWritten_keeps ..)
    | with_reducible apply Keeps.after (State.channelCellWritten_keeps ..)
    | with_reducible apply Keeps.after (State.driveSlotsWritten_keeps ..)
    | with_reducible apply Keeps.after (State.travelWritten_keeps ..)
    | with_reducible apply Keeps.after (State.blindCellWritten_keeps ..)
    | with_reducible apply Keeps.after (State.returnDoor_keeps ..)
    | with_reducible apply Keeps.after (State.judgePresence_keeps ..) | with_reducible apply Keeps.ite
    | decide | split

theorem State.beginSave_keeps (s : State) :
    Keeps [.store] s (s.beginSave) := by
  unfold State.beginSave
  repeat' first
    | with_reducible exact .refl _ _ | with_reducible apply Keeps.after (State.updStore_keeps ..) | decide

theorem State.saveOk_keeps (s : State) (k : Saving) :
    Keeps [.notices, .faults, .store] s (s.saveOk k) := by
  unfold State.saveOk
  dsimp only
  repeat' first
    | with_reducible exact .refl _ _ | with_reducible apply Keeps.after (State.withdrawFault_keeps ..)
    | with_reducible apply Keeps.after (State.updStore_keeps ..)
    | with_reducible apply Keeps.after (State.notify_keeps ..) | decide

theorem State.saveFailed_keeps (s : State) :
    Keeps [.notices, .faults, .store] s (s.saveFailed) := by
  unfold State.saveFailed
  dsimp only
  repeat' first
    | with_reducible exact .refl _ _ | with_reducible apply Keeps.after (State.reportPlain_keeps ..)
    | with_reducible apply Keeps.after (State.notifyFault_keeps ..)
    | with_reducible apply Keeps.after (State.updStore_keeps ..)
    | with_reducible apply Keeps.after (State.notify_keeps ..) | decide

theorem State.restore_keeps (s : State) (image : Image) :
    Keeps [.notices, .walker, .doors, .presence, .fireInput, .arrangement, .units, .headcounts, .modes, .air, .drives, .lighting, .blinds, .rail, .faults, .supervision, .settings, .profiles, .tables, .calibrations] s (s.restore image) := by
  unfold State.restore
  dsimp only
  repeat' first
    | with_reducible exact .refl _ _ | with_reducible apply Keeps.after (State.settingWritten_keeps ..)
    | with_reducible apply Keeps.after (State.withCalibrations_keeps ..)
    | with_reducible apply Keeps.after (State.withTables_keeps ..)
    | with_reducible apply Keeps.after (State.withProfiles_keeps ..)
    | with_reducible apply Keeps.after (State.withSettings_keeps ..)
    | with_reducible refine .foldl _ _ ?_ (fun _ _ => ?_) | decide

theorem State.readDrift_keeps (s : State) (id : UnitId) :
    Keeps [.drift] s (s.readDrift id) := by
  unfold State.readDrift
  repeat' first
    | with_reducible exact .refl _ _ | with_reducible apply Keeps.after (State.updDrift_keeps ..)
    | with_reducible apply Keeps.ite | decide | split

theorem State.setClock_keeps (s : State) (minute second : Nat) :
    Keeps [.notices, .clock, .walker, .units, .modes, .lighting, .faults] s (s.setClock minute second) := by
  unfold State.setClock
  dsimp only
  repeat' first
    | with_reducible exact .refl _ _ | with_reducible apply Keeps.after (State.clockSet_keeps ..)
    | with_reducible apply Keeps.after (State.withdrawFault_keeps ..)
    | with_reducible apply Keeps.after (State.updClock_keeps ..) | with_reducible apply Keeps.ite | decide
    | split

theorem State.tickSecond_keeps (s : State) :
    Keeps [.notices, .clock, .walker, .units, .modes, .lighting] s (s.tickSecond) := by
  unfold State.tickSecond
  repeat' first
    | with_reducible exact .refl _ _ | with_reducible apply Keeps.after (State.minuteEvent_keeps ..)
    | with_reducible apply Keeps.after (State.updClock_keeps ..) | with_reducible apply Keeps.ite | decide
    | split

theorem State.stopCrystal_keeps (s : State) :
    Keeps [.notices, .clock, .faults] s (s.stopCrystal) := by
  unfold State.stopCrystal
  dsimp only
  repeat' first
    | with_reducible exact .refl _ _ | with_reducible apply Keeps.after (State.reportPlain_keeps ..)
    | with_reducible apply Keeps.after (State.notifyFault_keeps ..)
    | with_reducible apply Keeps.after (State.updClock_keeps ..)
    | with_reducible apply Keeps.after (State.updFault_keeps ..) | with_reducible apply Keeps.ite | decide
    | split

theorem State.resumeCrystal_keeps (s : State) :
    Keeps [.clock] s (s.resumeCrystal) := by
  unfold State.resumeCrystal
  repeat' first
    | with_reducible exact .refl _ _ | with_reducible apply Keeps.after (State.updClock_keeps ..) | decide

theorem State.cancelChain_keeps (s : State) :
    Keeps [.notices, .walker, .units, .modes, .lighting] s (s.cancelChain) := by
  unfold State.cancelChain
  dsimp only
  repeat' first
    | with_reducible exact .refl _ _ | with_reducible apply Keeps.after (State.switchAndPass_keeps ..)
    | with_reducible apply Keeps.after (State.leaveCurrent_keeps ..)
    | with_reducible apply Keeps.after (State.deriveUnits_keeps ..)
    | with_reducible apply Keeps.after (State.updWalker_keeps ..)
    | with_reducible refine .foldl _ _ ?_ (fun _ _ => ?_) | with_reducible apply Keeps.ite | decide | split

theorem State.storeProfile_keeps (s : State) (n : Fin 8) (p : Profile) :
    Keeps [.profiles] s (s.storeProfile n p) := by
  unfold State.storeProfile
  repeat' first
    | with_reducible exact .refl _ _ | with_reducible apply Keeps.after (State.withProfiles_keeps ..)
    | decide

theorem State.placeOverride_keeps (s : State) (t : Fin 16) (value minutes : Nat) :
    Keeps [.notices, .overrides, .drives, .lighting, .blinds, .rail, .faults] s (s.placeOverride t value minutes) := by
  unfold State.placeOverride
  dsimp only
  repeat' first
    | with_reducible exact .refl _ _ | with_reducible apply Keeps.after (State.overrideMoved_keeps ..)
    | with_reducible apply Keeps.after (State.updSpace_overrides_keeps ..) | with_reducible apply Keeps.ite
    | decide | split

theorem State.requestCap_keeps (s : State) (cap : Nat) :
    Keeps [.air] s (s.requestCap cap) := by
  unfold State.requestCap
  repeat' first
    | with_reducible exact .refl _ _ | with_reducible apply Keeps.after (State.updAir_keeps ..) | decide

theorem State.beginDamperCal_keeps (s : State) (c : Cell) :
    Keeps [.notices, .drives, .lighting, .blinds, .rail, .faults] s (s.beginDamperCal c) := by
  unfold State.beginDamperCal
  dsimp only
  repeat' first
    | with_reducible exact .refl _ _ | with_reducible apply Keeps.after (State.refreshNeeds_keeps ..)
    | with_reducible apply Keeps.after (State.calRailOn_keeps ..)
    | with_reducible apply Keeps.after (State.calPhase_keeps ..) | with_reducible apply Keeps.ite | decide
    | split

theorem State.reportLost_keeps (s : State) :
    Keeps [.notices] s (s.reportLost) := by
  unfold State.reportLost
  repeat' first
    | with_reducible exact .refl _ _ | with_reducible apply Keeps.after (State.notify_keeps ..)
    | with_reducible apply Keeps.ite | decide | split

theorem State.reportDegraded_keeps (s : State) :
    Keeps [.notices, .faults] s (s.reportDegraded) := by
  unfold State.reportDegraded
  repeat' first
    | with_reducible exact .refl _ _ | with_reducible apply Keeps.after (State.reportPlain_keeps ..)
    | with_reducible apply Keeps.after (State.notifyFault_keeps ..) | with_reducible apply Keeps.ite
    | decide | split

theorem State.placeWalker_keeps (s : State) :
    Keeps [.notices, .walker, .units, .modes, .lighting] s (s.placeWalker) := by
  unfold State.placeWalker
  repeat' first
    | with_reducible exact .refl _ _ | with_reducible apply Keeps.after (State.largeSet_keeps ..)
    | with_reducible apply Keeps.ite | decide | split

theorem State.purgeExpiry_keeps (s : State) (id : UnitId) :
    Keeps [.units, .modes, .lighting] s (s.purgeExpiry id) := by
  unfold State.purgeExpiry
  repeat' first
    | with_reducible exact .refl _ _ | with_reducible apply Keeps.after (State.endPurge_keeps ..)
    | with_reducible apply Keeps.ite | decide | split

theorem State.overrideExpires_keeps (s : State) (t : Fin 16) :
    Keeps [.notices, .overrides, .drives, .lighting, .blinds, .rail, .faults] s (s.overrideExpires t) := by
  unfold State.overrideExpires
  repeat' first
    | with_reducible exact .refl _ _ | with_reducible apply Keeps.after (State.endOverride_keeps ..)
    | with_reducible apply Keeps.ite | decide | split

theorem State.presenceExpiry_keeps (s : State) (c : Cell) :
    Keeps [.notices, .walker, .presence, .units, .modes, .lighting] s (s.presenceExpiry c) := by
  unfold State.presenceExpiry
  dsimp only
  repeat' first
    | with_reducible exact .refl _ _ | with_reducible apply Keeps.after (State.setPresence_keeps ..)
    | with_reducible apply Keeps.ite | decide | split

theorem State.gatedTicks_keeps (s : State) :
    Keeps [.presence, .units] s (s.gatedTicks) := by
  unfold State.gatedTicks
  dsimp only
  repeat' first
    | with_reducible exact .refl _ _ | with_reducible apply Keeps.after (State.gatedTick_keeps ..)
    | with_reducible apply Keeps.after (State.updPresence_keeps ..)
    | with_reducible refine .foldl _ _ ?_ (fun _ _ => ?_) | decide

theorem State.vacancyReached_keeps (s : State) (id : UnitId) :
    Keeps [.notices, .walker, .units, .headcounts, .modes, .lighting] s (s.vacancyReached id) := by
  unfold State.vacancyReached
  dsimp only
  repeat' first
    | with_reducible exact .refl _ _ | with_reducible apply Keeps.after (State.confirmVacancy_keeps ..)
    | with_reducible apply Keeps.after (State.modifyUnit_keeps_both _ _ _ ?_ ?_)
    | with_reducible apply Keeps.ite | exact fun (u : UnitRec) => rfl
    | (refine fun (u : UnitRec) => ?_; split <;> rfl) | decide | split

theorem State.forcedReached_keeps (s : State) (id : UnitId) :
    Keeps [.notices, .walker, .units, .headcounts, .modes, .lighting] s (s.forcedReached id) := by
  unfold State.forcedReached
  repeat' first
    | with_reducible exact .refl _ _ | with_reducible apply Keeps.after (State.forcePresence_keeps ..)
    | with_reducible apply Keeps.ite | decide | split

theorem State.clearingReached_keeps (s : State) (id : UnitId) :
    Keeps [.notices, .walker, .units, .modes, .lighting] s (s.clearingReached id) := by
  unfold State.clearingReached
  repeat' first
    | with_reducible exact .refl _ _ | with_reducible apply Keeps.after (State.endClearing_keeps ..)
    | with_reducible apply Keeps.ite | decide | split

theorem State.calPhaseExpiry_keeps (s : State) (c : Cell) :
    Keeps [.notices, .drives, .lighting, .blinds, .rail, .faults] s (s.calPhaseExpiry c) := by
  unfold State.calPhaseExpiry
  repeat' first
    | with_reducible exact .refl _ _ | with_reducible apply Keeps.after (State.refreshNeeds_keeps ..)
    | with_reducible apply Keeps.after (State.endDamperCal_keeps ..) | with_reducible apply Keeps.ite
    | decide | split

theorem State.railDown_keeps (s : State) :
    Keeps [.notices, .drives, .lighting, .blinds, .rail, .faults] s (s.railDown) := by
  unfold State.railDown
  dsimp only
  repeat' first
    | with_reducible exact .refl _ _ | with_reducible apply Keeps.after (State.railFault_keeps ..)
    | with_reducible apply Keeps.after (State.updRail_keeps ..) | with_reducible apply Keeps.ite | decide
    | split

end Sys2Proof.Machine
end

