-- ==== Sys2Proof/Laws/Line.lean ====
section
/-! SUPPORT. The end of a step: what the link interface does at once after a command that handed over
notices and nothing else, and after a request that was taken at once. -/

namespace Sys2Proof.Machine
open Sys2Proof

/-! ## Notices handed over -/

@[simp] theorem Link.noteDrop_requests (l : Link) : l.noteDrop.requests = l.requests := rfl
@[simp] theorem Link.noteDrop_replies (l : Link) : l.noteDrop.replies = l.replies := rfl
@[simp] theorem Link.noteDrop_tx (l : Link) : l.noteDrop.tx = l.tx := rfl
@[simp] theorem Link.noteDrop_restart (l : Link) : l.noteDrop.restart = l.restart := rfl

/-- Taking a notice touches the notice queue, the overflow flag and the dropped count alone. -/
theorem Link.place_eq (l : Link) (n : Notice) :
    l.place n = { l with
      notices := (l.place n).notices, overflow := (l.place n).overflow, dropped := (l.place n).dropped } := by
  unfold Link.place
  split
  · rfl
  · split
    · rfl
    · split
      · split <;> rfl
      · rfl

@[simp] theorem Link.place_requests (l : Link) (n : Notice) : (l.place n).requests = l.requests := by
  rw [l.place_eq n]

@[simp] theorem Link.place_replies (l : Link) (n : Notice) : (l.place n).replies = l.replies := by
  rw [l.place_eq n]

@[simp] theorem Link.place_tx (l : Link) (n : Notice) : (l.place n).tx = l.tx := by rw [l.place_eq n]

@[simp] theorem Link.place_restart (l : Link) (n : Notice) : (l.place n).restart = l.restart := by
  rw [l.place_eq n]

@[simp] theorem Link.handed_nil (l : Link) : l.handed [] = l := rfl
theorem Link.handed_cons (l : Link) (n : Notice) (ns : List Notice) :
    l.handed (n :: ns) = (l.place n).handed ns := rfl
theorem Link.place_eq_handed (l : Link) (n : Notice) : l.place n = l.handed [n] := rfl
theorem Link.handed_place (l : Link) (ns : List Notice) (n : Notice) :
    (l.handed ns).place n = l.handed (ns ++ [n]) := by simp [Link.handed]

@[simp] theorem Link.handed_requests (l : Link) (ns : List Notice) : (l.handed ns).requests = l.requests := by
  induction ns generalizing l with
  | nil => rfl
  | cons n ns ih => rw [Link.handed_cons, ih, Link.place_requests]

@[simp] theorem Link.handed_replies (l : Link) (ns : List Notice) : (l.handed ns).replies = l.replies := by
  induction ns generalizing l with
  | nil => rfl
  | cons n ns ih => rw [Link.handed_cons, ih, Link.place_replies]

@[simp] theorem Link.handed_tx (l : Link) (ns : List Notice) : (l.handed ns).tx = l.tx := by
  induction ns generalizing l with
  | nil => rfl
  | cons n ns ih => rw [Link.handed_cons, ih, Link.place_tx]

@[simp] theorem Link.handed_restart (l : Link) (ns : List Notice) : (l.handed ns).restart = l.restart := by
  induction ns generalizing l with
  | nil => rfl
  | cons n ns ih => rw [Link.handed_cons, ih, Link.place_restart]

/-! ## The transmitter -/

@[simp] theorem Link.startFrame_requests (l : Link) : l.startFrame.requests = l.requests := by
  unfold Link.startFrame
  split
  · rfl
  · split
    · rfl
    · split <;> rfl

/-- With nothing to send the transmitter starts nothing. -/
theorem Link.startFrame_idle (l : Link)
    (h : l.tx = none → l.restart ≠ .sent → l.replies = [] ∧ l.notices = []) : l.startFrame = l := by
  unfold Link.startFrame
  split
  · rfl
  · next ht =>
    split
    · rfl
    · next hr =>
      obtain ⟨h1, h2⟩ := h ht hr
      simp [h1, h2]

/-! ## The end of a step -/

/-- With no request waiting, the transmitter starts what it can and that is all. -/
theorem State.settle_quiet (s : State) (h : s.link.requests = []) : s.settle = s.updLink Link.startFrame := by
  simp [State.settle, State.settleUpTo, h]

/-- With the reply queue full and the transmitter unable to start, no request is taken. -/
theorem State.settle_full (s : State) (h : Config.linkQueueSize ≤ s.link.replies.length)
    (k : s.link.startFrame = s.link) : s.settle = s.updLink Link.startFrame := by
  unfold State.settle
  generalize s.link.requests.length = n
  cases n with
  | zero => rfl
  | succ n =>
    have hr : s.link.startFrame.replyRoom = false := by
      rw [k]
      simpa [Link.replyRoom] using h
    simp only [State.settleUpTo, State.updLink_link, hr]
    split <;> rfl

/-- After a command that handed over notices alone, in a state where nothing waited, the transmitter starts
what it can and that is all. -/
theorem State.settle_handed {s t : State} (hs : s.Settled) {ns : List Notice} (h : t.link = s.link.handed ns) :
    t.settle = t.updLink Link.startFrame := by
  rcases hs.2 with hq | hq
  · exact t.settle_quiet (by simp [h, hq])
  · refine t.settle_full (by simpa [h] using hq) ?_
    refine t.link.startFrame_idle fun h1 h2 => ?_
    have h3 := (hs.1 (by simpa [h] using h1) (by simpa [h] using h2)).1
    rw [h3] at hq
    simp [Config.linkQueueSize] at hq

/-- The answer of a command that handed over notices alone. -/
theorem finish_handed {s t : State} (hs : s.Settled) {ns : List Notice} (h : t.link = s.link.handed ns) :
    finish t = .next { t with link := (s.link.handed ns).startFrame } := by
  rw [finish, State.settle_handed hs h, State.updLink, h]

/-- The answer of a command that left the link interface alone. -/
theorem finish_same {s t : State} (hs : s.Settled) (h : t.link = s.link) : finish t = .next t := by
  rw [finish_handed (ns := []) hs h, Link.handed_nil, Link.startFrame_idle _ hs.1, ← h]

/-- The answer of a request that is taken at once and hands over notices alone. -/
theorem finish_arrive {s : State} (hs : s.Takes) {i : Instr} {kind tag : Byte} {p : List Byte}
    (he : encodeRequest i = some (kind, tag, p)) (f : State → Answer × State)
    (h : (f s).2.link.requests = s.link.requests) :
    finish (s.arrive i f) = .next { (f s).2 with
      link := (f s).2.link.answered kind tag (f s).1.status (f s).1.data } := by
  have h1 : s.link.requests.isEmpty && s.link.replyRoom := by
    simp [hs.1, Link.replyRoom, hs.2]
  have h2 : s.arrive i f = s.take kind tag f := by
    rw [State.arrive, he]
    simp only [h1, ↓reduceIte]
  rw [finish, h2, State.settle_quiet]
  · rfl
  · simp [State.take, Link.reply, h, hs.1]

/-! ## Requests that may clamp -/

@[simp] theorem acceptClamped_state (clamped : Bool) (stored : List Byte) (s : State) :
    (acceptClamped clamped stored s).2 = s := rfl

/-- An answer that may be CLAMPED is OK alone, or CLAMPED with what was stored. -/
theorem acceptClamped_answer (clamped : Bool) (stored : List Byte) (s : State) :
    (acceptClamped clamped stored s).1 =
      if clamped then { status := .clamped, data := stored } else { status := .ok, data := [] } := by
  cases clamped <;> rfl

/-- The answer of a request that is refused, or only reads. -/
theorem finish_read {s : State} (hs : s.Takes) {i : Instr} {kind tag : Byte} {p : List Byte}
    (he : encodeRequest i = some (kind, tag, p)) (f : State → Answer × State) (h : (f s).2 = s) :
    finish (s.arrive i f) =
      .next { s with link := s.link.answered kind tag (f s).1.status (f s).1.data } := by
  rw [finish_arrive hs he f (by rw [h]), h]

end Sys2Proof.Machine
end

