-- ==== Sys2Proof/Laws/PerInstr.lean ====
section
/-! SUPPORT. Statements made per command: one lemma for each constructor of Instr. -/

namespace Sys2Proof.Laws.Frames
open Sys2Proof

/-- The frame of a well-formed command carries a payload of a length that its KIND permits (the LEN column of
section 11.2), and of at most 250 bytes (R179); a command that is no request has no frame. -/
def Statement (i : Instr) : Prop :=
  i.wellFormed = true → ∀ kind tag p, encodeRequest i = some (kind, tag, p) →
    p.length ≤ 250 ∧ (isRequestKind kind = true → (permittedLengths kind.toNat).contains p.length = true)

/-- A frame whose payload is counted: the count is one that its KIND permits. -/
theorem of_frame {i : Instr} {k t : Byte} {q : List Byte} (n : Nat) (h : encodeRequest i = some (k, t, q))
    (hq : q.length = n) (hn : n ≤ 250 ∧ (permittedLengths k.toNat).contains n = true) : Statement i := by
  rintro - kind tag p e
  obtain ⟨rfl, rfl, rfl⟩ : k = kind ∧ t = tag ∧ q = p := by simpa [h] using e
  exact ⟨hq ▸ hn.1, fun _ => hq ▸ hn.2⟩

/-- A command that is no request has no frame. -/
theorem of_none {i : Instr} (h : encodeRequest i = none) : Statement i :=
  fun _ _ _ _ e => by simp [h] at e

/-- A two-byte number has two bytes. -/
theorem le16_length (h : Half) : (le16 h).length = 2 := rfl

/-- A booking entry has 11 bytes (11.4). -/
theorem entry_length (e : EntryRecord) : e.bytes.length = 11 := rfl

/-- A profile record has 47 bytes (11.4). -/
theorem profile_length (r : ProfileRecord) : r.bytes.length = 47 := by
  unfold ProfileRecord.bytes
  simp only [List.length_append, le16_length]
  rfl

/-- Nine flow points have 18 bytes (11.4). -/
theorem points_length (f : Vector Half 9) : (pointsBytes f).length = 18 := by simp [pointsBytes, le16]

theorem ident : ∀ tag, Statement (.ident tag) :=
  fun _ => of_frame 0 rfl rfl (by decide)

theorem keepalive : ∀ tag, Statement (.keepalive tag) :=
  fun _ => of_frame 0 rfl rfl (by decide)

theorem setTime : ∀ tag minute second, Statement (.setTime tag minute second) :=
  fun _ _ _ => of_frame 3 rfl rfl (by decide)

theorem restart : ∀ tag, Statement (.restart tag) :=
  fun _ => of_frame 0 rfl rfl (by decide)

theorem setNoticeMask : ∀ tag kind setting, Statement (.setNoticeMask tag kind setting) :=
  fun _ _ _ => of_frame 2 rfl rfl (by decide)

theorem putSetting : ∀ tag number inst value, Statement (.putSetting tag number inst value) :=
  fun _ _ _ _ => of_frame 6 rfl rfl (by decide)

theorem getSetting : ∀ tag number inst, Statement (.getSetting tag number inst) :=
  fun _ _ _ => of_frame 2 rfl rfl (by decide)

theorem saveSettings : ∀ tag, Statement (.saveSettings tag) :=
  fun _ => of_frame 0 rfl rfl (by decide)

theorem restoreSettings : ∀ tag, Statement (.restoreSettings tag) :=
  fun _ => of_frame 0 rfl rfl (by decide)

theorem getChain : ∀ tag entry, Statement (.getChain tag entry)
  | _, none => of_frame 0 rfl rfl (by decide)
  | _, some (_, _) => of_frame 2 rfl rfl (by decide)

theorem chainBegin : ∀ tag repeating, Statement (.chainBegin tag repeating) :=
  fun _ _ => of_frame 1 rfl rfl (by decide)

theorem chainEntry : ∀ tag index entry, Statement (.chainEntry tag index entry) :=
  fun _ _ _ => of_frame 12 rfl (by simp [entry_length]) (by decide)

theorem chainCommit : ∀ tag, Statement (.chainCommit tag) :=
  fun _ => of_frame 0 rfl rfl (by decide)

theorem chainSwitch : ∀ tag timing, Statement (.chainSwitch tag timing) :=
  fun _ _ => of_frame 1 rfl rfl (by decide)

theorem chainCancel : ∀ tag, Statement (.chainCancel tag) :=
  fun _ => of_frame 0 rfl rfl (by decide)

theorem setStopMark : ∀ tag index mode, Statement (.setStopMark tag index mode) :=
  fun _ _ _ => of_frame 2 rfl rfl (by decide)

theorem walkerPause : ∀ tag, Statement (.walkerPause tag) :=
  fun _ => of_frame 0 rfl rfl (by decide)

theorem walkerResume : ∀ tag, Statement (.walkerResume tag) :=
  fun _ => of_frame 0 rfl rfl (by decide)

theorem releaseHold : ∀ tag cell, Statement (.releaseHold tag cell) :=
  fun _ _ => of_frame 1 rfl rfl (by decide)

theorem getUnit : ∀ tag unit, Statement (.getUnit tag unit) :=
  fun _ _ => of_frame 1 rfl rfl (by decide)

theorem getCell : ∀ tag cell, Statement (.getCell tag cell) :=
  fun _ _ => of_frame 1 rfl rfl (by decide)

theorem putProfile : ∀ tag number profile, Statement (.putProfile tag number profile) :=
  fun _ _ _ => of_frame 48 rfl (by simp [profile_length]) (by decide)

theorem getProfile : ∀ tag number, Statement (.getProfile tag number) :=
  fun _ _ => of_frame 1 rfl rfl (by decide)

theorem setOverride : ∀ tag target value expiry, Statement (.setOverride tag target value expiry) :=
  fun _ _ _ _ => of_frame 5 rfl rfl (by decide)

theorem clearOverride : ∀ tag target, Statement (.clearOverride tag target) :=
  fun _ _ => of_frame 1 rfl rfl (by decide)

theorem getDoorway : ∀ tag channel, Statement (.getDoorway tag channel) :=
  fun _ _ => of_frame 1 rfl rfl (by decide)

theorem setHeadcount : ∀ tag unit count, Statement (.setHeadcount tag unit count) :=
  fun _ _ _ => of_frame 3 rfl rfl (by decide)

theorem setSupplyCap : ∀ tag cap, Statement (.setSupplyCap tag cap) :=
  fun _ _ => of_frame 2 rfl rfl (by decide)

theorem calibrateDamper : ∀ tag cell, Statement (.calibrateDamper tag cell) :=
  fun _ _ => of_frame 1 rfl rfl (by decide)

theorem putDamperTable : ∀ tag cell points, Statement (.putDamperTable tag cell points) :=
  fun _ _ _ => of_frame 19 rfl (by simp [points_length]) (by decide)

theorem getChannel : ∀ tag channel, Statement (.getChannel tag channel) :=
  fun _ _ => of_frame 1 rfl rfl (by decide)

theorem setSunState : ∀ tag sun, Statement (.setSunState tag sun) :=
  fun _ _ => of_frame 1 rfl rfl (by decide)

theorem calibrateBlind : ∀ tag group, Statement (.calibrateBlind tag group) :=
  fun _ _ => of_frame 1 rfl rfl (by decide)

theorem getBlind : ∀ tag group, Statement (.getBlind tag group) :=
  fun _ _ => of_frame 1 rfl rfl (by decide)

theorem getFaults : ∀ tag selection, Statement (.getFaults tag selection) :=
  fun _ _ => of_frame 1 rfl rfl (by decide)

theorem clearFault : ∀ tag source keepCount, Statement (.clearFault tag source keepCount) :=
  fun _ _ _ => of_frame 2 rfl rfl (by decide)

theorem unknownKind : ∀ tag kind payload, Statement (.unknownKind tag kind payload) := by
  intro tag kind payload w k t p e
  obtain ⟨rfl, -, rfl⟩ : kind = k ∧ tag = t ∧ payload = p := by simpa [encodeRequest] using e
  have := w
  simp only [Instr.wellFormed, Bool.and_eq_true, Bool.not_eq_true', decide_eq_true_eq] at this
  exact ⟨this.2, fun h => by simp [this.1] at h⟩

theorem byteReceived : ∀ value stopHigh, Statement (.byteReceived value stopHigh) := fun _ _ => of_none rfl

theorem gapTimeout : Statement .gapTimeout := of_none rfl

theorem transmitDone : Statement .transmitDone := of_none rfl

theorem powerOn : Statement .powerOn := of_none rfl

theorem brownOut : Statement .brownOut := of_none rfl

theorem resetLine : Statement .resetLine := of_none rfl

theorem restartReset : Statement .restartReset := of_none rfl

theorem secondTick : Statement .secondTick := of_none rfl

theorem minuteEvent : Statement .minuteEvent := of_none rfl

theorem crystalStopped : Statement .crystalStopped := of_none rfl

theorem crystalResumed : Statement .crystalResumed := of_none rfl

theorem partitionContactEdge : ∀ contactOpen, Statement (.partitionContactEdge contactOpen) := fun _ => of_none rfl

theorem partitionDebounce : Statement .partitionDebounce := of_none rfl

theorem fireInputEdge : ∀ high, Statement (.fireInputEdge high) := fun _ => of_none rfl

theorem fireDebounce : Statement .fireDebounce := of_none rfl

theorem purgeTimerExpiry : ∀ unit, Statement (.purgeTimerExpiry unit) := fun _ => of_none rfl

theorem overrideExpiry : ∀ target, Statement (.overrideExpiry target) := fun _ => of_none rfl

theorem beamPinEdge : ∀ channel side high, Statement (.beamPinEdge channel side high) := fun _ _ _ => of_none rfl

theorem beamDebounce : ∀ channel side, Statement (.beamDebounce channel side) := fun _ _ => of_none rfl

theorem transitTimeout : ∀ channel, Statement (.transitTimeout channel) := fun _ => of_none rfl

theorem blockClearExpiry : ∀ channel, Statement (.blockClearExpiry channel) := fun _ => of_none rfl

theorem doorwayStuck : ∀ channel, Statement (.doorwayStuck channel) := fun _ => of_none rfl

theorem detectorPinEdge : ∀ detector high, Statement (.detectorPinEdge detector high) := fun _ _ => of_none rfl

theorem motionEvent : ∀ detector, Statement (.motionEvent detector) := fun _ => of_none rfl

theorem presenceHoldExpiry : ∀ cell, Statement (.presenceHoldExpiry cell) := fun _ => of_none rfl

theorem gatedTimerTick : Statement .gatedTimerTick := of_none rfl

theorem vacancyConfirmed : ∀ unit, Statement (.vacancyConfirmed unit) := fun _ => of_none rfl

theorem presenceForced : ∀ unit, Statement (.presenceForced unit) := fun _ => of_none rfl

theorem clearingExpiry : ∀ unit, Statement (.clearingExpiry unit) := fun _ => of_none rfl

theorem airUpdate : Statement .airUpdate := of_none rfl

theorem sensorSample : ∀ levels, Statement (.sensorSample levels) := fun _ => of_none rfl

theorem holdTimerExpiry : ∀ channel, Statement (.holdTimerExpiry channel) := fun _ => of_none rfl

theorem damperStall : ∀ cell, Statement (.damperStall cell) := fun _ => of_none rfl

theorem calibrationPhaseTimeout : ∀ cell, Statement (.calibrationPhaseTimeout cell) := fun _ => of_none rfl

theorem temperatureUpdate : ∀ cell, Statement (.temperatureUpdate cell) := fun _ => of_none rfl

theorem lightingStep : Statement .lightingStep := of_none rfl

theorem pwmPeriodStart : Statement .pwmPeriodStart := of_none rfl

theorem daylightUpdate : Statement .daylightUpdate := of_none rfl

theorem freezeTimerExpiry : ∀ cell, Statement (.freezeTimerExpiry cell) := fun _ => of_none rfl

theorem blindEvaluation : Statement .blindEvaluation := of_none rfl

theorem currentSample : ∀ group current, Statement (.currentSample group current) := fun _ _ => of_none rfl

theorem blindLimitUnseen : ∀ group, Statement (.blindLimitUnseen group) := fun _ => of_none rfl

theorem reversingEnd : ∀ group, Statement (.reversingEnd group) := fun _ => of_none rfl

theorem calibrationLegTimeout : ∀ group, Statement (.calibrationLegTimeout group) := fun _ => of_none rfl

theorem sunHoldExpiry : Statement .sunHoldExpiry := of_none rfl

theorem railSettleEnd : Statement .railSettleEnd := of_none rfl

theorem railLingerExpiry : Statement .railLingerExpiry := of_none rfl

theorem railFaultPinEdge : ∀ high, Statement (.railFaultPinEdge high) := fun _ => of_none rfl

theorem railDown : Statement .railDown := of_none rfl

theorem retryExpiry : ∀ source, Statement (.retryExpiry source) := fun _ => of_none rfl

theorem normalTimerExpiry : ∀ source, Statement (.normalTimerExpiry source) := fun _ => of_none rfl

theorem periodEnd : Statement .periodEnd := of_none rfl

theorem saveDone : ∀ agrees, Statement (.saveDone agrees) := fun _ => of_none rfl

theorem saveWriteTimeout : Statement .saveWriteTimeout := of_none rfl

end Sys2Proof.Laws.Frames
end

