-- ==== Sys2Proof/Tests/Slice0.lean ====
section
/-! SUPPORT. Tests: the ill-formed commands that WellFormed refuses, request frames written out byte by byte
from chapter 11, the worked examples of the chapters, and for every statement with hypotheses a concrete
state and operands that meet them. -/

namespace Sys2Proof.Tests
open Sys2Proof Sys2Proof.Machine

/-! ## Helpers -/

/-- The machine right after its first power-on reset. -/
def s0 : State := State.reset

/-- The state a step answers, the reset state where it answers none. -/
def after : Host.Outcome State Fault Refusal → State
  | .next t => t
  | _ => State.reset

/-- A state with an idle transmitter and nothing waiting. -/
def calm : State := { s0 with link := { s0.link with tx := none, notices := [] } }

/-- A state with the settings changed. -/
def tuned (f : Settings → Settings) : State := s0.withSettings (f s0.working.settings)

/-- The reset state with unit A changed. -/
def unitA (f : UnitRec → UnitRec) : State := s0.modifyUnit .a f

/-- The reset state with a record AB, the partition open and "divisible" on. -/
def joinedState (ab : UnitRec) : State :=
  { tuned (fun w => { w with divisible := true }) with
    space := { s0.space with units := .joined ab, partition := .opened, contact := .opened } }

/-- A booking entry for the tests: from Monday 09:00, 90 minutes, profile 1, 30 people. -/
def entry (t : Target) : Entry where
  start := 540
  duration := 90
  target := t
  profile := 1
  expected := 30
  notifyEnd := true
  hold := false
  last := true
  tag := 0x1234

/-- The entry as CHAIN_ENTRY carries it. -/
def entryRecord : EntryRecord where
  start := 540
  duration := 90
  target := 0
  profile := 1
  expected := 30
  flags := 5
  tag := 0x1234

/-- A booking of the entry, in the state and with the minutes given. -/
def booking (state : BookingState) (minutes : Nat) : Booking where
  index := some 0
  entry := entry .a
  state := state
  minutes := minutes
  sinceStart := 0
  vacant := 0
  seenOccupied := false
  startedLate := false
  marked := false

/-- The reset state with a STANDBY bank. -/
def standby (es : List Entry) (state : BankState) : State :=
  s0.updWalker fun w => { w with standby := { entries := es, state := state, repeating := .weekly } }

/-! ## WellFormed -/

theorem test_unknownKind_of_a_request_kind : (Instr.unknownKind 1 0x03 []).wellFormed = false := by decide
theorem test_unknownKind_with_251_bytes :
    (Instr.unknownKind 1 0x0A (List.replicate 251 0)).wellFormed = false := by
  simp only [Instr.wellFormed, List.length_replicate]
  decide
theorem test_unknownKind_between_the_groups : (Instr.unknownKind 1 0x0A [7]).wellFormed = true := by decide
theorem test_unknownKind_past_the_last : (Instr.unknownKind 1 0x31 []).wellFormed = true := by decide
theorem test_illFormed_is_refused : exec (.unknownKind 1 0x30 []) s0 = .refused .illFormed := rfl

/-! ## Frames (section 11.9, and one of each group of section 11.2) -/

/-- The bytes of 11.9: SET_TIME to minute 540 under tag 0x21. -/
theorem test_setTime_frame :
    frameBytes 0x03 0x21 [0x1C, 0x02, 0x00] = [0xA5, 3, 0x03, 0x21, 0x1C, 0x02, 0x00, 0xBB] := by decide

/-- The reply of 11.9. -/
theorem test_setTime_reply : frameBytes 0x03 0x21 [0] = [0xA5, 1, 0x03, 0x21, 0, 0xDB] := by decide

theorem test_read_setTime : decodeRequest 0x03 0x21 [0x1C, 0x02, 0x00] = .command (.setTime 0x21 540 0) := by
  decide

theorem test_read_putSetting :
    decodeRequest 0x06 1 [18, 1, 0x94, 0x11, 0, 0] = .command (.putSetting 1 18 1 4500) := by decide

theorem test_read_chainEntry :
    decodeRequest 0x12 1 [0, 0x1C, 0x02, 90, 0, 0, 1, 30, 0, 5, 0x34, 0x12] =
      .command (.chainEntry 1 0 entryRecord) := by decide

theorem test_read_override :
    decodeRequest 0x24 1 [5, 0xF4, 0x01, 60, 0] = .command (.setOverride 1 5 500 60) := by decide

theorem test_read_bad_length : decodeRequest 0x03 1 [0x1C, 0x02] = .badLength := by decide

/-! ## Worked examples -/

/-- 5.9: the shares of 7000 between demands 4344 and 3200 with area terms 576 and 480. -/
theorem test_shares_of_a_cap : allocate 7000 4344 3200 576 480 = (4029, 2971) := by decide

/-- 5.9: the same demands under a cap of 900, below the floors. -/
theorem test_scaled_floors : allocate 900 4344 3200 576 480 = (491, 409) := by decide

/-- 5.9: the trim of unit A. -/
theorem test_trim :
    proportionalPart 32 140 = 280 ∧ integralAfter 120 2000 16 140 false = 128 ∧ trimOf 280 128 = 408 := by decide

/-- 5.10: at update 5 the integral takes trunc(8 × 580 / 256). -/
theorem test_integral_after_release : integralAfter 0 1500 8 580 false = 18 := by decide

/-- 5.3: the EXAM profile's effective persons. -/
theorem test_effective_persons : effectivePersons .await 0 110 800 = 88 := by decide

/-- 6.8: positions 822 and 743 of flows 4029 and 2971. -/
theorem test_positions :
    positionFor #v[0, 600, 1300, 2000, 2650, 3250, 3800, 4200, 4500] 4029 = 822 ∧
      positionFor #v[0, 500, 1000, 1500, 2000, 2500, 3000, 3500, 4000] 2971 = 743 := by decide

/-- 6.10: the three updates of the reheat loop, and the one in PURGE. -/
theorem test_reheat :
    reheat 40 16 210 196 300 = (370, 303) ∧ reheat 40 16 210 205 303 = (328, 304) ∧
      reheat 40 16 210 215 304 = (279, 303) ∧ reheat 40 16 170 214 303 = (83, 292) := by decide

/-- R132 and 7.12: duties of 500, 1000, 11, 12, 520, 515 and 496. -/
theorem test_duties :
    dutyFor 500 = 1024 ∧ dutyFor 1000 = 4095 ∧ dutyFor 11 = 0 ∧ dutyFor 12 = 1 ∧ dutyFor 520 = 1107 ∧
      dutyFor 515 = 1086 ∧ dutyFor 496 = 1007 := by decide

/-- 7.12: the daylight factor falls from 635 to 620. -/
theorem test_daylight : daylightAfter 635 500 560 64 = 620 := by decide

/-- R6: 57 people over 96 m² and 80 m² give A 31; 400 over 10 m² and 400 m² are limited to 150 and 250. -/
theorem test_split_shares : splitShare 57 96 80 = 31 ∧ splitShare 400 10 400 = 150 := by decide

/-- R165: a level of 1600 mV reads 0 of the span and 10400 mV its top. -/
theorem test_scaling :
    scaleSample 1600 2000 = 0 ∧ scaleSample 6000 2000 = 1000 ∧ scaleSample 10400 2000 = 2000 := by decide

/-- R176: a period of 10 s with a fraction of 25 opens its window at 7 s. -/
theorem test_opening_point : openingPoint 10 25 = 7 := by decide

/-- 11.9: SET_TIME sets the clock; the minute 10080 is refused. -/
theorem test_setTime_sets_the_clock :
    (after (exec (.setTime 0x21 540 0) s0)).clock.minute = 540 ∧
      (after (exec (.setTime 0x21 10080 0) s0)).clock.isSet = false := by decide

/-- R56: an outer break of an IDLE channel leads to IN_OUTER. -/
theorem test_passage_begins :
    (after (exec (.beamDebounce 0 .outer)
      (s0.updDoor 0 fun d => { d with
        outer := { pin := true, debounced := some false, pending := some { elapsed := 50, limit := 50 },
                   broken := false } }))).doors[(0 : Fin 4)].passage = .inOuter := by decide

/-! ## Witnesses: for each statement with hypotheses, states and operands that meet them -/

/-- The reset state with its door 0 waiting for the debounce of its outer beam, high after low. -/
def doorState (f : Door → Door) : State :=
  s0.updDoor 0 fun d => f { d with
    outer := { pin := true, debounced := some false, pending := some { elapsed := 50, limit := 50 },
               broken := false }
    inner := { pin := false, debounced := some false, pending := none, broken := false } }

/-- The same with a clear of its inner beam to complete. -/
def innerClears (f : Door → Door) : State :=
  s0.updDoor 0 fun d => f { d with
    outer := { pin := false, debounced := some false, pending := none, broken := false }
    inner := { pin := false, debounced := some true, pending := some { elapsed := 50, limit := 50 },
               broken := true } }

/-- The same with a clear of its outer beam to complete. -/
def outerClears (f : Door → Door) : State :=
  s0.updDoor 0 fun d => f { d with
    outer := { pin := false, debounced := some true, pending := some { elapsed := 50, limit := 50 },
               broken := true }
    inner := { pin := false, debounced := some false, pending := none, broken := false } }

/-- The reset state with fire about to come into force. -/
def fireComing : State := { s0 with space := { s0.space with firePin := false, fireTimer := some 1000 } }

/-- Fire in force and about to clear. -/
def fireGoing : State :=
  { (s0.modifyUnit .a fun u => { u with mode := .fire }).modifyUnit .b (fun u => { u with mode := .fire }) with
    space := { s0.space with
      fire := .inForce, fireTimer := some 1000
      units := .split { UnitRec.fresh with mode := .fire } { UnitRec.fresh with mode := .fire } } }

/-- The reset state with the rail ON and no need raised. -/
def railOn : State := { s0 with rail := { s0.rail with state := .on, linger := some 60000 } }

/-- A state in which group 0 moves. -/
def moving (f : Group → Group) : State :=
  { (railOn.updGroup 0 fun r => f { r with state := .movingUp, segStart := 500, estimate := 500 }) with
    scanner := s0.scanner }

/-- A save under way. -/
def saving : State :=
  { s0 with store := { image := none, saving := some { snapshot := s0.snapshot, elapsed := 900 } } }

/-- A record in place of the record of one source. -/
def faulty (i : Fin 21) (f : FaultRec → FaultRec) : State := s0.updFault i f

theorem witness_StepKeepsTheLinkSound :
    s0.link.Sound ∧ s0.Settled ∧ step { s0 with pending := [.secondTick] } = .next (after (exec .secondTick s0)) :=
  ⟨by decide, by decide, rfl⟩

theorem witness_StepKeepsTheFireLock : fireGoing.FireSound ∧ ∃ t, step fireGoing = .next t :=
  ⟨⟨by decide, fun id u h => by cases id <;> simp_all [fireGoing, State.unit?, Units.get?] <;> simp [← h]⟩, _, rfl⟩

theorem witness_StepKeepsHeadcountsInRange :
    (unitA fun u => { u with headcount := 250 }).HeadcountSound ∧
      ∃ t, step (unitA fun u => { u with headcount := 250 }) = .next t :=
  ⟨fun id u h => by
    cases id <;> simp_all [unitA, State.modifyUnit, State.updSpace, State.unit?, s0, State.reset, State.initial,
      Space.fresh, Units.modify, Units.get?] <;> simp [← h, UnitId.maxHeadcount, UnitRec.fresh], _, rfl⟩

theorem witness_RequestFramesReadBack :
    (Instr.setTime 0x21 540 0).wellFormed = true ∧
      encodeRequest (.setTime 0x21 540 0) = some (0x03, 0x21, [0x1C, 0x02, 0x00]) := by decide

theorem witness_FrameBytesActAsTheRequest :
    (Instr.unknownKind 5 0xFF [1, 2]).wellFormed = true ∧
      encodeRequest (.unknownKind 5 0xFF [1, 2]) = some (0xFF, 5, [1, 2]) ∧ s0.Settled ∧
      s0.link.framer = Framer.hunting := by decide

theorem witness_FramerHuntsAndAbandons :
    s0.Settled ∧ s0.link.framer.state = .hunt ∧
      (s0.updLink fun l => { l with framer := { l.framer with state := .length } }).Settled ∧ 250 < (251 : Byte).toNat ∧
      (s0.updLink fun l => { l with framer := { l.framer with state := .check, sum := 0x45 } }).Settled ∧
      (0x45 : Byte) + 0xBA ≠ 0 := by decide

theorem witness_TransmitterTakesRepliesFirst :
    s0.link.tx.isSome ∧ s0.link.restart = .none ∧ s0.link.requests = [] ∧ s0.link.replies = [] ∧
      s0.link.notices ≠ [] ∧ (s0.updLink fun l => { l with notices := [] }).link.notices = [] ∧
      (s0.updLink fun l => l.reply 1 1 { status := .ok, data := [] }).link.replies ≠ [] := by decide

theorem witness_RequestWaitsWhileRepliesAreFull :
    let x : Reply := { kind := 1, tag := 1, status := .ok, data := [] }
    let s := s0.updLink fun l => { l with replies := [x, x, x, x] }
    (Instr.ident 1).wellFormed = true ∧ (encodeRequest (.ident 1)).isSome ∧ s.Settled ∧
      4 ≤ s.link.replies.length := by decide

theorem witness_UnknownKindsAreAnswered :
    s0.Takes ∧ isRequestKind 0x31 = false ∧ ([] : List Byte).length ≤ 250 ∧ isRequestKind 0x30 = true := by decide

/-- A SET_TIME of two payload bytes whose CHECK byte, 7 against a sum of -7, agrees. -/
def shortSetTime : State :=
  s0.updLink fun l => { l with framer :=
    { Framer.hunting with state := .check, len := 2, kind := 0x03, tag := 9, payload := [28, 2], sum := 0xF9 } }

theorem witness_UnknownKindsAreAnswered_badLength :
    shortSetTime.Settled ∧ shortSetTime.Takes ∧ shortSetTime.link.framer.state = .check ∧
      shortSetTime.link.framer.sum + 7 = 0 ∧ isRequestKind shortSetTime.link.framer.kind = true ∧
      shortSetTime.link.framer.payload.length ∉ permittedLengths shortSetTime.link.framer.kind.toNat := by decide

/-- R181, R197: a length the kind does not permit is answered BAD_LENGTH with a detail of 0. -/
theorem test_bad_length :
    (after (exec (.byteReceived 7 true) shortSetTime)).link.replies =
      [{ kind := 0x03, tag := 9, status := .badLength, data := [0, 0] }] := by decide

theorem witness_ReadingRequestsChangeNothing :
    s0.Takes ∧ settingKey (49 : Byte).toNat (0 : Byte).toNat = some .windowFraction ∧
      settingKey (32 : Byte).toNat (7 : Byte).toNat = some (.driverMin 7) ∧
      (standby [entry .a] .ready).Takes ∧
      (standby [entry .a] .ready).walker.standby.entries[(0 : Byte).toNat]? = some (entry .a) ∧
      (1 : Byte).toNat = cellCode .b ∧ (7 : Byte).toNat = (7 : Fin 8) ∧ (3 : Byte).toNat = (3 : Fin 4) ∧
      (1 : Byte).toNat = (if true then 1 else 0) := by decide

theorem witness_ReadingOutOfRangeIsRefused :
    s0.Takes ∧ settingKey (50 : Byte).toNat (0 : Byte).toNat = none ∧ settingKey (6 : Byte).toNat (4 : Byte).toNat = none ∧
      (standby [entry .a] .ready).Takes ∧
      (standby [entry .a] .ready).walker.standby.entries.length ≤ (1 : Byte).toNat ∧
      s0.walker.active.entries.length ≤ (0 : Byte).toNat ∧
      2 ≤ (2 : Byte).toNat ∧ 3 ≤ (3 : Byte).toNat ∧ 8 ≤ (8 : Byte).toNat ∧ 4 ≤ (4 : Byte).toNat := by decide

theorem witness_GetUnitClearsTheDriftTallies :
    s0.Takes ∧ (2 : Byte).toNat = unitCode .ab ∧ s0.unit? .ab = none ∧ (0 : Byte).toNat = unitCode .a ∧
      s0.unit? .a = some UnitRec.fresh := by decide

theorem witness_SetNoticeMaskWritesTheMask :
    s0.Takes ∧ (1 : Byte).toNat = (if true then 1 else 0) ∧ (0x9C : Byte).toNat = 0x80 + (28 : Fin 29) ∧
      (0x7F : Byte).toNat < 0x80 ∧ 0x9C < (0x9D : Byte).toNat ∧ (0x9D : Byte) ≠ 0xFF := by decide

/-- Supervised, with a period of 10 s and the time in it given, in ms. -/
def supervised (ms : Nat) : State :=
  { tuned (fun w => { w with supervisionPeriod := 10, windowFraction := 25 }) with
    supervision := { state := .supervised, reason := none, period := some ms } }

theorem witness_KeepaliveStartsThePeriod :
    s0.Takes ∧ s0.supervision.state = .unsupervised ∧ (supervised 7000).Takes ∧
      (supervised 7000).supervision.state = .supervised ∧
      (supervised 7000).working.settings.supervisionPeriod *
          (100 - (supervised 7000).working.settings.windowFraction) / 100 * 1000 ≤
        (supervised 7000).supervision.period.getD 0 ∧
      (s0.updSupervision fun _ => Supervision.fresh 10).supervision.state = .awaitingFirst := by decide

theorem witness_LapseEndsOverridesAndTheCap :
    (supervised 6999).supervision.state = .supervised ∧ (supervised 6999).Takes ∧
      (supervised 6999).supervision.period.getD 0 <
        (supervised 6999).working.settings.supervisionPeriod *
          (100 - (supervised 6999).working.settings.windowFraction) / 100 * 1000 ∧
      (supervised 10000).Settled ∧ (supervised 10000).supervision.period.isSome ∧
      (supervised 6999).rail.faultLevel = false := by decide

/-- R178: a lapse tells SUPERVISION_LAPSED and then the end of each override, here those of targets 1 and 5. -/
theorem test_lapse_notices :
    let s := (supervised 10000).updSpace fun p =>
      { p with
        overrides := (p.overrides.set 1 (some { value := 300, remaining := none })).set 5
          (some { value := 500, remaining := some 60000 }) }
    (after (exec .periodEnd { s with link := { s.link with notices := [] } })).link.notices.map
        (fun n => (n.kind, n.source, n.value)) =
      [(.supervisionLapsed, none, 1), (.overrideEnded, some 1, 3), (.overrideEnded, some 5, 3)] := by decide

theorem witness_SetTimeSetsTheClock :
    s0.Takes ∧ (10079 : Half).toNat ≤ 10079 ∧ (59 : Byte).toNat ≤ 59 ∧ 10079 < (10080 : Half).toNat ∧
      59 < (60 : Byte).toNat := by decide

/-- The clock at 500 and the walker in the state given, its chain one ONCE entry from 540 to 630 not yet begun. -/
def clocked (isSet : Bool) (w : WalkerState) : State :=
  (s0.updClock fun c => { c with minute := 500, isSet := isSet }).updWalker fun x => { x with
    active := { entries := [entry .a], state := .active, repeating := .once }, state := w, cursor := some 0
    cycle := 490 }

/-- The steps from 500: of 15 small, of 16 large, of 0 large with the clock not set before; one that finds the entry in
progress with a foreign booking in NEXT ends the ONCE chain. -/
theorem witness_SetTimeSetsTheClock_walker :
    (clocked true .paused).Takes ∧ (515 + 10080 - 500) % 10080 = 15 ∧ (516 + 10080 - 500) % 10080 = 16 ∧
      (clocked true .idle).walker.state = .idle ∧ (clocked false .clockWait).clock.isSet = false ∧
      ((clocked true .stalled).walker.active.entries.findIdx? fun e => decide (629 < e.start + e.duration)) = some 0 ∧
      ((clocked true .stalled).walker.active.entries.findIdx? fun e => decide (630 < e.start + e.duration)) = none ∧
      490 + 15 + (clocked true .running).working.profiles[(entry .a).profile].lead < (entry .a).start ∧
      (clocked true .stalled).walker.queuedSwitch ≠ some .atChainEnd ∧
      (s0.updClock fun c => { c with degraded := true }).clock.crystal = true := by decide

/-- R50: a step of 15 adds itself to C, a step of 16 places it; an entry in progress whose NEXT slot is occupied is
passed over. -/
theorem test_clock_steps :
    (after (exec (.setTime 1 515 0) (clocked true .paused))).walker.cycle = 505 ∧
      (after (exec (.setTime 1 516 0) (clocked true .paused))).walker.cycle = 516 ∧
      (after (exec (.setTime 1 629 0) ((clocked true .stalled).updWalker fun w =>
        { w with next := .cells (some { booking .armed 9 with index := none }) none }))).walker.state = .finished := by
  decide

theorem witness_StoreRequestsAreTakenOrBusy :
    s0.Takes ∧ s0.store.saving = none ∧ s0.store.image = none ∧ saving.Takes ∧ saving.store.saving.isSome ∧
      ({ s0 with store := { image := some s0.snapshot, saving := none } } : State).Takes := by decide

theorem witness_SaveEndsWithItsResult :
    let failing := { saving with faults := (faulty 20 fun r => { r with state := .active }).faults }
    saving.Settled ∧ saving.store.saving = some { snapshot := s0.snapshot, elapsed := 900 } ∧
      saving.faults[storeSource].state = .clear ∧ failing.Settled ∧
      failing.store.saving = some { snapshot := s0.snapshot, elapsed := 900 } ∧
      failing.faults[storeSource].state ≠ .clear := by decide

theorem witness_PutSettingStoresTheValue :
    s0.Takes ∧ s0.store.saving = none ∧ settingKey (16 : Byte).toNat (0 : Byte).toNat = some .airPeriod ∧
      (s0.working.settings.write .airPeriod (61 : Word32).toNat).map (·.2) = some true ∧
      (s0.working.settings.write .airPeriod (60 : Word32).toNat).map (·.2) = some false ∧
      settingKey (1 : Byte).toNat (0 : Byte).toNat = some .divisible ∧
      s0.working.settings.write .divisible (2 : Word32).toNat = none := by decide

theorem witness_PutSettingStoresTheValue_refused :
    s0.Takes ∧ s0.store.saving = none ∧ 49 < (50 : Byte).toNat ∧
      settingKey (1 : Byte).toNat (1 : Byte).toNat = none := by decide

theorem witness_SettingWritesTouchOneSetting :
    (Settings.factory.write (.qmax .a) 500).map (fun x => (x.1.qmin.a, x.2)) = some (500, true) ∧
      Settings.factory.write .windowFraction 30 = none ∧ SettingKey.windowFraction.named = true ∧
      ¬ Settings.factory.lists .windowFraction 30 := by decide

/-- R143, R176, R182: each range at and past its ends. -/
theorem witness_SettingWritesTouchOneSetting_ranges :
    let w := Settings.factory
    w.listed .airPeriod = [(5, 60)] ∧ SettingKey.airPeriod.named = false ∧
      (w.write .airPeriod 60).map (fun x => (x.1.airPeriod, x.2)) = some (60, false) ∧
      (w.write .airPeriod 4).map (fun x => (x.1.airPeriod, x.2)) = some (5, true) ∧
      (w.write .supervisionPeriod 0).map (fun x => (x.1.supervisionPeriod, x.2)) = some (0, false) ∧
      (w.write .supervisionPeriod 9).map (fun x => (x.1.supervisionPeriod, x.2)) = some (10, true) ∧
      (w.write .runThreshold 1000).map (fun x => (x.1.runThreshold, x.2)) = some (1000, false) ∧
      (({ w with stallThreshold := 1000 } : Settings).write .runThreshold 1000).map (fun x => (x.1.runThreshold, x.2)) =
        some (950, true) ∧
      (({ w with runThreshold := 1000 } : Settings).write .stallThreshold 1000).map (fun x => (x.1.stallThreshold, x.2)) =
        some (1050, true) ∧
      (w.write .divisible 1).map (fun x => (x.1.divisible, x.2)) = some (true, false) := by decide

theorem witness_WarmResetsKeepTheClock :
    (s0.updLink fun l => { l with restart := .sent }).link.restart = .sent ∧
      (s0.updLink fun l => { l with restart := .accepted }).Settled ∧
      (s0.updLink fun l => { l with restart := .accepted }).link.restart ≠ .sent := by decide

/-- The store holding an image whose chain is one ONCE entry from 540 to 630, at the minute given. -/
def stored (isSet : Bool) (minute : Nat) : State :=
  { s0.updClock fun c => { c with minute := minute, isSet := isSet } with
    store := { image := some { working := Working.factory, chain := some ([entry .a], .once) }, saving := none } }

/-- After a reset with the chain of `stored`: not yet due at 500, due at 530, in progress at 600, and past at 630. -/
theorem witness_WarmResetsKeepTheClock_walker :
    let lead := Working.factory.profiles[(entry .a).profile].lead
    let w : Walker := { Walker.fresh (some ([entry .a], .once)) with state := .running, cursor := some 0 }
    ((stored true 600).store.image.bind (·.chain)) = some ([entry .a], .once) ∧ 500 + lead < (entry .a).start ∧
      (entry .a).start ≤ 530 + lead ∧ 530 < (entry .a).start ∧
      600 < (entry .a).start + (entry .a).duration ∧ ¬ 630 < (entry .a).start + (entry .a).duration ∧
      w.passesTo (fun e => Working.factory.profiles[e.profile].lead) 0 { w with state := .finished, cursor := none } :=
  ⟨rfl, by decide, by decide, by decide, by decide, by decide, .inr (.inl ⟨rfl, by decide, rfl, rfl⟩)⟩

/-- R50, R52: the walker that a warm reset leaves, in CLOCK_WAIT or placed by the clock, with the notices of a late start
that ends a ONCE chain. -/
theorem test_walker_after_a_reset :
    let reset := fun (isSet : Bool) (minute : Nat) => after (exec .resetLine (stored isSet minute))
    ((reset false 600).walker.state = .clockWait ∧ (reset false 600).walker.cursor = none) ∧
      ((reset true 500).walker.state = .running ∧ (reset true 500).walker.cursor = some 0) ∧
      (reset true 600).link.notices.map (·.kind) = [.bookingStarted, .chainFinished] ∧
      (reset true 630).walker.offset = 10080 := by decide

/-- R193, R52: a power-on loads the image's chain and waits for the clock. -/
theorem test_power_on_loads_the_chain :
    (after (exec .powerOn (stored true 600))).walker = Walker.fresh (some ([entry .a], .once)) ∧
      (after (exec .powerOn (stored true 600))).link.notices = [] := by decide

/-- R193: a minute that passes in the holding of a RESET_LINE counts. -/
theorem test_clock_counts_on_through_a_reset :
    (after (exec .resetLine (after (exec .minuteEvent (s0.updClock fun k => { k with minute := 10079 }))))).clock =
      { s0.clock with minute := 0 } := by decide

/-- R192: before the last byte of the reply to a RESTART there is no reset. -/
theorem test_no_reset_before_the_reply :
    after (exec .restartReset (s0.updLink fun l => { l with restart := .accepted })) =
      s0.updLink fun l => { l with restart := .accepted } := by decide

theorem witness_ChainBeginEmptiesTheStandbyBank :
    s0.Takes ∧ (1 : Byte).toNat = Repeating.once.code ∧ 2 ≤ (2 : Byte).toNat := by decide

theorem witness_ChainEntryJoinsTheLoadingBank :
    s0.Takes ∧ s0.walker.standby.state ≠ .loading ∧ entryRecord.target.toNat = Target.a.code ∧
      entryRecord.target.toNat < 3 ∧ entryRecord.flags.toNat < 8 ∧
      (standby [] .loading).Takes ∧ (standby [] .loading).walker.standby.state = .loading ∧
      (0 : Byte).toNat = (standby [] .loading).walker.standby.entries.length ∧
      entryRecord.start.toNat ≤ 10079 ∧ 1 ≤ entryRecord.profile.toNat ∧ entryRecord.profile.toNat ≤ 7 ∧
      (1 : Byte).toNat ≠ (standby [] .loading).walker.standby.entries.length ∧
      3 ≤ ({ entryRecord with target := 3 } : EntryRecord).target.toNat ∧
      8 ≤ ({ entryRecord with flags := 8 } : EntryRecord).flags.toNat := by decide

/-- R30: a duration of 721 minutes is lowered to 720. -/
theorem test_entry_is_clamped :
    judgeEntry { entryRecord with duration := 721 } = some ({ entry .a with duration := 720 }, true) := by decide

/-- R182: a CLAMPED reply carries the value stored, 40000 = 0x9C40, an OK one nothing. -/
theorem test_clamped_reply :
    ((s0.answerSetSupplyCap 40001).1.data, (s0.answerSetSupplyCap 40000).1.data) = ([0x40, 0x9C], []) := by decide

theorem witness_ChainCommitValidates :
    (standby [entry .a] .loading).Takes ∧ (standby [entry .a] .loading).walker.standby.state = .loading ∧
      chainFailure (standby [entry .a] .loading).walker.standby.entries = none ∧
      chainFailure (standby [] .loading).walker.standby.entries = some (1, 0) ∧
      s0.walker.standby.state ≠ .loading := by decide

theorem witness_ChainSwitchChangesTheBanks :
    (standby [entry .a] .ready).Takes ∧ (standby [entry .a] .ready).walker.standby.state = .ready ∧
      (standby [entry .a] .ready).walker.state = .idle ∧
      ((standby [entry .a] .ready).updWalker fun w => { w with state := .running }).Takes ∧
      ((standby [entry .a] .ready).updWalker fun w => { w with state := .running }).walker.state ≠ .idle ∧
      s0.walker.standby.state ≠ .ready ∧ (2 : Byte).toNat ≤ 2 ∧ 3 ≤ (3 : Byte).toNat := by decide

theorem witness_ChainCancelEmptiesTheChain : s0.Takes ∧ s0.walker.queuedSwitch ≠ some .atChainEnd := by decide

/-- The reset state with an ACTIVE bank of one entry and the walker in the state given, its cursor on it. -/
def active (w : WalkerState) (e : Entry) : State :=
  s0.updWalker fun x => { x with
    active := { entries := [e], state := .active, repeating := .weekly }, state := w, cursor := some 0 }

theorem witness_WalkerRequestsMoveTheWalkerState :
    (active .running (entry .a)).Takes ∧ (active .running (entry .a)).walker.active.state = .active ∧
      (1 : Byte).toNat = MarkMode.pause.code ∧ (0 : Byte).toNat < (active .running (entry .a)).walker.active.entries.length ∧
      (active .running (entry .a)).walker.state = .running ∧ (active .paused (entry .a)).walker.state = .paused ∧
      (active .paused (entry .a)).walker.cursor = some 0 ∧
      (active .paused (entry .a)).walker.active.entries[0]? = some (entry .a) ∧
      (active .paused (entry .a)).walker.cycle + (active .paused (entry .a)).working.profiles[(entry .a).profile].lead <
        (entry .a).start + (active .paused (entry .a)).walker.offset := by decide

/-- The reset state with slots. -/
def slots (next current : SlotPair) : State :=
  s0.updWalker fun w => { w with next := next, current := current, state := .paused }

theorem witness_ReleaseHoldEndsTheHeldBooking :
    let joined := slots SlotPair.empty (.joined (booking .held 0))
    let ofB := slots SlotPair.empty (.cells none (some (booking .held 0)))
    let running := slots SlotPair.empty (.cells (some (booking .running 1)) none)
    joined.Takes ∧ (1 : Byte).toNat = cellCode .b ∧ (booking .held 0).state = .held ∧
      joined.walker.current.inCell .b = some (booking .held 0) ∧ ofB.Takes ∧
      ofB.walker.current.inCell .b = some (booking .held 0) ∧ running.Takes ∧
      running.walker.current.inCell .a = some (booking .running 1) ∧ (booking .running 1).state ≠ .held ∧
      s0.walker.current.inCell .a = none ∧ 2 ≤ (2 : Byte).toNat := by decide

/-- R43: releasing cell B of a JOINED HELD booking ends it in both. -/
theorem test_release_of_a_joined_booking :
    (after (exec (.releaseHold 1 1) (slots SlotPair.empty (.joined (booking .held 0))))).walker.current =
      SlotPair.empty := by decide

theorem witness_TheClockCounts :
    s0.Settled ∧ s0.clock.second < 59 ∧
      (s0.updClock fun k => { k with minute := 10079, second := 59 }).Settled ∧
      (s0.updClock fun k => { k with minute := 10079, second := 59 }).clock.minute ≤ 10079 ∧
      (s0.updClock fun k => { k with minute := 10079, second := 59 }).clock.second = 59 ∧
      s0.clock.crystal = true ∧ s0.clock.degraded = false := by decide

theorem witness_MinuteEventStartsABooking :
    let s := slots (.joined (booking .armed 1)) SlotPair.empty
    s.Settled ∧ s.walker.state = .paused ∧ s.walker.queuedSwitch = none ∧
      s.walker.next = (SlotPair.cells none none).put .joined (booking .armed 1) ∧
      s.walker.current = .cells none none ∧ (booking .armed 1).minutes = 1 := by decide

/-- A PAUSED walker on the one entry of a WEEKLY chain, at the cycle minute given. -/
def cursorAt (cycle : Nat) (next current : SlotPair) : State :=
  (active .paused (entry .a)).updWalker fun w => { w with cycle := cycle, next := next, current := current }

/-- A booking of no entry of the chain. -/
def foreign (state : BookingState) : Booking := { booking state 10 with index := none }

theorem witness_CursorEntriesAreArmed :
    let here := cursorAt 630 SlotPair.empty SlotPair.empty
    let stalled := cursorAt 530 (.cells (some (foreign .armed)) none) SlotPair.empty
    let met := cursorAt 629 SlotPair.empty (.cells (some (foreign .running)) none)
    let standing := cursorAt 530 SlotPair.empty (.cells (some (booking .running 10)) none)
    let ending := here.updWalker fun w => { w with queuedSwitch := some .atChainEnd }
    let waiting := stalled.updWalker fun w => { w with state := .stalled }
    (here.Takes ∧ here.walker.state = .paused ∧ here.walker.cursor = some 0 ∧
      here.walker.active.entries[0]? = some (entry .a) ∧
      (entry .a).start + here.walker.offset ≤ here.walker.cycle + here.working.profiles[(entry .a).profile].lead ∧
      (∀ c ∈ (entry .a).target.cells, here.walker.next.inCell c = none) ∧
      (entry .a).start + here.walker.offset + (entry .a).duration ≤ here.walker.cycle) ∧
      here.walker.passesTo (fun f => here.working.profiles[f.profile].lead) 0
        { here.walker with state := .running, offset := 10080 } ∧
      (stalled.walker.next.inCell .a = some (foreign .armed) ∧ (foreign .armed).index ≠ some 0 ∧
        (entry .a).start + stalled.walker.offset ≤
          stalled.walker.cycle + stalled.working.profiles[(entry .a).profile].lead ∧
        stalled.walker.cycle < (entry .a).start + stalled.walker.offset) ∧
      (met.walker.current.meeting (entry .a).target = [(.a, foreign .running)] ∧
        (foreign .running).marked = false ∧ (entry .a).start + met.walker.offset ≤ met.walker.cycle ∧
        met.walker.cycle < (entry .a).start + met.walker.offset + (entry .a).duration) ∧
      standing.walker.current.inCell .a = some (booking .running 10) ∧ (booking .running 10).index = some 0 ∧
      ending.walker.queuedSwitch = some .atChainEnd ∧ 0 + 1 = ending.walker.active.entries.length ∧
      (waiting.Settled ∧ waiting.walker.state = .stalled ∧
        waiting.walker.next = (SlotPair.cells none none).put .a (foreign .armed) ∧ 1 < (foreign .armed).minutes) :=
  ⟨by decide, .inr (.inr ⟨rfl, by decide, rfl, entry .a, rfl, by decide, rfl⟩), by decide, by decide, by decide,
    by decide, by decide, by decide, by decide⟩

theorem witness_BookingsEnd :
    let ending := slots SlotPair.empty (.cells none (some (booking .running 1)))
    let held := (slots SlotPair.empty (.joined (booking .held 0))).modifyUnit .b fun u =>
      { u with occupancy := .clearing, clearing := some 120000 }
    ending.Settled ∧ ending.walker.state = .paused ∧ ending.walker.queuedSwitch ≠ some .atWeekEnd ∧
      ending.walker.next = .cells none none ∧
      ending.walker.current = (SlotPair.cells none none).put .b (booking .running 1) ∧ held.Settled ∧
      held.walker.current = (SlotPair.cells none none).put .joined (booking .held 0) ∧
      .b ∈ held.space.units.ofTarget .joined ∧ (held.unit? .b).map (·.occupancy) = some .clearing ∧
      ((held.unit? .b).bind (·.clearing)).isSome ∧ ending.Takes ∧ .b ∈ ending.space.units.ofTarget .b ∧
      (1 : Byte).toNat = unitCode .b ∧ ending.unit? .b = some UnitRec.fresh ∧
      UnitRec.fresh.occupancy = .vacant ∧ 0 < (1 : Half).toNat := by decide

/-- R42: with HOLD and people there a booking at its last minute is HELD. -/
theorem test_hold_at_the_end :
    let k : Booking := { booking .running 1 with entry := { entry .a with hold := true } }
    let s := { slots SlotPair.empty (.cells (some k) none) with
      space := (unitA fun u => { u with headcount := 1, occupancy := .occupied }).space }
    ((after (exec .minuteEvent s)).walker.current.inCell .a).map (·.state) = some .held := by decide

/-- A profile record that needs no clamping: SEMINAR as it is carried. -/
def profileRecord : ProfileRecord where
  name := #v[0x53, 0x45, 0x4D, 0x49, 0x4E, 0x41, 0x52, 0x20]
  rp := 80
  co2Setpoint := 900
  kp := 32
  ki := 16
  imax := 2000
  qcap := 1000
  slew := 30
  comfort := 210
  standby := 20
  lux := 500
  harvest := 1
  board := 800
  front := 800
  window := 800
  inner := 800
  awaitLevel := 300
  fadeUp := 100
  fadeDown := 50
  lead := 30
  noShow := 20
  earlyVacate := 15
  purge := 10
  awaitFraction := 500
  policy := 0

theorem witness_PutProfileAndPutDamperTableReplaceOne :
    s0.Takes ∧ s0.store.saving = none ∧ (7 : Byte).toNat = (7 : Fin 8) ∧
      (judgeProfile profileRecord).map (·.2) = some false ∧ 8 ≤ (8 : Byte).toNat ∧
      (judgeProfile { profileRecord with noShow := 4 }).map (·.2) = some true ∧
      judgeProfile { profileRecord with policy := 3 } = none ∧
      (judgePoints #v[0, 562, 1125, 1687, 2250, 2812, 3375, 3937, 20001]).map (·.2) = some true ∧
      (judgePoints #v[0, 562, 1125, 1687, 2250, 2812, 3375, 3937, 4500]).map (·.2) = some false ∧
      (1 : Byte).toNat = cellCode .b ∧ 2 ≤ (2 : Byte).toNat ∧
      judgePoints #v[0, 562, 562, 1687, 2250, 2812, 3375, 3937, 4500] = none := by decide

/-- The reset state with an override on light channel 11's target. -/
def overridden : State :=
  s0.updSpace fun p => { p with overrides := p.overrides.set 11 (some { value := 500, remaining := some 0 }) }

theorem witness_OverridesBeginAndEnd :
    (11 : Byte).toNat = (11 : Fin 16) ∧ s0.Takes ∧ s0.space.fire = .clear ∧ s0.unusedTarget 11 = false ∧
      fireGoing.Takes ∧ fireGoing.space.fire = .inForce ∧ s0.space.overrides[(11 : Fin 16)] = none ∧
      overridden.Takes ∧ overridden.Settled ∧
      overridden.space.overrides[(11 : Fin 16)] = some { value := 500, remaining := some 0 } := by decide

theorem witness_OverridesBeginAndEnd_refused :
    (let s := tuned fun w => { w with channelCell := w.channelCell.set 7 .off }
     s.Takes ∧ s.space.fire = .clear ∧ s.unusedTarget 11 = true ∧
      (11 : Fin 16).val = (7 : Fin 8).val + 4 ∧ s.working.settings.channelCell[(7 : Fin 8)] = .off) ∧
      15 < (16 : Byte).toNat ∧ (16 : Byte) ≠ 0xFF := by decide

theorem witness_SetHeadcountSetsTheCount :
    s0.Takes ∧ (2 : Byte).toNat = unitCode .ab ∧ s0.unit? .ab = none ∧ (1 : Byte).toNat = unitCode .b ∧
      s0.unit? .b = some UnitRec.fresh := by decide

theorem witness_CapAndSunFollowTheHost :
    s0.Takes ∧ s0.Settled ∧ (40001 : Half) ≠ 0xFFFF ∧ (1 : Byte).toNat = (if true then 1 else 0) ∧
      2 ≤ (2 : Byte).toNat ∧
      (s0.updBlinds fun b => { b with sun := true, sunHold := some 3600000 }).Settled ∧
      (s0.updBlinds fun b => { b with sun := true, sunHold := some 3600000 }).blinds.sunHold ≠ none := by decide

theorem witness_CalibrationsBegin :
    s0.Takes ∧ (1 : Byte).toNat = cellCode .b ∧ fireGoing.Takes ∧ fireGoing.space.fire = .inForce ∧
      s0.space.fire = .clear ∧ (s0.drives.get .b).cal = none ∧ s0.faults[railSource].state ≠ .latched ∧
      s0.rail.state = .off ∧ s0.rail.lowTimer = none ∧ railOn.Takes ∧ railOn.rail.state = .on ∧
      (s0.updDrive .b fun d => { d with cal := some { phase := .waitRail, elapsed := 0, fbLow := 0 } }).Takes ∧
      (3 : Byte).toNat = (3 : Fin 4) ∧ s0.groupCell 3 ≠ none ∧ s0.faults[blindSource 3].state = .clear ∧
      s0.blinds.groups[(3 : Fin 4)].cal = none ∧ s0.blinds.groups[(3 : Fin 4)].state = .stopped ∧
      s0.blinds.queue = [] := by decide

theorem witness_CalibrationsBegin_refused :
    let latched := faulty 18 fun r => { r with state := .latched }
    let unused := tuned fun w => { w with blindCell := w.blindCell.set 3 .off }
    let waiting := faulty 2 fun r => { r with state := .retryWait }
    let busy := s0.updGroup 0 fun r => { r with cal := some { leg := 1, travelDown := 0 } }
    2 ≤ (2 : Byte).toNat ∧ 4 ≤ (4 : Byte).toNat ∧ latched.Takes ∧ latched.faults[railSource].state = .latched ∧
      unused.Takes ∧ unused.groupCell 3 = none ∧ waiting.Takes ∧ waiting.faults[blindSource 0].state ≠ .clear ∧
      busy.Takes ∧ busy.blinds.groups[(0 : Fin 4)].cal ≠ none ∧ busy.groupCell 0 ≠ none := by decide

theorem witness_CalibrationsBegin_begun :
    let low := s0.updRail fun r => { r with lowTimer := some 20 }
    let group := fun state : GroupState => (railOn.updGroup 0 fun r => { r with state := state }).updBlinds fun b =>
      { b with slots := [0] }
    let queued := (s0.updGroup 0 fun r => { r with state := .queued }).updBlinds fun b =>
      { b with queue := [{ group := 0, target := 500, reference := false, calibration := false, fire := false }] }
    low.Takes ∧ low.rail.state = .off ∧ low.rail.faultLevel = true ∧ queued.Takes ∧
      queued.blinds.groups[(0 : Fin 4)].state = .queued ∧ queued.rail.state ≠ .on ∧
      ∀ state ∈ [GroupState.movingUp, .movingDown, .reversing], (group state).Takes ∧
        (group state).blinds.groups[(0 : Fin 4)].state = state ∧ (group state).blinds.queue = [] ∧
        (0 : Fin 4) ∈ (group state).blinds.slots := by decide

/-- R157: WRONG_STATE before BUSY for a blind and BUSY before WRONG_STATE for a damper; a queued group's entry becomes
the calibration's in place, and a group moving down reverses first. -/
theorem test_calibrations_begin :
    let s := { (faulty 18 fun r => { r with state := .latched }) with link := calm.link }
    let status := fun (t : State) => t.link.replies.map (·.status) ++
      (match t.link.tx.map (·.frame) with | some (.reply r) => [r.status] | _ => [])
    let blind := s.updGroup 0 fun r => { r with cal := some { leg := 1, travelDown := 0 } }
    let damper := s.updDrive .a fun d => { d with cal := some { phase := .waitRail, elapsed := 0, fbLow := 0 } }
    let down := (railOn.updGroup 0 fun r => { r with state := .movingDown }).updBlinds fun b => { b with slots := [0] }
    status (after (exec (.calibrateBlind 1 0) blind)) = [.wrongState] ∧
      status (after (exec (.calibrateDamper 1 0) damper)) = [.busy] ∧
      (after (exec (.calibrateBlind 1 0) down)).blinds.groups[(0 : Fin 4)].state = .reversing := by decide

/-- R158: leg 1 begun in place by a group moving up counts its 120 s from the energising of the relay. -/
theorem test_leg_begun_in_place :
    let r := (after (exec (.calibrateBlind 1 0) (moving fun r => { r with segMs := 3000, runMs := 3000, legMs := 3000 }))
      ).blinds.groups[(0 : Fin 4)]
    (r.state = .movingUp ∧ r.estimate = 1000) ∧ r.segMs = 0 ∧ r.legMs = 3000 := by decide

theorem witness_ClearFaultClearsTheRecord :
    s0.Takes ∧ (20 : Byte).toNat = (20 : Fin 21) ∧ (1 : Byte).toNat = (if true then 1 else 0) ∧
      s0.faults[(20 : Fin 21)].state = .clear ∧ (faulty 20 fun r => { r with state := .active }).Takes ∧
      (faulty 20 fun r => { r with state := .active }).faults[(20 : Fin 21)].state = .active ∧
      (20 : Fin 21) ≠ clockSource ∧ (faulty 1 fun r => { r with state := .latched }).Takes ∧
      (1 : Fin 21) = damperSource .b ∧
      (faulty 1 fun r => { r with state := .latched }).faults[(1 : Fin 21)].state = .latched ∧
      (faulty 1 fun r => { r with state := .latched }).rail.state ≠ .on ∧
      (faulty 10 fun r => { r with state := .holding }).faults[(10 : Fin 21)].state = .holding ∧
      20 < (21 : Byte).toNat ∧ 1 < (2 : Byte).toNat := by decide

theorem witness_ClearFaultClearsTheRecord_redriven :
    let group := (faulty 2 fun r => { r with state := .latched }).updGroup 0 fun r => { r with state := .fault }
    let rail := (faulty 18 fun r => { r with state := .retryWait }).updRail fun r => { r with state := .faulted }
    group.Takes ∧ (2 : Fin 21) = blindSource 0 ∧ group.faults[(2 : Fin 21)].state = .latched ∧
      group.blinds.groups[(0 : Fin 4)].state = .fault ∧ group.groupCell 0 ≠ none ∧ group.blinds.queue = [] ∧
      group.blinds.groups[(0 : Fin 4)].referenced = false ∧ rail.Takes ∧ (18 : Fin 21) = railSource ∧
      rail.faults[(18 : Fin 21)].state = .retryWait ∧ rail.rail.faultLevel = false := by decide

/-- R174: a group cleared while it is LATCHED asks for its reference move at once. -/
theorem test_cleared_group_moves :
    let group := (faulty 2 fun r => { r with state := .latched }).updGroup 0 fun r => { r with state := .fault }
    let t := after (exec (.clearFault 1 2 0) group)
    t.blinds.groups[(0 : Fin 4)].state = .queued ∧ t.rail.state = .rising := by decide

theorem witness_PinEdgesStartTheDebounce :
    s0.Settled ∧ (true = true ↔ Machine.Partition.opened = .opened) ∧ s0.space.contact ≠ .opened ∧
      (false = true ↔ Machine.Partition.closed = .opened) ∧ s0.space.contact = .closed ∧ s0.space.firePin = true ∧
      s0.space.firePin ≠ false ∧ (s0.doors[(3 : Fin 4)].beam .inner).pin = false ∧
      (s0.doors[(3 : Fin 4)].beam .inner).pin ≠ true ∧ s0.presence.detectors[(5 : Fin 6)].pin ≠ true ∧
      s0.rail.faultPin ≠ false ∧ s0.rail.faultPin = true := by decide

/-- Units A and B about to be joined, "divisible" as given. -/
def joining (divisible : Bool) (a b : UnitRec) : State :=
  { tuned (fun w => { w with divisible := divisible }) with
    space := { s0.space with contact := .opened, partitionTimer := some 5000, units := .split a b } }

/-- 250 people are counted in each unit. -/
def fullUnit : UnitRec := { UnitRec.fresh with headcount := 250, occupancy := .occupied, mode := .occupied }

theorem witness_JoinFormsUnitAB :
    (joining true fullUnit fullUnit).Settled ∧ (joining true fullUnit fullUnit).space.partitionTimer.isSome ∧
      (joining true fullUnit fullUnit).space.contact = .opened ∧
      (joining true fullUnit fullUnit).space.units = .split fullUnit fullUnit ∧
      (joining true fullUnit fullUnit).working.settings.divisible = true ∧
      (joining false fullUnit fullUnit).working.settings.divisible = false := by decide

/-- The two joined units, AB of 500, stand as the join says. -/
theorem test_join_of_full_units :
    ((after (exec .partitionDebounce (joining true fullUnit fullUnit))).unit? .ab).map
      (fun u => (u.headcount, u.occupancy)) = some (500, .occupied) := by decide

theorem witness_SplitSharesTheHeadcount :
    let s := joinedState { UnitRec.fresh with headcount := 500 }
    s.space.units = .joined { UnitRec.fresh with headcount := 500 } ∧ s.Takes ∧ s.store.saving = none ∧
      ({ s with space := { s.space with contact := .closed, partitionTimer := some 5000 } } : State).Settled ∧
      s.working.settings.divisible = true := by decide

theorem witness_FireComesIntoForce :
    fireComing.Settled ∧ fireComing.space.fireTimer.isSome ∧ fireComing.space.fire = .clear ∧
      fireComing.rail.state ≠ .on ∧ fireComing.working.settings.channelCell[(7 : Fin 8)] ≠ .off := by decide

/-- Fire coming, the rail ON, with a blind calibration that waits in the queue for a slot. -/
def fireWhileWaiting : State :=
  { (railOn.updGroup 0 fun r => { r with state := .queued, cal := some { leg := 1, travelDown := 0 } }) with
    space := fireComing.space }.updBlinds fun b =>
      { b with
        slots := [1, 2]
        queue := [{ group := 0, target := 0, reference := false, calibration := true, fire := false }] }

theorem witness_FireComesIntoForce_railOn :
    fireWhileWaiting.Settled ∧ fireWhileWaiting.space.fireTimer.isSome ∧ fireWhileWaiting.space.fire = .clear ∧
      fireWhileWaiting.rail.state = .on ∧ (∃ e ∈ fireWhileWaiting.blinds.queue, e.calibration = true) := by decide

/-- R156: fire ends a calibration that waits, and the group asks for the top. -/
theorem test_fire_ends_a_waiting_calibration :
    let t := after (exec .fireDebounce fireWhileWaiting)
    t.blinds.groups[(0 : Fin 4)].cal = none ∧ t.blinds.queue.all (·.fire) = true := by decide +kernel

theorem witness_FireClears :
    fireGoing.Settled ∧ fireGoing.FireSound ∧ fireGoing.space.fireTimer.isSome ∧
      fireGoing.space.fire = .inForce ∧ (fireGoing.drives.get .a).cal = none :=
  ⟨by decide, witness_StepKeepsTheFireLock.1, by decide, by decide, by decide⟩

theorem witness_UnitTimersAct :
    let purging := unitA fun u => { u with mode := .purge, purge := some 0 }
    let clearing := unitA fun u => { u with occupancy := .clearing, clearing := some 120000 }
    let present := s0.updPresence fun p => { p with cells := p.cells.set .a { present := true, sinceMotion := some 0 } }
    purging.Settled ∧ purging.unit? .a = some { UnitRec.fresh with mode := .purge, purge := some 0 } ∧
      purging.space.fire = .clear ∧ clearing.Settled ∧
      clearing.unit? .a = some { UnitRec.fresh with occupancy := .clearing, clearing := some 120000 } ∧
      s0.Settled ∧ s0.unit? .a = some UnitRec.fresh ∧ s0.presenceOf .a = false ∧
      UnitRec.fresh.vacancyTold = false ∧ present.Settled ∧ present.unit? .a = some UnitRec.fresh ∧
      present.presenceOf .a = true ∧ UnitRec.fresh.headcount = 0 := by decide

theorem witness_UnitTimersAct_told :
    (unitA fun u => { u with vacancyTold := true }).Settled ∧
      ((unitA fun u => { u with vacancyTold := true }).unit? .a).map (·.vacancyTold) = some true := by decide

/-- R84: an ENTRY and a VACANCY_CONFIRMED together; the ENTRY first, there is no zeroing, and the event first, the
ENTRY makes the headcount 1. -/
theorem test_entry_and_vacancy_together :
    let s := { innerClears fun d => { d with passage := .inInner } with
      space := (unitA fun u => { u with headcount := 7, occupancy := .occupied, vacancyTimer := 900 }).space }
    let entry := exec (.beamDebounce 0 .inner)
    let vacancy := exec (.vacancyConfirmed .a)
    ((after (vacancy (after (entry s)))).unit? .a).map (·.headcount) = some 8 ∧
      ((after (entry (after (vacancy s)))).unit? .a).map (·.headcount) = some 1 := by decide

theorem witness_PassagesAreCounted :
    (doorState id).Settled ∧ (doorState id).BeamTurns 0 .outer true ∧ (doorState id).doorCell 0 = some .a ∧
      (doorState id).doors[(0 : Fin 4)].rearm = false ∧
      ((doorState id).doors[(0 : Fin 4)].passage, BeamSide.outer, true, Passage.inOuter) ∈ passageRows ∧
      (innerClears fun d => { d with passage := .inInner }).BeamTurns 0 .inner false ∧
      (Passage.inInner, BeamSide.inner, false, Passage.idle) ∈ passageRows ∧
      (outerClears fun d => { d with passage := .outOuter }).BeamTurns 0 .outer false ∧
      (Passage.outOuter, BeamSide.outer, false, Passage.idle) ∈ passageRows ∧
      (s0.doors[(0 : Fin 4)].beam .outer).pending.isSome ∧ (s0.doors[(0 : Fin 4)].beam .outer).debounced = none ∧
      (s0.working.settings.beamEdge 0 .outer).breaks (s0.doors[(0 : Fin 4)].beam .outer).pin ≠ some true ∧
      (s0.working.settings.beamEdge 0 .outer).breaks true = some true := by decide

/-- R56, R72: an ENTRY through doorway 0 raises unit A's headcount. -/
theorem test_entry_is_counted :
    ((after (exec (.beamDebounce 0 .inner)
      (innerClears fun d => { d with passage := .inInner }))).unit? .a).map (·.headcount) = some 1 := by decide

/-- R73: an EXIT at a headcount of 0 raises the drift tally. -/
theorem test_exit_drifts :
    (after (exec (.beamDebounce 0 .outer)
      (outerClears fun d => { d with passage := .outOuter }))).drift.a = 1 := by decide

theorem witness_BlockedDoorways :
    let transit := s0.updDoor 0 fun d => { d with passage := .inBoth, transit := some 4000 }
    let leaving := s0.updDoor 0 fun d => { d with passage := .blocked, blockClear := some 2000, stuck := some 9000 }
    let stuck := s0.updDoor 0 fun d => { d with passage := .blocked, stuck := some 600000 }
    transit.Settled ∧ transit.doorCell 0 = some .a ∧ transit.doors[(0 : Fin 4)].transit.isSome ∧
      (innerClears fun d => { d with passage := .blocked }).BeamTurns 0 .inner false ∧
      (innerClears fun d => { d with rearm := true, stuck := some 5 }).BeamTurns 0 .inner false ∧
      leaving.doors[(0 : Fin 4)].passage = .blocked ∧ leaving.doors[(0 : Fin 4)].blockClear.isSome ∧
      stuck.doors[(0 : Fin 4)].stuck = some 600000 ∧ stuck.doors[(0 : Fin 4)].stuckTold = false ∧
      stuck.doorCell 0 = some .a := by decide

/-- The reset state with detector 0 about to take a rising level. -/
def sensing (f : Settings → Settings) : State :=
  (tuned f).updDetector 0 fun d => { d with pin := true, filtered := some false, filter := some 20 }

/-- The reset state with a motion in cell A the given time ago. -/
def moved (ms : Nat) : State :=
  s0.updPresence fun p => { p with cells := p.cells.set .a { present := true, sinceMotion := some ms } }

theorem witness_PresenceFollowsMotion :
    (sensing id).Settled ∧ (sensing id).presence.detectors[(0 : Fin 6)].filter.isSome ∧
      (sensing id).presence.detectors[(0 : Fin 6)].filtered = some (!(sensing id).presence.detectors[(0 : Fin 6)].pin) ∧
      ((sensing id).working.settings.detectorEdge[(0 : Fin 6)] = .rising ↔
        (sensing id).presence.detectors[(0 : Fin 6)].pin = true) ∧
      (sensing id).working.settings.detectorAssign[(0 : Fin 6)].cell? = some .a ∧
      (sensing fun w => { w with detectorAssign := w.detectorAssign.set 0 .off
        }).working.settings.detectorAssign[(0 : Fin 6)].cell? = none ∧
      (sensing fun w => { w with detectorEdge := w.detectorEdge.set 0 .falling
        }).working.settings.detectorEdge[(0 : Fin 6)] = .falling ∧
      (moved 300000).presence.cells.get .a = { present := true, sinceMotion := some 300000 } ∧
      (moved 300000).Settled ∧ s0.unit? .b = some UnitRec.fresh := by decide

theorem witness_AirUpdateSharesTheCap :
    s0.Settled ∧ s0.space.units = .split UnitRec.fresh UnitRec.fresh ∧
      (joinedState UnitRec.fresh).Settled ∧ (joinedState UnitRec.fresh).space.units = .joined UnitRec.fresh := by
  decide

theorem witness_AirUpdateFormsTheDemand :
    let alarming := (unitA fun u => { u with mode := .occupied, headcount := 3 }).updSensor 0 fun c =>
      { c with value := some 2000 }
    alarming.Settled ∧ (alarming.unit? .a).isSome ∧ (alarming.unitOf .a).mode = .occupied ∧
      alarming.co2Of .a = some 2000 ∧ fireGoing.Settled ∧ (fireGoing.unitOf .b).mode = .fire ∧ s0.Settled ∧
      s0.unit? .b = some UnitRec.fresh ∧ UnitRec.fresh.mode = .setback ∧ s0.co2Of .b = none := by decide

theorem witness_AirUpdateFormsTheDemand_rail : s0.rail.faultLevel = false ∧ railOn.rail.state ≠ .off := by decide

/-- The minima of 800 under a cap of 1599 share what is over their area terms of 540, the leftover to A. -/
theorem test_air_update_shares :
    let t := after (exec .airUpdate (s0.updAir fun a => { a with requestedCap := 1599 }))
    ((t.unit? .a).map (·.allocation), (t.unit? .b).map (·.allocation), t.air.sumDemand) =
      (some 800, some 799, 1600) := by decide

/-- Eight inputs at one level. -/
def levels (mv : Half) : Vector Half 8 := #v[mv, mv, mv, mv, mv, mv, mv, mv]

/-- The CO2 channel of cell A with the record given. -/
def sensor (c : Sensor) : State := s0.updSensor 0 fun _ => c

theorem witness_SensorSamplesAreTaken :
    let held : Sensor := { Sensor.fresh 0 with state := .holding, hold := some 60000 }
    s0.Settled ∧ 1600 ≤ (levels 1600)[(0 : Fin 8)].toNat ∧ (levels 1600)[(0 : Fin 8)].toNat ≤ 10400 ∧
      s0.scanner.channels[(0 : Fin 8)].state = .normal ∧ ¬ 1600 ≤ (levels 1599)[(0 : Fin 8)].toNat ∧
      s0.rail.state ≠ .on ∧ (6 : Fin 8) = feedbackChannel .a ∧ railOn.rail.state = .on ∧ railOn.Settled ∧
      (sensor held).Settled ∧ (sensor held).scanner.channels[(0 : Fin 8)].state = .holding ∧
      (sensor held).scanner.channels[(0 : Fin 8)].hold.isSome ∧ 6 ≤ (6 : Fin 8).val ∧ (0 : Fin 8).val < 6 := by decide

/-- R168: a feedback channel's hold timer that is paused ends nothing. -/
theorem test_paused_hold :
    let held : Sensor := { Sensor.fresh 0 with state := .holding, hold := some 60000 }
    after (exec (.holdTimerExpiry 6) (s0.updSensor 6 fun _ => held)) = s0.updSensor 6 fun _ => held := by decide

/-- R165: the first good sample fills the window; 6000 mV of a 0..2000 ppm span is 1000 ppm. -/
theorem test_first_sample :
    (after (exec (.sensorSample (levels 6000)) s0)).scanner.channels[(0 : Fin 8)].value = some 1000 ∧
      (after (exec (.sensorSample (levels 1599)) s0)).scanner.channels[(0 : Fin 8)].state = .holding := by decide

/-- Cell A's damper tracking with its timer past the mark. -/
def stalled : State :=
  railOn.updDrive .a fun d => { d with tracking := true, feedbackGood := true, trackTimer := some 225001 }

theorem witness_DamperTimersAct :
    let calibrating := railOn.updDrive .a fun d => { d with
      cal := some { phase := .opening, elapsed := 400000, fbLow := 2000 } }
    stalled.Settled ∧ stalled.faults[damperSource .a].state = .clear ∧ (stalled.drives.get .a).tracking = true ∧
      (stalled.drives.get .a).trackTimer.isSome ∧ calibrating.Settled ∧
      (calibrating.drives.get .a).cal = some { phase := .opening, elapsed := 400000, fbLow := 2000 } ∧
      calibrating.space.fire = .clear ∧ calibrating.space.overrides[damperTarget .a] = none ∧
      s0.scanner.channels[tempChannel .a].usable = none ∧ (s0.unitOf .a).mode = .setback := by decide

/-- Cell A's damper calibrating with a feedback that has stood at the mean given, in mV, for five samples. -/
def settled (phase : DamperPhase) (mean : Nat) : State :=
  railOn.updDrive .a fun d => { d with
    cal := some { phase := phase, elapsed := 36500, fbLow := 2000 }, means := List.replicate 5 mean }

theorem witness_DamperTimersAct_calibration :
    (settled .opening 10000).Settled ∧ (settled .opening 10000).rail.state = .on ∧
      ((settled .opening 10000).drives.get .a).cal = some { phase := .opening, elapsed := 36500, fbLow := 2000 } ∧
      ((settled .opening 10000).drives.get .a).means[4]? = some 10000 ∧ 1600 ≤ (10000 : Half).toNat ∧
      (settled .closing 2000).Settled ∧
      ((settled .closing 2000).drives.get .a).means[4]? = some 2000 := by decide

/-- R118, R119: a damper stable at 10000 mV, 36.5 s into OPENING, was 31 s on its way. -/
theorem test_damper_calibration_ends :
    ((settled .opening 10000).calSample .a 10000 (some 10000) (List.replicate 5 10000)).working.calibrations.a =
      { calibrated := true, fbLow := 2000, fbHigh := 10000, stroke := 31 } := by decide

/-- R172: a retry limit of 1 latches at the first report. -/
theorem test_first_stall_latches :
    (after (exec (.damperStall .a)
      { stalled with working := (tuned fun w => { w with retryLimit := 1 }).working })).faults[damperSource .a].state =
        .latched := by decide

theorem witness_LightsFollowTheirTargets :
    let frozen := s0.updDaylight .b fun d => { d with frozen := true, freeze := some 10000 }
    s0.Settled ∧ s0.channelCell 7 = some .b ∧ (s0.unitOf .b).mode = .setback ∧ frozen.Settled ∧
      (frozen.lighting.cells.get .b).freeze.isSome ∧ (unitA fun u => { u with mode := .occupied }).Settled ∧
      ((unitA fun u => { u with mode := .occupied }).profileOf .a).harvest = true ∧
      ((unitA fun u => { u with mode := .occupied }).lighting.cells.get .a).frozen = false := by decide

/-- R136, 7.6: S 800, D 620 and an inner boost of 150 give 496 and 616; in CLEARING the least of scene and level. -/
theorem test_light_targets :
    lightTargetFor .occupied .occupied .window 800 200 0 620 150 = 496 ∧
      lightTargetFor .occupied .occupied .inner 800 200 0 620 150 = 616 ∧
      lightTargetFor .occupied .clearing .window 100 200 0 620 150 = 100 ∧
      lightTargetFor .await .vacant .inner 800 200 300 620 150 = 300 := by decide

/-- 7.12: the window channel fades from 520 to 515 on its way to its target, duty 1086. -/
theorem test_fade_step :
    let r := LightChannel.fadeTo { LightChannel.fresh with output := 520, target := 496 } 100 50
    (r.output, (r.apply 20).pendingDuty) = (515, 1086) := by decide

theorem witness_BlindEvaluationFormsTheTargets :
    s0.Settled ∧ s0.groupCell 3 = some .b ∧
      s0.blinds.groups[(3 : Fin 4)].state = .stopped ∧ s0.blinds.groups[(3 : Fin 4)].cal = none ∧
      s0.faults[blindSource 3].state = .clear ∧ s0.blinds.queue = [] ∧
      s0.blinds.groups[(3 : Fin 4)].referenced = false ∧
      (let m := moving fun r => { r with goal := 500, referenced := true }
       m.Settled ∧ m.groupCell 0 = some .a ∧
        m.blinds.groups[(0 : Fin 4)].state = .movingUp ∧ m.blinds.groups[(0 : Fin 4)].cal = none ∧
        m.blinds.groups[(0 : Fin 4)].refMove = false ∧ m.blinds.queue = []) := by decide

/-- R147: the sun shines on a group whose last automatic move lies 1 ms short of the interval of 5 minutes, and on one
whose move lies the interval back. -/
theorem test_sun_change_waits :
    let s := fun since => (moving fun r => { r with sinceMove := some since }).updBlinds fun b =>
      { b with sun := true, evalTimer := 1000 }
    (after (exec .blindEvaluation (s 299999))).blinds.groups[(0 : Fin 4)].computedTarget = 0 ∧
      (after (exec .blindEvaluation (s 299999))).blinds.groups[(0 : Fin 4)].sunUsed = false ∧
      (after (exec .blindEvaluation (s 300000))).blinds.groups[(0 : Fin 4)].computedTarget = 800 ∧
      (after (exec .blindEvaluation (s 300000))).blinds.groups[(0 : Fin 4)].sunUsed = true := by decide

/-- R159: an override waits for the end of the group's calibration. -/
theorem test_override_waits_for_the_calibration :
    let s := { moving fun r => { r with cal := some { leg := 1, travelDown := 0 }, target := 0 } with
      space := { s0.space with overrides := noOverrides.set (blindTarget 0) (some { value := 700, remaining := none }) } }
    (after (exec .blindEvaluation s)).blinds.groups[(0 : Fin 4)].target = 0 := by decide

/-- Group 0 on its way down at 790 toward the goal given, the sun flag set: its target is 800. -/
def sunny (goal : Nat) : State :=
  (moving fun r => { r with state := .movingDown, estimate := 790, goal := goal, sunUsed := true }).updBlinds
    fun b => { b with sun := true }

/-- R150, 8.12: a group 10 short of its own target moves on; one 10 short of a new target stops. -/
theorem test_retarget :
    (after (exec .blindEvaluation (sunny 800))).blinds.groups[(0 : Fin 4)].state = .movingDown ∧
      (after (exec .blindEvaluation (sunny 1000))).blinds.groups[(0 : Fin 4)].state = .stopped := by decide

theorem witness_BlindMovesEnd :
    let steady := moving fun r => { r with goal := 500, referenced := true }
    let stalling := moving fun r => { r with stallCount := 19 }
    let ending := moving fun r => { r with runTested := true, segStart := 200, estimate := 200 }
    let past := moving fun r => { r with overrun := some 15000 }
    let calibrating := moving fun r => { r with cal := some { leg := 3, travelDown := 60000 } }
    let reversing := moving fun r => { r with state := .reversing, goal := 531 }
    steady.Settled ∧ steady.blinds.groups[(0 : Fin 4)].state = .movingUp ∧
      steady.blinds.groups[(0 : Fin 4)].cal = none ∧ steady.working.settings.runThreshold ≤ (150 : Half).toNat ∧
      (1500 : Half).toNat ≤ steady.working.settings.stallThreshold ∧ steady.blinds.queue = [] ∧
      stalling.working.settings.stallThreshold < (1501 : Half).toNat ∧
      19 ≤ stalling.blinds.groups[(0 : Fin 4)].stallCount ∧ ending.blinds.groups[(0 : Fin 4)].runTested = true ∧
      (149 : Half).toNat < ending.working.settings.runThreshold ∧
      past.blinds.groups[(0 : Fin 4)].overrun.isSome ∧ calibrating.blinds.groups[(0 : Fin 4)].cal.isSome ∧
      reversing.Settled ∧ reversing.blinds.groups[(0 : Fin 4)].state = .reversing ∧
      30 < distance reversing.blinds.groups[(0 : Fin 4)].goal reversing.blinds.groups[(0 : Fin 4)].estimate := by
  decide

/-- Group 0 in a calibration leg, its relay energised for the time given. -/
def leg (n ms : Nat) : State :=
  moving fun r => { r with
    state := if n = 2 then .movingDown else .movingUp, cal := some { leg := n, travelDown := 61000 }
    runTested := true, sampleMs := 50, legMs := ms }

theorem witness_BlindMovesEnd_legs :
    (leg 3 59000).Settled ∧ (leg 3 59000).blinds.groups[(0 : Fin 4)].state = .movingUp ∧
      (leg 3 59000).blinds.groups[(0 : Fin 4)].cal = some { leg := 3, travelDown := 61000 } ∧
      (leg 3 59000).blinds.groups[(0 : Fin 4)].runTested = true ∧ (leg 3 59000).blinds.queue = [] ∧
      5000 ≤ (leg 3 59000).blinds.groups[(0 : Fin 4)].legMs ∧
      (0 : Half).toNat < (leg 3 59000).working.settings.runThreshold ∧
      (leg 2 4950).blinds.groups[(0 : Fin 4)].legMs < 5000 ∧ (leg 1 900).Settled ∧
      (moving fun r => { r with cal := some { leg := 2, travelDown := 0 }, runMs := 800 }).blinds.groups[
        (0 : Fin 4)].runTested = false := by decide

/-- R158: the ends of leg 3 give both travel times; a leg 2 below 5 s fails the calibration. -/
theorem test_blind_calibration_ends :
    (let w := (after (exec (.currentSample 0 0) (leg 3 59000))).working.settings
     w.travelDown[(0 : Fin 4)] = 61000 ∧ w.travelUp[(0 : Fin 4)] = 59000) ∧
      (after (exec (.currentSample 0 0) (leg 2 4950))).blinds.groups[(0 : Fin 4)].cal = none ∧
      (after (exec (.currentSample 0 0) (leg 2 5000))).blinds.groups[(0 : Fin 4)].cal =
        some { leg := 3, travelDown := 5000 } := by decide

/-- R154: an end switch seen 200 from the top is believed, one seen 201 from it is not. -/
theorem test_end_switch :
    (after (exec (.currentSample 0 0) (moving fun r => { r with
        runTested := true, segStart := 200, estimate := 200, sampleMs := 50 }))).blinds.groups[(0 : Fin 4)].state =
        .stopped ∧
      (after (exec (.currentSample 0 0) (moving fun r => { r with
        runTested := true, segStart := 201, estimate := 201, sampleMs := 50 }))).blinds.groups[(0 : Fin 4)].state =
        .fault := by decide

/-- R153, R154: at the 800 ms test an unreferenced group stands at its end, a referenced one 201 from it has no motor,
and a reference move takes an end switch far from the end. -/
theorem test_silent_motor :
    let judged := fun (f : Group → Group) => (after (exec (.currentSample 0 149) (moving fun r =>
      f { r with goal := 0, runMs := 750, segStart := 201, estimate := 201, sampleMs := 50 }))).blinds.groups[
        (0 : Fin 4)].state
    judged (fun r => { r with runMs := 800 }) = .stopped ∧
      judged (fun r => { r with runMs := 800, referenced := true }) = .fault ∧
      judged (fun r => { r with runMs := 799, referenced := true }) = .movingUp ∧
      judged (fun r => { r with runTested := true, refMove := true }) = .stopped := by decide

theorem witness_RailEventsMoveTheRail :
    let rising := s0.updRail fun r => { r with state := .rising, settle := some 2000 }
    let down := railOn.updRail fun r => { r with lowTimer := some 20 }
    rising.Settled ∧ rising.rail.state = .rising ∧ rising.rail.settle.isSome ∧ railOn.Settled ∧
      railOn.rail.state = .on ∧ railOn.rail.linger.isSome ∧ down.Settled ∧ down.rail.lowTimer.isSome ∧
      down.rail.state = .on ∧ down.faults[railSource].state = .clear ∧
      (s0.updRail fun r => { r with lowTimer := some 20 }).rail.lowTimer = some 20 ∧ s0.rail.state = .off := by decide

theorem witness_RetriesAndNormalTimersEnd :
    let waiting := faulty 2 fun r => { r with state := .retryWait, retry := 1, retryTimer := some 60000 }
    let counted := faulty 18 fun r => { r with retry := 1, normal := 600000 }
    waiting.Settled ∧ waiting.faults[(2 : Fin 21)].state = .retryWait ∧ (2 : Fin 21) = blindSource 0 ∧
      (18 : Fin 21) = railSource ∧ s0.rail.faultLevel = false ∧ (0 : Fin 21) = damperSource .a ∧
      s0.rail.state ≠ .on ∧ counted.Settled ∧ counted.faults[(18 : Fin 21)].state = .clear ∧
      0 < counted.faults[(18 : Fin 21)].retry ∧ waiting.blinds.groups[(0 : Fin 4)].state = .stopped ∧
      waiting.groupCell 0 ≠ none ∧ waiting.blinds.queue = [] ∧
      waiting.blinds.groups[(0 : Fin 4)].referenced = false := by decide

/-- R155: a STOPPED group whose record returns to CLEAR requests its reference move at once. -/
theorem test_stopped_group_is_rearmed :
    (after (exec (.retryExpiry 2)
      (faulty 2 fun r => { r with state := .retryWait, retry := 1 }))).blinds.groups[(0 : Fin 4)].state = .queued := by
  decide

/-- R86: a restore that lowers the clearing delay below the elapsed time leaves the clearing as it stands. -/
theorem test_restore_leaves_a_clearing :
    let s := unitA fun u => { u with occupancy := .clearing, mode := .occupied, clearing := some 200000 }
    let image : Image :=
      { working := (tuned fun w => { w with clearingDelay := 60 }).working, chain := none }
    let t := after (exec (.restoreSettings 1) (s.updStore fun x => { x with image := some image }))
    t.working.settings.clearingDelay = 60 ∧ t.space = s.space := by decide

/-- R104: a restored air update period below the elapsed time makes no air update of its own. -/
theorem test_restore_makes_no_air_update :
    let s := s0.updAir fun a => { a with timer := 9000 }
    let image : Image := { working := (tuned fun w => { w with airPeriod := 5 }).working, chain := none }
    let t := after (exec (.restoreSettings 1) (s.updStore fun x => { x with image := some image }))
    t.working.settings.airPeriod = 5 ∧ t.air = s.air ∧ t.dueEvents.contains .airUpdate = true := by decide

/-- R177: on an empty queue the period ends before a KEEPALIVE that the end of a frame lets in. -/
theorem test_period_ends_before_the_frame :
    let busy := (tuned fun w => { w with supervisionPeriod := 120 }).updSupervision fun x =>
      { x with state := .supervised, period := some 120000 }
    let s : State := busy.updLink fun l =>
      { l with tx := l.tx.map fun x => { x with elapsed := 1000 } }
    s.dueEvents.getLast? = some .transmitDone ∧ s.dueEvents.contains .periodEnd = true := by decide

end Sys2Proof.Tests
end

