-- ==== Sys2Proof/Proofs/FireLock.lean ====
section
/-! PROOF. The fire lock (R11, R20): what keeps it, rule by rule, from the derivation of a mode up to a whole step. -/

namespace Sys2Proof.Machine
open Sys2Proof

/-! ## Derivation -/

/-- A unit record reads the same where the units are the same. -/
theorem State.unit?_congr {s t : State} (h : t.space.units = s.space.units) (id : UnitId) :
    t.unit? id = s.unit? id := by
  rw [State.unit?, h, State.unit?]

/-- The table of R11 gives FIRE exactly while fire is in force. -/
theorem State.modeFor_eq_fire (s : State) (id : UnitId) (u : UnitRec) :
    s.modeFor id u = .fire ↔ s.space.fire = .inForce := by
  unfold State.modeFor deriveMode
  split
  · simp_all
  · repeat' split
    all_goals simp_all

/-- The daylight factors that a derivation sets are no part of the space coordinator. -/
theorem State.foldl_fullDaylight_space (cs : List Cell) (s : State) :
    (cs.foldl State.fullDaylight s).space = s.space := by
  induction cs generalizing s with
  | nil => rfl
  | cons c cs ih => exact ih _

/-- A derivation writes one unit record. -/
theorem State.derive_units (s : State) (id : UnitId) :
    (s.derive id).space.units = s.space.units.modify id (s.derivedRecord id) := by
  unfold State.derive
  split
  · next h =>
    revert h
    unfold State.unit?
    cases s.space.units <;> cases id <;> simp [Units.get?, Units.modify]
  · dsimp only
    split
    · rw [State.foldl_fullDaylight_space]; rfl
    · rfl

theorem State.derive_unit?_self (s : State) (id : UnitId) :
    (s.derive id).unit? id = (s.unit? id).map (s.derivedRecord id) := by
  rw [State.unit?, State.derive_units, Units.get?_modify_self, State.unit?]

theorem State.derive_unit?_other (s : State) {id j : UnitId} (h : j ≠ id) : (s.derive id).unit? j = s.unit? j := by
  rw [State.unit?, State.derive_units, Units.get?_modify_other _ _ h, State.unit?]

/-! ## The two halves of the lock -/

/-- Every unit's mode is FIRE exactly while fire is in force. -/
abbrev State.ModesSound (s : State) : Prop := s.everyUnit fun _ u => u.mode = .fire ↔ s.space.fire = .inForce

/-- While fire is in force no override stands. -/
abbrev State.OverridesSound (s : State) : Prop :=
  s.space.fire = .inForce → ∀ t : Fin 16, s.space.overrides[t] = none

/-- The parts that the fire lock speaks of are not among those listed. -/
def clearOfLock (xs : List Block) : Bool := !xs.contains .fire && !xs.contains .overrides && !xs.contains .modes

theorem State.ModesSound.kept {xs : List Block} {s t : State} (h : s.ModesSound) (k : Keeps xs s t)
    (hf : xs.contains .fire = false) (hm : xs.contains .modes = false) : t.ModesSound := by
  intro id u hu
  have modes : (t.unit? id).map (·.mode) = (s.unit? id).map (·.mode) := k.same .modes hm id
  have fire : t.space.fire = s.space.fire := k.same .fire hf
  rw [hu, Option.map_some] at modes
  obtain ⟨v, hv, hvu⟩ := Option.map_eq_some_iff.mp modes.symm
  have hvm : v.mode = u.mode := hvu
  rw [← hvm, fire]
  exact h id v hv

theorem State.FireSound.kept {xs : List Block} {s t : State} (h : s.FireSound) (k : Keeps xs s t)
    (w : clearOfLock xs = true) : t.FireSound := by
  simp only [clearOfLock, Bool.and_eq_true, Bool.not_eq_true'] at w
  obtain ⟨⟨hf, ho⟩, hm⟩ := w
  have standing : t.space.overrides = s.space.overrides := k.same .overrides ho
  have fire : t.space.fire = s.space.fire := k.same .fire hf
  exact ⟨by rw [standing, fire]; exact h.1, State.ModesSound.kept h.2 k hf hm⟩

theorem State.FireSound.foldl {α : Type} {f : State → α → State} {s : State} (h : s.FireSound) (l : List α)
    (step : ∀ s a, s.FireSound → (f s a).FireSound) : (l.foldl f s).FireSound := by
  induction l generalizing s with
  | nil => exact h
  | cons a l ih => exact ih (step s a h)

theorem State.FireSound.ite {c : Prop} [Decidable c] {s t : State} (h : s.FireSound) (k : t.FireSound) :
    (if c then s else t).FireSound := by
  split
  · exact h
  · exact k

/-- A record written with a mode that the lock allows. -/
theorem State.FireSound.modifyUnit {s : State} (h : s.FireSound) (id : UnitId) (f : UnitRec → UnitRec)
    (hf : ∀ u, s.unit? id = some u → ((f u).mode = .fire ↔ s.space.fire = .inForce)) :
    (s.modifyUnit id f).FireSound := by
  refine ⟨h.1, fun j u hu => ?_⟩
  by_cases hj : j = id
  · subst hj
    rw [State.unit?_modifyUnit_self] at hu
    obtain ⟨v, hv, rfl⟩ := Option.map_eq_some_iff.mp hu
    exact hf v hv
  · rw [s.unit?_modifyUnit_other f hj] at hu
    exact h.2 j u hu

/-- A record edited with its mode left alone. -/
theorem State.FireSound.edited {s : State} (h : s.FireSound) (id : UnitId) {f : UnitRec → UnitRec}
    (hf : ∀ u, (f u).mode = u.mode := by intro; rfl) : (s.modifyUnit id f).FireSound :=
  h.modifyUnit id f fun u hu => by rw [hf]; exact h.2 id u hu

/-! ## Derivation and the walker -/

theorem State.FireSound.deriveCore {s : State} (h : s.FireSound) (id : UnitId) : (s.deriveCore id).FireSound :=
  h.modifyUnit id _ fun u _ => s.modeFor_eq_fire id u

theorem State.FireSound.derive {s : State} (h : s.FireSound) (id : UnitId) : (s.derive id).FireSound := by
  unfold State.derive
  split
  · exact h
  · dsimp only
    split
    · exact (h.deriveCore id).foldl _ fun s c hs => hs.kept (s.fullDaylight_keeps c) rfl
    · exact h.deriveCore id

theorem State.FireSound.deriveUnits {s : State} (h : s.FireSound) (ids : List UnitId) :
    (s.deriveUnits ids).FireSound := h.foldl ids fun _ id hs => hs.derive id

theorem State.FireSound.endPurge {s : State} (h : s.FireSound) (id : UnitId) : (s.endPurge id).FireSound :=
  (h.edited id).derive id

theorem State.FireSound.leaveCurrent {s : State} (h : s.FireSound) (t : Target) (k : Booking) (o : BookingOutcome)
    (atEnd : Bool) : (s.leaveCurrent t k o atEnd).FireSound :=
  ((h.kept (s.updWalker_keeps _) rfl).kept (State.retire_keeps ..) rfl).deriveUnits _

theorem State.FireSound.startBooking {s : State} (h : s.FireSound) (t : Target) (k : Booking) (n : Nat) :
    (s.startBooking t k n).FireSound := by
  have dropped := h.foldl (s.walker.current.meeting t) (f := fun s old => s.updWalker fun w =>
    { w with current := w.current.drop old.1 }) fun s _ hs => hs.kept (s.updWalker_keeps _) rfl
  have retired := dropped.foldl (s.walker.current.meeting t)
    (f := fun s old => s.retire old.1 old.2 old.2.displaced false) fun _ _ hs => hs.kept (State.retire_keeps ..) rfl
  exact ((retired.kept (State.updWalker_keeps ..) rfl).kept (State.notifyBooking_keeps ..) rfl).deriveUnits _

theorem State.FireSound.switchChain {s : State} (h : s.FireSound) : s.switchChain.FireSound :=
  ((h.kept (s.updWalker_keeps _) rfl).foldl _ fun _ _ hs => hs.deriveUnits _).kept (State.notify_keeps ..) rfl

theorem State.FireSound.moveCursor {s : State} (h : s.FireSound) (k : Nat) : (s.moveCursor k).FireSound := by
  have moved (f) : (s.updWalker f).FireSound := h.kept (s.updWalker_keeps f) rfl
  refine .ite (moved _) (.ite h.switchChain ?_)
  split
  · exact moved _
  · exact (moved _).kept (State.notify_keeps ..) rfl

theorem State.FireSound.armEntry {s : State} (h : s.FireSound) (e : Entry) (k : Nat) (late : Bool) :
    (s.armEntry e k late).FireSound :=
  have told (b : Booking) : (if b.marked then s.notifyBooking .stopMarkArmed b noValue else s).FireSound :=
    .ite (h.kept (State.notifyBooking_keeps ..) rfl) h
  .ite ((told _).startBooking ..) (((told _).kept (State.updWalker_keeps ..) rfl).deriveUnits _)

theorem State.FireSound.armingPass (afterSet : Bool) (n : Nat) {s : State} (h : s.FireSound) :
    (State.armingPass afterSet n s).FireSound := by
  induction n generalizing s with
  | zero => exact h
  | succ n ih =>
    unfold State.armingPass
    dsimp only
    split
    · exact h
    split
    · exact h
    split
    · exact h.kept (s.updWalker_keeps _) rfl
    split
    · exact h.kept (s.updWalker_keeps _) rfl
    next s1 hmoved =>
      have moved : s1.FireSound := by
        repeat' split at hmoved
        all_goals cases hmoved
        · exact h
        · exact h.armEntry ..
        · exact h.armEntry ..
        · exact h.kept (State.missEntry_keeps ..) rfl
        · exact h.kept (State.missEntry_keeps ..) rfl
      split
      · exact ih (moved.moveCursor _)
      · exact ih (moved.moveCursor _)
      · exact moved.moveCursor _

theorem State.FireSound.pass {s : State} (h : s.FireSound) : s.pass.FireSound := by
  unfold State.pass
  split
  · exact h.armingPass ..
  · exact h.armingPass ..
  · exact h

theorem State.FireSound.switchAndPass {s : State} (h : s.FireSound) : s.switchAndPass.FireSound :=
  .ite h.switchChain.pass h.switchChain

theorem State.FireSound.minuteCurrent {s : State} (h : s.FireSound) (t : Target) (k : Booking) :
    (s.minuteCurrent t k).FireSound :=
  have counted (f) : (s.updWalker f).FireSound := h.kept (s.updWalker_keeps f) rfl
  have warned {p : Prop} [Decidable p] (f b n) :
      (if p then (s.updWalker f).notifyBooking .bookingEnding b n else s.updWalker f).FireSound :=
    .ite ((counted f).kept (State.notifyBooking_keeps ..) rfl) (counted f)
  .ite (counted _) (.ite
    (.ite (((counted _).kept (State.updWalker_keeps ..) rfl).deriveUnits _) ((counted _).leaveCurrent ..))
    (.ite ((warned _ _ _).leaveCurrent ..) (.ite ((warned _ _ _).leaveCurrent ..) (warned _ _ _))))

theorem State.FireSound.minuteNext {s : State} (h : s.FireSound) (t : Target) (k : Booking) :
    (s.minuteNext t k).FireSound :=
  .ite ((h.kept (s.updWalker_keeps _) rfl).startBooking ..) (h.kept (s.updWalker_keeps _) rfl)

theorem State.FireSound.walkMinute {s : State} (h : s.FireSound) (weekEnd : Bool) :
    (s.walkMinute weekEnd).FireSound := by
  have currents (ks : List (Target × Booking)) :=
    (h.kept (s.updWalker_keeps fun w => w.advance 1) rfl).foldl ks fun _ k hs => hs.minuteCurrent k.1 k.2
  have nexts (ks ls : List (Target × Booking)) := (currents ks).foldl ls fun _ k hs => hs.minuteNext k.1 k.2
  unfold State.walkMinute
  dsimp only
  split
  · exact (State.FireSound.ite (nexts ..).switchAndPass (nexts ..)).pass
  · exact .ite (State.FireSound.ite (nexts ..).switchAndPass (nexts ..)).pass (.ite (nexts ..).switchAndPass (nexts ..))
  · exact .ite (nexts ..).switchAndPass (nexts ..)

theorem State.FireSound.minuteEvent {s : State} (h : s.FireSound) : s.minuteEvent.FireSound :=
  (h.kept (s.updClock_keeps _) rfl).walkMinute _

theorem State.FireSound.largeSet {s : State} (h : s.FireSound) : s.largeSet.FireSound := by
  have placed (f) : (s.updWalker f).FireSound := h.kept (s.updWalker_keeps f) rfl
  unfold State.largeSet
  split
  · exact h
  · exact h
  · exact placed _
  all_goals exact (placed _).armingPass ..

theorem State.FireSound.clockSet {s : State} (h : s.FireSound) (old : Nat) (wasSet : Bool) :
    (s.clockSet old wasSet).FireSound := by
  have advanced (f) : (s.updWalker f).FireSound := h.kept (s.updWalker_keeps f) rfl
  refine .ite (.ite h (.ite ?_ h.largeSet)) h.largeSet
  split
  · exact (advanced _).pass
  · exact (advanced _).pass
  · exact advanced _
  · exact h.largeSet
  · exact h
  · exact h

/-! ## Occupancy and presence -/

theorem State.FireSound.endHeld {s : State} (h : s.FireSound) (id : UnitId) : (s.endHeld id).FireSound :=
  h.foldl _ fun _ _ hs => .ite (hs.leaveCurrent ..) hs

theorem State.FireSound.becomeVacant {s : State} (h : s.FireSound) (id : UnitId) : (s.becomeVacant id).FireSound :=
  ((h.edited id).derive id).endHeld id

theorem State.FireSound.occupancyChanged {s : State} (h : s.FireSound) (id : UnitId) (old new : Occupancy) :
    (s.occupancyChanged id old new).FireSound := by
  refine .ite h ?_
  cases new with
  | vacant => exact h.becomeVacant id
  | occupied =>
    exact ((State.FireSound.ite (h.kept (s.clearVacant_keeps id) rfl) h).kept (State.seeOccupied_keeps ..)
      rfl).derive id
  | clearing => exact h.derive id

theorem State.FireSound.setOccupancy {s : State} (h : s.FireSound) (id : UnitId) (new : Occupancy)
    (clearing : Option Nat) : (s.setOccupancy id new clearing).FireSound := by
  unfold State.setOccupancy
  split
  · exact h
  · exact (h.edited id).occupancyChanged ..

theorem State.FireSound.evaluate {s : State} (h : s.FireSound) (id : UnitId) : (s.evaluate id).FireSound := by
  unfold State.evaluate
  split
  · exact h
  · exact h.setOccupancy ..

theorem State.FireSound.setHeadcount {s : State} (h : s.FireSound) (id : UnitId) (n : Nat) (count : CountState) :
    (s.setHeadcount id n count).FireSound :=
  (h.edited id).evaluate id

theorem State.FireSound.enter {s : State} (h : s.FireSound) (c : Cell) : (s.enter c).FireSound :=
  have begun : (if s.presenceOf (s.space.units.idOf c) then s
      else s.modifyUnit (s.space.units.idOf c) fun u => { u with vacancyTimer := 0, vacancyTold := true }).FireSound :=
    .ite h (h.edited _)
  .ite (begun.setHeadcount ..) (begun.setHeadcount ..)

theorem State.FireSound.leave {s : State} (h : s.FireSound) (c : Cell) : (s.leave c).FireSound :=
  .ite (h.setHeadcount ..) (h.kept (s.updDrift_keeps _) rfl)

theorem State.FireSound.confirmVacancy {s : State} (h : s.FireSound) (id : UnitId) :
    (s.confirmVacancy id).FireSound := by
  unfold State.confirmVacancy
  split
  · exact h
  · exact (State.FireSound.ite ((h.edited id).kept (State.notify_keeps ..) rfl) (h.edited id)).setOccupancy ..

theorem State.FireSound.unitPresence {s : State} (h : s.FireSound) (id : UnitId) (p : Bool) :
    (s.unitPresence id p).FireSound :=
  (h.edited id fun u => by cases p <;> rfl).evaluate id

theorem State.FireSound.setPresence {s : State} (h : s.FireSound) (c : Cell) (p : Bool) (since : Option Nat) :
    (s.setPresence c p since).FireSound :=
  have written (f) : (s.updPresence f).FireSound := h.kept (s.updPresence_keeps f) rfl
  .ite (written _) ((written _).unitPresence ..)

theorem State.FireSound.judgePresence {s : State} (h : s.FireSound) (c : Cell) : (s.judgePresence c).FireSound := by
  unfold State.judgePresence
  dsimp only
  split
  · exact h
  · exact h.setPresence ..

/-! ## Doorways and detectors -/

theorem State.FireSound.handCount {s : State} (h : s.FireSound) (c : Cell) (n : Counted) :
    (s.handCount c n).FireSound := by
  cases n with
  | entry => exact h.enter c
  | exit => exact h.leave c
  | nothing => exact h
  | turnBack => exact h

theorem State.FireSound.beamEvent {s : State} (h : s.FireSound) (i : Fin 4) (side : BeamSide) (broke : Bool) :
    (s.beamEvent i side broke).FireSound := by
  have moved (f) : (s.updDoor i f).FireSound := h.kept (s.updDoor_keeps i f) rfl
  unfold State.beamEvent
  split
  · exact h
  · exact .ite (moved _) (.ite (.ite ((moved _).kept (State.withdrawDoor_keeps ..) rfl) h) ((moved _).handCount ..))

theorem State.FireSound.completeDebounce {s : State} (h : s.FireSound) (i : Fin 4) (side : BeamSide) :
    (s.completeDebounce i side).FireSound := by
  have moved {t : State} (ht : t.FireSound) (f) : (t.updDoor i f).FireSound := ht.kept (t.updDoor_keeps i f) rfl
  unfold State.completeDebounce
  dsimp only
  split
  · exact h
  · split
    · exact (moved h _).kept (State.firstLevel_keeps ..) rfl
    · exact .ite (moved h _) (.ite (moved (moved h _) _) ((moved (moved h _) _).beamEvent ..))

theorem State.FireSound.completeFilter {s : State} (h : s.FireSound) (i : Fin 6) : (s.completeFilter i).FireSound := by
  have moved {t : State} (ht : t.FireSound) (f) : (t.updDetector i f).FireSound :=
    ht.kept (t.updDetector_keeps i f) rfl
  unfold State.completeFilter
  dsimp only
  split
  · exact h
  · split
    · exact moved h _
    · refine .ite ?_ (moved h _)
      split
      · exact (moved (moved h _) _).setPresence ..
      · exact moved (moved h _) _

theorem State.FireSound.presenceExpiry {s : State} (h : s.FireSound) (c : Cell) : (s.presenceExpiry c).FireSound := by
  unfold State.presenceExpiry
  dsimp only
  split
  · exact .ite (h.setPresence ..) h
  · exact h

theorem State.FireSound.purgeExpiry {s : State} (h : s.FireSound) (id : UnitId) : (s.purgeExpiry id).FireSound := by
  unfold State.purgeExpiry
  split
  · exact h
  · exact .ite (h.endPurge id) h

theorem State.FireSound.vacancyReached {s : State} (h : s.FireSound) (id : UnitId) :
    (s.vacancyReached id).FireSound := by
  unfold State.vacancyReached
  split
  · exact h
  · exact .ite h ((h.edited id).confirmVacancy id)

theorem State.FireSound.forcedReached {s : State} (h : s.FireSound) (id : UnitId) : (s.forcedReached id).FireSound := by
  unfold State.forcedReached
  split
  · exact h
  · exact .ite (h.setHeadcount ..) h

theorem State.FireSound.clearingReached {s : State} (h : s.FireSound) (id : UnitId) :
    (s.clearingReached id).FireSound := by
  unfold State.clearingReached
  split
  · exact h
  · exact .ite (h.setOccupancy ..) h

/-! ## Samples -/

theorem State.FireSound.purgeEndTest {s : State} (h : s.FireSound) (id : UnitId) : (s.purgeEndTest id).FireSound := by
  unfold State.purgeEndTest
  split
  · exact h
  · exact .ite (h.endPurge id) h

theorem State.FireSound.sensorSample {s : State} (h : s.FireSound) (levels : Vector Half 8) :
    (s.sensorSample levels).FireSound :=
  have credited := ((h.kept (s.updScanner_keeps fun x => { x with timer := 0 }) rfl).kept
    (State.creditCal_keeps _ .a (1000 - s.scanner.timer)) rfl).kept
    (State.creditCal_keeps _ .b (1000 - s.scanner.timer)) rfl
  have sampled := credited.foldl allChannels (f := fun s i => s.sampleChannel i levels[i].toNat) fun _ _ hs =>
    hs.kept (State.sampleChannel_keeps ..) rfl
  have tested := sampled.foldl (_ : State).space.units.ids fun _ id hs => hs.purgeEndTest id
  ((((tested.kept (State.temperatureHealth_keeps ..) rfl).kept (State.temperatureHealth_keeps ..) rfl).kept
    (State.handFeedback_keeps ..) rfl).kept (State.handFeedback_keeps ..) rfl).kept (State.refreshNeeds_keeps _) rfl

/-! ## Join, split and the arrangement -/

/-- The mode of AB before its derivation: PURGE from a unit in PURGE, else A's (R4). -/
theorem joinRecord_mode (a b : UnitRec) (p : Bool) :
    (joinRecord a b p).mode = a.mode ∨
      (a.mode = .purge ∨ b.mode = .purge) ∧ (joinRecord a b p).mode = .purge := by
  by_cases h : (a.mode = .purge ∨ b.mode = .purge) ∧ (joinRecord a b p).occupancy = .vacant
  · exact .inr ⟨h.1, if_pos h⟩
  · exact .inl (if_neg h)

/-- The records of A and B make a record of AB with a mode that the lock allows (R4). -/
theorem State.FireSound.modeOfJoin {s : State} {a b : UnitRec} (h : s.FireSound) (hu : s.space.units = .split a b)
    (p : Bool) : (joinRecord a b p).mode = .fire ↔ s.space.fire = .inForce := by
  have ha : a.mode = .fire ↔ s.space.fire = .inForce := h.2 .a a (by simp [State.unit?, hu, Units.get?])
  have hb : b.mode = .fire ↔ s.space.fire = .inForce := h.2 .b b (by simp [State.unit?, hu, Units.get?])
  rcases joinRecord_mode a b p with hm | ⟨hp | hp, hm⟩
  · rw [hm]; exact ha
  · rw [hm, ← hp]; exact ha
  · rw [hm, ← hp]; exact hb

theorem State.FireSound.join {s : State} {a b : UnitRec} (h : s.FireSound) (hu : s.space.units = .split a b) :
    (s.join a b).FireSound := by
  have joined : (s.updSpace fun p => { p with units := .joined (joinRecord a b (s.presenceOf .ab)) }).FireSound := by
    refine ⟨h.1, fun id u hget => ?_⟩
    cases id <;> simp only [State.unit?, State.updSpace_space, Units.get?] at hget
    all_goals cases hget
    exact h.modeOfJoin hu _
  have derived (o : Occupancy) := (joined.kept (State.joinBookings_keeps _ s o) rfl).deriveCore .ab
  exact (((derived _).kept (State.daylightAcross_keeps ..) rfl).kept (State.daylightAcross_keeps ..) rfl).kept
    (State.airUpdate_keeps _) rfl

theorem State.FireSound.vacatedBySplit {s : State} (h : s.FireSound) (id : UnitId) (before : Occupancy) :
    (s.vacatedBySplit id before).FireSound := .ite (h.endHeld id) h

theorem State.FireSound.split {s : State} {ab : UnitRec} (h : s.FireSound) (hu : s.space.units = .joined ab) :
    (s.split ab).FireSound := by
  have hab : ab.mode = .fire ↔ s.space.fire = .inForce := h.2 .ab ab (by simp [State.unit?, hu, Units.get?])
  have parted (n m : Nat) (p q : Bool) :
      (s.updSpace fun x => { x with units := .split (splitRecord ab n p) (splitRecord ab m q) }).FireSound := by
    refine ⟨h.1, fun id u hget => ?_⟩
    cases id <;> simp only [State.unit?, State.updSpace_space, Units.get?] at hget
    all_goals cases hget
    all_goals exact hab
  have derived (n m : Nat) (p q : Bool) := ((parted n m p q).deriveCore .a).deriveCore .b
  have lit (n m : Nat) (p q : Bool) := ((derived n m p q).kept (State.daylightAcross_keeps _ .a ab.mode) rfl).kept
    (State.daylightAcross_keeps _ .b ab.mode) rfl
  exact (((lit _ _ _ _).vacatedBySplit .a _).vacatedBySplit .b _).kept (State.airUpdate_keeps _) rfl

theorem State.FireSound.arrange {s : State} (h : s.FireSound) (always : Bool) : (s.arrange always).FireSound := by
  unfold State.arrange
  split
  · next hu _ => exact ((h.join hu).kept (State.notifyPartition_keeps _) rfl).kept (State.notifyMismatch_keeps _) rfl
  · next hu _ => exact (h.split hu).kept (State.notifyPartition_keeps _) rfl
  · exact .ite (h.kept s.notifyPartition_keeps rfl) h

theorem State.FireSound.completePartition {s : State} (h : s.FireSound) : s.completePartition.FireSound := by
  unfold State.completePartition
  split
  · exact h
  · exact (h.kept (s.updSpace_partition_partitionTimer_keeps _ _) rfl).arrange true

/-! ## Overrides -/

/-- Ending an override leaves its target without one, and the other targets as they were (R17). -/
theorem State.endOverride_overrides (s : State) (t : Fin 16) (cause : OverrideCause) :
    (s.endOverride t cause).space.overrides = s.space.overrides.set t none := by
  unfold State.endOverride
  split
  · exact (State.overrideMoved_keeps _ t).same .overrides rfl
  · next h =>
    have hnone : s.space.overrides[t] = none := by simpa using h
    ext i hi : 1
    by_cases ht : t.val = i
    · subst ht; simpa using hnone
    · simp [ht]

theorem mem_allTargets : ∀ t : Fin 16, t ∈ allTargets := by decide

theorem State.foldl_endOverride_overrides (cause : OverrideCause) (ts : List (Fin 16)) (s : State) (t : Fin 16)
    (h : t ∈ ts ∨ s.space.overrides[t] = none) :
    (ts.foldl (fun s t => s.endOverride t cause) s).space.overrides[t] = none := by
  induction ts generalizing s with
  | nil => simpa using h
  | cons x xs ih =>
    refine ih _ ?_
    rw [State.endOverride_overrides]
    by_cases hx : t = x
    · subst hx; simp
    · have : x.val ≠ t.val := fun e => hx (Fin.ext e.symm)
      simpa [hx, this] using h

/-- Ending the overrides leaves none (R17). -/
theorem State.endOverrides_overrides (s : State) (cause : OverrideCause) (t : Fin 16) :
    (s.endOverrides cause).space.overrides[t] = none := by
  unfold State.endOverrides
  exact s.foldl_endOverride_overrides cause allTargets t (.inl (mem_allTargets t))

theorem State.FireSound.endOverride {s : State} (h : s.FireSound) (t : Fin 16) (cause : OverrideCause) :
    (s.endOverride t cause).FireSound := by
  have k := s.endOverride_keeps t cause
  refine ⟨fun hf x => ?_, State.ModesSound.kept h.2 k rfl rfl⟩
  have fire : (s.endOverride t cause).space.fire = s.space.fire := k.same .fire rfl
  have hx := h.1 (fire ▸ hf) x
  rw [State.endOverride_overrides]
  simp only [Fin.getElem_fin, Vector.getElem_set] at hx ⊢
  split
  · rfl
  · exact hx

theorem State.FireSound.endOverrides {s : State} (h : s.FireSound) (cause : OverrideCause) :
    (s.endOverrides cause).FireSound := by
  unfold State.endOverrides
  exact h.foldl allTargets fun _ t hs => hs.endOverride t cause

theorem State.FireSound.overrideExpires {s : State} (h : s.FireSound) (t : Fin 16) :
    (s.overrideExpires t).FireSound := .ite (h.endOverride t .expired) h

/-- An override is placed while fire is not in force alone (R16). -/
theorem State.FireSound.placeOverride {s : State} (h : s.FireSound) (hf : s.space.fire ≠ .inForce) (t : Fin 16)
    (value minutes : Nat) : (s.placeOverride t value minutes).FireSound := by
  have k := s.placeOverride_keeps t value minutes
  have fire : (s.placeOverride t value minutes).space.fire = s.space.fire := k.same .fire rfl
  exact ⟨fun h1 => absurd (fire ▸ h1) hf, State.ModesSound.kept h.2 k rfl rfl⟩

/-! ## Fire -/

/-- A derivation reads nothing that a derivation writes but the record itself. -/
theorem State.derivedRecord_congr {s t : State} (k : Keeps [.units, .modes, .lighting] s t) (id : UnitId)
    (u : UnitRec) : t.derivedRecord id u = s.derivedRecord id u := by
  have fire : t.space.fire = s.space.fire := k.same .fire rfl
  have walker : t.walker = s.walker := k.same .walker rfl
  have scanner : t.scanner = s.scanner := k.same .scanner rfl
  have profiles : t.working.profiles = s.working.profiles := k.same .profiles rfl
  have settings : t.working.settings = s.working.settings := k.same .settings rfl
  have co2 : t.co2Of id = s.co2Of id := by unfold State.co2Of; rw [scanner]
  have met : t.purgeEndMet id = s.purgeEndMet id := by unfold State.purgeEndMet; rw [co2, settings]
  have mode : t.modeFor id u = s.modeFor id u := by unfold State.modeFor; rw [fire, walker, profiles, met]
  unfold State.derivedRecord
  rw [mode, walker, profiles]

/-- Deriving every unit writes each record once (R20, R21). -/
theorem State.deriveAll_unit? (s : State) (id : UnitId) :
    s.deriveAll.unit? id = (s.unit? id).map (s.derivedRecord id) := by
  have second (u : UnitRec) : (s.derive .a).derivedRecord .b u = s.derivedRecord .b u :=
    State.derivedRecord_congr (s.derive_keeps .a) .b u
  unfold State.deriveAll State.deriveUnits
  cases hu : s.space.units with
  | split a b =>
    simp only [Units.ids, List.foldl_cons, List.foldl_nil]
    cases id
    · rw [State.derive_unit?_other _ (by decide), State.derive_unit?_self]
    · rw [State.derive_unit?_self, s.derive_unit?_other (by decide)]
      exact congrArg (Option.map · _) (funext second)
    · rw [State.derive_unit?_other _ (by decide), State.derive_unit?_other _ (by decide)]
      simp [State.unit?, hu, Units.get?]
  | joined ab =>
    simp only [Units.ids, List.foldl_cons, List.foldl_nil]
    cases id
    · rw [State.derive_unit?_other _ (by decide)]; simp [State.unit?, hu, Units.get?]
    · rw [State.derive_unit?_other _ (by decide)]; simp [State.unit?, hu, Units.get?]
    · exact s.derive_unit?_self .ab

theorem State.deriveAll_modesSound (s : State) : s.deriveAll.ModesSound := by
  have fire : s.deriveAll.space.fire = s.space.fire := s.deriveAll_keeps.same .fire rfl
  intro id u hu
  rw [State.deriveAll_unit?] at hu
  obtain ⟨v, -, rfl⟩ := Option.map_eq_some_iff.mp hu
  rw [fire]
  exact s.modeFor_eq_fire id v

/-- The derivation of every unit mends the modes of a state without overrides, or without fire. -/
theorem State.FireSound.deriveAll {s : State} (h : s.OverridesSound) : s.deriveAll.FireSound := by
  have k := s.deriveAll_keeps
  have standing : s.deriveAll.space.overrides = s.space.overrides := k.same .overrides rfl
  have fire : s.deriveAll.space.fire = s.space.fire := k.same .fire rfl
  exact ⟨by rw [standing, fire]; exact h, s.deriveAll_modesSound⟩

/-- Fire comes into force with the lock closed, whatever stood before (R20). -/
theorem State.fireOn_fireSound (s : State) : s.fireOn.FireSound := by
  have derived := State.FireSound.deriveAll
    (s := ((s.updSpace fun p => { p with fire := .inForce, fireTimer := none }).notify .fireOn none none
      noValue none).endOverrides .fire) fun _ => State.endOverrides_overrides _ _
  exact (((((derived.kept (State.abortDamperCal_keeps ..) rfl).kept (State.abortDamperCal_keeps ..) rfl).kept
    (State.redriveAll_keeps _) rfl).kept (State.fireLights_keeps _) rfl).kept (State.fireBlinds_keeps _) rfl).kept
    (State.refreshNeeds_keeps _) rfl

/-- Fire clears with the lock open, whatever stood before (R21). -/
theorem State.fireOff_fireSound (s : State) : s.fireOff.FireSound := by
  have derived := State.FireSound.deriveAll
    (s := (s.updSpace fun p => { p with fire := .clear, fireTimer := none }).notify .fireOff none none
      noValue none) fun h => by simp at h
  exact ((derived.kept (State.unfireBlinds_keeps _) rfl).kept (State.redriveAll_keeps _) rfl).kept
    (State.refreshNeeds_keeps _) rfl

theorem State.FireSound.completeFire {s : State} (h : s.FireSound) : s.completeFire.FireSound := by
  unfold State.completeFire
  split
  · exact h
  · exact s.fireOn_fireSound
  · exact s.fireOff_fireSound

/-! ## Supervision, settings, the clock -/

theorem State.FireSound.lapse {s : State} (h : s.FireSound) (reason : LapseReason) : (s.lapse reason).FireSound := by
  unfold State.lapse
  exact ((((h.kept (s.updSupervision_keeps _) rfl).kept (State.notify_keeps ..) rfl).endOverrides .lapse).kept
    (State.defaultCap_keeps _) rfl).kept (State.updBlinds_keeps ..) rfl

theorem State.FireSound.periodEnd {s : State} (h : s.FireSound) : s.periodEnd.FireSound := .ite (h.lapse .late) h

theorem State.FireSound.settingWritten {s : State} (h : s.FireSound) (k : SettingKey) (before : Settings) :
    (s.settingWritten k before).FireSound := by
  unfold State.settingWritten
  split
  case h_1 => exact h.arrange false
  case h_2 => exact h.kept s.polarityWritten_keeps rfl
  case h_3 => exact h.kept (State.returnDoor_keeps ..) rfl
  case h_4 => exact h.kept (State.returnDoor_keeps ..) rfl
  case h_5 => exact h.kept (State.returnDoor_keeps ..) rfl
  case h_6 => exact h.kept s.transitWritten_keeps rfl
  case h_7 => exact (h.judgePresence .a).judgePresence .b
  case h_8 => exact h.foldl _ fun _ _ hs => .ite (hs.setOccupancy ..) hs
  case h_9 => exact h.foldl _ fun _ _ hs => .ite (hs.confirmVacancy _) hs
  case h_10 => exact h.kept s.airPeriodWritten_keeps rfl
  case h_11 => exact h.kept s.defaultCapWritten_keeps rfl
  case h_12 => exact h.kept (State.firePositionWritten_keeps ..) rfl
  case h_13 => exact h.kept (State.strokeWritten_keeps ..) rfl
  case h_14 => exact h.kept (State.channelCellWritten_keeps ..) rfl
  case h_15 => exact h.kept (State.driverMinWritten_keeps ..) rfl
  case h_16 => exact h.kept (State.blindCellWritten_keeps ..) rfl
  case h_17 => exact h.kept (State.travelWritten_keeps ..) rfl
  case h_18 => exact h.kept (State.travelWritten_keeps ..) rfl
  case h_19 => exact h.kept s.driveSlotsWritten_keeps rfl
  case h_20 => exact h.kept s.retryWritten_keeps rfl
  case h_21 => exact h.kept s.periodWritten_keeps rfl
  case h_22 => exact h

theorem State.FireSound.restore {s : State} (h : s.FireSound) (image : Image) : (s.restore image).FireSound :=
  ((((h.kept (s.withSettings_keeps _) rfl).foldl _ fun _ _ hs => hs.settingWritten _ _).kept
    (State.withProfiles_keeps ..) rfl).kept (State.withTables_keeps ..) rfl).kept (State.withCalibrations_keeps ..) rfl

theorem State.FireSound.setClock {s : State} (h : s.FireSound) (minute second : Nat) :
    (s.setClock minute second).FireSound :=
  have set (f) : (s.updClock f).FireSound := h.kept (s.updClock_keeps f) rfl
  State.FireSound.clockSet (.ite ((set _).kept (State.withdrawFault_keeps ..) rfl) (set _)) _ _

theorem State.FireSound.tickSecond {s : State} (h : s.FireSound) : s.tickSecond.FireSound :=
  .ite (h.kept (s.updClock_keeps _) rfl) h.minuteEvent

theorem State.FireSound.cancelChain {s : State} (h : s.FireSound) : s.cancelChain.FireSound := by
  have derived (ks : List (Target × Booking)) := (h.kept (s.updWalker_keeps Walker.cancelled) rfl).foldl ks
    (f := fun s k => s.deriveUnits (s.space.units.ofTarget k.1)) fun _ _ hs => hs.deriveUnits _
  have left (ks ls : List (Target × Booking)) := (derived ks).foldl ls
    (f := fun s k => s.leaveCurrent k.1 k.2 .cancelled false) fun _ _ hs => hs.leaveCurrent ..
  unfold State.cancelChain
  exact .ite (left _ _).switchAndPass (left _ _)

/-! ## Resets -/

/-- At a reset fire is clear and every unit is in SETBACK (R24). -/
theorem State.initial_fireSound (w : Working) (image : Option Image) (cause : ResetCause) (clock : WeekClock) (p : Pins)
    (pending : List Instr) : (State.initial w image cause clock p pending).FireSound := by
  have clear : (State.initial w image cause clock p pending).space.fire ≠ .inForce :=
    show FireState.clear ≠ .inForce by decide
  refine ⟨fun h => absurd h clear, fun id u hu => ?_⟩
  have fresh : u = UnitRec.fresh := by cases id <;> cases hu <;> rfl
  subst fresh
  exact ⟨fun h => absurd h (by decide), fun h => absurd h clear⟩

theorem State.resetBy_fireSound (s : State) (cause : ResetCause) : (s.resetBy cause).FireSound :=
  have told := ((State.initial_fireSound _ _ cause _ s.pins s.pending).kept (State.reportLost_keeps _) rfl).kept
    (State.reportDegraded_keeps _) rfl
  .ite told.largeSet told

/-! ## Requests -/

theorem State.FireSound.refused {s : State} (h : s.FireSound) (status : ReplyStatus) :
    (refuse status s).2.FireSound := h

theorem State.FireSound.accepted {s : State} (h : s.FireSound) (data : List Byte) :
    (accept data s).2.FireSound := h

theorem State.FireSound.acceptedClamped {s : State} (h : s.FireSound) (clamped : Bool) (stored : List Byte) :
    (acceptClamped clamped stored s).2.FireSound := h

theorem State.FireSound.clearRecord {s t : State} (h : s.FireSound) {i : Fin 21} {keep : Bool}
    (ht : s.clearRecord i keep = some t) : t.FireSound := by
  have written {x : State} (hx : x.FireSound) (f) : (x.updFault i f).FireSound := hx.kept (x.updFault_keeps i f) rfl
  have told {x : State} (hx : x.FireSound) (k) : (x.notifyFault k i).FireSound := hx.kept (x.notifyFault_keeps k i) rfl
  unfold State.clearRecord at ht
  split at ht
  · split at ht
    all_goals cases ht
    · exact (told (written h _) _).kept (State.redriveSource_keeps ..) rfl
    · exact told (written h _) _
  · split at ht
    all_goals cases ht
    · exact (told (written h _) _).kept (State.redriveSource_keeps ..) rfl
    · exact told (written h _) _
  · cases ht; exact written h _
  · split at ht
    all_goals cases ht
    exact (told (written h _) _).kept (State.restartStuck_keeps ..) rfl
  · cases ht
  · cases ht

theorem State.answerKeepalive_fireSound {s : State} (h : s.FireSound) : s.answerKeepalive.2.FireSound := by
  have fresh (f) : (s.updSupervision f).FireSound := h.kept (s.updSupervision_keeps f) rfl
  unfold State.answerKeepalive
  dsimp only
  split
  · exact h.accepted _
  · exact (fresh _).accepted _
  · split
    · exact (fresh _).accepted _
    · exact (h.lapse .early).accepted _
  · exact (fresh _).accepted _

theorem State.answerSetTime_fireSound {s : State} (h : s.FireSound) (minute : Half) (second : Byte) :
    (s.answerSetTime minute second).2.FireSound := by
  unfold State.answerSetTime
  split
  · exact h.refused _
  · exact (h.setClock ..).accepted _

theorem State.answerRestart_fireSound {s : State} (h : s.FireSound) : s.answerRestart.2.FireSound := by
  unfold State.answerRestart
  split
  · exact h.refused _
  · exact State.FireSound.accepted (h.kept (s.updLink_keeps _) rfl) _

theorem State.answerSetNoticeMask_fireSound {s : State} (h : s.FireSound) (kind setting : Byte) :
    (s.answerSetNoticeMask kind setting).2.FireSound := by
  have masked (f) : (s.updLink f).FireSound := h.kept (s.updLink_keeps f) rfl
  unfold State.answerSetNoticeMask
  split
  · exact h.refused _
  · exact (masked _).accepted _
  · split
    · exact (masked _).accepted _
    · exact h.refused _

theorem State.answerPutSetting_fireSound {s : State} (h : s.FireSound) (number inst : Byte) (value : Word32) :
    (s.answerPutSetting number inst value).2.FireSound := by
  unfold State.answerPutSetting
  split
  · exact h.refused _
  · split
    · exact h.refused _
    · split
      · exact h.refused _
      · exact (h.kept (s.withSettings_keeps _) rfl).settingWritten ..

theorem State.answerGetSetting_fireSound {s : State} (h : s.FireSound) (number inst : Byte) :
    (s.answerGetSetting number inst).2.FireSound := by
  unfold State.answerGetSetting
  split
  · exact h.refused _
  · exact h.accepted _

theorem State.answerSaveSettings_fireSound {s : State} (h : s.FireSound) : s.answerSaveSettings.2.FireSound := by
  unfold State.answerSaveSettings
  split
  · exact h.refused _
  · exact State.FireSound.accepted (h.kept s.beginSave_keeps rfl) _

theorem State.answerRestoreSettings_fireSound {s : State} (h : s.FireSound) :
    s.answerRestoreSettings.2.FireSound := by
  unfold State.answerRestoreSettings
  split
  · exact h.refused _
  · split
    · exact h.refused _
    · exact (h.restore _).accepted _

/-! ### The booking walker -/

theorem State.answerGetChain_fireSound {s : State} (h : s.FireSound) (entry : Option (Byte × Byte)) :
    (s.answerGetChain entry).2.FireSound := by
  unfold State.answerGetChain
  split
  · exact h.accepted _
  · split
    · exact h.refused _
    · exact h.accepted _

theorem State.answerChainBegin_fireSound {s : State} (h : s.FireSound) (repeating : Byte) :
    (s.answerChainBegin repeating).2.FireSound := by
  unfold State.answerChainBegin
  split
  · exact h.refused _
  · exact State.FireSound.accepted (h.kept (s.updWalker_keeps _) rfl) _

theorem State.answerChainEntry_fireSound {s : State} (h : s.FireSound) (index : Byte) (e : EntryRecord) :
    (s.answerChainEntry index e).2.FireSound := by
  unfold State.answerChainEntry
  dsimp only
  split
  · exact h.refused _
  split
  · exact h.refused _
  split
  · exact h.refused _
  split
  · exact h.refused _
  · exact State.FireSound.acceptedClamped (h.kept (s.updWalker_keeps _) rfl) _ _

theorem State.answerChainCommit_fireSound {s : State} (h : s.FireSound) : s.answerChainCommit.2.FireSound := by
  have written (f) : (s.updWalker f).FireSound := h.kept (s.updWalker_keeps f) rfl
  unfold State.answerChainCommit
  split
  · exact h.refused _
  · split
    · exact written _
    · exact (written _).accepted _

theorem State.answerChainSwitch_fireSound {s : State} (h : s.FireSound) (timing : Byte) :
    (s.answerChainSwitch timing).2.FireSound := by
  unfold State.answerChainSwitch
  split
  · exact h.refused _
  split
  · exact h.refused _
  split
  · exact h.switchAndPass.accepted _
  · exact State.FireSound.accepted (h.kept (s.updWalker_keeps _) rfl) _

theorem State.answerSetStopMark_fireSound {s : State} (h : s.FireSound) (index mode : Byte) :
    (s.answerSetStopMark index mode).2.FireSound := by
  have marked (f) : (s.updWalker f).FireSound := h.kept (s.updWalker_keeps f) rfl
  unfold State.answerSetStopMark
  split
  · exact h.refused _
  split
  · exact h.refused _
  split
  · exact (marked _).accepted _
  split
  · exact h.refused _
  · exact (marked _).accepted _

theorem State.answerWalkerPause_fireSound {s : State} (h : s.FireSound) : s.answerWalkerPause.2.FireSound := by
  have paused (f) : (s.updWalker f).FireSound := h.kept (s.updWalker_keeps f) rfl
  unfold State.answerWalkerPause
  split
  · exact (paused _).accepted _
  · exact (paused _).accepted _
  · exact h.accepted _
  all_goals exact h.refused _

theorem State.answerWalkerResume_fireSound {s : State} (h : s.FireSound) : s.answerWalkerResume.2.FireSound := by
  unfold State.answerWalkerResume
  split
  · exact (State.FireSound.pass (h.kept (s.updWalker_keeps _) rfl)).accepted _
  · exact h.refused _

theorem State.answerReleaseHold_fireSound {s : State} (h : s.FireSound) (cell : Byte) :
    (s.answerReleaseHold cell).2.FireSound := by
  unfold State.answerReleaseHold
  split
  · exact h.refused _
  split
  · exact h.refused _
  · exact (h.leaveCurrent ..).accepted _

/-! ### The space coordinator, doorways, air -/

theorem State.answerGetUnit_fireSound {s : State} (h : s.FireSound) (unit : Byte) :
    (s.answerGetUnit unit).2.FireSound := by
  unfold State.answerGetUnit
  split
  · exact h.refused _
  split
  · exact h.refused _
  · exact State.FireSound.accepted (h.kept (s.readDrift_keeps _) rfl) _

theorem State.answerGetCell_fireSound {s : State} (h : s.FireSound) (cell : Byte) :
    (s.answerGetCell cell).2.FireSound := by
  unfold State.answerGetCell
  split
  · exact h.refused _
  · exact h.accepted _

theorem State.answerPutProfile_fireSound {s : State} (h : s.FireSound) (number : Byte) (r : ProfileRecord) :
    (s.answerPutProfile number r).2.FireSound := by
  unfold State.answerPutProfile
  split
  · exact h.refused _
  split
  · exact State.FireSound.acceptedClamped (h.kept (s.storeProfile_keeps _ _) rfl) _ _
  · exact h.refused _

theorem State.answerGetProfile_fireSound {s : State} (h : s.FireSound) (number : Byte) :
    (s.answerGetProfile number).2.FireSound := by
  unfold State.answerGetProfile
  split
  · exact h.refused _
  · exact h.accepted _

theorem State.answerSetOverride_fireSound {s : State} (h : s.FireSound) (target : Byte) (value expiry : Half) :
    (s.answerSetOverride target value expiry).2.FireSound := by
  unfold State.answerSetOverride
  split
  · exact h.refused _
  split
  · exact h.refused _
  next clear =>
  split
  · exact h.refused _
  · exact (h.placeOverride clear ..).acceptedClamped _ _

theorem State.answerClearOverride_fireSound {s : State} (h : s.FireSound) (target : Byte) :
    (s.answerClearOverride target).2.FireSound := by
  unfold State.answerClearOverride
  split
  · exact (h.endOverride ..).accepted _
  split
  · exact (h.endOverrides .cleared).accepted _
  · exact h.refused _

theorem State.answerGetDoorway_fireSound {s : State} (h : s.FireSound) (channel : Byte) :
    (s.answerGetDoorway channel).2.FireSound := by
  unfold State.answerGetDoorway
  split
  · exact h.refused _
  · exact h.accepted _

theorem State.answerSetHeadcount_fireSound {s : State} (h : s.FireSound) (unit : Byte) (count : Half) :
    (s.answerSetHeadcount unit count).2.FireSound := by
  unfold State.answerSetHeadcount
  split
  · exact h.refused _
  split
  · exact h.refused _
  · exact (h.setHeadcount ..).acceptedClamped _ _

theorem State.answerSetSupplyCap_fireSound {s : State} (h : s.FireSound) (cap : Half) :
    (s.answerSetSupplyCap cap).2.FireSound := by
  unfold State.answerSetSupplyCap
  split
  · exact State.FireSound.accepted (h.kept s.defaultCap_keeps rfl) _
  · exact State.FireSound.acceptedClamped (h.kept (s.requestCap_keeps _) rfl) _ _

/-! ### The plant and the faults -/

theorem State.answerCalibrateDamper_fireSound {s : State} (h : s.FireSound) (cell : Byte) :
    (s.answerCalibrateDamper cell).2.FireSound := by
  unfold State.answerCalibrateDamper
  split
  · exact h.refused _
  split
  · exact h.refused _
  split
  · exact h.refused _
  split
  · exact h.refused _
  · exact State.FireSound.accepted (h.kept (s.beginDamperCal_keeps _) rfl) _

theorem State.answerPutDamperTable_fireSound {s : State} (h : s.FireSound) (cell : Byte) (points : Vector Half 9) :
    (s.answerPutDamperTable cell points).2.FireSound := by
  unfold State.answerPutDamperTable
  split
  · exact h.refused _
  split
  · exact State.FireSound.acceptedClamped (h.kept (s.withTables_keeps _) rfl) _ _
  · exact h.refused _

theorem State.answerGetChannel_fireSound {s : State} (h : s.FireSound) (channel : Byte) :
    (s.answerGetChannel channel).2.FireSound := by
  unfold State.answerGetChannel
  split
  · exact h.refused _
  · exact h.accepted _

theorem State.answerSetSunState_fireSound {s : State} (h : s.FireSound) (sun : Byte) :
    (s.answerSetSunState sun).2.FireSound := by
  unfold State.answerSetSunState
  split
  · exact h.refused _
  · exact State.FireSound.accepted (h.kept (s.updBlinds_keeps _) rfl) _

theorem State.answerCalibrateBlind_fireSound {s : State} (h : s.FireSound) (group : Byte) :
    (s.answerCalibrateBlind group).2.FireSound := by
  unfold State.answerCalibrateBlind
  split
  · exact h.refused _
  split
  · exact h.refused _
  split
  · exact h.refused _
  split
  · exact h.refused _
  · exact State.FireSound.accepted (h.kept (s.beginBlindCal_keeps _) rfl) _

theorem State.answerGetBlind_fireSound {s : State} (h : s.FireSound) (group : Byte) :
    (s.answerGetBlind group).2.FireSound := by
  unfold State.answerGetBlind
  split
  · exact h.refused _
  · exact h.accepted _

theorem State.answerGetFaults_fireSound {s : State} (h : s.FireSound) (selection : Byte) :
    (s.answerGetFaults selection).2.FireSound := by
  unfold State.answerGetFaults
  split
  · exact h.refused _
  · exact h.accepted _

theorem State.answerClearFault_fireSound {s : State} (h : s.FireSound) (source keepCount : Byte) :
    (s.answerClearFault source keepCount).2.FireSound := by
  unfold State.answerClearFault
  split
  · split
    · next hc => exact (h.clearRecord hc).accepted _
    · exact h.refused _
  · exact h.refused _

/-- Whatever a request does when it is taken, it keeps the fire lock. -/
theorem answer_fireSound {s : State} (h : s.FireSound) (i : Instr) : (answer i s).2.FireSound := by
  cases i
  case ident => exact h.accepted _
  case keepalive => exact s.answerKeepalive_fireSound h
  case setTime => exact s.answerSetTime_fireSound h _ _
  case restart => exact s.answerRestart_fireSound h
  case setNoticeMask => exact s.answerSetNoticeMask_fireSound h _ _
  case putSetting => exact s.answerPutSetting_fireSound h _ _ _
  case getSetting => exact s.answerGetSetting_fireSound h _ _
  case saveSettings => exact s.answerSaveSettings_fireSound h
  case restoreSettings => exact s.answerRestoreSettings_fireSound h
  case getChain => exact s.answerGetChain_fireSound h _
  case chainBegin => exact s.answerChainBegin_fireSound h _
  case chainEntry => exact s.answerChainEntry_fireSound h _ _
  case chainCommit => exact s.answerChainCommit_fireSound h
  case chainSwitch => exact s.answerChainSwitch_fireSound h _
  case chainCancel => exact h.cancelChain.accepted _
  case setStopMark => exact s.answerSetStopMark_fireSound h _ _
  case walkerPause => exact s.answerWalkerPause_fireSound h
  case walkerResume => exact s.answerWalkerResume_fireSound h
  case releaseHold => exact s.answerReleaseHold_fireSound h _
  case getUnit => exact s.answerGetUnit_fireSound h _
  case getCell => exact s.answerGetCell_fireSound h _
  case putProfile => exact s.answerPutProfile_fireSound h _ _
  case getProfile => exact s.answerGetProfile_fireSound h _
  case setOverride => exact s.answerSetOverride_fireSound h _ _ _
  case clearOverride => exact s.answerClearOverride_fireSound h _
  case getDoorway => exact s.answerGetDoorway_fireSound h _
  case setHeadcount => exact s.answerSetHeadcount_fireSound h _ _
  case setSupplyCap => exact s.answerSetSupplyCap_fireSound h _
  case calibrateDamper => exact s.answerCalibrateDamper_fireSound h _
  case putDamperTable => exact s.answerPutDamperTable_fireSound h _ _
  case getChannel => exact s.answerGetChannel_fireSound h _
  case setSunState => exact s.answerSetSunState_fireSound h _
  case calibrateBlind => exact s.answerCalibrateBlind_fireSound h _
  case getBlind => exact s.answerGetBlind_fireSound h _
  case getFaults => exact s.answerGetFaults_fireSound h _
  case clearFault => exact s.answerClearFault_fireSound h _ _
  all_goals exact h.refused .unknownKind

/-! ## The line -/

theorem State.FireSound.take {s : State} {f : State → Answer × State} (h : (f s).2.FireSound) (kind tag : Byte) :
    (s.take kind tag f).FireSound := by
  unfold State.take
  exact h.kept (State.updLink_keeps ..) rfl

theorem State.FireSound.takeFrame {s : State} (h : s.FireSound) (f : Frame) : (s.takeFrame f).FireSound := by
  refine State.FireSound.take ?_ _ _
  unfold handlerOf
  cases decodeRequest f.kind f.tag f.payload with
  | command i => exact answer_fireSound h i
  | badLength => exact h.refused .badLength

theorem State.FireSound.settleUpTo (n : Nat) {s : State} (h : s.FireSound) : (s.settleUpTo n).FireSound := by
  induction n generalizing s with
  | zero => exact h.kept (s.updLink_keeps _) rfl
  | succ n ih =>
    have started : (s.updLink Link.startFrame).FireSound := h.kept (s.updLink_keeps _) rfl
    unfold State.settleUpTo
    dsimp only
    split
    · exact started
    · split
      · exact ih (State.FireSound.takeFrame (started.kept (State.updLink_keeps ..) rfl) _)
      · exact started

/-- What the link interface does at once after a command keeps the lock. -/
theorem State.FireSound.finish {s t : State} (h : s.FireSound) (e : finish s = .next t) : t.FireSound := by
  cases e
  exact h.settleUpTo _

/-- A request keeps the lock, whether it is taken at once or waits. -/
theorem State.FireSound.arrive {s t : State} (h : s.FireSound) {i : Instr} {f : State → Answer × State}
    (hf : (f s).2.FireSound) (e : Machine.finish (s.arrive i f) = .next t) : t.FireSound := by
  refine State.FireSound.finish ?_ e
  unfold State.arrive
  split
  · exact h
  · exact .ite (State.FireSound.take hf _ _) (h.kept (s.updLink_keeps _) rfl)

/-! ## Time -/

theorem Units.elapse_get? (u : Units) (id : UnitId) : u.elapse.get? id = (u.get? id).map UnitRec.elapse := by
  cases u <;> cases id <;> rfl

/-- A target without an override has none a millisecond later. -/
theorem foldl_elapse_none (ts : List (Fin 16)) (v : Vector (Option Override) 16) (h : ∀ t : Fin 16, v[t] = none)
    (t : Fin 16) : (ts.foldl (fun v t => updAt v t fun o => o.map Override.elapse) v)[t] = none := by
  induction ts generalizing v with
  | nil => exact h t
  | cons x xs ih =>
    refine ih _ fun y => ?_
    by_cases hy : y = x
    · subst hy; rw [updAt_self, h, Option.map_none]
    · rw [updAt_other _ _ hy, h]

theorem State.FireSound.idle {s : State} (h : s.FireSound) : s.idle.FireSound := by
  refine ⟨fun hf t => foldl_elapse_none allTargets _ (h.1 hf) t, fun id u hu => ?_⟩
  have elapsed : s.idle.unit? id = (s.unit? id).map UnitRec.elapse := s.space.units.elapse_get? id
  rw [elapsed] at hu
  obtain ⟨v, hv, rfl⟩ := Option.map_eq_some_iff.mp hu
  exact h.2 id v hv

/-! ## Commands -/

/-- An edge at the partition contact moves the contact and its timer alone. -/
theorem Space.contactEdge_eq (p : Space) (level : Partition) :
    p.contactEdge level = { p with
      contact := (p.contactEdge level).contact, partitionTimer := (p.contactEdge level).partitionTimer } := by
  unfold Space.contactEdge
  split <;> rfl

/-- An edge at the fire input moves the pin and its timer alone. -/
theorem Space.fireEdge_eq (p : Space) (polarity : FirePolarity) (high : Bool) :
    p.fireEdge polarity high = { p with
      firePin := (p.fireEdge polarity high).firePin, fireTimer := (p.fireEdge polarity high).fireTimer } := by
  unfold Space.fireEdge
  split <;> rfl

theorem State.FireSound.contactEdge {s : State} (h : s.FireSound) (level : Partition) :
    (s.updSpace fun p => p.contactEdge level).FireSound := by
  rw [funext fun p : Space => p.contactEdge_eq level]
  exact h.kept (s.updSpace_contact_partitionTimer_keeps _ _) rfl

theorem State.FireSound.fireEdge {s : State} (h : s.FireSound) (polarity : FirePolarity) (high : Bool) :
    (s.updSpace fun p => p.fireEdge polarity high).FireSound := by
  rw [funext fun p : Space => p.fireEdge_eq polarity high]
  exact h.kept (s.updSpace_firePin_fireTimer_keeps _ _) rfl

/-- A command that is the arrival of a request keeps the lock. -/
theorem State.FireSound.request {i : Instr} {s t : State} (h : s.FireSound)
    (hi : exec i s = Machine.finish (s.arrive i (answer i))) (e : exec i s = .next t) : t.FireSound :=
  h.arrive (answer_fireSound h i) (hi ▸ e)

/-- Every command keeps the fire lock. -/
theorem exec_fireSound {i : Instr} {s t : State} (h : s.FireSound) (e : exec i s = .next t) : t.FireSound := by
  have linked (f) : (s.updLink f).FireSound := h.kept (s.updLink_keeps f) rfl
  have reset (c) := s.resetBy_fireSound c
  cases i
  case unknownKind =>
    simp only [exec, execUnknownKind] at e
    split at e
    · exact h.arrive (h.refused _) e
    · cases e
  case byteReceived => exact (linked _).finish e
  case gapTimeout => exact (linked _).finish e
  case transmitDone => exact (linked _).finish e
  case powerOn => exact (reset _).finish e
  case brownOut => exact (reset _).finish e
  case resetLine => exact (reset _).finish e
  case restartReset => exact (State.FireSound.ite (reset _) h).finish e
  case secondTick => exact h.tickSecond.finish e
  case minuteEvent => exact h.minuteEvent.finish e
  case crystalStopped => exact State.FireSound.finish (h.kept s.stopCrystal_keeps rfl) e
  case crystalResumed => exact State.FireSound.finish (h.kept s.resumeCrystal_keeps rfl) e
  case partitionContactEdge => exact (h.contactEdge _).finish e
  case partitionDebounce => exact h.completePartition.finish e
  case fireInputEdge => exact (h.fireEdge _ _).finish e
  case fireDebounce => exact h.completeFire.finish e
  case purgeTimerExpiry => exact (h.purgeExpiry _).finish e
  case overrideExpiry => exact (h.overrideExpires _).finish e
  case beamPinEdge => exact State.FireSound.finish (h.kept (s.updDoor_keeps _ _) rfl) e
  case beamDebounce => exact (h.completeDebounce ..).finish e
  case transitTimeout => exact State.FireSound.finish (h.kept (s.blockDoor_keeps _) rfl) e
  case blockClearExpiry => exact State.FireSound.finish (h.kept (s.unblockDoor_keeps _) rfl) e
  case doorwayStuck => exact State.FireSound.finish (h.kept (s.stickDoor_keeps _) rfl) e
  case detectorPinEdge => exact State.FireSound.finish (h.kept (s.updDetector_keeps _ _) rfl) e
  case motionEvent => exact (h.completeFilter _).finish e
  case presenceHoldExpiry => exact (h.presenceExpiry _).finish e
  case gatedTimerTick => exact State.FireSound.finish (h.kept s.gatedTicks_keeps rfl) e
  case vacancyConfirmed => exact (h.vacancyReached _).finish e
  case presenceForced => exact (h.forcedReached _).finish e
  case clearingExpiry => exact (h.clearingReached _).finish e
  case airUpdate => exact State.FireSound.finish (h.kept s.airUpdate_keeps rfl) e
  case sensorSample => exact (h.sensorSample _).finish e
  case holdTimerExpiry => exact State.FireSound.finish (h.kept (s.holdExpiry_keeps _) rfl) e
  case damperStall => exact State.FireSound.finish (h.kept (s.reportStall_keeps _) rfl) e
  case calibrationPhaseTimeout => exact State.FireSound.finish (h.kept (s.calPhaseExpiry_keeps _) rfl) e
  case temperatureUpdate =>
    exact State.FireSound.finish ((h.kept (s.temperatureStep_keeps _) rfl).kept (State.refreshNeeds_keeps _) rfl) e
  case lightingStep => exact State.FireSound.finish (h.kept s.lightingStep_keeps rfl) e
  case pwmPeriodStart => exact State.FireSound.finish (h.kept s.loadDuties_keeps rfl) e
  case daylightUpdate => exact State.FireSound.finish (h.kept s.daylightUpdate_keeps rfl) e
  case freezeTimerExpiry => exact State.FireSound.finish (h.kept (s.unfreeze_keeps _) rfl) e
  case blindEvaluation =>
    exact State.FireSound.finish ((h.kept (s.updBlinds_keeps _) rfl).kept (State.evaluateBlinds_keeps _) rfl) e
  case currentSample =>
    exact State.FireSound.finish ((h.kept (s.updGroup_keeps _ _) rfl).kept (State.currentSample_keeps ..) rfl) e
  case blindLimitUnseen => exact State.FireSound.finish (h.kept (s.endOverrun_keeps _) rfl) e
  case reversingEnd => exact State.FireSound.finish (h.kept (s.endReversing_keeps _) rfl) e
  case calibrationLegTimeout => exact State.FireSound.finish (h.kept (s.failLeg_keeps _) rfl) e
  case sunHoldExpiry => exact State.FireSound.finish (h.kept (s.updBlinds_keeps _) rfl) e
  case railSettleEnd => exact (State.FireSound.ite (h.kept s.settleRail_keeps rfl) h).finish e
  case railLingerExpiry => exact (State.FireSound.ite (h.kept s.dropRail_keeps rfl) h).finish e
  case railFaultPinEdge => exact State.FireSound.finish (h.kept (s.updRail_keeps _) rfl) e
  case railDown => exact State.FireSound.finish (h.kept s.railDown_keeps rfl) e
  case retryExpiry => exact State.FireSound.finish (h.kept (s.retryExpiry_keeps _) rfl) e
  case normalTimerExpiry => exact State.FireSound.finish (h.kept (s.normalExpiry_keeps _) rfl) e
  case periodEnd => exact h.periodEnd.finish e
  case saveDone =>
    refine State.FireSound.finish ?_ e
    split
    · exact h
    · exact .ite (h.kept (s.saveOk_keeps _) rfl) (h.kept s.saveFailed_keeps rfl)
  case saveWriteTimeout => exact (State.FireSound.ite (h.kept s.saveFailed_keeps rfl) h).finish e
  all_goals exact h.request rfl e

/-- Settles O3. A command keeps the lock by the rules above, and a millisecond of time moves neither a mode nor the
fire state. -/
theorem stepKeepsTheFireLock : Obligations.StepKeepsTheFireLock := by
  intro s t h e
  unfold step at e
  split at e
  · next rest _ => exact exec_fireSound (s := { s with pending := rest }) h e
  · cases e
    exact h.idle

end Sys2Proof.Machine
end

