-- ==== Sys2Proof/Proofs/Reset.lean ====
section
/-! PROOF. The state after the first power-on (R24, R193, R194). -/

namespace Sys2Proof.Machine
open Sys2Proof

/-- Settles O6: State.reset is a closed state, so each clause reads off its field. -/
theorem resetStateIsAsTheRulesSay : Obligations.ResetStateIsAsTheRulesSay := by
  have overrides : ∀ t : Fin 16, State.reset.space.overrides[t] = none := by decide
  have slots : ∀ c : Cell, State.reset.walker.next.inCell c = none ∧ State.reset.walker.current.inCell c = none :=
    fun c => by cases c <;> exact ⟨rfl, rfl⟩
  have drives : ∀ c : Cell, State.reset.drives.get c = Drive.fresh ∧ (State.reset.lighting.cells.get c).factor = 1000 :=
    fun c => by cases c <;> exact ⟨rfl, rfl⟩
  have channels : ∀ i : Fin 8, State.reset.lighting.channels[i].output = 0 ∧
      State.reset.lighting.channels[i].appliedDuty = 0 ∧ State.reset.scanner.channels[i].state = .normal ∧
      State.reset.scanner.channels[i].value = none := by decide
  have groups : ∀ g : Fin 4, State.reset.blinds.groups[g].state = .stopped ∧
      State.reset.blinds.groups[g].referenced = false ∧ State.reset.blinds.groups[g].estimate = 1000 := by decide
  have faults : ∀ i : Fin 21, State.reset.faults[i] = FaultRec.fresh := by decide
  refine ⟨rfl, rfl, rfl, rfl, overrides, rfl, rfl, rfl, slots, fun c => ?_, channels, groups, rfl, faults, rfl, rfl,
    rfl, rfl, rfl⟩
  obtain ⟨fresh, factor⟩ := drives c
  rw [fresh]
  exact ⟨rfl, rfl, rfl, rfl, factor⟩

end Sys2Proof.Machine
end

