-- ==== Sys2Proof/Proofs/Pins.lean ====
section
/-! PROOF. The edges at the input pins (R1, R19, R54, R64, R161): each starts or cancels its own filter. -/

namespace Sys2Proof.Machine
open Sys2Proof

/-! ## What an edge does -/

theorem Space.contactEdge_same {p : Space} {level : Partition} (h : p.contact = level) : p.contactEdge level = p :=
  if_pos h

theorem Space.contactEdge_moved {p : Space} {level : Partition} (h : p.contact ≠ level) :
    p.contactEdge level =
      { p with contact := level, partitionTimer := if level = p.partition then none else some 0 } := if_neg h

theorem Space.fireEdge_same {p : Space} {polarity : FirePolarity} {high : Bool} (h : p.firePin = high) :
    p.fireEdge polarity high = p := if_pos h

/-- The level signals fire under a polarity, as the fire state has it. -/
theorem FirePolarity.signals_eq_inForce (p : FirePolarity) (high : Bool) (f : FireState) :
    p.signals high = decide (f = .inForce) ↔ ((high = true ↔ p = .activeHigh) ↔ f = .inForce) := by
  cases p <;> cases high <;> simp [FirePolarity.signals]

theorem Space.fireEdge_moved {p : Space} {polarity : FirePolarity} {high : Bool} (h : p.firePin ≠ high) :
    p.fireEdge polarity high = { p with
      firePin := high
      fireTimer := if (high = true ↔ polarity = .activeHigh) ↔ p.fire = .inForce then none else some 0 } := by
  simp only [Space.fireEdge, h, ↓reduceIte, FirePolarity.signals_eq_inForce]

theorem Beam.edge_same {b : Beam} {high : Bool} (limit : Nat) (h : b.pin = high) : b.edge high limit = b := if_pos h

theorem Beam.edge_moved {b : Beam} {high : Bool} (limit : Nat) (h : b.pin ≠ high) :
    b.edge high limit = { b with
      pin := high
      pending := if b.debounced = some high then none else some { elapsed := 0, limit := limit } } := by
  simp only [Beam.edge, h, ↓reduceIte]
  split <;> rfl

theorem Detector.edge_same {d : Detector} {high : Bool} (h : d.pin = high) : d.edge high = d := if_pos h

theorem Detector.edge_moved {d : Detector} {high : Bool} (h : d.pin ≠ high) :
    d.edge high = { d with pin := high, filter := if d.filtered = some high then none else some 0 } := by
  simp only [Detector.edge, h, ↓reduceIte]
  split <;> rfl

theorem Rail.pinEdge_same {r : Rail} {high : Bool} (h : r.faultPin = high) : r.pinEdge high = r := if_pos h

theorem Rail.pinEdge_moved {r : Rail} {high : Bool} (h : r.faultPin ≠ high) :
    r.pinEdge high = { r with faultPin := high, lowTimer := if high then none else some 0 } := if_neg h

/-! ## Updates that write a part back -/

theorem updAt_id {α : Type} {n : Nat} (v : Vector α n) (i : Fin n) (f : α → α) (h : f v[i] = v[i]) :
    updAt v i f = v := by
  rw [updAt, h]
  exact Vector.set_getElem_self i.isLt

/-- A beam's edge reads the beam alone. -/
theorem Door.updBeam_congr {d : Door} {side : BeamSide} {f g : Beam → Beam} (h : f (d.beam side) = g (d.beam side)) :
    d.updBeam side f = d.updBeam side g := by
  cases side
  · exact congrArg (fun b => { d with outer := b }) h
  · exact congrArg (fun b => { d with inner := b }) h

theorem Door.updBeam_id {d : Door} {side : BeamSide} {f : Beam → Beam} (h : f (d.beam side) = d.beam side) :
    d.updBeam side f = d := by
  cases side
  · exact congrArg (fun b => { d with outer := b }) h
  · exact congrArg (fun b => { d with inner := b }) h

theorem Door.beamEdge_same {d : Door} {side : BeamSide} {high : Bool} (limit : Nat) (h : (d.beam side).pin = high) :
    (d.updBeam side fun b => b.edge high limit) = d := Door.updBeam_id (Beam.edge_same limit h)

theorem Door.beamEdge_moved {d : Door} {side : BeamSide} {high : Bool} (limit : Nat) (h : (d.beam side).pin ≠ high) :
    (d.updBeam side fun b => b.edge high limit) = d.updBeam side fun b => { b with
      pin := high
      pending := if b.debounced = some high then none else some { elapsed := 0, limit := limit } } :=
  Door.updBeam_congr (Beam.edge_moved limit h)

/-! ## The edges as commands -/

section
variable {s : State} (hs : s.Settled)
include hs

theorem exec_partitionContactEdge {x : Bool} {p : Partition} (hx : x = true ↔ p = .opened) :
    exec (.partitionContactEdge x) s = .next { s with space := s.space.contactEdge p } := by
  have level : (if x then .opened else .closed) = p := by cases x <;> cases p <;> simp_all
  rw [← level]
  exact finish_same (t := s.updSpace _) hs rfl

theorem exec_fireInputEdge (x : Bool) : exec (.fireInputEdge x) s =
    .next { s with space := s.space.fireEdge s.working.settings.firePolarity x } :=
  finish_same (t := s.updSpace _) hs rfl

theorem exec_beamPinEdge (i : Fin 4) (side : BeamSide) (x : Bool) : exec (.beamPinEdge i side x) s =
    .next { s with
      doors := updAt s.doors i (·.updBeam side fun b => b.edge x s.working.settings.beamDebounce[i]) } :=
  finish_same (t := s.updDoor i _) hs rfl

theorem exec_detectorPinEdge (d : Fin 6) (x : Bool) : exec (.detectorPinEdge d x) s =
    .next { s with presence := { s.presence with detectors := updAt s.presence.detectors d fun r => r.edge x } } :=
  finish_same (t := s.updDetector d _) hs rfl

theorem exec_railFaultPinEdge (x : Bool) :
    exec (.railFaultPinEdge x) s = .next { s with rail := s.rail.pinEdge x } :=
  finish_same (t := s.updRail _) hs rfl

end

/-- Settles O43: the command of each pin is its edge, which leaves the record at the level it shows, and moves the pin
and its timer at the other. -/
theorem pinEdgesStartTheDebounce : Obligations.PinEdgesStartTheDebounce := by
  intro x p i side d s hs hx
  rw [exec_partitionContactEdge hs hx, exec_fireInputEdge hs, exec_beamPinEdge hs, exec_detectorPinEdge hs,
    exec_railFaultPinEdge hs]
  refine ⟨fun h => ?_, fun h => ?_, fun h => ?_, fun h => ?_, fun h => ?_, fun h => ?_, fun h => ?_, fun h => ?_,
    fun h => ?_, fun h => ?_⟩
  · rw [Space.contactEdge_same h]
  · rw [Space.contactEdge_moved h]
  · rw [Space.fireEdge_same h]
  · rw [Space.fireEdge_moved h]
  · rw [updAt_id _ _ _ (Door.beamEdge_same _ h)]
  · rw [updAt, Door.beamEdge_moved _ h]
  · rw [updAt_id _ _ _ (Detector.edge_same h)]
  · rw [updAt, Detector.edge_moved h]
  · rw [Rail.pinEdge_same h]
  · rw [Rail.pinEdge_moved h]

end Sys2Proof.Machine
end

