-- ==== Sys2Proof/Proofs/Requests.lean ====
section
/-! PROOF. What a request that is taken at once comes to, from the answer it gives; and the reading of its operands. -/

namespace Sys2Proof.Machine
open Sys2Proof

/-! ## Requests taken at once -/

/-- A request that is carried out: the state its rule leaves, with the reply at the link interface. -/
theorem exec_answered {s t : State} (hs : s.Takes) {i : Instr} {kind tag : Byte} {p : List Byte}
    {f : State → Answer × State} {a : Answer} (hi : exec i s = finish (s.arrive i f))
    (he : encodeRequest i = some (kind, tag, p)) (hf : f s = (a, t)) (hl : t.link.requests = s.link.requests) :
    exec i s = .next { t with link := t.link.answered kind tag a.status a.data } := by
  rw [hi, finish_arrive hs he f (by rw [hf]; exact hl), hf]

/-- A request that is refused does nothing but reply. -/
theorem exec_refused {s : State} (hs : s.Takes) {i : Instr} {kind tag : Byte} {p : List Byte}
    {f : State → Answer × State} {status : ReplyStatus} (hi : exec i s = finish (s.arrive i f))
    (he : encodeRequest i = some (kind, tag, p)) (hf : f s = refuse status s) :
    exec i s = .next { s with link := s.link.answered kind tag status [0, 0] } :=
  exec_answered hs hi he hf rfl

/-! ## Operands -/

theorem indexOperand_of_lt {n : Nat} {b : Byte} {i : Fin n} (h : b.toNat = i) : indexOperand n b = some i := by
  have hlt : b.toNat < n := h ▸ i.isLt
  simp only [indexOperand, hlt, ↓reduceDIte, Option.some.injEq]
  exact Fin.ext h

theorem indexOperand_of_le {n : Nat} {b : Byte} (h : n ≤ b.toNat) : indexOperand n b = none := by
  simp [indexOperand, Nat.not_lt.mpr h]

theorem cellOperand_of_code {b : Byte} {c : Cell} (h : b.toNat = cellCode c) : cellOperand b = some c := by
  cases c <;> simp [cellOperand, h, cellCode]

theorem cellOperand_of_le {b : Byte} (h : 2 ≤ b.toNat) : cellOperand b = none := by
  unfold cellOperand
  split
  · omega
  · omega
  · rfl

end Sys2Proof.Machine
end

