-- ==== Sys2Proof/Proofs/Profiles.lean ====
section
/-! PROOF. PUT_PROFILE and PUT_DAMPER_TABLE (R9, R106): what is judged, and what a request stores. -/

namespace Sys2Proof.Machine
open Sys2Proof

/-! ## Operands -/

/-- A two-valued operand is 0 or 1. -/
theorem bitOperand_eq_some {b : Byte} {x : Bool} (h : bitOperand b = some x) :
    b.toNat < 2 ∧ (x = true ↔ b = 1) := by
  unfold bitOperand at h
  split at h
  all_goals cases h
  · next hb => simp [hb, ← BitVec.toNat_inj]
  · next hb => simp [hb, ← BitVec.toNat_inj]

theorem bitOperand_eq_none {b : Byte} (h : bitOperand b = none) : 2 ≤ b.toNat := by
  unfold bitOperand at h
  split at h
  · cases h
  · cases h
  · next h0 h1 =>
    have zero : b.toNat ≠ 0 := h0
    have one : b.toNat ≠ 1 := h1
    omega

theorem policyOperand_eq_some {b : Byte} {p : BlindPolicy} (h : policyOperand b = some p) : p.code = b.toNat := by
  unfold policyOperand at h
  split at h
  all_goals cases h
  all_goals next hb => rw [hb]; rfl

theorem policyOperand_eq_none {b : Byte} (h : policyOperand b = none) : 3 ≤ b.toNat := by
  unfold policyOperand at h
  split at h
  · cases h
  · cases h
  · cases h
  · next h0 h1 h2 =>
    have zero : b.toNat ≠ 0 := h0
    have one : b.toNat ≠ 1 := h1
    have two : b.toNat ≠ 2 := h2
    omega

theorem BlindPolicy.code_lt (p : BlindPolicy) : p.code < 3 := by cases p <;> decide

/-! ## Profiles -/

theorem clampNat_eq_max {lo hi : Nat} (h : lo ≤ hi) (v : Nat) : clampNat lo hi v = max lo (min hi v) := by
  unfold clampNat
  split
  · omega
  · split <;> omega

theorem clampNoShow_eq (b : Byte) :
    clampNoShow b.toNat = if b = 0 then 0 else max 5 (min 60 b.toNat) := by
  have zero : b.toNat = 0 ↔ b = 0 := by rw [← BitVec.toNat_inj]; rfl
  simp only [clampNoShow, zero, clampNat_eq_max (show 5 ≤ 60 by decide)]

/-- A record is refused for its harvest, its policy or a character of its name alone (R9). -/
theorem judgeProfile_eq_none (r : ProfileRecord) :
    judgeProfile r = none ↔ 2 ≤ r.harvest.toNat ∨ 3 ≤ r.policy.toNat ∨
      ∃ b ∈ r.name.toList, b.toNat < 0x20 ∨ 0x7E < b.toNat := by
  have chars : r.name.toList.all nameChar = false ↔ ∃ b ∈ r.name.toList, b.toNat < 0x20 ∨ 0x7E < b.toNat := by
    rw [List.all_eq_false]
    refine exists_congr fun b => and_congr_right fun _ => ?_
    simp only [nameChar, Bool.and_eq_true, decide_eq_true_eq]
    omega
  rw [← chars]
  unfold judgeProfile
  cases hb : bitOperand r.harvest with
  | none => simp [bitOperand_eq_none hb]
  | some x =>
    have harvest := (bitOperand_eq_some hb).1
    cases hp : policyOperand r.policy with
    | none => simp [policyOperand_eq_none hp]
    | some p =>
      have policy : r.policy.toNat < 3 := policyOperand_eq_some hp ▸ p.code_lt
      simp [Nat.not_le.mpr harvest, Nat.not_le.mpr policy]

theorem judgeProfile_eq_some {r : ProfileRecord} {q : Profile} {clamped : Bool}
    (h : judgeProfile r = some (q, clamped)) :
    ∃ x p, bitOperand r.harvest = some x ∧ policyOperand r.policy = some p ∧ q = clampProfile r x p ∧
      clamped = decide (clampProfile r x p ≠ plainProfile r x p) := by
  unfold judgeProfile at h
  split at h
  · next x p hx hp =>
    split at h
    · cases h
      exact ⟨x, p, hx, hp, rfl, rfl⟩
    · cases h
  · cases h

/-- Each numeric field is stored in its range (the table of section 1.6). -/
theorem clampProfile_numbers (r : ProfileRecord) (x : Bool) (p : BlindPolicy) :
    ∀ n ∈ (clampProfile r x p).numbers r, n.stored = max n.low (min n.high n.sent) := by
  have byte (b : Byte) : b.toNat = max 0 (min 255 b.toNat) := by omega
  simp only [Profile.numbers, clampProfile, List.forall_mem_cons]
  refine ⟨?_, ?_, byte r.kp, byte r.ki, ?_, ?_, ?_, ?_, ?_, ?_, ?_, ?_, ?_, ?_, ?_, ?_, ?_, ?_, ?_, ?_, ?_, by simp⟩
  all_goals exact clampNat_eq_max (by decide) _

/-- The stored profile differs from the one sent where a number or the no-show minutes do. -/
theorem clampProfile_eq_plain (r : ProfileRecord) (x : Bool) (p : BlindPolicy) :
    clampProfile r x p = plainProfile r x p ↔
      (clampProfile r x p).noShow = r.noShow.toNat ∧ ∀ n ∈ (clampProfile r x p).numbers r, n.stored = n.sent := by
  simp only [Profile.numbers, List.forall_mem_cons, clampProfile, plainProfile, Profile.mk.injEq]
  constructor
  · grind
  · grind

/-! ## Damper tables -/

theorem increasing_iff_isChain (l : List Nat) : increasing l = true ↔ l.IsChain (· < ·) := by
  induction l with
  | nil => simp [increasing]
  | cons a l ih =>
    cases l with
    | nil => simp [increasing]
    | cons b l => simp [increasing, ih]

/-- Each point is lowered to 20000 (R106). -/
theorem clampPoints_getElem (f : Vector Half 9) (i : Fin 9) : (clampPoints f)[i] = min 20000 f[i].toNat := by
  fin_cases i <;> rfl

/-- The points so lowered rise where each is above the one before. -/
theorem increasing_clampPoints (f : Vector Half 9) :
    increasing (clampPoints f).toList = true ↔
      ∀ i : Fin 8, min 20000 f[i.castSucc].toNat < min 20000 f[i.succ].toNat := by
  rw [increasing_iff_isChain, List.isChain_iff_getElem]
  constructor
  · intro h i
    have := h i (by simp; omega)
    rwa [← clampPoints_getElem, ← clampPoints_getElem]
  · intro h i hi
    have := h ⟨i, Nat.lt_of_succ_lt_succ (by simpa using hi)⟩
    rwa [← clampPoints_getElem, ← clampPoints_getElem] at this

theorem judgePoints_eq_none (f : Vector Half 9) :
    judgePoints f = none ↔ ∃ i : Fin 8, min 20000 f[i.succ].toNat ≤ min 20000 f[i.castSucc].toNat := by
  have falls : (increasing (clampPoints f).toList = false) ↔
      ∃ i : Fin 8, min 20000 f[i.succ].toNat ≤ min 20000 f[i.castSucc].toNat := by
    rw [← Bool.not_eq_true, increasing_clampPoints, not_forall]
    simp only [Nat.not_lt]
  rw [← falls]
  simp [judgePoints]

theorem judgePoints_eq_some {f : Vector Half 9} {q : Vector Nat 9} {clamped : Bool}
    (h : judgePoints f = some (q, clamped)) :
    q = clampPoints f ∧ (clamped = true ↔ ∃ i : Fin 9, 20000 < f[i].toNat) := by
  simp only [judgePoints, Option.ite_none_right_eq_some, Option.some.injEq, Prod.mk.injEq] at h
  obtain ⟨-, rfl, rfl⟩ := h
  refine ⟨rfl, ?_⟩
  simp only [List.any_eq_true, decide_eq_true_eq, Vector.mem_toList_iff]
  constructor
  · rintro ⟨v, hv, hlt⟩
    obtain ⟨i, hi, rfl⟩ := Vector.mem_iff_getElem.mp hv
    exact ⟨⟨i, hi⟩, hlt⟩
  · rintro ⟨i, hlt⟩
    exact ⟨f[i], Vector.getElem_mem i.isLt, hlt⟩

/-! ## The requests -/

section
variable {s : State}

theorem State.writing_of_none (hw : s.store.saving = none) : s.writing = false := by simp [State.writing, hw]

theorem State.answerPutProfile_stored (hw : s.store.saving = none) {x : Byte} {r : ProfileRecord} {n : Fin 8}
    {q : Profile} {clamped : Bool} (hx : x.toNat = n) (hr : judgeProfile r = some (q, clamped)) :
    s.answerPutProfile x r = acceptClamped clamped q.bytes (s.storeProfile n q) := by
  unfold State.answerPutProfile
  rw [State.writing_of_none hw, indexOperand_of_lt hx, hr]
  rfl

theorem State.answerPutProfile_refused (hw : s.store.saving = none) {x : Byte} {r : ProfileRecord}
    (h : 8 ≤ x.toNat ∨ judgeProfile r = none) : s.answerPutProfile x r = refuse .badValue s := by
  unfold State.answerPutProfile
  rw [State.writing_of_none hw]
  rcases h with h | h
  · rw [indexOperand_of_le h]; rfl
  · rw [h]; cases indexOperand 8 x <;> rfl

theorem State.answerPutDamperTable_stored (hw : s.store.saving = none) {x : Byte} {f : Vector Half 9} {c : Cell}
    {q : Vector Nat 9} {clamped : Bool} (hx : x.toNat = cellCode c) (hf : judgePoints f = some (q, clamped)) :
    s.answerPutDamperTable x f =
      acceptClamped clamped (tableBytes c q) (s.withTables (s.working.tables.set c q)) := by
  unfold State.answerPutDamperTable
  rw [State.writing_of_none hw, cellOperand_of_code hx, hf]
  rfl

theorem State.answerPutDamperTable_refused (hw : s.store.saving = none) {x : Byte} {f : Vector Half 9}
    (h : 2 ≤ x.toNat ∨ judgePoints f = none) : s.answerPutDamperTable x f = refuse .badValue s := by
  unfold State.answerPutDamperTable
  rw [State.writing_of_none hw]
  rcases h with h | h
  · rw [cellOperand_of_le h]; rfl
  · rw [h]; cases cellOperand x <;> rfl

end

/-- Settles O37: the requests store what judgeProfile and judgePoints give, and the last four clauses say what those
give. -/
theorem putProfileAndPutDamperTableReplaceOne : Obligations.PutProfileAndPutDamperTableReplaceOne := by
  intro tag x r f s hs hw
  refine ⟨fun n q clamped hx hr => ?_, fun h => ?_, fun c q clamped hx hf => ?_, fun h => ?_, judgeProfile_eq_none r,
    fun q clamped hr => ?_, judgePoints_eq_none f, fun q clamped hf => ?_⟩
  · exact exec_answered hs rfl rfl (State.answerPutProfile_stored hw hx hr) rfl
  · exact exec_refused hs rfl rfl (State.answerPutProfile_refused hw h)
  · exact exec_answered hs rfl rfl (State.answerPutDamperTable_stored hw hx hf) rfl
  · exact exec_refused hs rfl rfl (State.answerPutDamperTable_refused hw h)
  · obtain ⟨y, p, hy, hp, rfl, rfl⟩ := judgeProfile_eq_some hr
    refine ⟨rfl, (bitOperand_eq_some hy).2, policyOperand_eq_some hp, clampProfile_numbers r y p,
      clampNoShow_eq r.noShow, ?_⟩
    simp only [decide_eq_true_eq, ne_eq, clampProfile_eq_plain, not_and_or, not_forall, exists_prop]
  · obtain ⟨rfl, lowered⟩ := judgePoints_eq_some hf
    exact ⟨clampPoints_getElem f, lowered⟩

end Sys2Proof.Machine
end

