-- ==== Sys2Proof/Proofs/Overrides.lean ====
section
/-! PROOF. Overrides (R16, R17): how one begins, how one ends, and what neither touches. -/

namespace Sys2Proof.Machine
open Sys2Proof

/-! ## Frames read off -/

/-- The working settings are the same where their four parts are. -/
theorem Keeps.working {xs : List Block} {s t : State} (k : Keeps xs s t)
    (h : xs.contains .settings = false) (hp : xs.contains .profiles = false) (ht : xs.contains .tables = false)
    (hc : xs.contains .calibrations = false) : t.working = s.working := by
  have settings : t.working.settings = s.working.settings := k.same .settings h
  have profiles : t.working.profiles = s.working.profiles := k.same .profiles hp
  have tables : t.working.tables = s.working.tables := k.same .tables ht
  have calibrations : t.working.calibrations = s.working.calibrations := k.same .calibrations hc
  cases ht : t.working
  cases hs : s.working
  simp_all

/-- A notice is stamped with the week clock alone. -/
theorem State.noticeOf_congr {s t : State} (h : t.clock = s.clock) (k : NoticeKind) (p : Option Place)
    (i : Option Nat) (v : Nat) (g : Option Half) : t.noticeOf k p i v g = s.noticeOf k p i v g := by
  simp only [State.noticeOf, h]

/-! ## The end of an override -/

theorem State.endOverride_none {s : State} {t : Fin 16} (h : s.space.overrides[t] = none) (cause : OverrideCause) :
    s.endOverride t cause = s := by
  simp only [State.endOverride, h, Option.isSome_none, Bool.false_eq_true, ↓reduceIte]

/-- OVERRIDE_ENDED stands behind the notices of a rail that the end raises (log entry 44). -/
theorem State.endOverride_link {s : State} {t : Fin 16} (h : s.space.overrides[t] ≠ none) (cause : OverrideCause) :
    ∃ ns, (s.endOverride t cause).link =
      (s.link.handed ns).place (s.noticeOf .overrideEnded none (some t.val) cause.code none) := by
  have k := ((s.updSpace_overrides_keeps fun p => p.overrides.set t none).mono (ys := [.notices, .overrides, .drives,
    .lighting, .blinds, .rail, .faults]) rfl).trans ((State.overrideMoved_keeps _ t).mono rfl)
  obtain ⟨ns, link⟩ := k.same .link rfl
  have clock := k.same .clock rfl
  refine ⟨ns, ?_⟩
  simp only [State.endOverride, Option.isSome_iff_ne_none.mpr h, ↓reduceIte, State.notify_link]
  rw [link, State.noticeOf_congr clock]

/-- What a change of the override table leaves alone, beside the plant (R16, R17). -/
structure State.OverridesMoved (s t : State) : Prop where
  units : t.space.units = s.space.units
  fire : t.space.fire = s.space.fire
  walker : t.walker = s.walker
  working : t.working = s.working
  air : t.air = s.air

theorem State.OverridesMoved.of_keeps {s t : State}
    (k : Keeps [.notices, .overrides, .drives, .lighting, .blinds, .rail, .faults] s t) (l : Link) :
    s.OverridesMoved { t with link := l } where
  units := k.same .units rfl
  fire := k.same .fire rfl
  walker := k.same .walker rfl
  working := k.working rfl rfl rfl rfl
  air := k.same .air rfl

/-! ## The target of a request -/

theorem CellSetting.cell?_eq_none (c : CellSetting) : c.cell? = none ↔ c = .off := by cases c <;> simp [CellSetting.cell?]

/-- The targets of UNUSED light channels (section 1.9). -/
theorem State.unusedTarget_iff (s : State) (i : Fin 16) :
    s.unusedTarget i = true ↔ ∃ j : Fin 8, i.val = j.val + 4 ∧ s.working.settings.channelCell[j] = .off := by
  unfold State.unusedTarget channelOfTarget
  by_cases h : 4 ≤ i.val ∧ i.val < 12
  · simp only [h, and_self, ↓reduceDIte, State.channelCell, Option.isNone_iff_eq_none, CellSetting.cell?_eq_none]
    constructor
    · exact fun off => ⟨_, by simp only; omega, off⟩
    · rintro ⟨j, hj, off⟩
      have : (⟨i.val - 4, by omega⟩ : Fin 8) = j := Fin.ext (by simp only; omega)
      rwa [this]
  · simp only [h, ↓reduceDIte, Bool.false_eq_true, false_iff, not_exists, not_and]
    intro j hj
    omega

theorem State.answerSetOverride_placed {s : State} {x : Byte} {i : Fin 16} (hx : x.toNat = i)
    (hf : s.space.fire = .clear) (hu : s.unusedTarget i = false) (value expiry : Half) :
    s.answerSetOverride x value expiry =
      acceptClamped (decide (1000 < value.toNat) || decide (480 < expiry.toNat))
        (byte2 (min 1000 value.toNat) ++ byte2 (min 480 expiry.toNat))
        (s.placeOverride i (min 1000 value.toNat) (min 480 expiry.toNat)) := by
  simp [State.answerSetOverride, indexOperand_of_lt hx, hf, hu]

theorem State.answerSetOverride_unused {s : State} {x : Byte} {i : Fin 16} (hx : x.toNat = i)
    (hf : s.space.fire = .clear) (hu : s.unusedTarget i = true) (value expiry : Half) :
    s.answerSetOverride x value expiry = refuse .wrongState s := by
  simp [State.answerSetOverride, indexOperand_of_lt hx, hf, hu]

theorem State.answerSetOverride_locked {s : State} {x : Byte} {i : Fin 16} (hx : x.toNat = i)
    (hf : s.space.fire = .inForce) (value expiry : Half) :
    s.answerSetOverride x value expiry = refuse .fireLock s := by
  simp [State.answerSetOverride, indexOperand_of_lt hx, hf]

theorem State.answerClearOverride_one {s : State} {x : Byte} {i : Fin 16} (hx : x.toNat = i) :
    s.answerClearOverride x = accept [] (s.endOverride i .cleared) := by
  simp [State.answerClearOverride, indexOperand_of_lt hx]

theorem State.answerClearOverride_all (s : State) :
    s.answerClearOverride 0xFF = accept [] (s.endOverrides .cleared) := by
  simp [State.answerClearOverride, indexOperand, allOnes]

theorem State.answerClearOverride_refused {s : State} {x : Byte} (hx : 15 < x.toNat) (h : x ≠ 0xFF) :
    s.answerClearOverride x = refuse .badValue s := by
  have one : allOnes x = false := decide_eq_false h
  simp [State.answerClearOverride, indexOperand_of_le (n := 16) hx, one]

/-! ## The requests and the expiry -/

/-- SET_OVERRIDE carried out (R16). -/
theorem exec_setOverride {s : State} (hs : s.Takes) (tag : Byte) {x : Byte} {i : Fin 16} (hx : x.toNat = i)
    (hf : s.space.fire = .clear) (hu : s.unusedTarget i = false) (value expiry : Half) :
    ∃ t ns, exec (.setOverride tag x value expiry) s = .next t ∧
      t.space.overrides = s.space.overrides.set i (some
        { value := min 1000 value.toNat
          remaining := if min 480 expiry.toNat = 0 then none else some (min 480 expiry.toNat * 60000) }) ∧
      t.link =
        (if 1000 < value.toNat ∨ 480 < expiry.toNat then
          (s.link.handed ns).answered 0x24 tag .clamped
            (byte2 (min 1000 value.toNat) ++ byte2 (min 480 expiry.toNat))
        else (s.link.handed ns).answered 0x24 tag .ok []) ∧ s.OverridesMoved t := by
  have k := s.placeOverride_keeps i (min 1000 value.toNat) (min 480 expiry.toNat)
  obtain ⟨ns, link⟩ := k.same .link rfl
  refine ⟨_, ns, exec_answered hs rfl rfl (s.answerSetOverride_placed hx hf hu value expiry)
    (by rw [link, Link.handed_requests]), ?_, ?_, .of_keeps k _⟩
  · exact (State.overrideMoved_keeps _ i).same .overrides rfl
  · simp only [link, ← Bool.decide_or, decide_eq_true_eq]
    split <;> rfl

/-- An override that stands ends (R17). -/
theorem exec_clearOverride_one {s : State} (hs : s.Takes) (tag : Byte) {x : Byte} {i : Fin 16} (hx : x.toNat = i)
    (h : s.space.overrides[i] ≠ none) :
    ∃ t ns, exec (.clearOverride tag x) s = .next t ∧ t.space.overrides = s.space.overrides.set i none ∧
      t.link = ((s.link.handed ns).place
        (s.noticeOf .overrideEnded none (some i.val) 1 none)).answered 0x25 tag .ok [] ∧ s.OverridesMoved t := by
  have k := s.endOverride_keeps i .cleared
  obtain ⟨ns, link⟩ := State.endOverride_link h .cleared
  refine ⟨_, ns, exec_answered hs rfl rfl (State.answerClearOverride_one hx) (by rw [link]; simp), ?_, ?_, .of_keeps k _⟩
  · exact s.endOverride_overrides i .cleared
  · simp only [link]; rfl

theorem exec_clearOverride_all {s : State} (hs : s.Takes) (tag : Byte) :
    ∃ t ns, exec (.clearOverride tag 0xFF) s = .next t ∧ (∀ j : Fin 16, t.space.overrides[j] = none) ∧
      t.link = (s.link.handed ns).answered 0x25 tag .ok [] ∧ s.OverridesMoved t := by
  have k := s.endOverrides_keeps .cleared
  have ended := s.endOverrides_overrides .cleared
  have cleared := s.answerClearOverride_all
  generalize s.endOverrides .cleared = t at k ended cleared
  obtain ⟨ns, link⟩ := k.same .link rfl
  refine ⟨_, ns, exec_answered hs rfl rfl cleared (by rw [link, Link.handed_requests]), ended, ?_, .of_keeps k _⟩
  rw [← link]

theorem exec_overrideExpiry {s : State} (hs : s.Settled) {i : Fin 16} {v left : Nat}
    (h : s.space.overrides[i] = some { value := v, remaining := some left }) :
    ∃ t ns, exec (.overrideExpiry i) s = .next t ∧ t.space.overrides = s.space.overrides.set i none ∧
      t.link = ((s.link.handed ns).place (s.noticeOf .overrideEnded none (some i.val) 0 none)).startFrame ∧
      s.OverridesMoved t := by
  have k := s.endOverride_keeps i .expired
  have standing : s.space.overrides[i] ≠ none := by simp [h]
  obtain ⟨ns, link⟩ := State.endOverride_link standing .expired
  have expires : s.overrideExpires i = s.endOverride i .expired := by simp [State.overrideExpires, h]
  have run : exec (.overrideExpiry i) s = finish (s.endOverride i .expired) := congrArg finish expires
  rw [Link.handed_place] at link
  refine ⟨_, ns, run.trans (finish_handed hs link), s.endOverride_overrides i .expired, ?_, .of_keeps k _⟩
  rw [Link.handed_place]; rfl

/-- Settles O38, request by request. -/
theorem overridesBeginAndEnd : Obligations.OverridesBeginAndEnd := by
  refine ⟨fun tag x value expiry i s hx => ⟨fun hs hf hu => ?_, s.unusedTarget_iff i, fun hs hf hu => ?_,
    fun hs hf => ?_, fun hs h => ?_, fun hs h => ?_, fun hs => ?_, fun hs v left h => ?_⟩,
    fun tag x value expiry s hs hx => ⟨?_, fun h => ?_⟩⟩
  · obtain ⟨t, ns, run, standing, link, same⟩ := exec_setOverride hs tag hx hf hu value expiry
    exact ⟨t, ns, run, standing, link, same.units, same.fire, same.walker, same.working, same.air⟩
  · exact exec_refused hs rfl rfl (State.answerSetOverride_unused hx hf hu value expiry)
  · exact exec_refused hs rfl rfl (State.answerSetOverride_locked hx hf value expiry)
  · exact exec_answered hs rfl rfl
      ((State.answerClearOverride_one hx).trans (congrArg _ (State.endOverride_none h .cleared))) rfl
  · obtain ⟨t, ns, run, standing, link, same⟩ := exec_clearOverride_one hs tag hx h
    exact ⟨t, ns, run, standing, link, same.units, same.walker, same.working⟩
  · obtain ⟨t, ns, run, none, link, same⟩ := exec_clearOverride_all hs tag
    exact ⟨t, ns, run, none, link, same.units, same.walker, same.working⟩
  · obtain ⟨t, ns, run, standing, link, same⟩ := exec_overrideExpiry hs h
    exact ⟨t, ns, run, standing, link, same.units, same.walker, same.working⟩
  · exact exec_refused hs rfl rfl (by simp [State.answerSetOverride, indexOperand_of_le (n := 16) hx])
  · exact exec_refused hs rfl rfl (State.answerClearOverride_refused hx h)

end Sys2Proof.Machine
end

