-- ==== Sys2Proof/Proofs/Tenancy.lean ====
section
/-! PROOF. The tenancy of a unit: the fields of its record that its people make, which no derivation and no air update
touches (R3, R11, R89). -/

namespace Sys2Proof.Machine
open Sys2Proof

/-- What a unit record says of the people in the unit, with the profile they leave lingering (R15). -/
structure Tenancy where
  headcount : Nat
  count : CountState
  occupancy : Occupancy
  clearing : Option Nat
  vacancyTimer : Nat
  vacancyTold : Bool
  forcedTimer : Nat
  lingering : Option (Fin 8)

/-- The tenancy of a unit record. -/
def UnitRec.tenancy (u : UnitRec) : Tenancy where
  headcount := u.headcount
  count := u.count
  occupancy := u.occupancy
  clearing := u.clearing
  vacancyTimer := u.vacancyTimer
  vacancyTold := u.vacancyTold
  forcedTimer := u.forcedTimer
  lingering := u.lingering

/-- Every unit has the same tenancy in two states. -/
def State.SameTenancy (s t : State) : Prop :=
  ∀ id, (t.unit? id).map UnitRec.tenancy = (s.unit? id).map UnitRec.tenancy

theorem State.SameTenancy.refl (s : State) : s.SameTenancy s := fun _ => rfl

theorem State.SameTenancy.trans {s t u : State} (h : s.SameTenancy t) (k : t.SameTenancy u) : s.SameTenancy u :=
  fun id => (k id).trans (h id)

/-- The tenancies are the same where the units are. -/
theorem State.SameTenancy.of_units {s t : State} (h : t.space.units = s.space.units) : s.SameTenancy t :=
  fun id => by rw [State.unit?_congr h]

theorem State.SameTenancy.foldl {α : Type} {s t : State} (f : State → α → State) (l : List α) (h : s.SameTenancy t)
    (step : ∀ (x : State) a, x.SameTenancy (f x a)) : s.SameTenancy (l.foldl f t) := by
  induction l generalizing t with
  | nil => exact h
  | cons a l ih => exact ih (h.trans (step t a))

/-- The record of a unit, found again by its tenancy. -/
theorem State.SameTenancy.record {s t : State} (h : s.SameTenancy t) {id : UnitId} {u : UnitRec}
    (hu : s.unit? id = some u) : ∃ v, t.unit? id = some v ∧ v.tenancy = u.tenancy := by
  have hid := h id
  rw [hu, Option.map_some] at hid
  exact Option.map_eq_some_iff.mp hid

theorem State.SameTenancy.vacantUnit {s t : State} (h : s.SameTenancy t) (id : UnitId) :
    t.vacantUnit id = s.vacantUnit id := by
  have hid := h id
  unfold State.vacantUnit
  cases hs : s.unit? id with
  | none =>
    rw [hs, Option.map_none, Option.map_eq_none_iff] at hid
    rw [hid]
  | some u =>
    obtain ⟨v, hv, same⟩ := h.record hs
    have occupancy : v.occupancy = u.occupancy := congrArg Tenancy.occupancy same
    simp only [hv, occupancy]

/-! ## Derivations and the air update -/

theorem State.modifyUnit_sameTenancy (s : State) (id : UnitId) (f : UnitRec → UnitRec)
    (h : ∀ u, (f u).tenancy = u.tenancy) : s.SameTenancy (s.modifyUnit id f) :=
  fun j => s.unit?_modifyUnit_map id j f _ h

theorem State.deriveCore_sameTenancy (s : State) (id : UnitId) : s.SameTenancy (s.deriveCore id) :=
  s.modifyUnit_sameTenancy id _ fun _ => rfl

theorem State.derive_sameTenancy (s : State) (id : UnitId) : s.SameTenancy (s.derive id) :=
  (s.deriveCore_sameTenancy id).trans (.of_units (s.derive_units id))

theorem State.deriveUnits_sameTenancy (s : State) (ids : List UnitId) : s.SameTenancy (s.deriveUnits ids) :=
  .foldl _ _ (.refl s) fun _ _ => State.derive_sameTenancy _ _

theorem State.demandRecord_tenancy (s : State) (id : UnitId) (u : UnitRec) :
    (s.demandRecord id u).tenancy = u.tenancy := by
  unfold State.demandRecord
  split <;> rfl

theorem State.judgeAlarm_sameTenancy (s : State) (id : UnitId) : s.SameTenancy (s.judgeAlarm id) := by
  unfold State.judgeAlarm
  split
  · exact .refl s
  · have set (flag : Bool) : s.SameTenancy (s.modifyUnit id fun u => { u with co2Alarm := flag }) :=
      s.modifyUnit_sameTenancy id _ fun _ => rfl
    dsimp only
    split
    · exact set _
    · exact (set _).trans (.of_units rfl)

theorem State.formDemand_sameTenancy (s : State) (id : UnitId) : s.SameTenancy (s.formDemand id) :=
  (s.judgeAlarm_sameTenancy id).trans (State.modifyUnit_sameTenancy _ id _ (State.demandRecord_tenancy _ id))

theorem State.shareCap_sameTenancy (s : State) : s.SameTenancy s.shareCap :=
  fun id => s.space.units.allotAll_get? _ id _ fun _ _ => rfl

theorem State.airUpdate_sameTenancy (s : State) : s.SameTenancy s.airUpdate := by
  have begun : s.SameTenancy (s.updAir fun a => { a with capInForce := a.requestedCap, timer := 0 }) := .of_units rfl
  have shared := (State.SameTenancy.foldl State.formDemand
    (s.updAir fun a => { a with capInForce := a.requestedCap, timer := 0 }).space.units.ids begun
    State.formDemand_sameTenancy).trans (State.shareCap_sameTenancy _)
  exact (shared.trans (.of_units ((State.handOver_keeps _).same .units rfl))).trans
    (.of_units ((State.refreshNeeds_keeps _).same .units rfl))

/-! ## Leaving CURRENT -/

/-- A booking of vacant units leaves no lingering profile (R15). -/
theorem State.linger_of_vacant {s : State} {t : Target} (h : s.vacantTarget t = true) (k : Booking) :
    s.linger t k = s := by
  have vacant : ∀ id ∈ s.space.units.ofTarget t, s.vacantUnit id = true := List.all_eq_true.mp h
  unfold State.linger
  generalize s.space.units.ofTarget t = ids at vacant
  induction ids with
  | nil => rfl
  | cons id ids ih =>
    simp only [List.foldl_cons, vacant id (by simp), ↓reduceIte]
    exact ih fun j hj => vacant j (by simp [hj])

theorem State.vacantTarget_congr {s t : State} (h : t.space.units = s.space.units) (x : Target) :
    t.vacantTarget x = s.vacantTarget x := by
  unfold State.vacantTarget State.vacantUnit State.unit?
  rw [h]

/-- A booking that leaves its slot hands over its notices, then leaves its profile lingering and marks its stop
(R15, R42, R47). -/
theorem State.retire_eq (s : State) (t : Target) (k : Booking) (o : BookingOutcome) (atEnd : Bool) :
    ∃ x, Keeps [.notices] s x ∧ s.retire t k o atEnd = (x.linger t k).markDone k o := by
  have told : Keeps [.notices] s
      (if o ≠ .ended ∨ k.entry.notifyEnd = true then s.notifyBooking .bookingEnded k o.code else s) :=
    .ite (s.notifyBooking_keeps ..) (.refl _ s)
  exact ⟨_, told.trans (.ite (State.notifyOverrun_keeps _ t k) (.refl _ _)), rfl⟩

/-- A booking of vacant units leaves CURRENT without a trace in any tenancy. -/
theorem State.leaveCurrent_sameTenancy {s : State} {t : Target} (h : s.vacantTarget t = true) (k : Booking)
    (o : BookingOutcome) (atEnd : Bool) : s.SameTenancy (s.leaveCurrent t k o atEnd) := by
  have retired (x : State) (hx : x.vacantTarget t = true) : x.SameTenancy (x.retire t k o atEnd) := by
    obtain ⟨y, told, retire⟩ := x.retire_eq t k o atEnd
    have units : y.space.units = x.space.units := told.same .units rfl
    rw [retire, State.linger_of_vacant ((State.vacantTarget_congr units t).trans hx)]
    exact .of_units (((y.markDone_keeps k o).same .units rfl).trans units)
  have dropped : s.SameTenancy (s.updWalker fun w => { w with current := w.current.drop t }) := .of_units rfl
  exact (dropped.trans (retired _ h)).trans (State.deriveUnits_sameTenancy _ _)

theorem State.endHeld_sameTenancy (s : State) (id : UnitId) : s.SameTenancy (s.endHeld id) := by
  unfold State.endHeld
  refine .foldl _ _ (.refl s) fun x k => ?_
  split
  · next h =>
    simp only [Bool.and_eq_true] at h
    exact State.leaveCurrent_sameTenancy h.2 _ _ _
  · exact .refl x

/-! ## The NEXT slots -/

theorem State.markDone_next (s : State) (k : Booking) (o : BookingOutcome) :
    (s.markDone k o).walker.next = s.walker.next := by
  unfold State.markDone
  split
  · dsimp only
    split
    · split <;> rfl
    · rfl
  · rfl

theorem State.leaveCurrent_next (s : State) (t : Target) (k : Booking) (o : BookingOutcome) (atEnd : Bool) :
    (s.leaveCurrent t k o atEnd).walker.next = s.walker.next := by
  have retired (x : State) : (x.retire t k o atEnd).walker.next = x.walker.next := by
    obtain ⟨y, told, retire⟩ := x.retire_eq t k o atEnd
    have walker : y.walker = x.walker := told.same .walker rfl
    rw [retire, State.markDone_next, (y.linger_keeps t k).same .walker rfl, walker]
  unfold State.leaveCurrent
  rw [(State.deriveUnits_keeps _ _).same .walker rfl, retired]
  rfl

theorem State.endHeld_next (s : State) (id : UnitId) : (s.endHeld id).walker.next = s.walker.next := by
  unfold State.endHeld
  generalize s.walker.current.standing = ks
  induction ks generalizing s with
  | nil => rfl
  | cons k ks ih =>
    rw [List.foldl_cons, ih]
    split
    · exact State.leaveCurrent_next ..
    · rfl

/-! ## Occupancy -/

/-- A unit becomes VACANT: its clearing stops, and where it was not VACANT its lingering profile is gone (R15, R82). -/
theorem State.setOccupancy_vacant {s : State} {id : UnitId} {u : UnitRec} (hu : s.unit? id = some u) :
    ∃ v, (s.setOccupancy id .vacant none).unit? id = some v ∧
      v.tenancy = { u.tenancy with
        occupancy := .vacant, clearing := none
        lingering := if u.occupancy = .vacant then u.lingering else none } := by
  have written : (s.modifyUnit id fun u => { u with occupancy := .vacant, clearing := none }).unit? id =
      some { u with occupancy := .vacant, clearing := none } := by rw [State.unit?_modifyUnit_self, hu]; rfl
  unfold State.setOccupancy State.occupancyChanged
  simp only [hu]
  split
  · next hvacant => exact ⟨_, written, by simp [UnitRec.tenancy]⟩
  · next hnot =>
    have cleared : ((s.modifyUnit id fun u => { u with occupancy := .vacant, clearing := none }).modifyUnit id
        fun u => { u with lingering := none }).unit? id =
        some { u with occupancy := .vacant, clearing := none, lingering := none } := by
      rw [State.unit?_modifyUnit_self, written]; rfl
    obtain ⟨v, hv, same⟩ := ((State.derive_sameTenancy _ id).trans (State.endHeld_sameTenancy _ id)).record cleared
    exact ⟨v, hv, by rw [same]; simp [UnitRec.tenancy]⟩

/-- A unit becomes OCCUPIED: no notice is handed over (R82). -/
theorem State.setOccupancy_occupied_keeps (s : State) (id : UnitId) (c : Option Nat) :
    Keeps [.walker, .units, .modes, .lighting] s (s.setOccupancy id .occupied c) := by
  unfold State.setOccupancy State.occupancyChanged
  split
  · exact .refl _ s
  · next u _ =>
    have written := (s.modifyUnit_keeps_both id (fun u => { u with occupancy := .occupied, clearing := c })
      (fun _ => rfl) fun _ => rfl).mono (ys := [.walker, .units, .modes, .lighting]) rfl
    refine .ite written ?_
    have cleared : Keeps [.walker, .units, .modes, .lighting] s
        (if u.occupancy = .vacant then
          (s.modifyUnit id fun u => { u with occupancy := .occupied, clearing := c }).clearVacant id
        else s.modifyUnit id fun u => { u with occupancy := .occupied, clearing := c }) :=
      .ite (written.trans ((State.clearVacant_keeps _ id).mono rfl)) written
    exact (cleared.trans ((State.seeOccupied_keeps _ id).mono rfl)).trans ((State.derive_keeps _ id).mono rfl)

end Sys2Proof.Machine
end

