-- ==== Sys2Proof/Proofs/UnitTimers.lean ====
section
/-! PROOF. The timers of a unit (R12, R67, R68, R76 to R78, R81). -/

namespace Sys2Proof.Machine
open Sys2Proof

/-! ## The purge -/

/-- A booking stands for a unit where it stands in one of the unit's cells (R14). -/
theorem chooseBooking_isSome (p : SlotPair) (id : UnitId) :
    (chooseBooking p id).isSome = id.cells.any fun c => (p.inCell c).isSome := by
  cases id
  · simp [chooseBooking, UnitId.cells]
  · simp [chooseBooking, UnitId.cells]
  · cases p with
    | joined k => rfl
    | cells a b =>
      cases a <;> cases b
      case some.some x y =>
        simp only [chooseBooking, UnitId.cells, SlotPair.inCell]
        split <;> rfl
      all_goals rfl

/-- The end of a purge derives a VACANT unit's mode from its slots (R11, R12). -/
theorem State.modeFor_afterPurge {s : State} {id : UnitId} {u : UnitRec} (hm : u.mode = .purge)
    (hp : u.purge = none) (hf : s.space.fire = .clear) (ho : u.occupancy = .vacant) :
    s.modeFor id u =
      if id.cells.any fun c => (s.walker.current.inCell c).isSome then .await
      else if id.cells.any fun c => (s.walker.next.inCell c).isSome then .precondition else .setback := by
  simp only [State.modeFor, chooseBooking_isSome]
  simp [deriveMode, hm, hp, hf, ho]

/-- A derivation that does not enter OCCUPIED writes its record alone (R135). -/
theorem State.derive_eq_deriveCore {s : State} {id : UnitId} {u : UnitRec} (hu : s.unit? id = some u)
    (h : s.modeFor id u ≠ .occupied) : s.derive id = s.deriveCore id := by
  simp [State.derive, hu, h]

theorem exec_purgeTimerExpiry {s : State} (hs : s.Settled) {id : UnitId} {u : UnitRec} (hu : s.unit? id = some u)
    (hm : u.mode = .purge) (hp : u.purge.isSome = true) (hf : s.space.fire = .clear) (ho : u.occupancy = .vacant) :
    ∃ t u', exec (.purgeTimerExpiry id) s = .next t ∧ t.unit? id = some u' ∧
      t = { s with space := { s.space with units := t.space.units } } ∧ u'.purge = none ∧
      u'.mode = (if id.cells.any fun c => (s.walker.current.inCell c).isSome then .await
        else if id.cells.any fun c => (s.walker.next.inCell c).isSome then .precondition else .setback) ∧
      u'.headcount = u.headcount ∧ u'.occupancy = .vacant ∧ ∀ j, j ≠ id → t.unit? j = s.unit? j := by
  let stopped := s.modifyUnit id fun u => { u with purge := none }
  have hv : stopped.unit? id = some { u with purge := none } := by
    rw [State.unit?_modifyUnit_self, hu]; rfl
  have mode : stopped.modeFor id { u with purge := none } = _ := State.modeFor_afterPurge hm rfl hf ho
  have left : stopped.modeFor id { u with purge := none } ≠ .occupied ∧
      stopped.modeFor id { u with purge := none } ≠ .purge := by
    rw [mode]
    split
    · decide
    · split <;> decide
  have derived : stopped.derive id = stopped.deriveCore id := State.derive_eq_deriveCore hv left.1
  have ends : s.purgeExpiry id = stopped.deriveCore id := by
    simp only [State.purgeExpiry, hu, hm, hp, and_self, ↓reduceIte]
    exact derived
  have run : exec (.purgeTimerExpiry id) s = .next (stopped.deriveCore id) :=
    (congrArg finish ends).trans (finish_same hs rfl)
  have record : (stopped.deriveCore id).unit? id = some (stopped.derivedRecord id { u with purge := none }) := by
    rw [State.deriveCore, State.unit?_modifyUnit_self, hv]; rfl
  refine ⟨_, _, run, record, rfl, if_neg left.2, mode, rfl, ho, fun j hj => ?_⟩
  rw [State.deriveCore, State.unit?_modifyUnit_other _ _ hj, State.unit?_modifyUnit_other _ _ hj]

/-! ## The clearing delay and the confirmed vacancy -/

/-- What a change of occupancy leaves alone (R82). -/
structure State.OccupancyMoved (s t : State) : Prop where
  drift : t.drift = s.drift
  doors : t.doors = s.doors
  presence : t.presence = s.presence
  working : t.working = s.working
  drives : t.drives = s.drives
  blinds : t.blinds = s.blinds
  air : t.air = s.air

theorem State.OccupancyMoved.of_keeps {s t : State}
    (k : Keeps [.notices, .walker, .units, .headcounts, .modes, .lighting] s t) (l : Link) :
    s.OccupancyMoved { t with link := l } where
  drift := k.same .drift rfl
  doors := k.same .doors rfl
  presence := k.same .presence rfl
  working := k.working rfl rfl rfl rfl
  drives := k.same .drives rfl
  blinds := k.same .blinds rfl
  air := k.same .air rfl

theorem exec_clearingExpiry {s : State} (hs : s.Settled) {id : UnitId} {u : UnitRec} (hu : s.unit? id = some u)
    (ho : u.occupancy = .clearing) (hc : u.clearing.isSome = true) :
    ∃ t v ns, exec (.clearingExpiry id) s = .next t ∧ t.unit? id = some v ∧
      v.tenancy = { u.tenancy with occupancy := .vacant, clearing := none, lingering := none } ∧
      t.link = (s.link.handed ns).startFrame ∧ s.OccupancyMoved t := by
  have k := s.setOccupancy_keeps id .vacant none
  obtain ⟨v, hv, tenancy⟩ := State.setOccupancy_vacant hu
  have ends : s.clearingReached id = s.setOccupancy id .vacant none := by
    simp only [State.clearingReached, hu, hc, ↓reduceIte]; rfl
  generalize s.setOccupancy id .vacant none = t at k hv ends
  obtain ⟨ns, link⟩ := k.same .link rfl
  have run : exec (.clearingExpiry id) s = finish t := congrArg finish ends
  exact ⟨_, v, ns, run.trans (finish_handed hs link), hv, by simpa [ho] using tenancy, rfl, .of_keeps (k.mono rfl) _⟩

/-- COUNT_ZEROED, if there was a headcount, stands ahead of what the zeroing ends (log entry 44). -/
def State.zeroNotices (s : State) (id : UnitId) (u : UnitRec) : List Notice :=
  if 0 < u.headcount then
    [s.noticeOf .countZeroed (some id.place) none (u.headcount + 65536 * if u.count = .uncertain then 1 else 0) none]
  else []

theorem Link.handed_zeroNotices (l : Link) (s : State) (id : UnitId) (u : UnitRec) :
    l.handed (s.zeroNotices id u) = if 0 < u.headcount then l.place (s.noticeOf .countZeroed (some id.place) none
      (u.headcount + 65536 * if u.count = .uncertain then 1 else 0) none) else l := by
  unfold State.zeroNotices
  split <;> rfl

/-- The zeroing correction, or the end of a clearing (R77, R78). -/
theorem State.confirmVacancy_record {s : State} {id : UnitId} {u : UnitRec} (hu : s.unit? id = some u) :
    ∃ v ns, (s.confirmVacancy id).unit? id = some v ∧
      v.tenancy = { u.tenancy with
        headcount := 0, count := .exact, occupancy := .vacant, clearing := none, vacancyTold := true
        lingering := if u.occupancy = .vacant then u.lingering else none } ∧
      (s.confirmVacancy id).link = (s.link.handed (s.zeroNotices id u)).handed ns := by
  let zeroed := s.modifyUnit id fun u => { u with vacancyTold := true, headcount := 0, count := .exact }
  have hz : zeroed.unit? id = some { u with vacancyTold := true, headcount := 0, count := .exact } := by
    rw [State.unit?_modifyUnit_self, hu]; rfl
  let told := if 0 < u.headcount then zeroed.notify .countZeroed (some id.place) none
    (u.headcount + 65536 * (if u.count = .uncertain then 1 else 0)) none else zeroed
  have told_space : told.space = zeroed.space := by unfold told; split <;> rfl
  have told_link : told.link = s.link.handed (s.zeroNotices id u) := by
    rw [Link.handed_zeroNotices]
    unfold told
    split <;> rfl
  have zeroes : s.confirmVacancy id = told.setOccupancy id .vacant none := by
    simp only [State.confirmVacancy, hu]; rfl
  obtain ⟨v, hv, tenancy⟩ := State.setOccupancy_vacant ((State.unit?_congr (congrArg Space.units told_space) id).trans hz)
  obtain ⟨ns, link⟩ := (told.setOccupancy_keeps id .vacant none).same .link rfl
  rw [zeroes]
  exact ⟨v, ns, hv, tenancy, by rw [link, told_link]⟩

theorem exec_vacancyConfirmed {s : State} (hs : s.Settled) {id : UnitId} {u : UnitRec} (hu : s.unit? id = some u)
    (hp : s.presenceOf id = false) (ht : u.vacancyTold = false) :
    ∃ t v ns, exec (.vacancyConfirmed id) s = .next t ∧ t.unit? id = some v ∧
      v.tenancy = { u.tenancy with
        headcount := 0, count := .exact, occupancy := .vacant, clearing := none
        vacancyTimer := max u.vacancyTimer s.working.settings.vacancyConfirm, vacancyTold := true
        lingering := if u.occupancy = .vacant then u.lingering else none } ∧
      t.link = ((s.link.handed (s.zeroNotices id u)).handed ns).startFrame ∧ s.OccupancyMoved t := by
  let marked := s.modifyUnit id fun r =>
    { r with vacancyTimer := max u.vacancyTimer s.working.settings.vacancyConfirm }
  have hm : marked.unit? id =
      some { u with vacancyTimer := max u.vacancyTimer s.working.settings.vacancyConfirm } := by
    rw [State.unit?_modifyUnit_self, hu]; rfl
  obtain ⟨v, ns, hv, tenancy, link⟩ := State.confirmVacancy_record hm
  have k := s.vacancyReached_keeps id
  have reached : s.vacancyReached id = marked.confirmVacancy id := by
    simp only [State.vacancyReached, hu, hp, ht, Bool.or_self, Bool.false_eq_true, ↓reduceIte, marked]
  rw [reached] at k
  generalize marked.confirmVacancy id = t at hv link reached k
  have run : exec (.vacancyConfirmed id) s = finish t := congrArg finish reached
  have handed : t.link = s.link.handed (s.zeroNotices id u ++ ns) := by rw [Link.handed_append]; exact link
  refine ⟨_, v, ns, run.trans (finish_handed hs handed), hv, tenancy, ?_, .of_keeps k _⟩
  rw [Link.handed_append]

/-! ## Presence without a headcount -/

/-- A unit that becomes OCCUPIED, or stays so (R80, R82). -/
theorem State.setOccupancy_occupied {s : State} {id : UnitId} {u : UnitRec} (hu : s.unit? id = some u)
    (c : Option Nat) :
    (∃ v, (s.setOccupancy id .occupied c).unit? id = some v ∧
      v.tenancy = { u.tenancy with occupancy := .occupied, clearing := c }) ∧
    ∀ j, j ≠ id → (s.setOccupancy id .occupied c).unit? j = s.unit? j := by
  let written := s.modifyUnit id fun u => { u with occupancy := .occupied, clearing := c }
  have hw : written.unit? id = some { u with occupancy := .occupied, clearing := c } := by
    rw [State.unit?_modifyUnit_self, hu]; rfl
  have others (j : UnitId) (hj : j ≠ id) : written.unit? j = s.unit? j := s.unit?_modifyUnit_other _ hj
  let seen := (if u.occupancy = .vacant then written.clearVacant id else written).seeOccupied id
  have seen_units : seen.space.units = written.space.units := by unfold seen; split <;> rfl
  have moved : s.setOccupancy id .occupied c = if u.occupancy = .occupied then written else seen.derive id := by
    simp only [State.setOccupancy, hu]; rfl
  rw [moved]
  split
  · exact ⟨⟨_, hw, rfl⟩, others⟩
  · obtain ⟨v, hv, same⟩ := (seen.derive_sameTenancy id).record ((State.unit?_congr seen_units id).trans hw)
    refine ⟨⟨v, hv, same⟩, fun j hj => ?_⟩
    rw [State.derive_unit?_other _ hj, State.unit?_congr seen_units, others j hj]

theorem nextOccupancy_evidence (o : Occupancy) (c : Option Nat) : (nextOccupancy o true c).1 = .occupied := by
  cases o <;> rfl

theorem exec_presenceForced {s : State} (hs : s.Settled) {id : UnitId} {u : UnitRec} (hu : s.unit? id = some u)
    (hp : s.presenceOf id = true) (hn : u.headcount = 0) :
    ∃ t v, exec (.presenceForced id) s = .next t ∧ t.unit? id = some v ∧
      v.tenancy = { u.tenancy with
        headcount := 1, count := .uncertain, forcedTimer := 0, occupancy := .occupied
        clearing := (nextOccupancy u.occupancy true u.clearing).2 } ∧
      (∀ j, j ≠ id → t.unit? j = s.unit? j) ∧ t.link = s.link ∧ s.OccupancyMoved t := by
  let forced := s.modifyUnit id fun u =>
    { u with headcount := 1, count := .uncertain, forcedTimer := if 0 < 1 then 0 else u.forcedTimer }
  have hf : forced.unit? id = some { u with headcount := 1, count := .uncertain, forcedTimer := 0 } := by
    rw [State.unit?_modifyUnit_self, hu]; rfl
  have forces : s.forcedReached id =
      forced.setOccupancy id .occupied (nextOccupancy u.occupancy true u.clearing).2 := by
    have evidence : forced.evidence id { u with headcount := 1, count := .uncertain, forcedTimer := 0 } = true := rfl
    have evaluated : forced.evaluate id =
        forced.setOccupancy id .occupied (nextOccupancy u.occupancy true u.clearing).2 := by
      simp only [State.evaluate, hf, evidence, nextOccupancy_evidence]
    rw [← evaluated]
    simp only [State.forcedReached, hu, hp, hn, and_self, ↓reduceIte]
    rfl
  obtain ⟨⟨v, hv, tenancy⟩, others⟩ :=
    State.setOccupancy_occupied hf (nextOccupancy u.occupancy true u.clearing).2
  have k := ((s.modifyUnit_keeps_modes id
    (fun u => { u with headcount := 1, count := .uncertain, forcedTimer := if 0 < 1 then 0 else u.forcedTimer })
    fun _ => rfl).mono (ys := [.walker, .units, .headcounts, .modes, .lighting]) rfl).trans
    ((forced.setOccupancy_occupied_keeps id (nextOccupancy u.occupancy true u.clearing).2).mono rfl)
  generalize forced.setOccupancy id .occupied _ = t at forces hv others k
  have link : t.link = s.link := k.same .notices rfl
  have run : exec (.presenceForced id) s = .next t := (congrArg finish forces).trans (finish_same hs link)
  exact ⟨t, v, run, hv, tenancy, fun j hj => (others j hj).trans (s.unit?_modifyUnit_other _ hj), link,
    .of_keeps (k.mono rfl) t.link⟩

/-- Settles O48, timer by timer. -/
theorem unitTimersAct : Obligations.UnitTimersAct := by
  intro id u s hs hu
  refine ⟨fun hm hp hf ho => exec_purgeTimerExpiry hs hu hm hp hf ho, fun ho hc => ?_, fun hp ht => ?_, fun h => ?_,
    fun hp hn => ?_⟩
  · obtain ⟨t, v, ns, run, hv, tenancy, link, same⟩ := exec_clearingExpiry hs hu ho hc
    simp only [UnitRec.tenancy, Tenancy.mk.injEq] at tenancy
    obtain ⟨headcount, count, occupancy, clearing, vacancyTimer, -, -, lingering⟩ := tenancy
    exact ⟨t, v, ns, run, hv, occupancy, clearing, lingering, headcount, count, vacancyTimer, link, same.drift,
      same.doors, same.presence, same.working, same.drives, same.blinds, same.air⟩
  · obtain ⟨t, v, ns, run, hv, tenancy, link, same⟩ := exec_vacancyConfirmed hs hu hp ht
    simp only [UnitRec.tenancy, Tenancy.mk.injEq] at tenancy
    obtain ⟨headcount, count, occupancy, clearing, vacancyTimer, told, -, lingering⟩ := tenancy
    rw [Link.handed_zeroNotices] at link
    exact ⟨t, v, ns, run, hv, headcount, count, occupancy, clearing, told, vacancyTimer,
      fun ho => by rw [lingering, if_neg ho], link, same.drift, same.doors, same.presence, same.working, same.drives,
      same.blinds, same.air⟩
  · have idle : s.vacancyReached id = s := by
      have stops : (s.presenceOf id || u.vacancyTold) = true := by simpa [or_comm] using h
      simp only [State.vacancyReached, hu, stops, ↓reduceIte]
    exact (congrArg finish idle).trans (finish_same hs rfl)
  · obtain ⟨t, v, run, hv, tenancy, others, link, same⟩ := exec_presenceForced hs hu hp hn
    simp only [UnitRec.tenancy, Tenancy.mk.injEq] at tenancy
    obtain ⟨headcount, count, occupancy, -, vacancyTimer, -, forcedTimer, -⟩ := tenancy
    exact ⟨t, v, run, hv, headcount, count, forcedTimer, occupancy, vacancyTimer, others, link, same.drift,
      same.doors, same.presence, same.working, same.drives, same.blinds, same.air⟩

end Sys2Proof.Machine
end

