-- ==== Sys2Proof/Proofs/Arrange.lean ====
section
/-! PROOF. Join and split (R4 to R7): what becomes of the records of the units, and what stays. -/

namespace Sys2Proof.Machine
open Sys2Proof

/-! ## Units found by their records -/

theorem Units.get?_ab {u : Units} {r : UnitRec} (h : u.get? .ab = some r) : u = .joined r := by
  cases u <;> simp_all [Units.get?]

theorem Units.get?_a_b {u : Units} {x y : UnitRec} (ha : u.get? .a = some x) (hb : u.get? .b = some y) :
    u = .split x y := by
  cases u <;> simp_all [Units.get?]

/-! ## The air update that follows (R88) -/

theorem State.airUpdate_air (s : State) :
    s.airUpdate.air.timer = 0 ∧ s.airUpdate.air.capInForce = s.air.requestedCap := by
  let begun := s.updAir fun a => { a with capInForce := a.requestedCap, timer := 0 }
  let formed := begun.space.units.ids.foldl State.formDemand begun
  have demands : formed.air = begun.air :=
    (Keeps.foldl State.formDemand begun.space.units.ids (.refl [.notices, .units] begun)
      State.formDemand_keeps).same .air rfl
  have plant : s.airUpdate.air = formed.shareCap.air :=
    ((State.refreshNeeds_keeps _).same .air rfl).trans ((State.handOver_keeps _).same .air rfl)
  have shared : formed.shareCap.air.timer = formed.air.timer ∧
      formed.shareCap.air.capInForce = formed.air.capInForce := ⟨rfl, rfl⟩
  rw [plant, shared.1, shared.2, demands]
  exact ⟨rfl, rfl⟩

theorem State.daylightAcross_sameTenancy (s : State) (c : Cell) (before : Mode) :
    s.SameTenancy (s.daylightAcross c before) :=
  .of_units ((s.daylightAcross_keeps c before).same .units rfl)

/-! ## Split (R6) -/

/-- The share of A by area, rounded half up, is no more than the whole. -/
theorem areaShare_le (h a b : Nat) : (h * a + (a + b) / 2) / (a + b) ≤ h := by
  rcases Nat.eq_zero_or_pos (a + b) with hz | hp
  · simp [hz]
  · have part : h * a ≤ h * (a + b) := Nat.mul_le_mul_left h (by omega)
    have half : (a + b) / 2 < a + b := by omega
    have whole : h * a + (a + b) / 2 < (h + 1) * (a + b) := by rw [Nat.succ_mul]; omega
    exact Nat.le_of_lt_succ (Nat.div_lt_of_lt_mul (by rwa [Nat.mul_comm (a + b)]))

/-- The shares of a headcount of at most 500 are each at most 250, and make it up (R6). -/
theorem splitShare_bounds {h : Nat} (hh : h ≤ 500) (a b : Nat) :
    splitShare h a b ≤ 250 ∧ h - splitShare h a b ≤ 250 ∧ splitShare h a b ≤ h := by
  have share := areaShare_le h a b
  unfold splitShare
  dsimp only
  split
  · omega
  · split <;> omega

/-- The units of a split, less what derivation and the air update write (R6, R7). -/
theorem State.split_units (s : State) (ab : UnitRec) :
    ∃ a b, (s.split ab).space.units = .split a b ∧
      a.tenancy = (splitRecord ab (splitShare ab.headcount s.working.settings.area.a s.working.settings.area.b)
        (s.presenceOf .a)).tenancy ∧
      b.tenancy = (splitRecord ab (ab.headcount - splitShare ab.headcount s.working.settings.area.a
        s.working.settings.area.b) (s.presenceOf .b)).tenancy := by
  let n := splitShare ab.headcount s.working.settings.area.a s.working.settings.area.b
  let recordA := splitRecord ab n (s.presenceOf .a)
  let recordB := splitRecord ab (ab.headcount - n) (s.presenceOf .b)
  let parted := s.updSpace fun p => { p with units := .split recordA recordB }
  have vacated (x : State) (id : UnitId) (o : Occupancy) : x.SameTenancy (x.vacatedBySplit id o) := by
    unfold State.vacatedBySplit
    split
    · exact x.endHeld_sameTenancy id
    · exact .refl x
  have same : parted.SameTenancy (s.split ab) :=
    ((((((parted.deriveCore_sameTenancy .a).trans (State.deriveCore_sameTenancy _ .b)).trans
      (State.daylightAcross_sameTenancy _ .a _)).trans (State.daylightAcross_sameTenancy _ .b _)).trans
      (vacated _ .a _)).trans (vacated _ .b _)).trans (State.airUpdate_sameTenancy _)
  obtain ⟨a, ha, ta⟩ := same.record (id := .a) rfl
  obtain ⟨b, hb, tb⟩ := same.record (id := .b) rfl
  exact ⟨a, b, Units.get?_a_b ha hb, ta, tb⟩

theorem State.split_next (s : State) (ab : UnitRec) : (s.split ab).walker.next = s.walker.next := by
  have vacated (x : State) (id : UnitId) (o : Occupancy) : (x.vacatedBySplit id o).walker.next = x.walker.next := by
    unfold State.vacatedBySplit
    split
    · exact x.endHeld_next id
    · rfl
  unfold State.split
  dsimp only
  rw [(State.airUpdate_keeps _).same .walker rfl, vacated, vacated, (State.daylightAcross_keeps ..).same .walker rfl,
    (State.daylightAcross_keeps ..).same .walker rfl]
  rfl

/-- What R6 says of a split of AB, and what a split leaves alone. -/
def State.Splits (s : State) (ab : UnitRec) (t : State) : Prop :=
  ∃ a b, t.space.units = .split a b ∧
    a.headcount = splitShare ab.headcount s.working.settings.area.a s.working.settings.area.b ∧
    b.headcount = ab.headcount - a.headcount ∧ a.headcount + b.headcount = ab.headcount ∧
    a.headcount ≤ 250 ∧ b.headcount ≤ 250 ∧
    (ab.headcount = 0 → a.count = .exact ∧ b.count = .exact) ∧
    (ab.headcount ≠ 0 → a.count = .uncertain ∧ b.count = .uncertain) ∧
    t.drift = s.drift ∧ t.doors = s.doors ∧ t.presence = s.presence ∧ t.walker.next = s.walker.next ∧
    t.space.overrides = s.space.overrides ∧ t.space.fire = s.space.fire

theorem splitRecord_count (ab : UnitRec) (n : Nat) (p : Bool) :
    (splitRecord ab n p).count = if ab.headcount = 0 then .exact else .uncertain := rfl

theorem State.split_splits (s : State) {ab : UnitRec} (hh : ab.headcount ≤ 500) : s.Splits ab (s.split ab) := by
  obtain ⟨a, b, units, ta, tb⟩ := s.split_units ab
  have k := s.split_keeps ab
  have next := s.split_next ab
  have bounds := splitShare_bounds hh s.working.settings.area.a s.working.settings.area.b
  unfold State.Splits
  generalize splitShare ab.headcount s.working.settings.area.a s.working.settings.area.b = n at ta tb bounds ⊢
  generalize s.split ab = t at units k next ⊢
  have ha : a.headcount = n := congrArg Tenancy.headcount ta
  have hb : b.headcount = ab.headcount - n := congrArg Tenancy.headcount tb
  have ca : a.count = (splitRecord ab n (s.presenceOf .a)).count := congrArg Tenancy.count ta
  have cb : b.count = (splitRecord ab (ab.headcount - n) (s.presenceOf .b)).count := congrArg Tenancy.count tb
  rw [splitRecord_count] at ca cb
  refine ⟨a, b, units, ha, by rw [hb, ha], by omega, by omega, by omega, fun h => ?_, fun h => ?_, k.same .drift rfl,
    k.same .doors rfl, k.same .presence rfl, next, k.same .overrides rfl, k.same .fire rfl⟩
  · rw [ca, cb, if_pos h]; exact ⟨rfl, rfl⟩
  · rw [ca, cb, if_neg h]; exact ⟨rfl, rfl⟩

/-- What writes none of the blocks that R6 speaks of leaves a split a split. -/
theorem State.Splits.moved {s t t' : State} {ab : UnitRec} (h : s.Splits ab t) (space : t'.space = t.space)
    (drift : t'.drift = t.drift) (doors : t'.doors = t.doors) (presence : t'.presence = t.presence)
    (walker : t'.walker = t.walker) : s.Splits ab t' := by
  unfold State.Splits at h ⊢
  rwa [space, drift, doors, presence, walker]

theorem State.Splits.notified {s t : State} {ab : UnitRec} (h : s.Splits ab t) : s.Splits ab t.notifyPartition :=
  h.moved rfl rfl rfl rfl rfl

/-- Units that are to be SPLIT and are JOINED are split, with PARTITION_CHANGED (R2). -/
theorem State.arrange_splits {s : State} {ab : UnitRec} (hu : s.space.units = .joined ab) (hh : ab.headcount ≤ 500)
    (hj : s.shouldJoin = false) (always : Bool) : s.Splits ab (s.arrange always) := by
  have arranged : s.arrange always = (s.split ab).notifyPartition := by unfold State.arrange; rw [hu, hj]
  rw [arranged]
  exact (s.split_splits hh).notified

theorem State.shouldJoin_of_not_divisible {s : State} (h : s.working.settings.divisible = false) :
    s.shouldJoin = false := by simp [State.shouldJoin, h]

/-! ### The three ways to a split -/

theorem exec_partitionDebounce_splits {s : State} {ab : UnitRec} (hs : s.Settled) (hu : s.space.units = .joined ab)
    (hh : ab.headcount ≤ 500) (ht : s.space.partitionTimer.isSome = true) (hc : s.space.contact = .closed) :
    ∃ t, exec .partitionDebounce s = .next t ∧ s.Splits ab t := by
  let closed := s.updSpace fun p => { p with partition := p.contact, partitionTimer := none }
  have hj : closed.shouldJoin = false := by
    have shut : closed.space.partition = .closed := hc
    simp [State.shouldJoin, shut]
  have completes : s.completePartition = closed.arrange true := by
    unfold State.completePartition
    split
    · next h => simp [h] at ht
    · rfl
  have splits : closed.Splits ab (closed.arrange true) := State.arrange_splits (s := closed) hu hh hj true
  have k := s.completePartition_keeps
  rw [completes] at k
  obtain ⟨ns, link⟩ := k.same .link rfl
  have run : exec .partitionDebounce s = finish (closed.arrange true) := congrArg finish completes
  exact ⟨_, run.trans (finish_handed hs link), splits⟩

theorem exec_putSetting_splits {s : State} {ab : UnitRec} (hs : s.Takes) (hw : s.store.saving = none)
    (hu : s.space.units = .joined ab) (hh : ab.headcount ≤ 500) (tag : Byte) :
    ∃ t, exec (.putSetting tag 1 0 0) s = .next t ∧ s.Splits ab t := by
  let off := s.withSettings { s.working.settings with divisible := false }
  have answered : s.answerPutSetting 1 0 0 = ({ status := .ok, data := byte4 0 }, off.arrange false) := by
    unfold State.answerPutSetting
    simp only [State.writing, hw, Option.isSome_none, Bool.false_eq_true, ↓reduceIte]
    rfl
  have splits : off.Splits ab (off.arrange false) :=
    State.arrange_splits (s := off) hu hh (State.shouldJoin_of_not_divisible (s := off) rfl) false
  obtain ⟨ns, link⟩ := (off.arrange_keeps false).same .link rfl
  exact ⟨_, exec_answered hs rfl rfl answered (by rw [link, Link.handed_requests]; rfl), splits⟩

/-- A setting other than "divisible" reads the same when "divisible" is written. -/
theorem Settings.get_withDivisible {k : SettingKey} (hk : k ≠ .divisible) (w : Settings) (d : Bool) :
    ({ w with divisible := d } : Settings).get k = w.get k := by
  cases k with
  | divisible => exact absurd rfl hk
  | _ => rfl

/-- The settings that a reload changing "divisible" alone has effects of (R191). -/
theorem changedSettings_of_divisible {w : Settings} (h : w.divisible = true) :
    (allSettings.filter fun k =>
      decide (w.get k ≠ ({ w with divisible := false } : Settings).get k) && !k.standsAtRestore) = [.divisible] := by
  have others : ∀ k ∈ allSettings.tail, k ≠ .divisible := by decide
  have none_of_tail : (allSettings.tail.filter fun k =>
      decide (w.get k ≠ ({ w with divisible := false } : Settings).get k) && !k.standsAtRestore) = [] := by
    refine List.filter_eq_nil_iff.mpr fun k hk => ?_
    simp [Settings.get_withDivisible (others k hk) w false]
  have first : allSettings = .divisible :: allSettings.tail := rfl
  rw [first, List.filter_cons, none_of_tail]
  simp [Settings.get, h, SettingKey.standsAtRestore]

theorem exec_restoreSettings_splits {s : State} {ab : UnitRec} {m : Image} (hs : s.Takes)
    (hw : s.store = { image := some m, saving := none }) (hd : s.working.settings.divisible = true)
    (hm : m.working.settings = { s.working.settings with divisible := false }) (hu : s.space.units = .joined ab)
    (hh : ab.headcount ≤ 500) (tag : Byte) :
    ∃ t, exec (.restoreSettings tag) s = .next t ∧ s.Splits ab t := by
  let off := s.withSettings { s.working.settings with divisible := false }
  have restored : s.restore m = (((off.arrange false).withProfiles m.working.profiles).withTables
      m.working.tables).withCalibrations m.working.calibrations := by
    unfold State.restore
    rw [hm]
    dsimp only
    rw [changedSettings_of_divisible hd]
    rfl
  have answered : s.answerRestoreSettings = ({ status := .ok, data := [] }, s.restore m) := by
    simp only [State.answerRestoreSettings, State.writing, hw, Option.isSome_none, Bool.false_eq_true, ↓reduceIte]
    rfl
  have splits : off.Splits ab (off.arrange false) :=
    State.arrange_splits (s := off) hu hh (State.shouldJoin_of_not_divisible (s := off) rfl) false
  obtain ⟨ns, link⟩ := (off.arrange_keeps false).same .link rfl
  rw [restored] at answered
  generalize off.arrange false = t at answered splits link
  refine ⟨_, exec_answered hs rfl rfl answered ?_, splits.moved rfl rfl rfl rfl rfl⟩
  simp [link, Link.handed_requests, off]

/-- Settles O45: each of the three ways to a split comes down to `State.split` on JOINED units. -/
theorem splitSharesTheHeadcount : Obligations.SplitSharesTheHeadcount := by
  unfold Obligations.SplitSharesTheHeadcount
  intro ab tag m i s hu hh way
  have split : ∃ t, exec i s = .next t ∧ s.Splits ab t := by
    rcases way with ⟨rfl, hs, ht, hc⟩ | ⟨rfl, hs, hw⟩ | ⟨rfl, hs, hw, hd, hm⟩
    · exact exec_partitionDebounce_splits hs hu hh ht hc
    · exact exec_putSetting_splits hs hw hu hh tag
    · exact exec_restoreSettings_splits hs hw hd hm hu hh tag
  obtain ⟨t, run, a, b, units, share, rest⟩ := split
  exact ⟨t, a, b, run, units, share, rest⟩

end Sys2Proof.Machine
end

