-- ==== Sys2Proof/Proofs/Join.lean ====
section
/-! PROOF. A join of A and B into AB (R4, R5). -/

namespace Sys2Proof.Machine
open Sys2Proof

/-! ## The record of AB -/

theorem joinRecord_occupied {a b : UnitRec} {p : Bool} (h : 0 < (joinRecord a b p).headcount ∨ p = true) :
    (joinRecord a b p).occupancy = .occupied ∧ (joinRecord a b p).clearing = none := by
  have evidence : (decide (0 < a.headcount + b.headcount) || p) = true := by simpa [joinRecord] using h
  unfold joinRecord
  simp only [evidence]
  split <;> exact ⟨rfl, rfl⟩

theorem joinRecord_unoccupied {a b : UnitRec} {p : Bool} (hh : (joinRecord a b p).headcount = 0) (hp : p = false) :
    ((joinRecord a b p).occupancy, (joinRecord a b p).clearing) =
      if a.occupancy = .vacant ∧ b.occupancy = .vacant then (.vacant, none) else (.clearing, some 0) := by
  have evidence : (decide (0 < a.headcount + b.headcount) || p) = false := by
    rw [show a.headcount + b.headcount = 0 from hh, hp]; rfl
  unfold joinRecord
  simp only [evidence]
  split <;> rfl

theorem joinRecord_count (a b : UnitRec) (p : Bool) :
    (joinRecord a b p).count = .uncertain ↔ a.count = .uncertain ∨ b.count = .uncertain := by
  simp [joinRecord, Decidable.imp_iff_not_or]

theorem joinRecord_lingering (a b : UnitRec) (p : Bool) :
    (joinRecord a b p).lingering = if a.lingering = none then b.lingering else a.lingering := by
  unfold joinRecord
  cases a.lingering <;> rfl

/-! ## What a join leaves -/

theorem State.join_units (s : State) (a b : UnitRec) :
    ∃ u, (s.join a b).space.units = .joined u ∧ u.tenancy = (joinRecord a b (s.presenceOf .ab)).tenancy := by
  let record := joinRecord a b (s.presenceOf .ab)
  let formed := s.updSpace fun p => { p with units := .joined record }
  have same : formed.SameTenancy (s.join a b) :=
    ((((State.SameTenancy.of_units (t := formed.joinBookings s record.occupancy) rfl).trans
      (State.deriveCore_sameTenancy _ .ab)).trans (State.daylightAcross_sameTenancy _ .a a.mode)).trans
      (State.daylightAcross_sameTenancy _ .b b.mode)).trans (State.airUpdate_sameTenancy _)
  obtain ⟨u, hu, tu⟩ := same.record (id := .ab) rfl
  exact ⟨u, Units.get?_ab hu, tu⟩

/-- What a join makes of a booking in CURRENT, the occupancy of AB being `o` (R44, R45). -/
def State.bookingAtJoin (s : State) (o : Occupancy) (t : Target) (k : Booking) : Booking :=
  { k with
    seenOccupied := k.seenOccupied ||
      (decide (o = .occupied) && decide (k.state = .running) && !s.occupiedTarget t)
    vacant := if o ≠ .vacant ∧ s.vacantTarget t = true then 0 else k.vacant }

/-- A join changes bookings in CURRENT, but none of their entries, and no other part of the walker (R44, R45). -/
theorem State.join_walker (s : State) (a b : UnitRec) :
    ∃ f : Target → Booking → Booking, (∀ t k, (f t k).entry = k.entry) ∧
      (s.join a b).walker = { s.walker with current := s.walker.current.map f } := by
  unfold State.join
  dsimp only
  rw [(State.airUpdate_keeps _).same .walker rfl, (State.daylightAcross_keeps ..).same .walker rfl,
    (State.daylightAcross_keeps ..).same .walker rfl, (State.deriveCore_keeps ..).same .walker rfl]
  exact ⟨s.bookingAtJoin _, fun _ _ => rfl, rfl⟩

theorem State.join_air (s : State) (a b : UnitRec) :
    (s.join a b).air.timer = 0 ∧ (s.join a b).air.capInForce = s.air.requestedCap := by
  unfold State.join
  dsimp only
  generalize hj : State.daylightAcross _ _ _ = j
  have air : j.air = s.air := by
    rw [← hj, (State.daylightAcross_keeps ..).same .air rfl, (State.daylightAcross_keeps ..).same .air rfl,
      (State.deriveCore_keeps ..).same .air rfl]
    rfl
  rw [← air]
  exact j.airUpdate_air

/-! ## PARTITION_MISMATCH -/

theorem SlotPair.inCell_map_entry {f : Target → Booking → Booking} (hf : ∀ t k, (f t k).entry = k.entry)
    (p : SlotPair) (c : Cell) : ((p.map f).inCell c).map (·.entry) = (p.inCell c).map (·.entry) := by
  have entry (t : Target) (o : Option Booking) : (o.map (f t)).map (·.entry) = o.map (·.entry) := by
    cases o with
    | none => rfl
    | some k => exact congrArg some (hf t k)
  cases p with
  | joined k => exact congrArg some (hf .joined k)
  | cells a b =>
    cases c with
    | a => exact entry .a a
    | b => exact entry .b b

theorem State.notifyMismatch_of_two {s : State} {x y : Booking} (h : s.walker.current = .cells (some x) (some y)) :
    s.notifyMismatch =
      s.notify .partitionMismatch none none (x.entry.tag.toNat + 65536 * y.entry.tag.toNat) none := by
  unfold State.notifyMismatch
  rw [h]

theorem State.notifyMismatch_of_not_two {s : State} (h : ∀ x y, s.walker.current ≠ .cells (some x) (some y)) :
    s.notifyMismatch = s := by
  unfold State.notifyMismatch
  split
  · next x y two => exact absurd two (h x y)
  · rfl

/-- Each CURRENT slot holds a booking of its own before a change of the bookings where it does after it. -/
theorem SlotPair.two_of_map_two {f : Target → Booking → Booking} {p : SlotPair} {x' y' : Booking}
    (h : p.map f = .cells (some x') (some y')) : ∃ x y, p = .cells (some x) (some y) := by
  cases p with
  | joined k => exact absurd h (by simp [SlotPair.map])
  | cells a b =>
    obtain ⟨ha, hb⟩ : a.map (f .a) = some x' ∧ b.map (f .b) = some y' := by simpa [SlotPair.map] using h
    obtain ⟨x, rfl, -⟩ := Option.map_eq_some_iff.mp ha
    obtain ⟨y, rfl, -⟩ := Option.map_eq_some_iff.mp hb
    exact ⟨x, y, rfl⟩

/-! ## The debounced opening -/

/-- The state a completed opening hands to the rule of arrangement (R1, R2). -/
def State.opened (s : State) : State := s.updSpace fun p => { p with partition := .opened, partitionTimer := none }

theorem State.completePartition_of_opened {s : State} (ht : s.space.partitionTimer.isSome = true)
    (hc : s.space.contact = .opened) : s.completePartition = s.opened.arrange true := by
  unfold State.completePartition
  split
  · next h => simp [h] at ht
  · simp only [State.opened, State.updSpace, hc]

theorem State.arrange_of_not_divisible {s : State} {a b : UnitRec} (hu : s.space.units = .split a b)
    (hd : s.working.settings.divisible = false) : s.arrange true = s.notifyPartition := by
  unfold State.arrange
  rw [hu, State.shouldJoin_of_not_divisible hd]
  rfl

theorem State.arrange_opened {s : State} {a b : UnitRec} (hu : s.space.units = .split a b)
    (hd : s.working.settings.divisible = true) :
    s.opened.arrange true = (s.opened.join a b).notifyPartition.notifyMismatch := by
  have units : s.opened.space.units = .split a b := hu
  have join : s.opened.shouldJoin = true := by
    simp [State.shouldJoin, State.opened, hd]
  unfold State.arrange
  rw [units, join]

theorem State.notifyPartition_link_of_joined {j : State} {u : UnitRec} (hu : j.space.units = .joined u)
    (hp : j.space.partition = .opened) :
    j.notifyPartition.link = j.link.place (j.noticeOf .partitionChanged none none 257 none) := by
  simp [State.notifyPartition, hu, hp, Units.isJoined]

/-- The notices of a join change the link interface alone. -/
theorem State.joinNotices_eq (j : State) :
    j.notifyPartition.notifyMismatch = { j with link := j.notifyPartition.notifyMismatch.link } := by
  unfold State.notifyMismatch
  split <;> rfl

/-- The notices of a join: those of the air update, PARTITION_CHANGED, and PARTITION_MISMATCH where each CURRENT slot
holds a booking of its own (R2, R5). -/
theorem State.join_notices (s : State) {j : State} {u : UnitRec} {ns : List Notice} {f : Target → Booking → Booking}
    (hf : ∀ t k, (f t k).entry = k.entry) (hu : j.space.units = .joined u) (hp : j.space.partition = .opened)
    (hl : j.link = s.link.handed ns) (hc : j.clock = s.clock)
    (hw : j.walker.current = s.walker.current.map f) :
    (∀ x y, s.walker.current = .cells (some x) (some y) →
      j.notifyPartition.notifyMismatch.link =
        ((s.link.handed ns).place (s.noticeOf .partitionChanged none none 257 none)).place
          (s.noticeOf .partitionMismatch none none (x.entry.tag.toNat + 65536 * y.entry.tag.toNat) none)) ∧
    ((∀ x y, s.walker.current ≠ .cells (some x) (some y)) →
      j.notifyPartition.notifyMismatch.link =
        (s.link.handed ns).place (s.noticeOf .partitionChanged none none 257 none)) := by
  have changed : j.notifyPartition.link = (s.link.handed ns).place (s.noticeOf .partitionChanged none none 257 none) := by
    rw [State.notifyPartition_link_of_joined hu hp, hl, State.noticeOf_congr hc]
  have current : j.notifyPartition.walker.current = s.walker.current.map f := hw
  have clock : j.notifyPartition.clock = s.clock := hc
  refine ⟨fun x y two => ?_, fun single => ?_⟩
  · rw [two] at current
    rw [State.notifyMismatch_of_two current, State.notify_link, changed, State.noticeOf_congr clock, hf, hf]
  · have still : ∀ x y, j.notifyPartition.walker.current ≠ .cells (some x) (some y) := fun x' y' two => by
      obtain ⟨x, y, h⟩ := SlotPair.two_of_map_two (current.symm.trans two)
      exact single x y h
    rw [State.notifyMismatch_of_not_two still, changed]

/-- A debounced opening with "divisible" off moves the partition state alone, with PARTITION_CHANGED (R1). -/
theorem exec_partitionDebounce_opens {s : State} {a b : UnitRec} (hs : s.Settled)
    (ht : s.space.partitionTimer.isSome = true) (hc : s.space.contact = .opened) (hu : s.space.units = .split a b)
    (hd : s.working.settings.divisible = false) :
    exec .partitionDebounce s = .next { s with
      space := { s.space with partition := .opened, partitionTimer := none }
      link := (s.link.place (s.noticeOf .partitionChanged none none 1 none)).startFrame } := by
  have run : exec .partitionDebounce s = finish (s.opened.arrange true) :=
    congrArg finish (State.completePartition_of_opened ht hc)
  have units : s.opened.space.units = .split a b := hu
  have link : s.opened.notifyPartition.link = s.link.handed [s.noticeOf .partitionChanged none none 1 none] := by
    simp only [State.notifyPartition, State.notify_link, units]
    rfl
  rw [run, State.arrange_of_not_divisible (s := s.opened) hu hd, finish_handed hs link]
  rfl

/-- Settles O44: with "divisible" on, from what a join makes of the units, the walker and the air demand unit, and from
its frame; the notices are then placed on the state it leaves. -/
theorem joinFormsUnitAB : Obligations.JoinFormsUnitAB := by
  unfold Obligations.JoinFormsUnitAB
  intro a b s hs ht hc hu
  refine ⟨exec_partitionDebounce_opens hs ht hc hu, fun hd => ?_⟩
  have run : exec .partitionDebounce s = finish (s.opened.join a b).notifyPartition.notifyMismatch := by
    rw [← State.arrange_opened hu hd]
    exact congrArg finish (State.completePartition_of_opened ht hc)
  obtain ⟨u, units, same⟩ := s.opened.join_units a b
  obtain ⟨f, entries, walker⟩ := s.opened.join_walker a b
  obtain ⟨timer, cap⟩ := s.opened.join_air a b
  have k := s.opened.join_keeps a b
  obtain ⟨ns, link⟩ := k.same .link rfl
  have partition := k.same .partition rfl
  generalize s.opened.join a b = j at *
  obtain ⟨two, single⟩ := State.join_notices s entries units partition link (k.same .clock rfl)
    (congrArg Walker.current walker)
  obtain ⟨ms, all⟩ := ((j.notifyPartition_keeps.trans j.notifyPartition.notifyMismatch_keeps).mono
    (ys := [.notices]) rfl).same .link rfl
  rw [State.joinNotices_eq] at run all
  generalize j.notifyPartition.notifyMismatch.link = l at *
  have all' : l = s.link.handed (ns ++ ms) := by rw [Link.handed_append, all, link]; rfl
  rw [finish_handed hs all', ← all'] at run
  let record := joinRecord a b (s.presenceOf .ab)
  have headcount : u.headcount = record.headcount := congrArg Tenancy.headcount same
  have count : u.count = record.count := congrArg Tenancy.count same
  have occupancy : u.occupancy = record.occupancy := congrArg Tenancy.occupancy same
  have clearing : u.clearing = record.clearing := congrArg Tenancy.clearing same
  have lingering : u.lingering = record.lingering := congrArg Tenancy.lingering same
  have next : j.walker.next = s.walker.next := by rw [walker]; rfl
  have slots (c : Cell) : (j.walker.current.inCell c).map (·.entry) = (s.walker.current.inCell c).map (·.entry) := by
    rw [walker]; exact SlotPair.inCell_map_entry entries _ c
  refine ⟨_, u, ns, run, units, partition, (k.same .contact rfl).2, headcount, ?_, ?_,
    congrArg Tenancy.vacancyTimer same, congrArg Tenancy.forcedTimer same, ?_, ?_, ?_, timer, cap,
    next, slots, k.same .drift rfl, k.same .doors rfl, k.same .presence rfl,
    k.working rfl rfl rfl rfl, k.same .overrides rfl, k.same .fire rfl,
    fun x y h => congrArg Link.startFrame (two x y h), fun h => congrArg Link.startFrame (single h)⟩
  · rw [count]; exact joinRecord_count a b (s.presenceOf .ab)
  · rw [lingering]; exact joinRecord_lingering a b (s.presenceOf .ab)
  · rw [occupancy, clearing, headcount]; exact joinRecord_occupied
  · intro hn hp va vb
    have still := joinRecord_unoccupied (headcount.symm.trans hn) hp
    rw [if_pos ⟨va, vb⟩] at still
    exact ⟨occupancy.trans (congrArg Prod.fst still), clearing.trans (congrArg Prod.snd still)⟩
  · intro hn hp v
    have still := joinRecord_unoccupied (headcount.symm.trans hn) hp
    rw [if_neg (by tauto)] at still
    exact ⟨occupancy.trans (congrArg Prod.fst still), clearing.trans (congrArg Prod.snd still)⟩

end Sys2Proof.Machine
end

