-- ==== Sys2Proof/Proofs/Plant.lean ====
section
/-! PROOF. What the rail and the blinds leave of the drives and the lights: the commands of a damper that is not
calibrating, every valve, and the light channels (R109, R123, R139, R160, R161). -/

namespace Sys2Proof.Machine
open Sys2Proof

/-! ## The commands of a drive -/

/-- The commands of a terminal drive, with the calibration that may hold its damper. -/
structure DriveCommands where
  cal : Option DamperCal
  source : CommandSource
  driven : Nat

/-- The commands of a drive's damper. -/
def Drive.commands (d : Drive) : DriveCommands where
  cal := d.cal
  source := d.source
  driven := d.driven

/-- The computed commands of a drive, which the reheat loop and the hand-over of demand alone write. -/
def Drive.computedCommands (d : Drive) : Nat × Nat := (d.computed, d.valveComputed)

/-- The command of a drive's valve (R123). -/
def Drive.valve (d : Drive) : Nat × Nat := (d.valveDriven, d.valveOutput)

/-- A drive keeps its computed commands and its valve, and the command of its damper unless that is calibrating. -/
structure Drive.Holds (d e : Drive) : Prop where
  commands : d.cal = none → e.commands = d.commands
  computed : e.computedCommands = d.computedCommands
  valve : e.valve = d.valve

theorem Drive.Holds.refl (d : Drive) : d.Holds d := ⟨fun _ => rfl, rfl, rfl⟩

theorem Drive.Holds.cal {d e : Drive} (h : d.Holds e) (hd : d.cal = none) : e.cal = none :=
  (congrArg DriveCommands.cal (h.commands hd)).trans hd

theorem Drive.Holds.trans {d e f : Drive} (h : d.Holds e) (k : e.Holds f) : d.Holds f where
  commands hd := (k.commands (h.cal hd)).trans (h.commands hd)
  computed := k.computed.trans h.computed
  valve := k.valve.trans h.valve

theorem Drive.command_driven (d : Drive) (value tolerance : Nat) : (d.command value tolerance).driven = value := by
  unfold Drive.command
  split
  · next h => exact h.symm
  · rfl

/-- A new driven command leaves the computed commands, the calibration and the valve. -/
theorem Drive.command_keeps (d : Drive) (value tolerance : Nat) :
    (d.command value tolerance).computedCommands = d.computedCommands ∧ (d.command value tolerance).cal = d.cal ∧
      (d.command value tolerance).valve = d.valve := by
  unfold Drive.command
  split <;> exact ⟨rfl, rfl, rfl⟩

/-! ## What holds of the whole plant -/

/-- Every drive holds its commands, and the light channels are the same. -/
structure State.HoldsPlant (s t : State) : Prop where
  drives : ∀ c, (s.drives.get c).Holds (t.drives.get c)
  channels : t.lighting.channels = s.lighting.channels

theorem State.HoldsPlant.of_same {s t : State} (hd : t.drives = s.drives)
    (hl : t.lighting.channels = s.lighting.channels) : s.HoldsPlant t :=
  ⟨fun _ => hd ▸ .refl _, hl⟩

theorem State.HoldsPlant.of_keeps {xs : List Block} {s t : State} (k : Keeps xs s t)
    (hd : xs.contains .drives = false) (hl : xs.contains .lighting = false) : s.HoldsPlant t := by
  have lighting : t.lighting = s.lighting := k.same .lighting hl
  exact .of_same (k.same .drives hd) (by rw [lighting])

theorem State.HoldsPlant.refl (s : State) : s.HoldsPlant s := .of_same rfl rfl

theorem State.HoldsPlant.trans {s t u : State} (h : s.HoldsPlant t) (k : t.HoldsPlant u) : s.HoldsPlant u :=
  ⟨fun c => (h.drives c).trans (k.drives c), k.channels.trans h.channels⟩

theorem State.HoldsPlant.foldl {α : Type} {f : State → α → State} (l : List α)
    (step : ∀ (x : State) a, x.HoldsPlant (f x a)) (s : State) : s.HoldsPlant (l.foldl f s) := by
  induction l generalizing s with
  | nil => exact .refl s
  | cons a l ih => exact (step s a).trans (ih (f s a))

theorem State.HoldsPlant.ite {c : Prop} [Decidable c] {s t u : State} (h : s.HoldsPlant t) (k : s.HoldsPlant u) :
    s.HoldsPlant (if c then t else u) := by
  split
  · exact h
  · exact k

/-- A change of one drive that holds its commands. -/
theorem State.HoldsPlant.drive {s t : State} {c : Cell} (h : (s.drives.get c).Holds (t.drives.get c))
    (other : ∀ d, d ≠ c → t.drives.get d = s.drives.get d) (channels : t.lighting.channels = s.lighting.channels) :
    s.HoldsPlant t := by
  refine ⟨fun d => ?_, channels⟩
  by_cases hd : d = c
  · exact hd ▸ h
  · rw [other d hd]
    exact .refl _

@[simp] theorem State.updDrive_get_self (s : State) (c : Cell) (f : Drive → Drive) :
    (s.updDrive c f).drives.get c = f (s.drives.get c) := PerCell.get_upd_self ..

theorem State.updDrive_get_other (s : State) {c d : Cell} (f : Drive → Drive) (h : d ≠ c) :
    (s.updDrive c f).drives.get d = s.drives.get d := PerCell.get_upd_other _ _ h

theorem State.HoldsPlant.updDrive (s : State) (c : Cell) (f : Drive → Drive)
    (h : (s.drives.get c).Holds (f (s.drives.get c))) : s.HoldsPlant (s.updDrive c f) :=
  .drive (by rwa [State.updDrive_get_self]) (fun _ hd => s.updDrive_get_other f hd) rfl

/-! ## Dampers -/

theorem State.refreshTracking_holdsPlant (s : State) (c : Cell) : s.HoldsPlant (s.refreshTracking c) := by
  refine .ite (.updDrive s c _ ?_) (.updDrive s c _ ⟨fun _ => rfl, rfl, rfl⟩)
  split
  · exact .refl _
  · exact ⟨fun _ => rfl, rfl, rfl⟩

theorem State.railToTracking_holdsPlant (s : State) : s.HoldsPlant s.railToTracking :=
  (s.refreshTracking_holdsPlant .a).trans (State.refreshTracking_holdsPlant _ .b)

/-- The end of a calibration moves the command of the damper that was calibrating, and nothing else. -/
theorem State.endDamperCal_holdsPlant {s : State} {c : Cell} (h : (s.drives.get c).cal ≠ none) (r : CalResult) :
    s.HoldsPlant (s.endDamperCal c r) := by
  let ended := s.updDrive c fun d => { d with cal := none }
  have given : s.HoldsPlant (ended.redrive c) := by
    refine .drive (c := c) ?_ (fun d hd => ?_) rfl
    · obtain ⟨computed, -, valve⟩ := (ended.drives.get c).command_keeps (ended.drivenFor c).2
        s.working.settings.trackingTolerance
      have at_c : (ended.redrive c).drives.get c = _ := ended.updDrive_get_self c _
      have ended_c : ended.drives.get c = { s.drives.get c with cal := none } := s.updDrive_get_self c _
      rw [at_c]
      rw [ended_c] at computed valve ⊢
      exact ⟨fun hn => absurd hn h, computed, valve⟩
    · exact (ended.updDrive_get_other _ hd).trans (s.updDrive_get_other _ hd)
  exact (given.trans (State.refreshTracking_holdsPlant _ c)).trans (.of_same rfl rfl)

theorem State.abortDamperCal_holdsPlant (s : State) (c : Cell) (r : CalReason) :
    s.HoldsPlant (s.abortDamperCal c r) := by
  unfold State.abortDamperCal
  split
  · next h => exact s.endDamperCal_holdsPlant (Option.isSome_iff_ne_none.mp h) _
  · exact .refl s

theorem State.calRailFault_holdsPlant (s : State) (c : Cell) : s.HoldsPlant (s.calRailFault c) := by
  unfold State.calRailFault
  split
  · next k h => exact .ite (s.endDamperCal_holdsPlant (by rw [h]; exact Option.some_ne_none k) _) (.refl s)
  · exact .refl s

/-! ## The rail and the blinds -/

theorem State.handMotion_holdsPlant (s : State) : s.HoldsPlant s.handMotion := .of_same rfl rfl

theorem State.railFault_holdsPlant (s : State) : s.HoldsPlant s.railFault := by
  have faulted : s.HoldsPlant (s.updRail fun r => { r with state := .faulted, settle := none, linger := none }) :=
    .of_same rfl rfl
  have reported := faulted.trans (.of_keeps (State.reportRetry_keeps _ railSource .railFault) rfl rfl)
  have slots : s.HoldsPlant (if decide (s.rail.state = .on) then _ else _) :=
    .ite (reported.trans (.of_keeps (State.loseSlots_keeps _) rfl rfl)) reported
  exact ((((slots.trans (State.calRailFault_holdsPlant _ .a)).trans (State.calRailFault_holdsPlant _ .b)).trans
    (State.railToTracking_holdsPlant _)).trans (State.handMotion_holdsPlant _)).trans (.of_same rfl rfl)

theorem State.raiseRail_holdsPlant (s : State) : s.HoldsPlant s.raiseRail := by
  have rising : s.HoldsPlant (s.updRail fun r => { r with state := .rising, settle := some 0 }) := .of_same rfl rfl
  exact .ite (.ite (rising.trans (State.railFault_holdsPlant _)) rising) (.refl s)

theorem State.refreshNeeds_holdsPlant (s : State) : s.HoldsPlant s.refreshNeeds :=
  (State.HoldsPlant.of_same (s := s) (t := s.writeNeeds) rfl rfl).trans (State.raiseRail_holdsPlant s.writeNeeds)

theorem State.afterBlinds_holdsPlant (s : State) : s.HoldsPlant s.afterBlinds :=
  ((State.HoldsPlant.of_keeps s.grants_keeps rfl rfl).trans (State.handMotion_holdsPlant _)).trans
    (State.refreshNeeds_holdsPlant _)

theorem State.evaluateGroup_holdsPlant (s : State) (g : Fin 4) : s.HoldsPlant (s.evaluateGroup g) := by
  unfold State.evaluateGroup
  split
  · exact .refl s
  · next c _ =>
    have written : s.HoldsPlant (s.writeTarget g c) := .of_keeps (s.writeTarget_keeps g c) rfl rfl
    exact .ite written ((written.trans (.of_keeps (State.actOnTarget_keeps _ g) rfl rfl)).trans
      (State.afterBlinds_holdsPlant _))

theorem State.fireBlinds_holdsPlant (s : State) : s.HoldsPlant s.fireBlinds := by
  have aborted : s.HoldsPlant (allGroups.foldl (fun s g => s.abortBlindCal g .fire) (s.updBlinds Blinds.fireEntries)) :=
    (State.HoldsPlant.of_same (s := s) (t := s.updBlinds Blinds.fireEntries) rfl rfl).trans
      (.foldl allGroups (fun x g => .of_keeps (x.abortBlindCal_keeps g .fire) rfl rfl) _)
  exact aborted.trans (.foldl allGroups State.evaluateGroup_holdsPlant _)

/-! ## The computed commands alone -/

/-- Every drive has the same computed commands, and the light channels are the same: what a change of the driven
commands leaves of the plant. -/
structure State.SamePlan (s t : State) : Prop where
  computed : ∀ c, (t.drives.get c).computedCommands = (s.drives.get c).computedCommands
  channels : t.lighting.channels = s.lighting.channels

theorem State.HoldsPlant.plan {s t : State} (h : s.HoldsPlant t) : s.SamePlan t :=
  ⟨fun c => (h.drives c).computed, h.channels⟩

theorem State.SamePlan.trans {s t u : State} (h : s.SamePlan t) (k : t.SamePlan u) : s.SamePlan u :=
  ⟨fun c => (k.computed c).trans (h.computed c), k.channels.trans h.channels⟩

theorem State.SamePlan.updDrive (s : State) (c : Cell) (f : Drive → Drive)
    (h : (f (s.drives.get c)).computedCommands = (s.drives.get c).computedCommands) :
    s.SamePlan (s.updDrive c f) := by
  refine ⟨fun d => ?_, rfl⟩
  by_cases hd : d = c
  · rw [hd, State.updDrive_get_self]
    exact h
  · rw [s.updDrive_get_other f hd]

theorem State.redrive_samePlan (s : State) (c : Cell) : s.SamePlan (s.redrive c) :=
  .updDrive s c _ (Drive.command_keeps _ _ _).1

theorem State.redriveValve_samePlan (s : State) (c : Cell) : s.SamePlan (s.redriveValve c) := .updDrive s c _ rfl

theorem State.redriveAll_samePlan (s : State) : s.SamePlan s.redriveAll :=
  (((s.redrive_samePlan .a).trans (State.redrive_samePlan _ .b)).trans (State.redriveValve_samePlan _ .a)).trans
    (State.redriveValve_samePlan _ .b)

theorem State.overrideMoved_samePlan (s : State) (t : Fin 16) : s.SamePlan (s.overrideMoved t) := by
  have needs (x : State) : x.SamePlan x.refreshNeeds := x.refreshNeeds_holdsPlant.plan
  unfold State.overrideMoved
  split
  · exact (s.redrive_samePlan .a).trans (needs _)
  · exact (s.redrive_samePlan .b).trans (needs _)
  · exact (s.redriveValve_samePlan .a).trans (needs _)
  · exact (s.redriveValve_samePlan .b).trans (needs _)
  · exact (State.HoldsPlant.refl s).plan

theorem State.endOverride_samePlan (s : State) (t : Fin 16) (cause : OverrideCause) :
    s.SamePlan (s.endOverride t cause) := by
  unfold State.endOverride
  split
  · let ended := s.updSpace fun p => { p with overrides := p.overrides.set t none }
    have moved : s.SamePlan (ended.overrideMoved t) :=
      (State.HoldsPlant.of_same (s := s) (t := ended) rfl rfl).plan.trans (ended.overrideMoved_samePlan t)
    exact ⟨moved.computed, moved.channels⟩
  · exact (State.HoldsPlant.refl s).plan

theorem State.foldl_endOverride_samePlan (cause : OverrideCause) (ts : List (Fin 16)) (s : State) :
    s.SamePlan (ts.foldl (fun s t => s.endOverride t cause) s) := by
  induction ts generalizing s with
  | nil => exact (State.HoldsPlant.refl s).plan
  | cons t ts ih => exact (s.endOverride_samePlan t cause).trans (ih _)

theorem State.endOverrides_samePlan (s : State) (cause : OverrideCause) : s.SamePlan (s.endOverrides cause) :=
  State.foldl_endOverride_samePlan cause allTargets s

/-! ## Derivations -/

theorem State.foldl_fullDaylight_holdsPlant (cs : List Cell) (s : State) :
    s.HoldsPlant (cs.foldl State.fullDaylight s) :=
  .foldl cs (fun x c => .of_same (s := x) (t := x.fullDaylight c) rfl rfl) s

theorem State.derive_holdsPlant (s : State) (id : UnitId) : s.HoldsPlant (s.derive id) := by
  have core : s.HoldsPlant (s.deriveCore id) := .of_same rfl rfl
  unfold State.derive
  split
  · exact .refl s
  · exact .ite (core.trans (State.foldl_fullDaylight_holdsPlant _ _)) core

theorem State.deriveAll_holdsPlant (s : State) : s.HoldsPlant s.deriveAll :=
  .foldl s.space.units.ids State.derive_holdsPlant s

/-! ## The blinds as the rail is raised -/

theorem State.handMotion_writeNeeds_blinds (s : State) : s.handMotion.writeNeeds.blinds = s.blinds := rfl

/-- A fault level found while the rail is not ON takes no slot from a group (R151, R161). -/
theorem State.railFault_blinds {s : State} (h : s.rail.state ≠ .on) : s.railFault.blinds = s.blinds := by
  have off : decide (s.rail.state = .on) = false := by simp [h]
  unfold State.railFault
  simp only [off, Bool.false_eq_true, ↓reduceIte]
  rw [State.handMotion_writeNeeds_blinds, (State.railToTracking_keeps _).same .blinds rfl,
    (State.calRailFault_keeps ..).same .blinds rfl, (State.calRailFault_keeps ..).same .blinds rfl,
    (State.reportRetry_keeps ..).same .blinds rfl, State.updRail_blinds]

/-- A rail that is raised was OFF, so no group loses a slot (R151, R160). -/
theorem State.raiseRail_blinds (s : State) : s.raiseRail.blinds = s.blinds := by
  let rising := s.updRail fun r => { r with state := .rising, settle := some 0 }
  have off : rising.rail.state ≠ .on := by simp [rising]
  unfold State.raiseRail
  split
  · dsimp only
    split
    · exact State.railFault_blinds off
    · rfl
  · rfl

theorem State.refreshNeeds_blinds (s : State) : s.refreshNeeds.blinds = s.blinds := s.writeNeeds.raiseRail_blinds

/-! ## The commands after a change of the fire state -/

/-- The command that R123 gives a cell's valve. -/
def State.valveFor (s : State) (c : Cell) : Nat :=
  if s.space.fire = .inForce then 0
  else
    match s.space.overrides[valveTarget c] with
    | some o => o.value
    | none =>
      if s.scanner.channels[tempChannel c].lost then s.working.settings.valveFallback.get c
      else (s.drives.get c).valveComputed

theorem State.drivenFor_congr {s t : State} {c : Cell} (hd : t.drives.get c = s.drives.get c) (hp : t.space = s.space)
    (hw : t.working = s.working) : t.drivenFor c = s.drivenFor c := by
  unfold State.drivenFor
  rw [hd, hp, hw]

theorem State.valveFor_congr {s t : State} {c : Cell}
    (hd : (t.drives.get c).valveComputed = (s.drives.get c).valveComputed) (hp : t.space = s.space)
    (hx : t.scanner = s.scanner) (hw : t.working = s.working) : t.valveFor c = s.valveFor c := by
  unfold State.valveFor
  rw [hd, hp, hx, hw]

/-- The damper of a drive takes its command (R109). -/
def State.withDamper (s : State) (c : Cell) : Drive :=
  { (s.drives.get c).command (s.drivenFor c).2 s.working.settings.trackingTolerance with source := (s.drivenFor c).1 }

theorem State.redrive_get_self (s : State) (c : Cell) : (s.redrive c).drives.get c = s.withDamper c :=
  s.updDrive_get_self c _

theorem State.redrive_get_other (s : State) {c d : Cell} (h : d ≠ c) :
    (s.redrive c).drives.get d = s.drives.get d := s.updDrive_get_other _ h

theorem State.redriveValve_get_self (s : State) (c : Cell) :
    (s.redriveValve c).drives.get c =
      { s.drives.get c with valveDriven := s.valveFor c, valveOutput := 10 * s.valveFor c } :=
  s.updDrive_get_self c _

theorem State.redriveValve_get_other (s : State) {c d : Cell} (h : d ≠ c) :
    (s.redriveValve c).drives.get d = s.drives.get d := s.updDrive_get_other _ h

/-- Each damper and each valve has the command that R109 and R123 give it as the drives stood. -/
theorem State.redriveAll_get (s : State) (c : Cell) :
    s.redriveAll.drives.get c =
      { s.withDamper c with valveDriven := s.valveFor c, valveOutput := 10 * s.valveFor c } := by
  have valve {t : State} (hd : t.drives.get c = s.withDamper c) (hp : t.space = s.space) (hx : t.scanner = s.scanner)
      (hw : t.working = s.working) : t.valveFor c = s.valveFor c := by
    refine State.valveFor_congr ?_ hp hx hw
    rw [hd]
    exact congrArg Prod.snd (Drive.command_keeps _ _ _).1
  unfold State.redriveAll
  cases c with
  | a =>
    have dampers : ((s.redrive .a).redrive .b).drives.get .a = s.withDamper .a :=
      (State.redrive_get_other _ (by decide)).trans (s.redrive_get_self .a)
    rw [State.redriveValve_get_other _ (by decide), State.redriveValve_get_self, dampers, valve dampers rfl rfl rfl]
  | b =>
    have standing : (s.redrive .a).withDamper .b = s.withDamper .b := by
      have drive : (s.redrive .a).drives.get .b = s.drives.get .b := s.redrive_get_other (by decide)
      unfold State.withDamper
      rw [drive, State.drivenFor_congr (t := s.redrive .a) drive rfl rfl]
      rfl
    have dampers : (((s.redrive .a).redrive .b).redriveValve .a).drives.get .b = s.withDamper .b := by
      rw [State.redriveValve_get_other _ (by decide), State.redrive_get_self, standing]
    rw [State.redriveValve_get_self, dampers, valve dampers rfl rfl rfl]

theorem State.redriveAll_commands (s : State) (c : Cell) :
    (s.redriveAll.drives.get c).commands =
      { cal := (s.drives.get c).cal, source := (s.drivenFor c).1, driven := (s.drivenFor c).2 } := by
  obtain ⟨-, cal, -⟩ := (s.drives.get c).command_keeps (s.drivenFor c).2 s.working.settings.trackingTolerance
  have driven := (s.drives.get c).command_driven (s.drivenFor c).2 s.working.settings.trackingTolerance
  rw [State.redriveAll_get, ← cal]
  simp only [Drive.commands, State.withDamper, driven]

theorem State.redriveAll_valve (s : State) (c : Cell) :
    (s.redriveAll.drives.get c).valve = (s.valveFor c, 10 * s.valveFor c) := by
  rw [State.redriveAll_get]
  rfl

/-- The command of a damper that is not calibrating stands once the plant has been driven afresh. -/
theorem Drive.Holds.driven {s : State} {c : Cell} {e : Drive} (h : (s.redriveAll.drives.get c).Holds e)
    (hc : (s.drives.get c).cal = none) :
    e.commands = { cal := none, source := (s.drivenFor c).1, driven := (s.drivenFor c).2 } := by
  have commands := s.redriveAll_commands c
  rw [hc] at commands
  rw [h.commands (congrArg DriveCommands.cal commands), commands]

theorem Drive.Holds.drivenValve {s : State} {c : Cell} {e : Drive} (h : (s.redriveAll.drives.get c).Holds e) :
    e.valve = (s.valveFor c, 10 * s.valveFor c) :=
  h.valve.trans (s.redriveAll_valve c)

end Sys2Proof.Machine
end

