-- ==== Sys2Proof/Proofs/FireClears.lean ====
section
/-! PROOF. Fire clears (R21). -/

namespace Sys2Proof.Machine
open Sys2Proof

/-! ## The state fire leaves when it clears -/

/-- Fire has cleared, with its notice; nothing else has moved. -/
def State.cleared (s : State) : State :=
  (s.updSpace fun p => { p with fire := .clear, fireTimer := none }).notify .fireOff none none noValue none

/-- Every unit is derived and the blind entries are ordinary: what the outputs are driven from (R21, R156). -/
def State.rederived (s : State) : State := s.cleared.deriveAll.unfireBlinds

theorem State.fireOff_eq (s : State) : s.fireOff = s.rederived.redriveAll.refreshNeeds := rfl

theorem exec_fireDebounce_clears {s : State} (ht : s.space.fireTimer.isSome = true) (hf : s.space.fire = .inForce) :
    exec .fireDebounce s = finish s.fireOff := by
  have completes : s.completeFire = s.fireOff := by
    obtain ⟨n, hn⟩ := Option.isSome_iff_exists.mp ht
    simp only [State.completeFire, hn, hf]
  exact congrArg finish completes

theorem State.rederived_keeps (s : State) :
    Keeps [.units, .modes, .lighting, .blinds] s.cleared s.rederived :=
  (s.cleared.deriveAll_keeps.mono rfl).trans ((State.unfireBlinds_keeps _).mono rfl)

theorem State.fireOff_keeps_cleared (s : State) :
    Keeps [.notices, .units, .modes, .drives, .lighting, .blinds, .rail, .faults] s.cleared s.fireOff :=
  ((s.rederived_keeps.mono rfl).trans ((State.redriveAll_keeps _).mono rfl)).trans
    ((State.refreshNeeds_keeps _).mono rfl)

/-! ## The units -/

/-- A derivation that leaves FIRE leaves neither FIRE nor PURGE, and clears what was kept for the fire (R11, R21). -/
theorem State.derivedRecord_afterFire {s : State} {u : UnitRec} (hf : s.space.fire = .clear) (hu : u.mode = .fire)
    (id : UnitId) :
    (s.derivedRecord id u).mode ≠ .fire ∧ (s.derivedRecord id u).mode ≠ .purge ∧
      (s.derivedRecord id u).purge = none ∧ (s.derivedRecord id u).atUpper = false ∧
      (s.derivedRecord id u).budgetLimited = false ∧
      ((s.derivedRecord id u).occupancy ≠ .vacant → (s.derivedRecord id u).mode = .occupied) := by
  have notFire : s.modeFor id u ≠ .fire := by simp [State.modeFor_eq_fire, hf]
  have notPurge : s.modeFor id u ≠ .purge := by
    unfold State.modeFor deriveMode
    rw [hf, hu]
    split_ifs <;> simp_all
  have occupied : u.occupancy ≠ .vacant → s.modeFor id u = .occupied := fun h => by
    simp [State.modeFor, deriveMode, hf, h]
  refine ⟨notFire, notPurge, if_neg notPurge, ?_, ?_, occupied⟩
  · simp [State.derivedRecord, hu, notFire]
  · simp [State.derivedRecord, hu, notFire]

theorem State.fireOff_units {s : State} (hs : s.FireSound) (hf : s.space.fire = .inForce) :
    s.fireOff.everyUnit fun _ u => u.mode ≠ .fire ∧ u.mode ≠ .purge ∧ u.purge = none ∧ u.atUpper = false ∧
      u.budgetLimited = false ∧ (u.occupancy ≠ .vacant → u.mode = .occupied) := by
  intro id v hv
  have units : s.fireOff.space.units = s.cleared.deriveAll.space.units := by
    rw [State.fireOff_eq, (State.refreshNeeds_keeps _).same .units rfl, (State.redriveAll_keeps _).same .units rfl]
    rfl
  rw [State.unit?_congr units, State.deriveAll_unit?] at hv
  obtain ⟨u, hu, rfl⟩ := Option.map_eq_some_iff.mp hv
  exact State.derivedRecord_afterFire rfl ((hs.2 id u hu).mpr hf) id

/-! ## The outputs -/

theorem State.fireOff_blinds (s : State) :
    s.fireOff.blinds = { s.blinds with queue := s.blinds.queue.map fun e => { e with fire := false } } := by
  have blinds : s.cleared.deriveAll.blinds = s.blinds := s.cleared.deriveAll_keeps.same .blinds rfl
  rw [State.fireOff_eq, State.refreshNeeds_blinds, (State.redriveAll_keeps _).same .blinds rfl, ← blinds]
  rfl

theorem State.fireOff_channels (s : State) : s.fireOff.lighting.channels = s.lighting.channels := by
  have derived : s.cleared.deriveAll.lighting.channels = s.lighting.channels := s.cleared.deriveAll_holdsPlant.channels
  rw [State.fireOff_eq, (State.refreshNeeds_holdsPlant _).channels, (State.redriveAll_samePlan _).channels, ← derived]
  rfl

/-- The driven command without fire, override or calibration is the computed one (R109). -/
theorem State.drivenFor_computed {s : State} {c : Cell} (hc : (s.drives.get c).cal = none) (hf : s.space.fire = .clear)
    (ho : s.space.overrides[damperTarget c] = none) : s.drivenFor c = (.computed, (s.drives.get c).computed) := by
  unfold State.drivenFor
  simp only [hc, hf, ho]
  rfl

theorem State.valveFor_computed {s : State} {c : Cell} (hf : s.space.fire = .clear)
    (ho : s.space.overrides[valveTarget c] = none) :
    s.valveFor c = if s.scanner.channels[tempChannel c].lost then s.working.settings.valveFallback.get c
      else (s.drives.get c).valveComputed := by
  unfold State.valveFor
  simp only [hf, ho, reduceCtorEq, ↓reduceIte]

theorem State.fireOff_damper {s : State} (ho : ∀ t : Fin 16, s.space.overrides[t] = none) {c : Cell}
    (hc : (s.drives.get c).cal = none) :
    (s.fireOff.drives.get c).source = .computed ∧ (s.fireOff.drives.get c).driven = (s.drives.get c).computed := by
  have k := s.rederived_keeps
  have drives : s.rederived.drives = s.drives := k.same .drives rfl
  have fire : s.rederived.space.fire = .clear := k.same .fire rfl
  have overrides : s.rederived.space.overrides = s.space.overrides := k.same .overrides rfl
  have given : s.rederived.drivenFor c = (.computed, (s.drives.get c).computed) := by
    rw [State.drivenFor_computed (by rwa [drives]) fire (by rw [overrides]; exact ho _), drives]
  have commands := (s.rederived.redriveAll.refreshNeeds_holdsPlant.drives c).driven (by rwa [drives])
  rw [given, ← State.fireOff_eq] at commands
  exact ⟨congrArg DriveCommands.source commands, congrArg DriveCommands.driven commands⟩

theorem State.fireOff_valve {s : State} (ho : ∀ t : Fin 16, s.space.overrides[t] = none) (c : Cell) :
    (s.fireOff.drives.get c).valveDriven =
      if s.scanner.channels[tempChannel c].lost then s.working.settings.valveFallback.get c
      else (s.drives.get c).valveComputed := by
  have k := s.rederived_keeps
  have drives : s.rederived.drives = s.drives := k.same .drives rfl
  have fire : s.rederived.space.fire = .clear := k.same .fire rfl
  have overrides : s.rederived.space.overrides = s.space.overrides := k.same .overrides rfl
  have scanner : s.rederived.scanner = s.scanner := k.same .scanner rfl
  have settings : s.rederived.working.settings = s.working.settings := k.same .settings rfl
  have given := State.valveFor_computed (c := c) fire (by rw [overrides]; exact ho _)
  rw [drives, scanner, settings] at given
  have valve := (s.rederived.redriveAll.refreshNeeds_holdsPlant.drives c).drivenValve
  rw [given, ← State.fireOff_eq] at valve
  exact congrArg Prod.fst valve

/-- Settles O47: the units by their derivation out of FIRE, the outputs by what they are driven from and what the rail
leaves of them, the rest by the frame. -/
theorem fireClears : Obligations.FireClears := by
  unfold Obligations.FireClears
  intro s hs hsound ht hf
  have ho := hsound.1 hf
  have k := s.fireOff_keeps_cleared
  obtain ⟨ns, link⟩ := k.same .link rfl
  have run : exec .fireDebounce s = finish s.fireOff := exec_fireDebounce_clears ht hf
  have units := State.fireOff_units hsound hf
  have dampers {c : Cell} := State.fireOff_damper ho (c := c)
  have valves := State.fireOff_valve ho
  have blinds := s.fireOff_blinds
  have channels := s.fireOff_channels
  generalize s.fireOff = t at *
  have handed : t.link = s.link.handed (s.noticeOf .fireOff none none noValue none :: ns) := link
  rw [finish_handed hs handed] at run
  refine ⟨_, ns, run, k.same .fire rfl, (k.same .fireInput rfl).2, k.same .arrangement rfl, units,
    k.same .headcounts rfl, fun c => dampers, valves, fun e he => ?_, fun g => ?_, channels, k.same .overrides rfl,
    k.same .walker rfl, k.working rfl rfl rfl rfl, k.same .drift rfl, k.same .doors rfl, k.same .presence rfl,
    k.same .scanner rfl, k.same .air rfl, rfl⟩
  · rw [blinds] at he
    obtain ⟨e', -, rfl⟩ := List.mem_map.mp he
    rfl
  · rw [blinds]

end Sys2Proof.Machine
end

