-- ==== Sys2Proof/Proofs/BlindsAtFire.lean ====
section
/-! PROOF. The blind unit while fire is in force (R156): every request that waits is a fire request with target 0, and
no calibration is in flight. -/

namespace Sys2Proof.Machine
open Sys2Proof

/-! ## One group of several -/

theorem State.updGroup_get_self (s : State) (g : Fin 4) (f : Group → Group) :
    (s.updGroup g f).blinds.groups[g] = f s.blinds.groups[g] := updAt_self ..

theorem State.updGroup_get_other (s : State) {g j : Fin 4} (f : Group → Group) (h : j ≠ g) :
    (s.updGroup g f).blinds.groups[j] = s.blinds.groups[j] := updAt_other _ _ h

/-! ## The end of the calibrations -/

theorem State.endBlindCal_groups (s : State) (g : Fin 4) (state : GroupState) (r : CalResult) (j : Fin 4) :
    (s.endBlindCal g state r).blinds.groups[j].cal = if j = g then none else s.blinds.groups[j].cal := by
  unfold State.endBlindCal
  simp only [State.notify_blinds]
  by_cases hj : j = g
  · rw [if_pos hj, hj, State.updGroup_get_self]
  · rw [if_neg hj, State.updGroup_get_other _ _ hj]
    exact congrArg Group.cal (State.updGroup_get_other _ _ hj)

theorem State.abortBlindCal_groups (s : State) (g : Fin 4) (r : CalReason) (j : Fin 4) :
    (s.abortBlindCal g r).blinds.groups[j].cal = if j = g then none else s.blinds.groups[j].cal := by
  unfold State.abortBlindCal
  split
  · exact s.endBlindCal_groups g ..
  · next h =>
    split
    · next hj => subst hj; simpa using h
    · rfl

theorem State.abortBlindCal_queue (s : State) (g : Fin 4) (r : CalReason) :
    ∀ e ∈ (s.abortBlindCal g r).blinds.queue, e ∈ s.blinds.queue := by
  unfold State.abortBlindCal
  split
  · exact fun e he => List.mem_of_mem_filter he
  · exact fun e he => he

theorem State.foldl_abortBlindCal (r : CalReason) (gs : List (Fin 4)) (s : State) :
    (∀ e ∈ (gs.foldl (fun s g => s.abortBlindCal g r) s).blinds.queue, e ∈ s.blinds.queue) ∧
      ∀ j : Fin 4, j ∈ gs ∨ s.blinds.groups[j].cal = none →
        (gs.foldl (fun s g => s.abortBlindCal g r) s).blinds.groups[j].cal = none := by
  induction gs generalizing s with
  | nil => exact ⟨fun e he => he, fun j hj => by simpa using hj⟩
  | cons g gs ih =>
    obtain ⟨queue, groups⟩ := ih (s.abortBlindCal g r)
    refine ⟨fun e he => s.abortBlindCal_queue g r e (queue e he), fun j hj => groups j ?_⟩
    rw [State.abortBlindCal_groups]
    by_cases hg : j = g
    · simp [hg]
    · simpa [hg] using hj

/-! ## The invariant -/

/-- Fire is in force over the blinds: no group has a target but 0, no request waits that is not a fire request to 0,
and no calibration is in flight. -/
structure State.BlindsAtFire (s : State) : Prop where
  fire : s.space.fire = .inForce
  overrides : ∀ t : Fin 16, s.space.overrides[t] = none
  modes : ∀ c, (s.unitOf c).mode = .fire
  queue : ∀ e ∈ s.blinds.queue, e.target = 0 ∧ e.fire = true
  idle : ∀ g : Fin 4, s.blinds.groups[g].cal = none

namespace State.BlindsAtFire
variable {s t : State}

/-- What leaves the blinds, the overrides and the units leaves the invariant. -/
theorem kept {xs : List Block} (h : s.BlindsAtFire) (k : Keeps xs s t) (blinds : t.blinds = s.blinds)
    (hf : xs.contains .fire = false) (ho : xs.contains .overrides = false) (hu : xs.contains .units = false) :
    t.BlindsAtFire where
  fire := (k.same .fire hf).trans h.fire
  overrides := by
    have same : t.space.overrides = s.space.overrides := k.same .overrides ho
    rw [same]; exact h.overrides
  modes := by
    have same : t.space.units = s.space.units := k.same .units hu
    unfold State.unitOf
    rw [same]; exact h.modes
  queue := blinds ▸ h.queue
  idle := blinds ▸ h.idle

theorem updBlinds (h : s.BlindsAtFire) {f : Blinds → Blinds}
    (queue : ∀ e ∈ (f s.blinds).queue, e.target = 0 ∧ e.fire = true) (groups : (f s.blinds).groups = s.blinds.groups) :
    (s.updBlinds f).BlindsAtFire where
  fire := h.fire
  overrides := h.overrides
  modes := h.modes
  queue := queue
  idle g := by rw [State.updBlinds_blinds, groups]; exact h.idle g

theorem updGroup (h : s.BlindsAtFire) (g : Fin 4) {f : Group → Group}
    (cal : ∀ r : Group, r.cal = none → (f r).cal = none) : (s.updGroup g f).BlindsAtFire where
  fire := h.fire
  overrides := h.overrides
  modes := h.modes
  queue := h.queue
  idle j := by
    by_cases hj : j = g
    · rw [hj, s.updGroup_get_self]; exact cal _ (h.idle g)
    · rw [s.updGroup_get_other f hj]; exact h.idle j

theorem ite {c : Prop} [Decidable c] (h : s.BlindsAtFire) (k : t.BlindsAtFire) :
    (if c then s else t).BlindsAtFire := by
  split
  · exact h
  · exact k

theorem foldl {α : Type} {f : State → α → State} (h : s.BlindsAtFire) (l : List α)
    (step : ∀ s a, s.BlindsAtFire → (f s a).BlindsAtFire) : (l.foldl f s).BlindsAtFire := by
  induction l generalizing s with
  | nil => exact h
  | cons a l ih => exact ih (step s a h)

/-! ## Its steps -/

theorem stopGroup (h : s.BlindsAtFire) (g : Fin 4) (state : GroupState) : (s.stopGroup g state).BlindsAtFire :=
  (h.updBlinds (fun e he => h.queue e (List.mem_of_mem_filter he)) rfl).updGroup g fun _ hr => hr

/-- A request made during fire is a fire request (R149). -/
theorem request (h : s.BlindsAtFire) (g : Fin 4) (reference : Bool) :
    (s.request g 0 reference false).BlindsAtFire := by
  refine State.BlindsAtFire.updGroup (h.updBlinds (fun e he => ?_) rfl) g fun _ hr => hr
  have member : e ∈ s.blinds.queue ∨ e = ⟨g, 0, reference, false, decide (s.space.fire = .inForce)⟩ := by
    simp only [Blinds.join, fireFirst, List.mem_append, List.mem_filter, List.mem_singleton] at he
    tauto
  rcases member with old | rfl
  · exact h.queue e old
  · simp [h.fire]

theorem writeTarget (h : s.BlindsAtFire) (g : Fin 4) (c : Cell) : (s.writeTarget g c).BlindsAtFire :=
  h.updGroup g fun _ hr => hr

/-- Every group evaluated during fire has target 0 (R146, R20). -/
theorem writeTarget_target (h : s.BlindsAtFire) (g : Fin 4) (c : Cell) :
    (s.writeTarget g c).blinds.groups[g].target = 0 := by
  have zero : (s.formTarget g c).1 = 0 := by
    simp [State.formTarget, h.modes c, blindTargetFor]
  have free := h.overrides (blindTarget g)
  unfold State.writeTarget
  rw [State.updGroup_get_self]
  simp only [free]
  exact zero

theorem requestMove (h : s.BlindsAtFire) {g : Fin 4} (hg : s.blinds.groups[g].target = 0) :
    (s.requestMove g).BlindsAtFire := by
  unfold State.requestMove
  dsimp only
  rw [hg]
  exact .ite h (.ite (h.request g true) (.ite (h.request g false) h))

theorem retargetQueued (h : s.BlindsAtFire) {g : Fin 4} (hg : s.blinds.groups[g].target = 0) :
    (s.retargetQueued g).BlindsAtFire := by
  unfold State.retargetQueued
  dsimp only
  rw [hg]
  refine .ite (.ite (h.updBlinds (fun e he => ?_) rfl) (h.stopGroup g .stopped)) h
  obtain ⟨old, hold, rfl⟩ := List.mem_map.mp he
  split
  · exact ⟨rfl, (h.queue old hold).2⟩
  · exact h.queue old hold

theorem retargetMoving (h : s.BlindsAtFire) (g : Fin 4) : (s.retargetMoving g).BlindsAtFire := by
  have goal : (s.updGroup g fun r => { r with goal := r.target }).BlindsAtFire := h.updGroup g fun _ hr => hr
  unfold State.retargetMoving
  exact .ite h (.ite goal (.ite (h.stopGroup g .stopped) (.ite goal (h.updGroup g fun _ hr => hr))))

theorem actOnTarget (h : s.BlindsAtFire) {g : Fin 4} (hg : s.blinds.groups[g].target = 0) :
    (s.actOnTarget g).BlindsAtFire := by
  unfold State.actOnTarget
  split
  · exact h.requestMove hg
  · exact h.retargetQueued hg
  · exact h.retargetMoving g
  · exact h.retargetMoving g
  · exact h.updGroup g fun _ hr => hr
  · exact h

theorem grantEntry (h : s.BlindsAtFire) (e : QueueEntry) : (s.grantEntry e).BlindsAtFire := by
  have auto (r : Group) : (s.autoMove e.group r).cal = r.cal := by
    unfold State.autoMove
    split <;> rfl
  refine State.BlindsAtFire.updGroup (h.updBlinds (fun x hx => h.queue x (List.mem_of_mem_filter hx)) rfl) e.group
    fun r hr => ?_
  split
  · simp [Group.energiseFromBottom, Group.energise, hr]
  · split
    · exact (auto _).trans hr
    · exact (auto _).trans hr

theorem grantUpTo (n : Nat) (h : s.BlindsAtFire) : (State.grantUpTo n s).BlindsAtFire := by
  induction n generalizing s with
  | zero => exact h
  | succ n ih =>
    unfold State.grantUpTo
    refine .ite ?_ h
    split
    · exact h
    · exact ih (h.grantEntry _)

theorem refreshNeeds (h : s.BlindsAtFire) : s.refreshNeeds.BlindsAtFire :=
  h.kept s.refreshNeeds_keeps s.refreshNeeds_blinds rfl rfl rfl

theorem afterBlinds (h : s.BlindsAtFire) : s.afterBlinds.BlindsAtFire :=
  ((h.grantUpTo _).kept (State.handMotion_keeps _) rfl rfl rfl rfl).refreshNeeds

theorem evaluateGroup (h : s.BlindsAtFire) (g : Fin 4) : (s.evaluateGroup g).BlindsAtFire := by
  unfold State.evaluateGroup
  split
  · exact h
  · next c _ =>
    exact .ite (h.writeTarget g c) ((h.writeTarget g c).actOnTarget (h.writeTarget_target g c)).afterBlinds

end State.BlindsAtFire

/-- The blinds as fire has ended their calibrations, before any group is evaluated (R156, log entry 52). -/
def State.blindCalsEnded (s : State) : State :=
  allGroups.foldl (fun s g => s.abortBlindCal g .fire) (s.updBlinds Blinds.fireEntries)

theorem State.fireBlinds_eq (s : State) : s.fireBlinds = s.blindCalsEnded.evaluateBlinds := rfl

theorem State.blindCalsEnded_keeps (s : State) : Keeps [.notices, .blinds] s s.blindCalsEnded :=
  .foldl _ allGroups ((s.updBlinds_keeps _).mono rfl) fun x g => x.abortBlindCal_keeps g .fire

theorem State.blindCalsEnded_atFire {s : State} (hf : s.space.fire = .inForce)
    (ho : ∀ t : Fin 16, s.space.overrides[t] = none) (hm : ∀ c, (s.unitOf c).mode = .fire) :
    s.blindCalsEnded.BlindsAtFire := by
  have k := s.blindCalsEnded_keeps
  have units : s.blindCalsEnded.space.units = s.space.units := k.same .units rfl
  have overrides : s.blindCalsEnded.space.overrides = s.space.overrides := k.same .overrides rfl
  obtain ⟨queue, groups⟩ := (s.updBlinds Blinds.fireEntries).foldl_abortBlindCal .fire allGroups
  have every : ∀ g : Fin 4, g ∈ allGroups := by decide
  refine ⟨(k.same .fire rfl).trans hf, by rw [overrides]; exact ho, by unfold State.unitOf; rw [units]; exact hm,
    fun e he => ?_, fun g => groups g (.inl (every g))⟩
  obtain ⟨old, -, rfl⟩ := List.mem_map.mp (queue e he)
  exact ⟨rfl, rfl⟩

/-- Fire comes into force over the blinds (R156). -/
theorem State.fireBlinds_atFire {s : State} (hf : s.space.fire = .inForce)
    (ho : ∀ t : Fin 16, s.space.overrides[t] = none) (hm : ∀ c, (s.unitOf c).mode = .fire) :
    s.fireBlinds.BlindsAtFire := by
  rw [State.fireBlinds_eq, State.evaluateBlinds]
  exact (State.blindCalsEnded_atFire hf ho hm).foldl allGroups fun _ g hx => hx.evaluateGroup g

end Sys2Proof.Machine
end

