-- ==== Sys2Proof/Proofs/FireComes.lean ====
section
/-! PROOF. Fire comes into force (R20). -/

namespace Sys2Proof.Machine
open Sys2Proof

/-! ## The damper calibrations -/

theorem State.endDamperCal_cal (s : State) (c : Cell) (r : CalResult) :
    ((s.endDamperCal c r).drives.get c).cal = none := by
  let ended := s.updDrive c fun d => { d with cal := none }
  have at_c : (ended.redrive c).drives.get c = ended.withDamper c := ended.redrive_get_self c
  have idle : ((ended.redrive c).drives.get c).cal = none := by
    rw [at_c]
    refine (Drive.command_keeps _ _ _).2.1.trans ?_
    rw [s.updDrive_get_self]
  exact (((ended.redrive c).refreshTracking_holdsPlant c).drives c).cal idle

theorem State.abortDamperCal_cal (s : State) (c : Cell) (r : CalReason) :
    ((s.abortDamperCal c r).drives.get c).cal = none := by
  unfold State.abortDamperCal
  split
  · exact s.endDamperCal_cal c _
  · next h => simpa using h

/-! ## The lights (R139) -/

/-- A channel in use goes full. -/
def State.fireLight (s : State) (i : Fin 8) : State :=
  if (s.channelCell i).isSome then s.updChannel i LightChannel.full else s

theorem State.fireLights_eq (s : State) : s.fireLights = allChannels.foldl State.fireLight s := rfl

theorem State.fireLight_channelCell (s : State) (j i : Fin 8) : (s.fireLight j).channelCell i = s.channelCell i := by
  unfold State.fireLight
  split <;> rfl

theorem State.fireLight_self {s : State} {i : Fin 8} (h : (s.channelCell i).isSome = true) :
    (s.fireLight i).lighting.channels[i] = s.lighting.channels[i].full := by
  unfold State.fireLight
  simp only [h, ↓reduceIte]
  exact updAt_self ..

theorem State.fireLight_other (s : State) {i j : Fin 8} (h : i ≠ j) :
    (s.fireLight j).lighting.channels[i] = s.lighting.channels[i] := by
  unfold State.fireLight
  split
  · exact updAt_other _ _ h
  · rfl

/-- A channel in use is full once its turn has come. -/
theorem State.foldl_fireLight_used (cs : List (Fin 8)) {s : State} {i : Fin 8} (h : (s.channelCell i).isSome = true)
    (turn : i ∈ cs ∨ s.lighting.channels[i] = s.lighting.channels[i].full) :
    (cs.foldl State.fireLight s).lighting.channels[i] = s.lighting.channels[i].full := by
  induction cs generalizing s with
  | nil => simpa using turn
  | cons j cs ih =>
    have used : ((s.fireLight j).channelCell i).isSome = true := by rwa [State.fireLight_channelCell]
    have rest := ih used
    by_cases hj : i = j
    · subst hj
      rw [State.fireLight_self h] at rest
      exact rest (.inr rfl)
    · rw [s.fireLight_other hj] at rest
      exact rest (by simpa [hj] using turn)

/-- A channel not in use stays. -/
theorem State.foldl_fireLight_unused (cs : List (Fin 8)) {s : State} {i : Fin 8} (h : s.channelCell i = none) :
    (cs.foldl State.fireLight s).lighting.channels[i] = s.lighting.channels[i] := by
  induction cs generalizing s with
  | nil => rfl
  | cons j cs ih =>
    have unused : (s.fireLight j).channelCell i = none := by rwa [State.fireLight_channelCell]
    refine (ih unused).trans ?_
    by_cases hj : i = j
    · subst hj
      simp [State.fireLight, h]
    · exact s.fireLight_other hj

theorem mem_allChannels : ∀ i : Fin 8, i ∈ allChannels := by decide

/-! ## The state as fire comes into force -/

/-- Fire is in force, with its notice; nothing else has moved. -/
def State.alarmed (s : State) : State :=
  (s.updSpace fun p => { p with fire := .inForce, fireTimer := none }).notify .fireOn none none noValue none

/-- The overrides have ended, every unit is derived, and the damper calibrations are over (R17, R20, R120). -/
def State.secured (s : State) : State :=
  (((s.alarmed.endOverrides .fire).deriveAll).abortDamperCal .a .fire).abortDamperCal .b .fire

theorem State.fireOn_eq (s : State) : s.fireOn = s.secured.redriveAll.fireLights.fireBlinds.refreshNeeds := rfl

theorem exec_fireDebounce_comes {s : State} (ht : s.space.fireTimer.isSome = true) (hf : s.space.fire = .clear) :
    exec .fireDebounce s = finish s.fireOn := by
  have completes : s.completeFire = s.fireOn := by
    obtain ⟨n, hn⟩ := Option.isSome_iff_exists.mp ht
    simp only [State.completeFire, hn, hf]
  exact congrArg finish completes

theorem State.secured_keeps (s : State) :
    Keeps [.notices, .overrides, .units, .modes, .drives, .lighting, .blinds, .rail, .faults] s.alarmed s.secured :=
  ((((s.alarmed.endOverrides_keeps .fire).mono rfl).trans ((State.deriveAll_keeps _).mono rfl)).trans
    ((State.abortDamperCal_keeps ..).mono rfl)).trans ((State.abortDamperCal_keeps ..).mono rfl)

theorem State.fireOn_keeps_alarmed (s : State) :
    Keeps [.notices, .overrides, .units, .modes, .drives, .lighting, .blinds, .rail, .faults] s.alarmed s.fireOn :=
  (((s.secured_keeps.trans ((State.redriveAll_keeps _).mono rfl)).trans ((State.fireLights_keeps _).mono rfl)).trans
    ((State.fireBlinds_keeps _).mono rfl)).trans ((State.refreshNeeds_keeps _).mono rfl)

theorem State.secured_fire (s : State) : s.secured.space.fire = .inForce := s.secured_keeps.same .fire rfl

theorem State.secured_settings (s : State) : s.secured.working.settings = s.working.settings :=
  s.secured_keeps.same .settings rfl

theorem State.secured_samePlan (s : State) : s.SamePlan s.secured := by
  have begun : s.SamePlan s.alarmed := (State.HoldsPlant.of_same (s := s) (t := s.alarmed) rfl rfl).plan
  exact (((begun.trans (s.alarmed.endOverrides_samePlan .fire)).trans (State.deriveAll_holdsPlant _).plan).trans
    (State.abortDamperCal_holdsPlant _ .a .fire).plan).trans (State.abortDamperCal_holdsPlant _ .b .fire).plan

theorem State.secured_cal (s : State) (c : Cell) : (s.secured.drives.get c).cal = none := by
  let derived := (s.alarmed.endOverrides .fire).deriveAll
  cases c with
  | a =>
    have kept := ((derived.abortDamperCal .a .fire).abortDamperCal_holdsPlant .b .fire).drives .a
    exact kept.cal (derived.abortDamperCal_cal .a .fire)
  | b => exact (derived.abortDamperCal .a .fire).abortDamperCal_cal .b .fire

theorem State.secured_fireSound (s : State) : s.secured.FireSound := by
  have derived := State.FireSound.deriveAll (s := s.alarmed.endOverrides .fire)
    fun _ => State.endOverrides_overrides _ _
  exact (derived.kept (State.abortDamperCal_keeps ..) rfl).kept (State.abortDamperCal_keeps ..) rfl

/-- The unit of a cell is one of the units. -/
theorem State.unit?_unitOf (s : State) (c : Cell) : ∃ id, s.unit? id = some (s.unitOf c) := by
  unfold State.unit? State.unitOf
  cases s.space.units with
  | joined ab => exact ⟨.ab, rfl⟩
  | split a b =>
    cases c with
    | a => exact ⟨.a, rfl⟩
    | b => exact ⟨.b, rfl⟩

theorem State.FireSound.unitOf_mode {s : State} (h : s.FireSound) (hf : s.space.fire = .inForce) (c : Cell) :
    (s.unitOf c).mode = .fire := by
  obtain ⟨id, hu⟩ := s.unit?_unitOf c
  exact (h.2 id _ hu).mpr hf

/-! ## The outputs -/

theorem State.fireOn_blinds (s : State) : s.fireOn.BlindsAtFire := by
  have sound : s.secured.redriveAll.fireLights.FireSound :=
    (s.secured_fireSound.kept (State.redriveAll_keeps _) rfl).kept (State.fireLights_keeps _) rfl
  have fire : s.secured.redriveAll.fireLights.space.fire = .inForce := by
    rw [(State.fireLights_keeps _).same .fire rfl, (State.redriveAll_keeps _).same .fire rfl, s.secured_fire]
  rw [State.fireOn_eq]
  exact (State.fireBlinds_atFire fire (sound.1 fire) (sound.unitOf_mode fire)).refreshNeeds

theorem State.fireOn_drive_holds (s : State) (c : Cell) :
    (s.secured.redriveAll.drives.get c).Holds (s.fireOn.drives.get c) := by
  have lit : s.secured.redriveAll.fireLights.drives = s.secured.redriveAll.drives :=
    (State.fireLights_keeps _).same .drives rfl
  rw [State.fireOn_eq, ← lit]
  exact ((State.fireBlinds_holdsPlant _).trans (State.refreshNeeds_holdsPlant _)).drives c

theorem State.fireOn_drive (s : State) (c : Cell) :
    (s.fireOn.drives.get c).cal = none ∧ (s.fireOn.drives.get c).source = .fire ∧
      (s.fireOn.drives.get c).driven = s.working.settings.firePosition.get c ∧
      (s.fireOn.drives.get c).valveDriven = 0 ∧ (s.fireOn.drives.get c).valveOutput = 0 ∧
      (s.fireOn.drives.get c).computed = (s.drives.get c).computed := by
  have holds := s.fireOn_drive_holds c
  have given : s.secured.drivenFor c = (.fire, s.working.settings.firePosition.get c) := by
    unfold State.drivenFor
    simp only [s.secured_cal c, s.secured_fire, ↓reduceIte, s.secured_settings]
  have shut : s.secured.valveFor c = 0 := if_pos s.secured_fire
  have commands := holds.driven (s.secured_cal c)
  have valve := holds.drivenValve
  have computed := holds.computed.trans
    ((s.secured_samePlan.trans (State.redriveAll_samePlan _)).computed c)
  rw [given] at commands
  rw [shut] at valve
  exact ⟨congrArg DriveCommands.cal commands, congrArg DriveCommands.source commands,
    congrArg DriveCommands.driven commands, congrArg Prod.fst valve, congrArg Prod.snd valve,
    congrArg Prod.fst computed⟩

/-- The lights of fire are those of the channels as they stood (R139). -/
theorem State.fireOn_channels (s : State) :
    ∃ x : State, s.fireOn.lighting.channels = (allChannels.foldl State.fireLight x).lighting.channels ∧
      x.lighting.channels = s.lighting.channels ∧ ∀ i, x.channelCell i = s.channelCell i := by
  have after := ((State.fireBlinds_holdsPlant s.secured.redriveAll.fireLights).trans
    (State.refreshNeeds_holdsPlant _)).channels
  rw [State.fireLights_eq] at after
  rw [State.fireOn_eq, State.fireLights_eq]
  refine ⟨s.secured.redriveAll, after, (s.secured_samePlan.trans (State.redriveAll_samePlan _)).channels, fun i => ?_⟩
  unfold State.channelCell
  rw [(State.redriveAll_keeps _).same .settings rfl, s.secured_settings]

theorem State.fireOn_channel_used {s : State} {i : Fin 8} (h : s.working.settings.channelCell[i] ≠ .off) :
    s.fireOn.lighting.channels[i] = s.lighting.channels[i].full := by
  obtain ⟨x, after, before, cells⟩ := s.fireOn_channels
  have used : (x.channelCell i).isSome = true := by
    rw [cells, Option.isSome_iff_ne_none]
    exact fun none => h ((CellSetting.cell?_eq_none _).mp none)
  rw [after, State.foldl_fireLight_used _ used (.inl (mem_allChannels i)), before]

theorem State.fireOn_channel_unused {s : State} {i : Fin 8} (h : s.working.settings.channelCell[i] = .off) :
    s.fireOn.lighting.channels[i] = s.lighting.channels[i] := by
  obtain ⟨x, after, before, cells⟩ := s.fireOn_channels
  have unused : x.channelCell i = none := (cells i).trans ((CellSetting.cell?_eq_none _).mpr h)
  rw [after, State.foldl_fireLight_unused _ unused, before]

/-- Settles O46: the drives by what they are driven from and what the rail leaves of them, the lights channel by
channel, the blinds by their invariant, the rest by the frame. -/
theorem fireComesIntoForce : Obligations.FireComesIntoForce := by
  unfold Obligations.FireComesIntoForce
  intro s hs ht hf
  have run : exec .fireDebounce s = finish s.fireOn := exec_fireDebounce_comes ht hf
  have k := s.fireOn_keeps_alarmed
  have sound := s.fireOn_fireSound
  have blinds := s.fireOn_blinds
  have drives := s.fireOn_drive
  have used {i : Fin 8} := State.fireOn_channel_used (s := s) (i := i)
  have unused {i : Fin 8} := State.fireOn_channel_unused (s := s) (i := i)
  obtain ⟨ns, link⟩ := k.same .link rfl
  generalize s.fireOn = t at *
  have fire : t.space.fire = .inForce := k.same .fire rfl
  have handed : t.link = s.link.handed (s.noticeOf .fireOn none none noValue none :: ns) := link
  rw [finish_handed hs handed] at run
  refine ⟨_, ns, run, fire, (k.same .fireInput rfl).2, blinds.overrides, k.same .arrangement rfl,
    fun id u hu => (sound.2 id u hu).mpr fire, k.same .headcounts rfl, fun _ => used, fun _ => unused, drives,
    blinds.queue, blinds.idle, k.same .walker rfl, k.working rfl rfl rfl rfl, k.same .drift rfl, k.same .doors rfl,
    k.same .presence rfl, k.same .scanner rfl, k.same .air rfl, rfl⟩

end Sys2Proof.Machine
end

