-- ==== Sys2Proof/Proofs/ChainEdit.lean ====
section
/-! PROOF. The requests that fill the STANDBY bank (R29 to R31), and the validation of a chain (R31). -/

namespace Sys2Proof.Machine
open Sys2Proof

/-! ## Operands -/

theorem repeatOperand_of_code {b : Byte} {r : Repeating} (h : b.toNat = r.code) : repeatOperand b = some r := by
  cases r <;> simp [repeatOperand, h, Repeating.code]

theorem repeatOperand_of_le {b : Byte} (h : 2 ≤ b.toNat) : repeatOperand b = none := by
  unfold repeatOperand
  split
  · omega
  · omega
  · rfl

theorem targetOperand_of_code {b : Byte} {t : Target} (h : b.toNat = t.code) : targetOperand b = some t := by
  cases t <;> simp [targetOperand, h, Target.code]

theorem targetOperand_of_le {b : Byte} (h : 3 ≤ b.toNat) : targetOperand b = none := by
  unfold targetOperand
  split
  · omega
  · omega
  · omega
  · rfl

theorem targetOperand_of_lt {b : Byte} (h : b.toNat < 3) : ∃ t, targetOperand b = some t := by
  have : b.toNat = 0 ∨ b.toNat = 1 ∨ b.toNat = 2 := by omega
  rcases this with h | h | h
  · exact ⟨.a, targetOperand_of_code h⟩
  · exact ⟨.b, targetOperand_of_code h⟩
  · exact ⟨.joined, targetOperand_of_code h⟩

/-! ## The judging of an entry (R30, R197) -/

/-- An entry is decoded where its target and its flags are defined. -/
theorem entryTarget_of_code {e : EntryRecord} {t : Target} (ht : e.target.toNat = t.code) (hf : e.flags.toNat < 8) :
    entryTarget e = some t := by
  rw [entryTarget, if_pos hf, targetOperand_of_code ht]

theorem entryTarget_of_lt {e : EntryRecord} (ht : e.target.toNat < 3) (hf : e.flags.toNat < 8) :
    ∃ t, entryTarget e = some t := by
  obtain ⟨t, h⟩ := targetOperand_of_lt ht
  exact ⟨t, by rw [entryTarget, if_pos hf, h]⟩

theorem entryTarget_eq_none {e : EntryRecord} (h : 3 ≤ e.target.toNat ∨ 8 ≤ e.flags.toNat) : entryTarget e = none := by
  unfold entryTarget
  split
  · exact targetOperand_of_le (by omega)
  · rfl

/-- The entry that R30 stores. -/
def storedEntry (e : EntryRecord) (t : Target) (p : Fin 8) : Entry where
  start := e.start.toNat
  duration := clampNat 5 720 e.duration.toNat
  target := t
  profile := p
  expected := min t.maxExpected e.expected.toNat
  notifyEnd := e.flags.getLsbD 0
  hold := e.flags.getLsbD 1
  last := e.flags.getLsbD 2
  tag := e.tag

theorem judgeEntry_eq_some {e : EntryRecord} {t : Target} {p : Fin 8} (ht : entryTarget e = some t)
    (hp : e.profile.toNat = p) (hs : e.start.toNat ≤ 10079) (h0 : 1 ≤ e.profile.toNat) :
    judgeEntry e = some (storedEntry e t p,
      decide ((storedEntry e t p).duration ≠ e.duration.toNat ∨ (storedEntry e t p).expected ≠ e.expected.toNat)) := by
  have good : ¬ (10079 < e.start.toNat ∨ p.val = 0) := by omega
  rw [Bool.decide_or]
  simp only [judgeEntry, ht, indexOperand_of_lt hp, if_neg good, storedEntry]
  rfl

theorem judgeEntry_eq_none {e : EntryRecord} (h : 10079 < e.start.toNat ∨ e.profile = 0 ∨ 7 < e.profile.toNat) :
    judgeEntry e = none := by
  unfold judgeEntry
  split
  · next t p ht hp =>
    have read : e.profile.toNat = p := by
      unfold indexOperand at hp
      split at hp
      · simpa using congrArg Fin.val (Option.some.inj hp)
      · cases hp
    have zero : e.profile = 0 → p.val = 0 := fun h => by rw [← read, h]; rfl
    have bad : 10079 < e.start.toNat ∨ p.val = 0 := by
      rcases h with h | h | h
      · exact .inl h
      · exact .inr (zero h)
      · omega
    rw [if_pos bad]
  · rfl

/-! ## Filling the bank (R29, R30) -/

section
variable {s : State}

theorem State.answerChainBegin_accepted {x : Byte} {r : Repeating} (h : x.toNat = r.code) :
    s.answerChainBegin x = accept [] (s.updWalker fun w =>
      { w with standby := { entries := [], state := .loading, repeating := r }, queuedSwitch := none }) := by
  simp only [State.answerChainBegin, repeatOperand_of_code h]

theorem State.answerChainBegin_refused {x : Byte} (h : 2 ≤ x.toNat) : s.answerChainBegin x = refuse .badValue s := by
  simp only [State.answerChainBegin, repeatOperand_of_le h]

theorem State.answerChainEntry_appended {x : Byte} {e : EntryRecord} {t : Target} {y : Entry} {clamped : Bool}
    (ht : entryTarget e = some t) (hb : s.walker.standby.state = .loading)
    (hx : x.toNat = s.walker.standby.entries.length) (hn : x.toNat < 48) (hj : judgeEntry e = some (y, clamped)) :
    s.answerChainEntry x e = acceptClamped clamped y.bytes (s.updWalker fun w =>
      { w with standby := { w.standby with entries := w.standby.entries ++ [y] } }) := by
  have fits : ¬ (x.toNat ≠ s.walker.standby.entries.length ∨ Config.bankSize ≤ x.toNat) := by
    simp only [Config.bankSize]; omega
  simp [State.answerChainEntry, ht, hb, fits, hj]

theorem State.answerChainEntry_undecoded {x : Byte} {e : EntryRecord} (h : entryTarget e = none) :
    s.answerChainEntry x e = refuse .badValue s := by
  simp [State.answerChainEntry, h]

theorem State.answerChainEntry_notLoading {x : Byte} {e : EntryRecord} {t : Target} (ht : entryTarget e = some t)
    (hb : s.walker.standby.state ≠ .loading) : s.answerChainEntry x e = refuse .wrongState s := by
  simp [State.answerChainEntry, ht, hb]

theorem State.answerChainEntry_misplaced {x : Byte} {e : EntryRecord} {t : Target} (ht : entryTarget e = some t)
    (hb : s.walker.standby.state = .loading) (hx : x.toNat ≠ s.walker.standby.entries.length ∨ 48 ≤ x.toNat) :
    s.answerChainEntry x e = refuse .badValue s := by
  have misplaced : x.toNat ≠ s.walker.standby.entries.length ∨ Config.bankSize ≤ x.toNat := hx
  simp [State.answerChainEntry, ht, hb, misplaced]

theorem State.answerChainEntry_misjudged {x : Byte} {e : EntryRecord} {t : Target} (ht : entryTarget e = some t)
    (hb : s.walker.standby.state = .loading) (hj : judgeEntry e = none) :
    s.answerChainEntry x e = refuse .badValue s := by
  simp [State.answerChainEntry, ht, hb, hj]

end

/-- Settles O26. -/
theorem chainBeginEmptiesTheStandbyBank : Obligations.ChainBeginEmptiesTheStandbyBank := fun _ _ _ hs =>
  ⟨fun _ hx => exec_answered hs rfl rfl (State.answerChainBegin_accepted hx) rfl,
    fun hx => exec_refused hs rfl rfl (State.answerChainBegin_refused hx)⟩

/-- Settles O27: the tests of R30 in their order. -/
theorem chainEntryJoinsTheLoadingBank : Obligations.ChainEntryJoinsTheLoadingBank := by
  intro tag x e s hs
  refine ⟨fun target ht hf hb hx hn hstart h1 h7 => ?_, fun ht hf hb h => ?_, fun h => ?_, fun ht hf hb => ?_⟩
  · have decoded := entryTarget_of_code ht hf
    let p : Fin 8 := ⟨e.profile.toNat, by omega⟩
    have judged := judgeEntry_eq_some (p := p) decoded rfl hstart h1
    refine ⟨storedEntry e target p, ?_, rfl, clampNat_eq_max (by decide : 5 ≤ 720) _, rfl, rfl, ?_, rfl, rfl, rfl, rfl⟩
    · by_cases changed : (storedEntry e target p).duration ≠ e.duration.toNat ∨
          (storedEntry e target p).expected ≠ e.expected.toNat
      · rw [if_pos changed]
        rw [decide_eq_true changed] at judged
        exact exec_answered hs rfl rfl (State.answerChainEntry_appended decoded hb hx hn judged) rfl
      · rw [if_neg changed]
        rw [decide_eq_false changed] at judged
        exact exec_answered hs rfl rfl (State.answerChainEntry_appended decoded hb hx hn judged) rfl
    · cases target <;> rfl
  · obtain ⟨t, decoded⟩ := entryTarget_of_lt ht hf
    rcases h with h | h | h
    · exact exec_refused hs rfl rfl (State.answerChainEntry_misplaced decoded hb (.inl h))
    · exact exec_refused hs rfl rfl (State.answerChainEntry_misplaced decoded hb (.inr h))
    · exact exec_refused hs rfl rfl (State.answerChainEntry_misjudged decoded hb (judgeEntry_eq_none h))
  · exact exec_refused hs rfl rfl (State.answerChainEntry_undecoded (entryTarget_eq_none h))
  · obtain ⟨t, decoded⟩ := entryTarget_of_lt ht hf
    exact exec_refused hs rfl rfl (State.answerChainEntry_notLoading decoded hb)

/-! ## The validation of a chain (R31) -/

theorem Entry.sharesCell_comm (e f : Entry) : e.sharesCell f = f.sharesCell e := by
  unfold Entry.sharesCell
  cases e.target <;> cases f.target <;> rfl

theorem Entry.sharesMinute_comm (e f : Entry) : e.sharesMinute f = f.sharesMinute e := by
  simp only [Entry.sharesMinute, Bool.or_comm]

/-- Two entries claim a cell and a minute in common. -/
def Entry.clashes (e f : Entry) : Bool := e.sharesCell f && e.sharesMinute f

theorem Entry.clashes_comm (e f : Entry) : e.clashes f = f.clashes e := by
  rw [Entry.clashes, Entry.sharesCell_comm, Entry.sharesMinute_comm, Entry.clashes]

/-- LAST stands on the final entry and on no other. -/
def LastAtEnd (es : List Entry) : Prop :=
  (∀ e ∈ es.dropLast, e.last = false) ∧ ∀ e ∈ es.getLast?, e.last = true

theorem lastAtEnd_cons (e : Entry) (es : List Entry) : LastAtEnd (e :: es) ↔ e.last = es.isEmpty ∧ LastAtEnd es := by
  cases es with
  | nil => simp [LastAtEnd]
  | cons f es => simp [LastAtEnd, and_assoc]

/-- An entry passes the tests of R31 behind the entries before it. -/
theorem entryFailure_eq_none (before : List Entry) (e : Entry) (final : Bool) :
    entryFailure before e final = none ↔
      (∀ p ∈ before.head?, p.start ≤ e.start) ∧ e.last = final ∧ ∀ p ∈ before, p.clashes e = false := by
  have order : (before.head?.any fun p => decide (e.start < p.start)) = false ↔
      ∀ p ∈ before.head?, p.start ≤ e.start := by
    cases before <;> simp
  have apart : (before.any fun p => p.sharesCell e && p.sharesMinute e) = false ↔
      ∀ p ∈ before, p.clashes e = false := by
    simp only [List.any_eq_false, Entry.clashes, Bool.not_eq_true]
  have last : e.last = final ↔ (!final && e.last) = false ∧ (final && !e.last) = false := by
    cases e.last <;> cases final <;> simp
  rw [← order, ← apart, last]
  unfold entryFailure
  repeat' split
  all_goals simp_all

/-- The entries that follow those before them pass every test. -/
theorem chainFailureFrom_eq_none (before : List Entry) (k : Nat) (es : List Entry) :
    chainFailureFrom before k es = none ↔
      (∀ p ∈ before.head?, ∀ e ∈ es.head?, p.start ≤ e.start) ∧ es.IsChain (fun e f => e.start ≤ f.start) ∧
        (∀ e ∈ es, ∀ p ∈ before, p.clashes e = false) ∧ es.Pairwise (fun e f => e.clashes f = false) ∧
        LastAtEnd es := by
  induction es generalizing before k with
  | nil => simp [chainFailureFrom, LastAtEnd]
  | cons e rest ih =>
    have step : chainFailureFrom before k (e :: rest) = none ↔
        entryFailure before e rest.isEmpty = none ∧ chainFailureFrom (e :: before) (k + 1) rest = none := by
      rw [chainFailureFrom]
      cases entryFailure before e rest.isEmpty <;> simp
    rw [step, entryFailure_eq_none, ih, lastAtEnd_cons, List.isChain_cons, List.pairwise_cons]
    simp only [List.head?_cons, Option.mem_some_iff, forall_eq', List.forall_mem_cons, forall_and]
    tauto

/-- A chain passes where its starts never fall, LAST ends it and no two entries clash. -/
theorem chainFailure_eq_none (es : List Entry) : chainFailure es = none ↔
    es ≠ [] ∧ es.Pairwise (fun e f => e.start ≤ f.start) ∧ es.Pairwise (fun e f => e.clashes f = false) ∧
      LastAtEnd es := by
  have : Trans (fun e f : Entry => e.start ≤ f.start) (fun e f : Entry => e.start ≤ f.start)
    (fun e f : Entry => e.start ≤ f.start) := ⟨fun h k => Nat.le_trans h k⟩
  unfold chainFailure
  cases es with
  | nil => simp
  | cons e rest =>
    simp only [List.isEmpty_cons, Bool.false_eq_true, ↓reduceIte, chainFailureFrom_eq_none, List.isChain_iff_pairwise]
    simp

section
variable {s : State}

theorem State.answerChainCommit_ready (hb : s.walker.standby.state = .loading)
    (h : chainFailure s.walker.standby.entries = none) :
    s.answerChainCommit =
      accept [] (s.updWalker fun w => { w with standby := { w.standby with state := .ready } }) := by
  simp [State.answerChainCommit, hb, h]

theorem State.answerChainCommit_emptied (hb : s.walker.standby.state = .loading) {code k : Nat}
    (h : chainFailure s.walker.standby.entries = some (code, k)) :
    s.answerChainCommit = ({ status := .badValue, data := byte1 code ++ byte1 k },
      s.updWalker fun w => { w with standby := { w.standby with entries := [], state := .empty } }) := by
  simp [State.answerChainCommit, hb, h]

theorem State.answerChainCommit_refused (hb : s.walker.standby.state ≠ .loading) :
    s.answerChainCommit = refuse .wrongState s := by
  simp [State.answerChainCommit, hb]

end

/-- Settles O28: the outcomes of the request, and the validation by induction on the entries still to be tested. -/
theorem chainCommitValidates : Obligations.ChainCommitValidates := by
  refine ⟨fun tag s hs => ⟨fun hb h => ?_, fun hb code k h => ?_, fun hb => ?_⟩, fun es => ?_⟩
  · exact exec_answered hs rfl rfl (State.answerChainCommit_ready hb h) rfl
  · exact exec_answered hs rfl rfl (State.answerChainCommit_emptied hb h) rfl
  · exact exec_refused hs rfl rfl (State.answerChainCommit_refused hb)
  · have apart : (fun e f : Entry => e.clashes f = false) =
        fun e f => (f.sharesCell e && f.sharesMinute e) = false := by
      funext e f
      rw [Entry.clashes_comm, Entry.clashes]
    rw [chainFailure_eq_none, apart]
    rfl

end Sys2Proof.Machine
end

