-- ==== Sys2Proof/Proofs/Slots.lean ====
section
/-! PROOF. The slots (R39), and how a booking leaves CURRENT and how one starts (R15, R41, R42, R47): the slots, the
notices in their order (log entry 44), and the units. -/

namespace Sys2Proof.Machine
open Sys2Proof

/-! ## Slots -/

theorem SlotPair.standing_put (t : Target) (k : Booking) :
    ((SlotPair.cells none none).put t k).standing = [(t, k)] := by
  cases t <;> rfl

theorem SlotPair.put_put (t : Target) (k k' : Booking) :
    ((SlotPair.cells none none).put t k).put t k' = (SlotPair.cells none none).put t k' := by
  cases t <;> rfl

theorem SlotPair.drop_put (t : Target) (k : Booking) :
    ((SlotPair.cells none none).put t k).drop t = .cells none none := by
  cases t <;> rfl

theorem SlotPair.map_put (t : Target) (k : Booking) (f : Target → Booking → Booking) :
    ((SlotPair.cells none none).put t k).map f = (SlotPair.cells none none).put t (f t k) := by
  cases t <;> rfl

theorem SlotPair.meeting_empty (t : Target) : (SlotPair.cells none none).meeting t = [] := by
  cases t <;> rfl

/-- A target meets no booking where its cells' slots are empty (R35, R41). -/
theorem SlotPair.meeting_eq_nil (p : SlotPair) (t : Target) :
    p.meeting t = [] ↔ ∀ c ∈ t.cells, p.inCell c = none := by
  cases p <;> cases t <;>
    simp only [SlotPair.meeting, SlotPair.inCell, SlotPair.standing, Target.cells, List.forall_mem_cons] <;> simp

theorem SlotPair.free_iff (p : SlotPair) (t : Target) : p.free t = true ↔ ∀ c ∈ t.cells, p.inCell c = none := by
  rw [SlotPair.free, List.isEmpty_iff, SlotPair.meeting_eq_nil]

/-- The targets standing differ where two do, so that dropping them all empties the slots. -/
theorem SlotPair.foldl_drop_standing (p : SlotPair) :
    (p.standing.foldl (fun p k => p.drop k.1) p) = .cells none none := by
  cases p with
  | joined k => rfl
  | cells a b => cases a <;> cases b <;> rfl

/-! ## What the walker's operations leave alone -/

/-- A state that differs in the parts the walker's operations touch. -/
theorem Keeps.walker_parts {s t : State} (k : Keeps [.notices, .walker, .units, .modes, .lighting] s t) :
    t = { s with
      link := t.link, walker := t.walker, lighting := t.lighting
      space := { s.space with units := t.space.units } } := by
  have space : t.space = { s.space with units := t.space.units } := by
    obtain ⟨contact, timer⟩ : t.space.contact = s.space.contact ∧ t.space.partitionTimer = s.space.partitionTimer :=
      k.same .contact rfl
    obtain ⟨pin, fireTimer⟩ : t.space.firePin = s.space.firePin ∧ t.space.fireTimer = s.space.fireTimer :=
      k.same .fireInput rfl
    have partition : t.space.partition = s.space.partition := k.same .partition rfl
    have fire : t.space.fire = s.space.fire := k.same .fire rfl
    have overrides : t.space.overrides = s.space.overrides := k.same .overrides rfl
    dsimp only
    rw [← contact, ← timer, ← pin, ← fireTimer, ← partition, ← fire, ← overrides]
  have clock : t.clock = s.clock := k.same .clock rfl
  have doors : t.doors = s.doors := k.same .doors rfl
  have presence : t.presence = s.presence := k.same .presence rfl
  have drift : t.drift = s.drift := k.same .drift rfl
  have air : t.air = s.air := k.same .air rfl
  have drives : t.drives = s.drives := k.same .drives rfl
  have blinds : t.blinds = s.blinds := k.same .blinds rfl
  have rail : t.rail = s.rail := k.same .rail rfl
  have scanner : t.scanner = s.scanner := k.same .scanner rfl
  have faults : t.faults = s.faults := k.same .faults rfl
  have supervision : t.supervision = s.supervision := k.same .supervision rfl
  have store : t.store = s.store := k.same .store rfl
  have working : t.working = s.working := k.working rfl rfl rfl rfl
  have pending : t.pending = s.pending := k.same .pending rfl
  rw [← space, ← clock, ← doors, ← presence, ← drift, ← air, ← drives, ← blinds, ← rail, ← scanner, ← faults,
    ← supervision, ← store, ← working, ← pending]

/-- The units of a target are those of the arrangement (R13). -/
theorem Units.ofTarget_congr {u v : Units} (h : u.ids = v.ids) (t : Target) : u.ofTarget t = v.ofTarget t := by
  cases u <;> cases v
  case split.split => cases t <;> rfl
  case joined.joined => rfl
  all_goals simp [Units.ids] at h

theorem Units.ofTarget_nodup (u : Units) (t : Target) : (u.ofTarget t).Nodup := by
  cases u <;> cases t <;> simp [Units.ofTarget]

/-! ## Notices about a booking -/

/-- The notice that names a booking (02, section 2.7). -/
def State.bookingNotice (s : State) (kind : NoticeKind) (k : Booking) (value : Nat) : Notice :=
  s.noticeOf kind (some k.entry.target.place) k.index value (some k.entry.tag)

theorem State.notifyBooking_eq (s : State) (kind : NoticeKind) (k : Booking) (value : Nat) :
    s.notifyBooking kind k value = { s with link := s.link.handed [s.bookingNotice kind k value] } := rfl

/-- The place an OVERRUN names, with the units that are not VACANT (R42). -/
def overrunPlace (t : Target) (u : Units) (there : List UnitId) : Place :=
  match t, u with
  | .joined, .split _ _ => if there = [.a, .b] then .both else if there = [.a] then .a else .b
  | _, _ => t.place

/-- The OVERRUN of a booking at its end time, if a unit of it is not VACANT (R42). -/
def State.overrunNotices (s : State) (t : Target) (k : Booking) : List Notice :=
  let there := (s.space.units.ofTarget t).filter fun id => !s.vacantUnit id
  if s.vacantTarget t then []
  else [s.noticeOf .overrun (some (overrunPlace t s.space.units there)) k.index (s.headcounts there) (some k.entry.tag)]

theorem State.notifyOverrun_eq (s : State) (t : Target) (k : Booking) :
    s.notifyOverrun t k = { s with link := s.link.handed (s.overrunNotices t k) } := by
  unfold State.notifyOverrun State.overrunNotices overrunPlace State.vacantTarget
  cases hu : s.space.units with
  | joined ab =>
    cases hv : s.vacantUnit .ab <;> cases t <;> simp [Units.ofTarget, hv, State.notify] <;> rfl
  | split a b =>
    cases ha : s.vacantUnit .a <;> cases hb : s.vacantUnit .b <;> cases t <;>
      simp [Units.ofTarget, ha, hb] <;> rfl

/-! ## The stop mark of a booking that leaves (R47) -/

/-- The walker once a booking that leaves CURRENT has done its stop mark. -/
def Walker.stopDone (w : Walker) (k : Booking) : Walker :=
  match w.stopMark with
  | some m =>
    if k.marked = true ∧ k.index = some m.index then
      { w with
        stopMark := none
        state := if m.mode = .pause ∧ w.state ≠ .idle ∧ w.state ≠ .finished then .paused else w.state }
    else w
  | none => w

theorem Walker.stopDone_unmarked (w : Walker) {k : Booking} (h : k.marked = false) : w.stopDone k = w := by
  unfold Walker.stopDone
  split
  · simp [h]
  · rfl

theorem Walker.stopDone_hit {w : Walker} {k : Booking} {m : StopMark} (hm : w.stopMark = some m) (hk : k.marked = true)
    (hi : k.index = some m.index) : w.stopDone k = { w with
      stopMark := none
      state := if m.mode = .pause ∧ w.state ≠ .idle ∧ w.state ≠ .finished then .paused else w.state } := by
  simp only [Walker.stopDone, hm, hk, hi, and_self, ↓reduceIte]

/-- The stop mark and the state are all that a booking which leaves can change beside its slots. -/
theorem Walker.stopDone_parts (w : Walker) (k : Booking) :
    w.stopDone k = { w with stopMark := (w.stopDone k).stopMark, state := (w.stopDone k).state } := by
  unfold Walker.stopDone
  split
  · split <;> rfl
  · rfl

theorem Walker.stopDone_stopMark (w : Walker) (k : Booking) : (w.stopDone k).stopMark =
    if k.marked = true ∧ (w.stopMark.any fun m => decide (k.index = some m.index)) = true then none
    else w.stopMark := by
  unfold Walker.stopDone
  cases hm : w.stopMark with
  | none => simp [hm]
  | some m =>
    by_cases h : k.marked = true ∧ k.index = some m.index
    · simp [h]
    · simp only [if_neg h, hm, Option.any_some, decide_eq_true_eq]

/-- A walker that makes no pass stays in its state. -/
theorem Walker.stopDone_state_of_rest {w : Walker} (h : w.state = .paused ∨ w.state = .idle ∨ w.state = .finished)
    (k : Booking) : (w.stopDone k).state = w.state := by
  unfold Walker.stopDone
  split
  · split
    · rcases h with h | h | h <;> simp [h]
    · rfl
  · rfl

/-- The STOP_MARK_DONE of a marked booking. -/
def State.doneNotices (s : State) (k : Booking) (o : BookingOutcome) : List Notice :=
  if k.marked then [s.bookingNotice .stopMarkDone k o.code] else []

theorem State.markDone_eq (s : State) (k : Booking) (o : BookingOutcome) :
    s.markDone k o =
      { s with walker := s.walker.stopDone k, link := s.link.handed (s.doneNotices k o) } := by
  unfold State.markDone State.doneNotices
  cases hk : k.marked with
  | false => rw [Walker.stopDone_unmarked _ hk]; rfl
  | true =>
    simp only [↓reduceIte, State.notifyBooking_eq, Walker.stopDone, hk, true_and]
    cases s.walker.stopMark with
    | none => rfl
    | some m => dsimp only; split <;> rfl

/-! ## The lingering profile (R15) -/

/-- The record of a unit of the target that is not VACANT holds the booking's profile as its lingering one. -/
def UnitRec.lingered (u : UnitRec) (concerned : Bool) (k : Booking) : UnitRec :=
  if concerned = true ∧ u.occupancy ≠ .vacant then { u with lingering := some k.entry.profile } else u

theorem UnitRec.lingered_tenancy (u : UnitRec) (concerned : Bool) (k : Booking) :
    (u.lingered concerned k).tenancy = { u.tenancy with
      lingering := if concerned = true ∧ u.occupancy ≠ .vacant then some k.entry.profile else u.lingering } := by
  unfold UnitRec.lingered
  split <;> rfl

theorem State.lingerUnit_unit? (s : State) (i id : UnitId) (k : Booking) :
    (if s.vacantUnit i then s else s.modifyUnit i fun u => { u with lingering := some k.entry.profile }).unit? id =
      (s.unit? id).map fun u => u.lingered (decide (i = id)) k := by
  by_cases hi : i = id
  · subst hi
    cases hu : s.unit? i with
    | none => simp [State.vacantUnit, hu]
    | some u =>
      have vacant : s.vacantUnit i = decide (u.occupancy = .vacant) := by simp [State.vacantUnit, hu]
      by_cases ho : u.occupancy = .vacant
      · simp [vacant, ho, hu, UnitRec.lingered]
      · simp [vacant, ho, hu, UnitRec.lingered]
  · have same (u : UnitRec) : u.lingered (decide (i = id)) k = u := by simp [UnitRec.lingered, hi]
    simp only [same, Option.map_id']
    split
    · rfl
    · exact State.unit?_modifyUnit_other _ _ fun h => hi h.symm

/-- A booking that leaves its profile lingering writes it to its units, one by one. -/
theorem State.linger_unit? (s : State) (t : Target) (k : Booking) (id : UnitId) :
    (s.linger t k).unit? id =
      (s.unit? id).map fun u => u.lingered (decide (id ∈ s.space.units.ofTarget t)) k := by
  unfold State.linger
  have apart := s.space.units.ofTarget_nodup t
  generalize s.space.units.ofTarget t = ids at apart
  induction ids generalizing s with
  | nil =>
    have same (u : UnitRec) : u.lingered (decide (id ∈ ([] : List UnitId))) k = u := by simp [UnitRec.lingered]
    simp only [same, Option.map_id']
    rfl
  | cons i ids ih =>
    obtain ⟨new, rest⟩ := List.nodup_cons.mp apart
    rw [List.foldl_cons, ih _ rest, State.lingerUnit_unit?, Option.map_map]
    congr 1
    funext u
    by_cases hi : i = id
    · subst hi
      simp only [Function.comp, decide_true, new, decide_false, List.mem_cons, or_false]
      simp [UnitRec.lingered]
    · have : id ≠ i := fun h => hi h.symm
      simp [Function.comp, UnitRec.lingered, hi, this]

/-! ## Leaving CURRENT (R42) -/

/-- What a booking that leaves CURRENT tells, in this order (log entry 44). -/
def State.leaveNotices (s : State) (t : Target) (k : Booking) (o : BookingOutcome) (atEnd : Bool) : List Notice :=
  (if o ≠ .ended ∨ k.entry.notifyEnd = true then [s.bookingNotice .bookingEnded k o.code] else []) ++
    ((if atEnd then s.overrunNotices t k else []) ++ s.doneNotices k o)

/-- A booking out of its slot: its notices, its lingering profile and its stop mark. -/
theorem State.retire_parts (s : State) (t : Target) (k : Booking) (o : BookingOutcome) (atEnd : Bool) :
    (s.retire t k o atEnd).link = s.link.handed (s.leaveNotices t k o atEnd) ∧
      (s.retire t k o atEnd).walker = s.walker.stopDone k ∧
      ∀ id, (s.retire t k o atEnd).unit? id =
        (s.unit? id).map fun u => u.lingered (decide (id ∈ s.space.units.ofTarget t)) k := by
  let ended := if o ≠ .ended ∨ k.entry.notifyEnd = true then [s.bookingNotice .bookingEnded k o.code] else []
  let overran := if atEnd then s.overrunNotices t k else []
  let told : State := { s with link := s.link.handed (ended ++ overran) }
  have tells : s.retire t k o atEnd = (told.linger t k).markDone k o := by
    unfold State.retire
    have first : (if o ≠ .ended ∨ k.entry.notifyEnd = true then s.notifyBooking .bookingEnded k o.code else s) =
        { s with link := s.link.handed ended } := by
      unfold ended
      split <;> rfl
    rw [first]
    unfold told overran
    cases atEnd with
    | false => simp
    | true => simp only [↓reduceIte, State.notifyOverrun_eq, Link.handed_append]; rfl
  have kept := told.linger_keeps t k
  have link : (told.linger t k).link = told.link := kept.same .notices rfl
  have walker : (told.linger t k).walker = told.walker := kept.same .walker rfl
  have clock : (told.linger t k).clock = told.clock := kept.same .clock rfl
  have done : (told.linger t k).doneNotices k o = s.doneNotices k o := by
    simp only [State.doneNotices, State.bookingNotice, State.noticeOf_congr clock]
    rfl
  rw [tells, State.markDone_eq]
  refine ⟨?_, ?_, fun id => told.linger_unit? t k id⟩
  · dsimp only
    rw [link, done, ← Link.handed_append, State.leaveNotices, List.append_assoc]
  · dsimp only
    rw [walker]

/-- A booking leaves CURRENT: its notices, the slots and the stop mark, and the lingering profile of its units. -/
theorem State.leaveCurrent_parts (s : State) (t : Target) (k : Booking) (o : BookingOutcome) (atEnd : Bool) :
    (s.leaveCurrent t k o atEnd).link = s.link.handed (s.leaveNotices t k o atEnd) ∧
      (s.leaveCurrent t k o atEnd).walker =
        ({ s.walker with current := s.walker.current.drop t } : Walker).stopDone k ∧
      ∀ id u, s.unit? id = some u → ∃ v, (s.leaveCurrent t k o atEnd).unit? id = some v ∧
        v.tenancy = { u.tenancy with
          lingering :=
            if id ∈ s.space.units.ofTarget t ∧ u.occupancy ≠ .vacant then some k.entry.profile else u.lingering } := by
  obtain ⟨link, walker, units⟩ :=
    (s.updWalker fun w => { w with current := w.current.drop t }).retire_parts t k o atEnd
  let retired := (s.updWalker fun w => { w with current := w.current.drop t }).retire t k o atEnd
  have kept := retired.deriveUnits_keeps (s.space.units.ofTarget t)
  have derived_link : (retired.deriveUnits (s.space.units.ofTarget t)).link = retired.link := kept.same .notices rfl
  have derived_walker : (retired.deriveUnits (s.space.units.ofTarget t)).walker = retired.walker :=
    kept.same .walker rfl
  refine ⟨derived_link.trans link, derived_walker.trans walker, fun id u hu => ?_⟩
  have record : retired.unit? id = some (u.lingered (decide (id ∈ s.space.units.ofTarget t)) k) :=
    (units id).trans (congrArg _ hu)
  obtain ⟨v, hv, same⟩ := (retired.deriveUnits_sameTenancy (s.space.units.ofTarget t)).record record
  exact ⟨v, hv, by rw [same, UnitRec.lingered_tenancy]; simp only [decide_eq_true_eq]⟩

end Sys2Proof.Machine
end

