-- ==== Sys2Proof/Proofs/Starts.lean ====
section
/-! PROOF. How a booking starts (R41, R44): the bookings it meets leave, it takes their slots, and what it is told. -/

namespace Sys2Proof.Machine
open Sys2Proof

/-! ## Occupancy through a start -/

/-- The arrangement and the occupancy of every unit are the same in two states. -/
structure State.SameOccupancy (s t : State) : Prop where
  arrangement : t.space.units.ids = s.space.units.ids
  occupancy : ∀ id, (t.unit? id).map (·.occupancy) = (s.unit? id).map (·.occupancy)

theorem State.SameOccupancy.refl (s : State) : s.SameOccupancy s := ⟨rfl, fun _ => rfl⟩

theorem State.SameOccupancy.trans {s t u : State} (h : s.SameOccupancy t) (k : t.SameOccupancy u) :
    s.SameOccupancy u :=
  ⟨k.arrangement.trans h.arrangement, fun id => (k.occupancy id).trans (h.occupancy id)⟩

theorem State.SameOccupancy.of_units {s t : State} (h : t.space.units = s.space.units) : s.SameOccupancy t :=
  ⟨by rw [h], fun id => by rw [State.unit?_congr h]⟩

/-- A target is occupied by the occupancy of its units alone (R44). -/
theorem State.occupiedTarget_eq (s : State) (x : Target) : s.occupiedTarget x =
    (s.space.units.ofTarget x).any fun id => decide ((s.unit? id).map (·.occupancy) = some .occupied) := by
  unfold State.occupiedTarget
  congr 1
  funext id
  cases s.unit? id <;> simp

theorem State.SameOccupancy.occupiedTarget {s t : State} (h : s.SameOccupancy t) (x : Target) :
    t.occupiedTarget x = s.occupiedTarget x := by
  simp only [State.occupiedTarget_eq, h.occupancy, Units.ofTarget_congr h.arrangement]

theorem State.retire_sameOccupancy (s : State) (t : Target) (k : Booking) (o : BookingOutcome) (atEnd : Bool) :
    s.SameOccupancy (s.retire t k o atEnd) := by
  refine ⟨(s.retire_keeps t k o atEnd).same .arrangement rfl, fun id => ?_⟩
  rw [(s.retire_parts t k o atEnd).2.2 id, Option.map_map]
  congr 1
  funext u
  simp only [Function.comp, UnitRec.lingered]
  split <;> rfl

/-! ## The bookings displaced -/

theorem Booking.displaced_ne_ended (k : Booking) : k.displaced ≠ .ended := by
  unfold Booking.displaced
  split <;> decide

/-- What an unmarked booking tells that a start displaces (R41). -/
theorem State.leaveNotices_displaced (s : State) (t : Target) {k : Booking} (h : k.marked = false) :
    s.leaveNotices t k k.displaced false = [s.bookingNotice .bookingEnded k k.displaced.code] := by
  simp [State.leaveNotices, State.doneNotices, k.displaced_ne_ended, h]

/-- Unmarked bookings leave one by one, each telling its outcome alone. -/
theorem State.foldl_retire_displaced (olds : List (Target × Booking)) (s : State)
    (h : ∀ old ∈ olds, old.2.marked = false) :
    let x := olds.foldl (fun s old => s.retire old.1 old.2 old.2.displaced false) s
    x.walker = s.walker ∧ s.SameOccupancy x ∧
      x.link = s.link.handed (olds.map fun old => s.bookingNotice .bookingEnded old.2 old.2.displaced.code) ∧
      x.clock = s.clock := by
  induction olds generalizing s with
  | nil => exact ⟨rfl, .refl s, rfl, rfl⟩
  | cons old olds ih =>
    obtain ⟨unmarked, rest⟩ := List.forall_mem_cons.mp h
    obtain ⟨link, walker, -⟩ := s.retire_parts old.1 old.2 old.2.displaced false
    have clock : (s.retire old.1 old.2 old.2.displaced false).clock = s.clock :=
      (s.retire_keeps old.1 old.2 old.2.displaced false).same .clock rfl
    obtain ⟨walkers, people, links, clocks⟩ := ih (s.retire old.1 old.2 old.2.displaced false) rest
    refine ⟨?_, (s.retire_sameOccupancy _ _ _ _).trans people, ?_, clocks.trans clock⟩
    · exact walkers.trans (walker.trans (Walker.stopDone_unmarked _ unmarked))
    · rw [List.foldl_cons, links, link, State.leaveNotices_displaced s old.1 unmarked, ← Link.handed_append]
      simp only [State.bookingNotice, State.noticeOf_congr clock, List.map_cons, List.singleton_append]

/-- Bookings dropped from CURRENT one by one. -/
theorem State.foldl_drop_current (olds : List (Target × Booking)) (s : State) :
    olds.foldl (fun s old => s.updWalker fun w => { w with current := w.current.drop old.1 }) s =
      s.updWalker fun w => { w with current := olds.foldl (fun p old => p.drop old.1) w.current } := by
  induction olds generalizing s with
  | nil => rfl
  | cons old olds ih => rw [List.foldl_cons, ih]; rfl

/-! ## The start (R41) -/

/-- The booking as it stands in CURRENT when it has started with the minutes given. -/
def Booking.started (k : Booking) (minutes : Nat) (seen : Bool) : Booking :=
  { k with state := .running, minutes := minutes, sinceStart := 0, vacant := 0, seenOccupied := seen }

/-- A start that meets no marked booking: the slots, and the notices in their order (log entry 44). -/
theorem State.startBooking_parts {s : State} {t : Target} (k : Booking) (minutes : Nat)
    (h : ∀ old ∈ s.walker.current.meeting t, old.2.marked = false) :
    (s.startBooking t k minutes).walker = { s.walker with
      current := ((s.walker.current.meeting t).foldl (fun p old => p.drop old.1) s.walker.current).put t
        (k.started minutes (s.occupiedTarget t)) } ∧
    (s.startBooking t k minutes).link = s.link.handed
      (((s.walker.current.meeting t).map fun old => s.bookingNotice .bookingEnded old.2 old.2.displaced.code) ++
        [s.bookingNotice .bookingStarted k (if k.startedLate then 1 else 0)]) := by
  let olds := s.walker.current.meeting t
  let dropped := s.updWalker fun w => { w with current := olds.foldl (fun p old => p.drop old.1) w.current }
  let left := olds.foldl (fun s old => s.retire old.1 old.2 old.2.displaced false) dropped
  let put := left.updWalker fun w => { w with current := w.current.put t (k.started minutes (left.occupiedTarget t)) }
  let told := put.notifyBooking .bookingStarted (k.started minutes (left.occupiedTarget t))
    (if k.startedLate then 1 else 0)
  let ids := told.space.units.ofTarget (if olds.any fun old => old.1 = .joined then .joined else t)
  have starts : s.startBooking t k minutes = told.deriveUnits ids := by
    unfold State.startBooking
    dsimp only
    rw [State.foldl_drop_current]
    rfl
  obtain ⟨walker, people, link, clock⟩ := State.foldl_retire_displaced olds dropped h
  have seen : left.occupiedTarget t = s.occupiedTarget t :=
    ((State.SameOccupancy.of_units rfl : s.SameOccupancy dropped).trans people).occupiedTarget t
  have kept := told.deriveUnits_keeps ids
  have derived_walker : (told.deriveUnits ids).walker = told.walker := kept.same .walker rfl
  have derived_link : (told.deriveUnits ids).link = told.link := kept.same .notices rfl
  have stamp : told.link = left.link.handed [s.bookingNotice .bookingStarted k (if k.startedLate then 1 else 0)] := by
    have same : put.clock = s.clock := clock
    simp only [told, State.notifyBooking_eq, State.bookingNotice, State.noticeOf_congr same]
    rfl
  rw [starts, derived_walker, derived_link, stamp, link, ← Link.handed_append, ← seen]
  refine ⟨?_, rfl⟩
  show ({ left.walker with current := left.walker.current.put t _ } : Walker) = _
  rw [walker]
  rfl

/-- A start that finds its slots in CURRENT empty. -/
theorem State.startBooking_alone {s : State} {t : Target} (k : Booking) (minutes : Nat)
    (h : s.walker.current.meeting t = []) :
    (s.startBooking t k minutes).walker = { s.walker with
      current := s.walker.current.put t (k.started minutes (s.occupiedTarget t)) } ∧
    (s.startBooking t k minutes).link =
      s.link.handed [s.bookingNotice .bookingStarted k (if k.startedLate then 1 else 0)] := by
  have parts := State.startBooking_parts (s := s) (t := t) k minutes (by simp [h])
  simpa only [h, List.foldl_nil, List.map_nil, List.nil_append] using parts

/-- A start that displaces one booking, which is not marked. -/
theorem State.startBooking_displacing {s : State} {t target : Target} {old : Booking} (k : Booking) (minutes : Nat)
    (h : s.walker.current.meeting t = [(target, old)]) (hm : old.marked = false) :
    (s.startBooking t k minutes).walker = { s.walker with
      current := (s.walker.current.drop target).put t (k.started minutes (s.occupiedTarget t)) } ∧
    (s.startBooking t k minutes).link = s.link.handed
      [s.bookingNotice .bookingEnded old old.displaced.code,
        s.bookingNotice .bookingStarted k (if k.startedLate then 1 else 0)] := by
  have parts := State.startBooking_parts (s := s) (t := t) k minutes (by simp [h, hm])
  simpa only [h, List.foldl_cons, List.foldl_nil, List.map_cons, List.map_nil, List.cons_append,
    List.nil_append] using parts

end Sys2Proof.Machine
end

