-- ==== Sys2Proof/Proofs/Pass.lean ====
section
/-! PROOF. The arming pass, entry by entry (R35 to R37, R46), the chain switch (R33), and what of the chain a pass
leaves alone. -/

namespace Sys2Proof.Machine
open Sys2Proof

/-! ## Where the cursor goes (R46) -/

/-- The minutes that an entry is armed ahead of its start (R34). -/
def State.lead (s : State) (e : Entry) : Nat := s.working.profiles[e.profile].lead

/-- CHAIN_FINISHED, where the cursor has gone off a ONCE chain. -/
def State.finishNotices (s : State) (w : Walker) : List Notice :=
  if w.state = .finished then [s.noticeOf .chainFinished none none noValue none] else []

/-- A walker that stands on its cycle as another one does. -/
def Walker.placedAs (v w : Walker) : Walker :=
  { v with state := w.state, cursor := w.cursor, cycle := w.cycle, offset := w.offset }

/-- Where a pass leaves the walker, nothing but its place on the cycle has moved. -/
theorem Walker.passesTo.placed {w w' : Walker} {lead : Entry → Nat} {k : Nat} (h : w.passesTo lead k w') :
    w' = w.placedAs w' := by
  rcases h with ⟨f, -, -, rfl⟩ | ⟨-, -, -, rfl⟩ | ⟨-, -, -, f, -, -, rfl⟩ <;> rfl

theorem Walker.passesTo.slots {w w' : Walker} {lead : Entry → Nat} {k : Nat} (h : w.passesTo lead k w') :
    w'.next = w.next ∧ w'.current = w.current ∧ w'.stopMark = w.stopMark := by
  rw [h.placed]
  exact ⟨rfl, rfl, rfl⟩

theorem Walker.passesTo.state {w w' : Walker} {lead : Entry → Nat} {k : Nat} (h : w.passesTo lead k w') :
    w'.state = .running ∨ w'.state = .finished := by
  rcases h with ⟨f, -, -, rfl⟩ | ⟨-, -, -, rfl⟩ | ⟨-, -, -, f, -, -, rfl⟩
  · exact .inl rfl
  · exact .inr rfl
  · exact .inl rfl

/-- A pass leaves the walker in one place. -/
theorem Walker.passesTo.unique {w w₁ w₂ : Walker} {lead : Entry → Nat} {k : Nat} (h₁ : w.passesTo lead k w₁)
    (h₂ : w.passesTo lead k w₂) : w₁ = w₂ := by
  have inside {f : Entry} (h : w.active.entries[k + 1]? = some f) : k + 1 ≠ w.active.entries.length := by
    obtain ⟨hk, -⟩ := List.getElem?_eq_some_iff.mp h
    exact Nat.ne_of_lt hk
  rcases h₁ with ⟨f, hf, -, rfl⟩ | ⟨hk, -, hr, rfl⟩ | ⟨hk, -, hr, f, -, -, e⟩ <;>
    rcases h₂ with ⟨g, hg, -, rfl⟩ | ⟨hj, -, ht, rfl⟩ | ⟨hj, -, ht, g, -, -, e'⟩
  case inl.inl => rfl
  case inl.inr.inl => exact absurd hj (inside hf)
  case inl.inr.inr => exact absurd hj (inside hf)
  case inr.inl.inl => exact absurd hk (inside hg)
  case inr.inl.inr.inl => rfl
  case inr.inl.inr.inr => rw [hr] at ht; cases ht
  case inr.inr.inl => exact absurd hk (inside hg)
  case inr.inr.inr.inl => rw [hr] at ht; cases ht
  case inr.inr.inr.inr => exact e.trans e'.symm

/-- A walker of the same chain at the same place passes to the same place. -/
theorem Walker.passesTo.alike {v w w' : Walker} {lead : Entry → Nat} {k : Nat} (h : w.passesTo lead k w')
    (active : v.active = w.active) (queued : v.queuedSwitch = w.queuedSwitch) (cycle : v.cycle = w.cycle)
    (offset : v.offset = w.offset) : v.passesTo lead k (v.placedAs w') := by
  rcases h with ⟨f, hf, due, rfl⟩ | ⟨hk, hq, hr, rfl⟩ | ⟨hk, hq, hr, f, hf, due, e⟩
  · refine .inl ⟨f, active ▸ hf, by rw [cycle, offset]; exact due, ?_⟩
    simp only [Walker.placedAs, ← cycle, ← offset]
  · refine .inr (.inl ⟨active ▸ hk, queued ▸ hq, active ▸ hr, ?_⟩)
    simp only [Walker.placedAs, ← cycle, ← offset]
  · refine .inr (.inr ⟨active ▸ hk, queued ▸ hq, active ▸ hr, f, active ▸ hf, due, ?_⟩)
    rw [e, cycle, offset]
    rfl

theorem State.moveCursor_next {s : State} {k : Nat} (h : k + 1 < s.walker.active.entries.length) :
    s.moveCursor k = s.updWalker fun w => { w with cursor := some (k + 1) } := by
  rw [State.moveCursor, if_pos h]

theorem State.moveCursor_switch {s : State} {k : Nat} (h : k + 1 = s.walker.active.entries.length)
    (hq : s.walker.queuedSwitch = some .atChainEnd) : s.moveCursor k = s.switchChain := by
  rw [State.moveCursor, if_neg (by omega), if_pos hq]

theorem State.moveCursor_weekly {s : State} {k : Nat} (h : k + 1 = s.walker.active.entries.length)
    (hq : s.walker.queuedSwitch ≠ some .atChainEnd) (hr : s.walker.active.repeating = .weekly) :
    s.moveCursor k = s.updWalker fun w =>
      { w with cursor := some 0, offset := w.offset + Config.weekMinutes }.settleCycle := by
  rw [State.moveCursor, if_neg (by omega), if_neg hq]
  simp only [hr]

theorem State.moveCursor_once {s : State} {k : Nat} (h : k + 1 = s.walker.active.entries.length)
    (hq : s.walker.queuedSwitch ≠ some .atChainEnd) (hr : s.walker.active.repeating = .once) :
    s.moveCursor k = (s.updWalker fun w => { w with state := .finished, cursor := none }).notify .chainFinished none
      none noValue none := by
  rw [State.moveCursor, if_neg (by omega), if_neg hq]
  simp only [hr]

/-- A wrap keeps C and O as low as they go (R34). -/
theorem Walker.settleCycle_wrapped (w : Walker) :
    { w with cursor := some 0, offset := w.offset + Config.weekMinutes }.settleCycle = { w with
      cursor := some 0
      cycle := if 10080 ≤ w.cycle then w.cycle - 10080 else w.cycle
      offset := if 10080 ≤ w.cycle then w.offset else w.offset + 10080 } := by
  unfold Walker.settleCycle Config.weekMinutes
  by_cases h : 10080 ≤ w.cycle <;> simp [h]

/-! ## One entry of a pass -/

/-- What a pass does with a due entry before the cursor moves on; none where the walker stalls (R35, R50). -/
def State.handleEntry (s : State) (afterSet : Bool) (k : Nat) (e : Entry) : Option State :=
  let begins := e.start + s.walker.offset
  if s.walker.stands k e.target then some s
  else if s.walker.next.free e.target then
    if s.walker.cycle < begins then some (s.armEntry e k false)
    else if s.walker.cycle < begins + e.duration then some (s.armEntry e k true)
    else some (s.missEntry e k)
  else if afterSet && decide (begins ≤ s.walker.cycle) then some (s.missEntry e k)
  else none

/-- The pass goes on where the walker is RUNNING or STALLED (R37). -/
def State.passOn (s : State) (afterSet : Bool) (n : Nat) : State :=
  match s.walker.state with
  | .running | .stalled => State.armingPass afterSet n s
  | _ => s

theorem State.dueEntry_eq_false (s : State) (e : Entry) :
    s.dueEntry e = false ↔ s.walker.cycle + s.lead e < e.start + s.walker.offset := by
  simp [State.dueEntry, State.lead]

theorem State.dueEntry_eq_true (s : State) (e : Entry) :
    s.dueEntry e = true ↔ e.start + s.walker.offset ≤ s.walker.cycle + s.lead e := by
  simp [State.dueEntry, State.lead]

section
variable {s : State} {k : Nat} {e : Entry} (hc : s.walker.cursor = some k)
  (he : s.walker.active.entries[k]? = some e) (afterSet : Bool) (n : Nat)
include hc he

theorem State.armingPass_notDue (hd : s.dueEntry e = false) :
    State.armingPass afterSet (n + 1) s = s.updWalker fun w => { w with state := .running } := by
  simp only [State.armingPass, hc, he, hd, ↓reduceIte]

theorem State.armingPass_stalls (hd : s.dueEntry e = true) (hh : s.handleEntry afterSet k e = none) :
    State.armingPass afterSet (n + 1) s = s.updWalker fun w => { w with state := .stalled } := by
  unfold State.handleEntry at hh
  simp only [State.armingPass, hc, he, hd, Bool.true_eq_false, ↓reduceIte, hh]

theorem State.armingPass_goesOn (hd : s.dueEntry e = true) {s1 : State} (hh : s.handleEntry afterSet k e = some s1) :
    State.armingPass afterSet (n + 1) s = (s1.moveCursor k).passOn afterSet n := by
  unfold State.handleEntry at hh
  simp only [State.armingPass, hc, he, hd, Bool.true_eq_false, ↓reduceIte, hh]
  rfl

end

/-- The pass makes no difference to a walker whose cursor entry is not due, RUNNING already or PAUSED. -/
theorem State.passOn_notDue {s : State} {k : Nat} {e : Entry} (hc : s.walker.cursor = some k)
    (he : s.walker.active.entries[k]? = some e) (hd : s.dueEntry e = false)
    (hs : s.walker.state = .running ∨ s.walker.state = .paused) (afterSet : Bool) (n : Nat) :
    s.passOn afterSet (n + 1) = s := by
  rcases hs with hs | hs
  · simp only [State.passOn, hs]
    rw [State.armingPass_notDue hc he afterSet n hd, State.updWalker, ← hs]
  · simp only [State.passOn, hs]

/-- The cursor has moved on to an entry that is not due, or off the chain: the pass ends there. -/
theorem State.passOn_moveCursor {x : State} {w' : Walker} {k : Nat} (h : x.walker.passesTo x.lead k w')
    (hs : x.walker.state = .running ∨ x.walker.state = .paused) (afterSet : Bool) (n : Nat) :
    (x.moveCursor k).passOn afterSet (n + 1) = { x with
      walker := { w' with
        state := if x.walker.state = .paused ∧ w'.state = .running then .paused else w'.state }
      link := x.link.handed (x.finishNotices w') } := by
  have stays : (if x.walker.state = .paused then .paused else .running) = x.walker.state := by
    rcases hs with hs | hs <;> simp [hs]
  rcases h with ⟨f, hf, due, rfl⟩ | ⟨hk, hq, hr, rfl⟩ | ⟨hk, hq, hr, f, hf, due, e⟩
  · obtain ⟨hk, -⟩ := List.getElem?_eq_some_iff.mp hf
    let next := x.updWalker fun w => { w with cursor := some (k + 1) }
    have ends : next.passOn afterSet (n + 1) = next := State.passOn_notDue (s := next) (k := k + 1) rfl hf
      ((State.dueEntry_eq_false next f).mpr due) hs afterSet n
    rw [State.moveCursor_next hk]
    simp only [and_true, stays]
    exact ends
  · rw [State.moveCursor_once hk hq hr]
    simp only [reduceCtorEq, and_false, ↓reduceIte, State.finishNotices]
    rfl
  · have settled : { x.walker with cursor := some 0, offset := x.walker.offset + Config.weekMinutes }.settleCycle =
        { w' with state := x.walker.state } := by
      rw [Walker.settleCycle_wrapped, e]
    let wrapped : State := { x with walker := { w' with state := x.walker.state } }
    have moved : x.moveCursor k = wrapped := by
      rw [State.moveCursor_weekly hk hq hr, State.updWalker, settled]
    have running : w'.state = .running := by rw [e]
    have cursor : w'.cursor = some 0 := by rw [e]
    have active : w'.active = x.walker.active := by rw [e]
    have ends : wrapped.passOn afterSet (n + 1) = wrapped := State.passOn_notDue (s := wrapped) (k := 0) cursor
      (active ▸ hf) ((State.dueEntry_eq_false wrapped f).mpr due) hs afterSet n
    rw [moved, ends]
    simp only [running, and_true, stays, State.finishNotices, reduceCtorEq, ↓reduceIte]
    rfl

/-- A pass that handles one entry and finds the next one not due, or the chain at its end. -/
theorem State.armingPass_ends {s x : State} {w' : Walker} {k : Nat} {e : Entry} (hc : s.walker.cursor = some k)
    (he : s.walker.active.entries[k]? = some e) {afterSet : Bool} (hd : s.dueEntry e = true)
    (hh : s.handleEntry afterSet k e = some x) (h : x.walker.passesTo x.lead k w')
    (hs : x.walker.state = .running ∨ x.walker.state = .paused) :
    State.armingPass afterSet passBound s = { x with
      walker := { w' with
        state := if x.walker.state = .paused ∧ w'.state = .running then .paused else w'.state }
      link := x.link.handed (x.finishNotices w') } :=
  (State.armingPass_goesOn hc he afterSet 399 hd hh).trans (State.passOn_moveCursor h hs afterSet 398)

end Sys2Proof.Machine
end

