-- ==== Sys2Proof/Proofs/Chain.lean ====
section
/-! PROOF. The banks through a pass, and the requests on the ACTIVE chain: the switch (R32, R33), the cancel (R49), the
stop mark and the pause (R47, R48). -/

namespace Sys2Proof.Machine
open Sys2Proof

/-! ## The banks through a pass -/

/-- The banks and the queued switch are the same, and no stop mark has come. -/
structure Walker.SameChain (w w' : Walker) : Prop where
  active : w'.active = w.active
  standby : w'.standby = w.standby
  queuedSwitch : w'.queuedSwitch = w.queuedSwitch
  stopMark : w.stopMark = none → w'.stopMark = none

theorem Walker.SameChain.refl (w : Walker) : w.SameChain w := ⟨rfl, rfl, rfl, id⟩

theorem Walker.SameChain.trans {u v w : Walker} (h : u.SameChain v) (k : v.SameChain w) : u.SameChain w :=
  ⟨k.active.trans h.active, k.standby.trans h.standby, k.queuedSwitch.trans h.queuedSwitch,
    fun e => k.stopMark (h.stopMark e)⟩

theorem Walker.SameChain.of_eq {w w' : Walker} (h : w' = w) : w.SameChain w' := h ▸ .refl w

theorem Walker.stopDone_sameChain (w : Walker) (k : Booking) : w.SameChain (w.stopDone k) := by
  rw [w.stopDone_parts k]
  exact ⟨rfl, rfl, rfl, fun h => by simp [Walker.stopDone_stopMark, h]⟩

theorem Walker.settleCycle_sameChain (w : Walker) : w.SameChain w.settleCycle := by
  unfold Walker.settleCycle
  split <;> exact ⟨rfl, rfl, rfl, id⟩

theorem State.foldl_sameChain {α : Type} {f : State → α → State} (l : List α) (s : State)
    (step : ∀ (x : State) a, x.walker.SameChain (f x a).walker) : s.walker.SameChain (l.foldl f s).walker := by
  induction l generalizing s with
  | nil => exact .refl _
  | cons a l ih => exact (step s a).trans (ih _)

theorem State.deriveUnits_sameChain (s : State) (ids : List UnitId) :
    s.walker.SameChain (s.deriveUnits ids).walker := .of_eq ((s.deriveUnits_keeps ids).same .walker rfl)

theorem State.startBooking_sameChain (s : State) (t : Target) (k : Booking) (n : Nat) :
    s.walker.SameChain (s.startBooking t k n).walker := by
  have dropped := State.foldl_sameChain (s.walker.current.meeting t) s
    (f := fun s old => s.updWalker fun w => { w with current := w.current.drop old.1 }) fun _ _ => ⟨rfl, rfl, rfl, id⟩
  have left := dropped.trans (State.foldl_sameChain (s.walker.current.meeting t) _
    (f := fun s old => s.retire old.1 old.2 old.2.displaced false) fun x old =>
      (x.walker.stopDone_sameChain old.2).trans (.of_eq (x.retire_parts _ _ _ _).2.1))
  unfold State.startBooking
  dsimp only
  refine .trans ?_ (State.deriveUnits_sameChain _ _)
  exact left.trans ⟨rfl, rfl, rfl, id⟩

theorem State.armEntry_sameChain (s : State) (e : Entry) (k : Nat) (late : Bool) :
    s.walker.SameChain (s.armEntry e k late).walker := by
  have told (b : Booking) :
      s.walker.SameChain (if b.marked then s.notifyBooking .stopMarkArmed b noValue else s).walker :=
    .of_eq (by split <;> rfl)
  unfold State.armEntry
  dsimp only
  split
  · exact (told _).trans (State.startBooking_sameChain ..)
  · refine .trans ?_ (State.deriveUnits_sameChain _ _)
    exact (told _).trans ⟨rfl, rfl, rfl, id⟩

/-- The walker once an entry has been missed (R35, R47). -/
def Walker.missed (w : Walker) (k : Nat) : Walker :=
  { w with
    stopMark := if w.marks k then none else w.stopMark
    state := if w.marks k ∧ (w.stopMark.any fun m => m.mode == .pause) then .paused else w.state }

/-- What a missed entry tells, in this order (log entry 44). -/
def State.missNotices (s : State) (e : Entry) (k : Nat) : List Notice :=
  let note := fun (kind : NoticeKind) (value : Nat) =>
    s.noticeOf kind (some e.target.place) (some k) value (some e.tag)
  note .entryMissed noValue :: if s.walker.marks k then [note .stopMarkDone 6] else []

theorem Walker.missed_unmarked {w : Walker} {k : Nat} (h : w.marks k = false) : w.missed k = w := by
  simp [Walker.missed, h]

theorem Walker.missed_marked {w : Walker} {k : Nat} {m : StopMark} (hm : w.stopMark = some m) (hk : m.index = k) :
    w.missed k = { w with stopMark := none, state := if m.mode = .pause then .paused else w.state } := by
  simp [Walker.missed, Walker.marks, hm, hk]

theorem State.missEntry_eq (s : State) (e : Entry) (k : Nat) : s.missEntry e k = { s with
    walker := s.walker.missed k, link := s.link.handed (s.missNotices e k) } := by
  unfold State.missEntry State.missNotices
  simp only [State.notify_walker]
  cases hm : s.walker.stopMark with
  | none =>
    have unmarked : s.walker.marks k = false := by simp [Walker.marks, hm]
    rw [Walker.missed_unmarked unmarked, unmarked]
    rfl
  | some m =>
    have marks : s.walker.marks k = decide (m.index = k) := by simp [Walker.marks, hm]
    by_cases hk : m.index = k
    · rw [Walker.missed_marked hm hk, marks]
      simp only [hk, decide_true, ↓reduceIte]
      rfl
    · rw [Walker.missed_unmarked (by simp [marks, hk]), marks]
      simp only [hk, decide_false, ↓reduceIte, Bool.false_eq_true]
      rfl

theorem State.missEntry_sameChain (s : State) (e : Entry) (k : Nat) :
    s.walker.SameChain (s.missEntry e k).walker := by
  rw [State.missEntry_eq]
  exact ⟨rfl, rfl, rfl, fun h => by simp [Walker.missed, h]⟩

/-- A due entry that does not stall the walker is passed over, armed, started late or missed (R35). -/
theorem State.handleEntry_cases {s s1 : State} {afterSet : Bool} {k : Nat} {e : Entry}
    (h : s.handleEntry afterSet k e = some s1) :
    s1 = s ∨ (∃ late, s1 = s.armEntry e k late) ∨ s1 = s.missEntry e k := by
  unfold State.handleEntry at h
  dsimp only at h
  repeat' split at h
  all_goals first
    | exact .inl (Option.some.inj h).symm
    | exact .inr (.inl ⟨_, (Option.some.inj h).symm⟩)
    | exact .inr (.inr (Option.some.inj h).symm)
    | cases h

theorem State.handleEntry_sameChain {s s1 : State} {afterSet : Bool} {k : Nat} {e : Entry}
    (h : s.handleEntry afterSet k e = some s1) : s.walker.SameChain s1.walker := by
  rcases State.handleEntry_cases h with rfl | ⟨late, rfl⟩ | rfl
  · exact .refl _
  · exact s.armEntry_sameChain e k late
  · exact s.missEntry_sameChain e k

/-- The cursor moves on within the chain while no AT_CHAIN_END switch is queued. -/
theorem State.moveCursor_sameChain {s : State} (k : Nat) (h : s.walker.queuedSwitch ≠ some .atChainEnd) :
    s.walker.SameChain (s.moveCursor k).walker := by
  unfold State.moveCursor
  split
  · exact ⟨rfl, rfl, rfl, id⟩
  · split
    · have wrapped : s.walker.SameChain { s.walker with
          cursor := some 0, offset := s.walker.offset + Config.weekMinutes } := ⟨rfl, rfl, rfl, id⟩
      exact wrapped.trans (Walker.settleCycle_sameChain _)
    · exact ⟨rfl, rfl, rfl, id⟩

theorem State.armingPass_sameChain (afterSet : Bool) (n : Nat) (s : State)
    (h : s.walker.queuedSwitch ≠ some .atChainEnd) : s.walker.SameChain (State.armingPass afterSet n s).walker := by
  induction n generalizing s with
  | zero => exact .refl _
  | succ n ih =>
    cases hc : s.walker.cursor with
    | none => simp only [State.armingPass, hc]; exact .refl _
    | some k =>
      cases he : s.walker.active.entries[k]? with
      | none => simp only [State.armingPass, hc, he]; exact .refl _
      | some e =>
        cases hd : s.dueEntry e with
        | false => rw [State.armingPass_notDue hc he afterSet n hd]; exact ⟨rfl, rfl, rfl, id⟩
        | true =>
          cases hh : s.handleEntry afterSet k e with
          | none => rw [State.armingPass_stalls hc he afterSet n hd hh]; exact ⟨rfl, rfl, rfl, id⟩
          | some s1 =>
            have handled := State.handleEntry_sameChain hh
            have moved := handled.trans (State.moveCursor_sameChain k (handled.queuedSwitch ▸ h))
            rw [State.armingPass_goesOn hc he afterSet n hd hh, State.passOn]
            split
            · exact moved.trans (ih _ (moved.queuedSwitch ▸ h))
            · exact moved.trans (ih _ (moved.queuedSwitch ▸ h))
            · exact moved

theorem State.passOn_sameChain (afterSet : Bool) (n : Nat) (s : State)
    (h : s.walker.queuedSwitch ≠ some .atChainEnd) : s.walker.SameChain (s.passOn afterSet n).walker := by
  unfold State.passOn
  split
  · exact State.armingPass_sameChain _ _ _ h
  · exact State.armingPass_sameChain _ _ _ h
  · exact .refl _

theorem State.pass_eq_passOn (s : State) : s.pass = s.passOn false passBound := rfl

/-! ## The chain switch (R33) -/

/-- The banks change roles, the switch is made and the stop mark is gone. -/
structure Walker.Switched (w w' : Walker) : Prop where
  active : w'.active = { w.standby with state := .active }
  standby : w'.standby = { w.active with entries := [], state := .empty }
  queuedSwitch : w'.queuedSwitch = none
  stopMark : w'.stopMark = none

theorem Walker.Switched.after {w w' w'' : Walker} (h : w.Switched w') (k : w'.SameChain w'') : w.Switched w'' :=
  ⟨k.active.trans h.active, k.standby.trans h.standby, k.queuedSwitch.trans h.queuedSwitch, k.stopMark h.stopMark⟩

theorem Walker.placeAt_parts (w : Walker) (minute : Nat) (ahead : Entry → Bool) : w.placeAt minute ahead = { w with
    cycle := minute
    offset := if (w.active.entries.findIdx? ahead).isSome then 0 else 10080
    cursor := some ((w.active.entries.findIdx? ahead).getD 0) } := by
  unfold Walker.placeAt
  cases w.active.entries.findIdx? ahead <;> rfl

theorem Walker.switched_switched (w : Walker) (minute : Nat) (clockSet : Bool) :
    w.Switched (w.switched minute clockSet) := by
  unfold Walker.switched
  dsimp only
  split
  · exact ⟨rfl, rfl, rfl, rfl⟩
  · rw [Walker.placeAt_parts]
    exact ⟨rfl, rfl, rfl, rfl⟩

/-- A walker that waits for its first clock set is not placed; any other stands at the first start to come. -/
theorem Walker.switched_cursor (w : Walker) (minute : Nat) (clockSet : Bool) :
    (w.switched minute clockSet).cursor.getD 255 =
      if w.state == .clockWait || (w.state == .idle && !clockSet) then 255
      else (w.standby.entries.findIdx? fun e => decide (minute < e.start)).getD 0 := by
  have waits : w.switchedState clockSet = .clockWait ↔
      (w.state == .clockWait || (w.state == .idle && !clockSet)) = true := by
    unfold Walker.switchedState
    cases w.state <;> cases clockSet <;> decide
  unfold Walker.switched
  dsimp only
  by_cases h : w.switchedState clockSet = .clockWait
  · rw [if_pos h, if_pos (waits.mp h)]
    rfl
  · rw [if_neg h, if_neg (fun k => h (waits.mpr k)), Walker.placeAt_parts]
    rfl

theorem State.switchChain_parts (s : State) :
    s.switchChain.walker = s.walker.switched s.clock.minute s.clock.isSet ∧
      s.switchChain.link = s.link.place (s.noticeOf .chainSwitched none none
        (s.walker.standby.entries.length +
          256 * (s.walker.switched s.clock.minute s.clock.isSet).cursor.getD 255) none) := by
  let changed := s.updWalker fun w => w.switched s.clock.minute s.clock.isSet
  let standing := changed.walker.next.standing ++ changed.walker.current.standing
  have kept : Keeps [.units, .modes, .lighting] changed
      (standing.foldl (fun s k => s.deriveUnits (s.space.units.ofTarget k.1)) changed) :=
    .foldl _ _ (.refl _ _) fun x k => x.deriveUnits_keeps _
  have walker := kept.same .walker rfl
  have link := kept.same .notices rfl
  have clock := kept.same .clock rfl
  have entries : changed.walker.active.entries = s.walker.standby.entries := by
    rw [show changed.walker.active = _ from (s.walker.switched_switched s.clock.minute s.clock.isSet).active]
  unfold State.switchChain
  dsimp only
  refine ⟨walker, ?_⟩
  rw [State.notify_link, State.noticeOf_congr (s := s) clock, link, ← entries]
  rfl

theorem State.switchAndPass_switched (s : State) : s.walker.Switched s.switchAndPass.walker := by
  have switched : s.walker.Switched s.switchChain.walker := by
    rw [s.switchChain_parts.1]
    exact s.walker.switched_switched _ _
  unfold State.switchAndPass
  dsimp only
  split
  · exact switched.after (State.passOn_sameChain _ _ _ (by rw [switched.queuedSwitch]; simp))
  · exact switched

/-- CHAIN_SWITCHED goes ahead of the notices of the pass (log entry 44). -/
theorem State.switchAndPass_link (s : State) : ∃ ns, s.switchAndPass.link = s.switchChain.link.handed ns := by
  unfold State.switchAndPass
  dsimp only
  split
  · exact (State.pass_keeps _).same .link rfl
  · exact ⟨[], rfl⟩

/-! ## CHAIN_SWITCH (R32) -/

section
variable {s : State}

theorem State.answerChainSwitch_now (hb : s.walker.standby.state = .ready) {x : Byte}
    (hx : x = 0 ∨ (x = 2 ∧ (s.walker.state = .idle ∨ s.walker.state = .finished))) :
    s.answerChainSwitch x = accept [] s.switchAndPass := by
  rcases hx with rfl | ⟨rfl, hs⟩
  · simp [State.answerChainSwitch, timingOperand, hb, switchesNow]
  · rcases hs with hs | hs <;> simp [State.answerChainSwitch, timingOperand, hb, switchesNow, hs]

theorem State.answerChainSwitch_atWeekEnd (hb : s.walker.standby.state = .ready) :
    s.answerChainSwitch 1 = accept [] (s.updWalker fun w => { w with queuedSwitch := some .atWeekEnd }) := by
  simp [State.answerChainSwitch, timingOperand, hb, switchesNow]

theorem State.answerChainSwitch_atChainEnd (hb : s.walker.standby.state = .ready) (hi : s.walker.state ≠ .idle)
    (hf : s.walker.state ≠ .finished) :
    s.answerChainSwitch 2 = accept [] (s.updWalker fun w => { w with queuedSwitch := some .atChainEnd }) := by
  simp [State.answerChainSwitch, timingOperand, hb, switchesNow, hi, hf]

theorem State.answerChainSwitch_notReady (hb : s.walker.standby.state ≠ .ready) {x : Byte} (hx : x.toNat ≤ 2) :
    s.answerChainSwitch x = refuse .wrongState s := by
  have timed : x.toNat = 0 ∨ x.toNat = 1 ∨ x.toNat = 2 := by omega
  rcases timed with h | h | h <;> simp [State.answerChainSwitch, timingOperand, h, hb]

theorem State.answerChainSwitch_badValue {x : Byte} (hx : 3 ≤ x.toNat) :
    s.answerChainSwitch x = refuse .badValue s := by
  have none : timingOperand x = none := by
    unfold timingOperand
    split
    · omega
    · omega
    · omega
    · rfl
  simp only [State.answerChainSwitch, none]

/-! ## CHAIN_CANCEL (R49) -/

/-- Bookings that leave CURRENT one by one while no stop mark stands. -/
theorem State.foldl_leaveCurrent_walker (ks : List (Target × Booking)) (o : BookingOutcome) {s : State}
    (h : s.walker.stopMark = none) :
    (ks.foldl (fun s k => s.leaveCurrent k.1 k.2 o false) s).walker =
      { s.walker with current := ks.foldl (fun p k => p.drop k.1) s.walker.current } := by
  induction ks generalizing s with
  | nil => rfl
  | cons k ks ih =>
    have left : (s.leaveCurrent k.1 k.2 o false).walker =
        { s.walker with current := s.walker.current.drop k.1 } := by
      rw [(s.leaveCurrent_parts k.1 k.2 o false).2.1]
      simp only [Walker.stopDone, h]
    rw [List.foldl_cons, ih (by rw [left]; exact h), left]
    rfl

/-- With no AT_CHAIN_END switch queued, the cancel leaves the walker as it puts it, with CURRENT empty too. -/
theorem State.cancelChain_walker (h : s.walker.queuedSwitch ≠ some .atChainEnd) :
    s.cancelChain.walker = { s.walker.cancelled with current := .cells none none } := by
  let cancelled := s.updWalker Walker.cancelled
  let derived := s.walker.next.standing.foldl (fun s k => s.deriveUnits (s.space.units.ofTarget k.1)) cancelled
  let left := derived.walker.current.standing.foldl (fun s k => s.leaveCurrent k.1 k.2 .cancelled false) derived
  have walker : derived.walker = s.walker.cancelled :=
    (Keeps.foldl (ys := [.units, .modes, .lighting]) _ _ (.refl _ cancelled) fun x k =>
      x.deriveUnits_keeps _).same .walker rfl
  have emptied : left.walker = { s.walker.cancelled with current := .cells none none } := by
    unfold left
    rw [State.foldl_leaveCurrent_walker _ _ (by rw [walker]; rfl), SlotPair.foldl_drop_standing, walker]
  have cancels : s.cancelChain = left := if_neg (by rw [show left.walker = _ from emptied]; exact h)
  rw [cancels, emptied]

end

/-- Settles O29. -/
theorem chainSwitchChangesTheBanks : Obligations.ChainSwitchChangesTheBanks := by
  intro tag x s hs
  refine ⟨fun hb => ⟨fun hx => ?_, ?_, ?_⟩, fun hb hx => ?_, fun hx => ?_⟩
  · obtain ⟨active, standby, queuedSwitch, stopMark⟩ := s.switchAndPass_switched
    obtain ⟨ns, link⟩ := s.switchAndPass_link
    have kept := s.switchAndPass_keeps
    have requests : s.switchAndPass.link.requests = s.link.requests := by
      obtain ⟨all, handed⟩ := kept.same .link rfl
      rw [handed, Link.handed_requests]
    rw [s.switchChain_parts.2, Walker.switched_cursor] at link
    refine ⟨_, ns, exec_answered hs rfl rfl (State.answerChainSwitch_now hb hx) requests, active, standby,
      queuedSwitch, stopMark, kept.same .clock rfl, kept.working rfl rfl rfl rfl, ?_⟩
    exact congrArg (fun l : Link => l.answered 0x14 tag .ok []) link
  · rintro rfl
    exact exec_answered hs rfl rfl (State.answerChainSwitch_atWeekEnd hb) rfl
  · rintro rfl hi hf
    exact exec_answered hs rfl rfl (State.answerChainSwitch_atChainEnd hb hi hf) rfl
  · exact exec_refused hs rfl rfl (State.answerChainSwitch_notReady hb hx)
  · exact exec_refused hs rfl rfl (State.answerChainSwitch_badValue hx)

/-- Settles O30. -/
theorem chainCancelEmptiesTheChain : Obligations.ChainCancelEmptiesTheChain := by
  intro tag s hs hq
  have walker := State.cancelChain_walker hq
  have kept := s.cancelChain_keeps
  obtain ⟨ns, link⟩ := kept.same .link rfl
  have answered : s.answerChainCancel = accept [] s.cancelChain := rfl
  generalize s.cancelChain = t at walker kept link answered
  refine ⟨_, ns, exec_answered hs rfl rfl answered (by rw [link, Link.handed_requests]), ?_⟩
  dsimp only
  rw [walker, link]
  exact ⟨rfl, rfl, rfl, rfl, rfl, rfl, fun c => by cases c <;> exact ⟨rfl, rfl⟩, rfl, kept.same .clock rfl,
    kept.working rfl rfl rfl rfl, kept.same .doors rfl, kept.same .faults rfl⟩

/-! ## SET_STOP_MARK, WALKER_PAUSE and WALKER_RESUME (R47, R48) -/

theorem markOperand_of_code {b : Byte} {m : MarkMode} (h : b.toNat = m.code) : markOperand b = some m := by
  cases m <;> simp [markOperand, h, MarkMode.code]

section
variable {s : State}

theorem State.answerSetStopMark_set (ha : s.walker.active.state = .active) {x y : Byte} {m : MarkMode}
    (hy : y.toNat = m.code) (hx : x.toNat < s.walker.active.entries.length) (hn : x ≠ 0xFF) :
    s.answerSetStopMark x y =
      accept [] (s.updWalker fun w => { w with stopMark := some { index := x.toNat, mode := m } }) := by
  have named : allOnes x = false := decide_eq_false hn
  simp [State.answerSetStopMark, ha, markOperand_of_code hy, named, Nat.not_le.mpr hx]

theorem State.answerSetStopMark_cleared (ha : s.walker.active.state = .active) {y : Byte} {m : MarkMode}
    (hy : y.toNat = m.code) :
    s.answerSetStopMark 0xFF y = accept [] (s.updWalker fun w => { w with stopMark := none }) := by
  simp [State.answerSetStopMark, ha, markOperand_of_code hy, allOnes]

theorem State.answerWalkerPause_paused (h : s.walker.state = .running ∨ s.walker.state = .stalled) :
    s.answerWalkerPause = accept [] (s.updWalker fun w => { w with state := .paused }) := by
  rcases h with h | h <;> simp only [State.answerWalkerPause, h]

/-- A PAUSED walker resumes as a RUNNING one and makes an arming pass. -/
theorem State.answerWalkerResume_resumed (h : s.walker.state = .paused) :
    s.answerWalkerResume = accept []
      (State.armingPass false passBound (s.updWalker fun w => { w with state := .running })) := by
  simp only [State.answerWalkerResume, h]
  rfl

end

/-- Settles O31. -/
theorem walkerRequestsMoveTheWalkerState : Obligations.WalkerRequestsMoveTheWalkerState := by
  intro tag x y m s hs
  refine ⟨fun ha hy hx hn => ?_, fun ha hy => ?_, fun h => ?_, fun k e h hc he hd => ?_⟩
  · exact exec_answered hs rfl rfl (State.answerSetStopMark_set ha hy hx hn) rfl
  · exact exec_answered hs rfl rfl (State.answerSetStopMark_cleared ha hy) rfl
  · exact exec_answered hs rfl rfl (State.answerWalkerPause_paused h) rfl
  · let running := s.updWalker fun w => { w with state := .running }
    have ends : State.armingPass false passBound running = running :=
      State.armingPass_notDue (s := running) hc he false 399 ((State.dueEntry_eq_false running e).mpr hd)
    exact exec_answered hs rfl rfl ((State.answerWalkerResume_resumed h).trans (congrArg _ ends)) rfl

end Sys2Proof.Machine
end

