-- ==== Sys2Proof/Proofs/Release.lean ====
section
/-! PROOF. RELEASE_HOLD (R43). -/

namespace Sys2Proof.Machine
open Sys2Proof

/-- The target under which a booking in a cell's slot stands (R39). -/
def SlotPair.targetIn (p : SlotPair) (c : Cell) : Target :=
  match p, c with
  | .joined _, _ => .joined
  | .cells _ _, .a => .a
  | .cells _ _, .b => .b

theorem SlotPair.inCell_drop_self (p : SlotPair) (c : Cell) : (p.drop (p.targetIn c)).inCell c = none := by
  cases p <;> cases c <;> rfl

theorem SlotPair.inCell_drop_other (p : SlotPair) {c d : Cell} (h : d ≠ c) :
    (p.drop (p.targetIn c)).inCell d = if p.targetIn c = .joined then none else p.inCell d := by
  cases p <;> cases c <;> cases d <;> first | rfl | exact absurd rfl h

/-- The HELD booking of a cell is the booking in its CURRENT slot, if that is HELD. -/
theorem State.heldIn_eq (s : State) (c : Cell) : s.heldIn c =
    ((s.walker.current.inCell c).filter fun k => decide (k.state = .held)).map
      fun k => (s.walker.current.targetIn c, k) := by
  unfold State.heldIn
  cases s.walker.current with
  | joined k =>
    by_cases hk : k.state = .held <;> cases c <;>
      simp [SlotPair.standing, SlotPair.inCell, SlotPair.targetIn, Target.cells, Option.filter, hk]
  | cells a b =>
    cases c with
    | a =>
      cases a with
      | none => cases b <;> simp [SlotPair.standing, SlotPair.inCell, Target.cells]
      | some k =>
        by_cases hk : k.state = .held <;> cases b <;>
          simp [SlotPair.standing, SlotPair.inCell, SlotPair.targetIn, Target.cells, Option.filter, hk]
    | b =>
      cases b with
      | none => cases a <;> simp [SlotPair.standing, SlotPair.inCell, Target.cells]
      | some k =>
        by_cases hk : k.state = .held <;> cases a <;>
          simp [SlotPair.standing, SlotPair.inCell, SlotPair.targetIn, Target.cells, Option.filter, hk]

section
variable {s : State} {c : Cell} {x : Byte} (hx : x.toNat = cellCode c)
include hx

theorem State.answerReleaseHold_released {k : Booking} (hk : s.walker.current.inCell c = some k)
    (hh : k.state = .held) : s.answerReleaseHold x =
      accept [] (s.leaveCurrent (s.walker.current.targetIn c) k .ended false) := by
  have held : s.heldIn c = some (s.walker.current.targetIn c, k) := by simp [State.heldIn_eq, hk, Option.filter, hh]
  simp only [State.answerReleaseHold, cellOperand_of_code hx, held]

theorem State.answerReleaseHold_notHeld (h : ∀ k, s.walker.current.inCell c = some k → k.state ≠ .held) :
    s.answerReleaseHold x = refuse .wrongState s := by
  have none : s.heldIn c = none := by
    rw [State.heldIn_eq]
    cases hk : s.walker.current.inCell c with
    | none => rfl
    | some k => simp [Option.filter, h k hk]
  simp only [State.answerReleaseHold, cellOperand_of_code hx, none]

end

theorem State.answerReleaseHold_badValue {s : State} {x : Byte} (hx : 2 ≤ x.toNat) :
    s.answerReleaseHold x = refuse .badValue s := by
  simp only [State.answerReleaseHold, cellOperand_of_le hx]

/-- What a released booking tells (log entry 44). -/
theorem State.leaveNotices_released (s : State) (t : Target) (k : Booking) :
    s.leaveNotices t k .ended false =
      (if k.entry.notifyEnd then [s.noticeOf .bookingEnded (some k.entry.target.place) k.index 0 (some k.entry.tag)]
        else []) ++
      if k.marked then [s.noticeOf .stopMarkDone (some k.entry.target.place) k.index 0 (some k.entry.tag)] else [] := by
  simp only [State.leaveNotices, ne_eq, not_true_eq_false, false_or, Bool.false_eq_true, ↓reduceIte, List.nil_append]
  rfl

/-- Settles O32: the booking leaves CURRENT as every booking does. -/
theorem releaseHoldEndsTheHeldBooking : Obligations.ReleaseHoldEndsTheHeldBooking := by
  intro tag x c s hs
  refine ⟨fun hx k hk hh => ?_, fun hx h => ?_, fun hx => ?_⟩
  · obtain ⟨link, walker, units⟩ := s.leaveCurrent_parts (s.walker.current.targetIn c) k .ended false
    have kept := s.leaveCurrent_keeps (s.walker.current.targetIn c) k .ended false
    have run := exec_answered hs rfl rfl (State.answerReleaseHold_released hx hk hh)
      (i := .releaseHold tag x) (by rw [link, Link.handed_requests])
    let dropped : Walker := { s.walker with current := s.walker.current.drop (s.walker.current.targetIn c) }
    have parts := dropped.stopDone_parts k
    generalize s.leaveCurrent (s.walker.current.targetIn c) k .ended false = t at link walker units kept run
    have current : t.walker.current = s.walker.current.drop (s.walker.current.targetIn c) := by rw [walker, parts]
    refine ⟨_, run, ⟨?_, fun d hd => ?_, ?_, fun id u hu => ?_⟩, fun hm => ?_, fun m hmark hm hi => ?_, ?_, ?_,
      kept.same .clock rfl, kept.working rfl rfl rfl rfl, kept.same .doors rfl, kept.same .presence rfl,
      kept.same .air rfl, kept.same .drives rfl, kept.same .blinds rfl⟩
    · exact (congrArg (·.inCell c) current).trans (SlotPair.inCell_drop_self _ c)
    · exact (congrArg (·.inCell d) current).trans (SlotPair.inCell_drop_other _ hd)
    · exact congrArg (fun l : Link => l.answered 0x19 tag .ok [])
        (link.trans (congrArg s.link.handed (s.leaveNotices_released _ k)))
    · obtain ⟨v, hv, tenancy⟩ := units id u hu
      simp only [UnitRec.tenancy, Tenancy.mk.injEq] at tenancy
      obtain ⟨headcount, -, occupancy, -, -, -, -, lingering⟩ := tenancy
      exact ⟨v, hv, headcount, occupancy, lingering⟩
    · dsimp only
      rw [current, walker, Walker.stopDone_unmarked dropped hm]
    · dsimp only
      rw [walker, Walker.stopDone_hit (w := dropped) hm hmark hi]
      have moving (h : s.walker.state = .running ∨ s.walker.state = .stalled) :
          s.walker.state ≠ .idle ∧ s.walker.state ≠ .finished := by
        rcases h with h | h <;> simp [h]
      exact ⟨rfl, fun hp h => if_pos ⟨hp, moving h⟩⟩
    · dsimp only
      rw [walker, parts]
    · dsimp only
      rw [walker, parts]
  · exact exec_refused hs rfl rfl (State.answerReleaseHold_notHeld hx h)
  · exact exec_refused hs rfl rfl (State.answerReleaseHold_badValue hx)

end Sys2Proof.Machine
end

