-- ==== Sys2Proof/Proofs/Arming.lean ====
section
/-! PROOF. A cursor entry that is due: armed, started late, missed, passed over or stalled (R35, R47). -/

namespace Sys2Proof.Machine
open Sys2Proof

/-! ## Arming and starting late -/

/-- The entry's index stands in a slot of its target (R35). -/
theorem Walker.stands_iff (w : Walker) (k : Nat) (t : Target) : w.stands k t = true ↔
    ∃ c ∈ t.cells, ∃ b : Booking, (w.next.inCell c = some b ∨ w.current.inCell c = some b) ∧ b.index = some k := by
  simp only [Walker.stands, List.any_eq_true, Bool.or_eq_true, Option.any_eq_true, decide_eq_true_eq, or_and_right,
    exists_or]

/-- The STOP_MARK_ARMED of a marked entry. -/
def State.armNotices (s : State) (e : Entry) (k : Nat) : List Notice :=
  if s.walker.marks k then [s.noticeOf .stopMarkArmed (some e.target.place) (some k) noValue (some e.tag)] else []

/-- The state once the arming of an entry has been told. -/
def State.armTold (s : State) (e : Entry) (k : Nat) : State := { s with link := s.link.handed (s.armNotices e k) }

/-- The booking that arming makes of an entry, at the place of the walker (R35). -/
def Walker.booked (w : Walker) (e : Entry) (k : Nat) (late : Bool) : Booking :=
  e.arm k (e.start + w.offset - w.cycle) late (w.marks k)

theorem State.armEntry_eq (s : State) (e : Entry) (k : Nat) (late : Bool) : s.armEntry e k late =
    if late then
      (s.armTold e k).startBooking e.target (s.walker.booked e k late)
        (e.start + s.walker.offset + e.duration - s.walker.cycle)
    else
      ((s.armTold e k).updWalker fun w => { w with next := w.next.put e.target (s.walker.booked e k late) }).deriveUnits
        (s.space.units.ofTarget e.target) := by
  have told : (if (s.walker.booked e k late).marked then
      s.notifyBooking .stopMarkArmed (s.walker.booked e k late) noValue else s) = s.armTold e k := by
    unfold State.armTold State.armNotices
    have marks : (s.walker.booked e k late).marked = s.walker.marks k := rfl
    rw [marks]
    split <;> rfl
  have arms : s.armEntry e k late =
      let x := if (s.walker.booked e k late).marked then
        s.notifyBooking .stopMarkArmed (s.walker.booked e k late) noValue else s
      if late then
        x.startBooking e.target (s.walker.booked e k late) (e.start + s.walker.offset + e.duration - s.walker.cycle)
      else (x.updWalker fun w => { w with next := w.next.put e.target (s.walker.booked e k late) }).deriveUnits
        (x.space.units.ofTarget e.target) := rfl
  rw [arms, told]
  rfl

/-- An entry armed ahead of its start stands in NEXT. -/
theorem State.armEntry_ahead (s : State) (e : Entry) (k : Nat) :
    (s.armEntry e k false).walker =
        { s.walker with next := s.walker.next.put e.target (s.walker.booked e k false) } ∧
      (s.armEntry e k false).link = s.link.handed (s.armNotices e k) := by
  rw [State.armEntry_eq, if_neg Bool.false_ne_true]
  have kept := ((s.armTold e k).updWalker fun w =>
    { w with next := w.next.put e.target (s.walker.booked e k false) }).deriveUnits_keeps
      (s.space.units.ofTarget e.target)
  exact ⟨kept.same .walker rfl, kept.same .notices rfl⟩

/-- The booking of an entry that starts late, as it stands in CURRENT. -/
def State.bookedLate (s : State) (e : Entry) (k : Nat) : Booking :=
  (s.walker.booked e k true).started (e.start + s.walker.offset + e.duration - s.walker.cycle)
    (s.occupiedTarget e.target)

/-- The BOOKING_STARTED of an entry that starts late. -/
def State.lateNotice (s : State) (e : Entry) (k : Nat) : Notice :=
  s.noticeOf .bookingStarted (some e.target.place) (some k) 1 (some e.tag)

/-- An entry that starts late where CURRENT is free. -/
theorem State.armEntry_late_alone {s : State} {e : Entry} (k : Nat) (h : s.walker.current.meeting e.target = []) :
    (s.armEntry e k true).walker =
        { s.walker with current := s.walker.current.put e.target (s.bookedLate e k) } ∧
      (s.armEntry e k true).link = s.link.handed (s.armNotices e k ++ [s.lateNotice e k]) := by
  rw [State.armEntry_eq, if_pos rfl, Link.handed_append]
  exact State.startBooking_alone (s := s.armTold e k) _ _ h

/-- An entry that starts late and displaces one booking, which is not marked. -/
theorem State.armEntry_late_displacing {s : State} {e : Entry} (k : Nat) {target : Target} {old : Booking}
    (h : s.walker.current.meeting e.target = [(target, old)]) (hm : old.marked = false) :
    (s.armEntry e k true).walker =
        { s.walker with current := (s.walker.current.drop target).put e.target (s.bookedLate e k) } ∧
      (s.armEntry e k true).link = s.link.handed (s.armNotices e k ++
        [s.bookingNotice .bookingEnded old old.displaced.code, s.lateNotice e k]) := by
  rw [State.armEntry_eq, if_pos rfl, Link.handed_append]
  exact State.startBooking_displacing (s := s.armTold e k) _ _ h hm

/-! ## The cases of R35 -/

section
variable {s : State} {k : Nat} {e : Entry}

theorem State.handleEntry_stands (h : s.walker.stands k e.target = true) (afterSet : Bool) :
    s.handleEntry afterSet k e = some s := by simp [State.handleEntry, h]

/-- A due entry that stands in a slot, or needs none that is occupied, does not stall the walker. -/
theorem State.handleEntry_isSome (h : s.walker.stands k e.target = true ∨ s.walker.next.free e.target = true)
    (afterSet : Bool) : ∃ x, s.handleEntry afterSet k e = some x := by
  unfold State.handleEntry
  dsimp only
  repeat' split
  all_goals first | exact ⟨_, rfl⟩ | simp_all

variable (hs : s.walker.stands k e.target = false)
include hs

theorem State.handleEntry_stalls (hf : s.walker.next.free e.target = false) : s.handleEntry false k e = none := by
  simp [State.handleEntry, hs, hf]

theorem State.handleEntry_passedOver (hf : s.walker.next.free e.target = false)
    (hb : e.start + s.walker.offset ≤ s.walker.cycle) : s.handleEntry true k e = some (s.missEntry e k) := by
  simp [State.handleEntry, hs, hf, hb]

variable (hf : s.walker.next.free e.target = true)
include hf

theorem State.handleEntry_ahead (hb : s.walker.cycle < e.start + s.walker.offset) (afterSet : Bool) :
    s.handleEntry afterSet k e = some (s.armEntry e k false) := by simp [State.handleEntry, hs, hf, hb]

theorem State.handleEntry_late (hb : e.start + s.walker.offset ≤ s.walker.cycle)
    (he : s.walker.cycle < e.start + s.walker.offset + e.duration) (afterSet : Bool) :
    s.handleEntry afterSet k e = some (s.armEntry e k true) := by
  simp [State.handleEntry, hs, hf, Nat.not_lt.mpr hb, he]

theorem State.handleEntry_missed (he : e.start + s.walker.offset + e.duration ≤ s.walker.cycle) (afterSet : Bool) :
    s.handleEntry afterSet k e = some (s.missEntry e k) := by
  have begun : ¬ s.walker.cycle < e.start + s.walker.offset := by omega
  simp [State.handleEntry, hs, hf, begun, Nat.not_lt.mpr he]

end

/-! ## A pass over one entry -/

/-- The state that a pass moves a walker on to: a miss may have made it PAUSED (R47). -/
def WalkerState.movedTo (state next : WalkerState) : WalkerState :=
  if state = .paused ∧ next = .running then .paused else next

theorem WalkerState.running_movedTo (next : WalkerState) : WalkerState.movedTo .running next = next := rfl

/-- A walker of the chain of another, its slots, its stop mark and its state apart. -/
def Walker.edited (w : Walker) (next current : SlotPair) (mark : Option StopMark) (state : WalkerState) : Walker :=
  { w with next := next, current := current, stopMark := mark, state := state }

/-- A pass that handles one entry and ends behind it: what handling the entry has left, with the walker moved on. -/
theorem State.armingPass_handled {s x : State} {w' : Walker} {k : Nat} {e : Entry} (hc : s.walker.cursor = some k)
    (he : s.walker.active.entries[k]? = some e) {afterSet : Bool} (hd : s.dueEntry e = true)
    (hh : s.handleEntry afterSet k e = some x) (h : s.walker.passesTo s.lead k w')
    (kept : Keeps [.notices, .walker, .units, .modes, .lighting] s x) {next current : SlotPair}
    {mark : Option StopMark} {state : WalkerState} (hw : x.walker = s.walker.edited next current mark state)
    (hs : state = .running ∨ state = .paused) :
    State.armingPass afterSet passBound s = { x with
      walker := w'.edited next current mark (state.movedTo w'.state)
      link := x.link.handed (s.finishNotices w') } := by
  have leads : x.lead = s.lead := by
    funext f
    rw [State.lead, State.lead, kept.working rfl rfl rfl rfl]
  have moved : x.walker.passesTo x.lead k (x.walker.placedAs w') := by
    rw [leads]
    exact h.alike (by rw [hw]; rfl) (by rw [hw]; rfl) (by rw [hw]; rfl) (by rw [hw]; rfl)
  have told : x.finishNotices (x.walker.placedAs w') = s.finishNotices w' := by
    simp only [State.finishNotices, State.noticeOf_congr (s := s) (kept.same .clock rfl)]
    rfl
  have at_x : x.walker.state = state := by rw [hw]; rfl
  rw [State.armingPass_ends hc he hd hh moved (at_x.symm ▸ hs), told]
  have walker : (x.walker.placedAs w').edited next current mark state = w'.edited next current mark state := by
    conv_rhs => rw [h.placed]
    rw [hw]
    rfl
  have parts (v : Walker) (st : WalkerState) : v.edited next current mark st =
      { v.edited next current mark state with state := st } := rfl
  rw [parts w', ← walker, at_x, hw]
  rfl

/-! ## WALKER_RESUME at a due entry -/

section
variable {s : State} (hs : s.Takes) (tag : Byte) (hp : s.walker.state = .paused) {k : Nat} {e : Entry}
  (hc : s.walker.cursor = some k) (he : s.walker.active.entries[k]? = some e)

/-- The walker resumed, before its pass. -/
def State.resumed (s : State) : State := s.updWalker fun w => { w with state := .running }

include hs hp in
/-- A resumed walker makes its pass, and the request is answered OK. -/
theorem exec_walkerResume {x : State} (hx : State.armingPass false passBound s.resumed = x) {ns : List Notice}
    (link : x.link = s.link.handed ns) : exec (.walkerResume tag) s =
      .next { x with link := (s.link.handed ns).answered 0x18 tag .ok [] } := by
  rw [exec_answered hs rfl rfl ((State.answerWalkerResume_resumed hp).trans (congrArg (accept []) hx))
    (by rw [link, Link.handed_requests]), ← link]

include hs hp hc he in
/-- A resumed walker handles its due cursor entry, and its pass ends behind it. -/
theorem exec_walkerResume_handled {x : State} {w' : Walker}
    (hd : e.start + s.walker.offset ≤ s.walker.cycle + s.lead e) (hh : s.resumed.handleEntry false k e = some x)
    (h : s.walker.passesTo s.lead k w') (kept : Keeps [.notices, .walker, .units, .modes, .lighting] s.resumed x)
    {next current : SlotPair} {mark : Option StopMark} {state : WalkerState}
    (hw : x.walker = s.walker.edited next current mark state) (hr : state = .running ∨ state = .paused)
    {ns : List Notice} (link : x.link = s.link.handed ns) :
    exec (.walkerResume tag) s = .next { s with
      walker := w'.edited next current mark (state.movedTo w'.state)
      link := (s.link.handed (ns ++ s.finishNotices w')).answered 0x18 tag .ok []
      lighting := x.lighting
      space := { s.space with units := x.space.units } } := by
  have moves : s.resumed.walker.passesTo s.resumed.lead k w' := by
    have alike := h.alike (v := s.resumed.walker) rfl rfl rfl rfl
    rwa [show s.resumed.walker.placedAs w' = s.walker.placedAs w' from rfl, ← h.placed] at alike
  have pass := State.armingPass_handled (s := s.resumed) hc he ((State.dueEntry_eq_true s.resumed e).mpr hd) hh moves
    kept hw hr
  have handed : x.link.handed (s.finishNotices w') = s.link.handed (ns ++ s.finishNotices w') := by
    rw [link, Link.handed_append]
  rw [exec_walkerResume hs tag hp pass handed]
  exact congrArg (fun y : State => Host.Outcome.next (φ := Fault) (ρ := Refusal) { y with
    walker := w'.edited next current mark (state.movedTo w'.state)
    link := (s.link.handed (ns ++ s.finishNotices w')).answered 0x18 tag .ok [] }) kept.walker_parts

end

end Sys2Proof.Machine
end

