-- ==== Sys2Proof/Proofs/Minute.lean ====
section
/-! PROOF. The week clock's own events (R25, R26) and the walker's minute (R40): what a minute makes of the slots, and
when no arming pass follows. -/

namespace Sys2Proof.Machine
open Sys2Proof

/-! ## The minute event (R25, R40) -/

/-- The last minute of the week is passing (R25). -/
def State.weekEnds (s : State) : Bool := decide (Config.weekMinutes ≤ s.clock.minute + 1)

/-- The week clock once a minute has passed, before the walker handles it. -/
def State.minutePassed (s : State) : State :=
  s.updClock fun c =>
    { c with minute := if s.weekEnds then 0 else s.clock.minute + 1, second := 0, subMs := 0 }

theorem State.minuteEvent_eq (s : State) : s.minuteEvent = s.minutePassed.walkMinute s.weekEnds := rfl

theorem State.minutePassed_clock {s : State} (h : s.clock.minute ≤ 10079) :
    s.minutePassed.clock = { s.clock with minute := (s.clock.minute + 1) % 10080, second := 0, subMs := 0 } := by
  have minute : (if s.weekEnds then 0 else s.clock.minute + 1) = (s.clock.minute + 1) % 10080 := by
    unfold State.weekEnds Config.weekMinutes
    by_cases ends : 10080 ≤ s.clock.minute + 1
    · rw [decide_eq_true ends, if_pos rfl]
      omega
    · rw [decide_eq_false ends, if_neg Bool.false_ne_true]
      omega
  rw [State.minutePassed, State.updClock_clock, minute]

/-- A minute event hands over notices alone, and the transmitter starts what it can. -/
theorem exec_minuteEvent {s : State} (hs : s.Settled) :
    exec .minuteEvent s = .next (s.minuteEvent.updLink Link.startFrame) := by
  obtain ⟨ns, link⟩ := s.minuteEvent_keeps.same .link rfl
  exact congrArg Host.Outcome.next (State.settle_handed hs link)

/-! ## The slots through a minute (R40) -/

theorem Walker.advance_parts (w : Walker) (d : Nat) :
    w.advance d = { w with cycle := (w.advance d).cycle, offset := (w.advance d).offset } := by
  unfold Walker.advance Walker.settleCycle
  split
  · rfl
  · rfl
  · split <;> rfl

/-- The walker's cycle clock moved on by a minute: step 1 of R40. -/
def State.cycleMoved (s : State) : State := s.updWalker fun w => w.advance 1

/-- Steps 1 and 2 of R40: the cycle clock, and the bookings in CURRENT. -/
def State.minuteCurrents (s : State) : State :=
  s.cycleMoved.walker.current.standing.foldl (fun s k => s.minuteCurrent k.1 k.2) s.cycleMoved

/-- Steps 1 to 3 of R40: the bookings in NEXT too. -/
def State.minuteSlots (s : State) : State :=
  s.minuteCurrents.walker.next.standing.foldl (fun s k => s.minuteNext k.1 k.2) s.minuteCurrents

/-- A booking in NEXT starts at this minute. -/
def State.minuteStarts (s : State) : Bool :=
  s.minuteCurrents.walker.next.standing.any fun k => decide (k.2.minutes ≤ 1)

/-- Step 5 of R40: the arming pass that follows. -/
def State.minutePass (s : State) (started : Bool) : State :=
  match s.walker.state with
  | .running => s.pass
  | .stalled => if started then s.pass else s
  | _ => s

theorem State.walkMinute_eq (s : State) (weekEnd : Bool) : s.walkMinute weekEnd =
    (if weekEnd = true ∧ s.minuteSlots.walker.queuedSwitch = some .atWeekEnd then s.minuteSlots.switchAndPass
      else s.minuteSlots).minutePass s.minuteStarts := rfl

/-- No arming pass and no switch follow where the walker rests. -/
theorem State.walkMinute_rests {s : State} (weekEnd : Bool)
    (hs : s.minuteSlots.walker.state = .paused ∨ s.minuteSlots.walker.state = .idle ∨
      s.minuteSlots.walker.state = .finished)
    (hq : s.minuteSlots.walker.queuedSwitch ≠ some .atWeekEnd) : s.walkMinute weekEnd = s.minuteSlots := by
  rw [State.walkMinute_eq, if_neg fun h => hq h.2]
  rcases hs with hs | hs | hs <;> simp only [State.minutePass, hs]

section
variable {s : State} {target : Target} {k : Booking}

theorem State.cycleMoved_walker (s : State) : s.cycleMoved.walker = { s.walker with
    cycle := (s.walker.advance 1).cycle, offset := (s.walker.advance 1).offset } := s.walker.advance_parts 1

/-- With CURRENT empty, no booking there has a minute. -/
theorem State.minuteCurrents_empty (hc : s.walker.current = .cells none none) : s.minuteCurrents = s.cycleMoved := by
  have current : s.cycleMoved.walker.current = .cells none none := by rw [State.cycleMoved_walker]; exact hc
  rw [State.minuteCurrents, current]
  rfl

/-- With one booking, in NEXT, a minute is its minute. -/
theorem State.minuteSlots_next (hn : s.walker.next = (SlotPair.cells none none).put target k)
    (hc : s.walker.current = .cells none none) : s.minuteSlots = s.cycleMoved.minuteNext target k := by
  have next : s.cycleMoved.walker.next = (SlotPair.cells none none).put target k := by
    rw [State.cycleMoved_walker]; exact hn
  rw [State.minuteSlots, State.minuteCurrents_empty hc, next, SlotPair.standing_put]
  rfl

/-- With one booking, in CURRENT, a minute is its minute. -/
theorem State.minuteSlots_current (hc : s.walker.current = (SlotPair.cells none none).put target k)
    (hn : (s.cycleMoved.minuteCurrent target k).walker.next = .cells none none) :
    s.minuteSlots = s.cycleMoved.minuteCurrent target k := by
  have current : s.cycleMoved.walker.current = (SlotPair.cells none none).put target k := by
    rw [State.cycleMoved_walker]; exact hc
  have currents : s.minuteCurrents = s.cycleMoved.minuteCurrent target k := by
    rw [State.minuteCurrents, current, SlotPair.standing_put]
    rfl
  rw [State.minuteSlots, currents, hn]
  rfl

/-- A STALLED walker makes no pass at a minute that starts no booking (R37). -/
theorem State.walkMinute_stalled (weekEnd : Bool) (hs : s.walker.state = .stalled) (hq : s.walker.queuedSwitch = none)
    (hn : s.walker.next = (SlotPair.cells none none).put target k) (hc : s.walker.current = .cells none none)
    (hk : 1 < k.minutes) : s.walkMinute weekEnd =
      s.cycleMoved.updWalker fun w => { w with next := w.next.put target { k with minutes := k.minutes - 1 } } := by
  have slots : s.minuteSlots =
      s.cycleMoved.updWalker fun w => { w with next := w.next.put target { k with minutes := k.minutes - 1 } } := by
    rw [State.minuteSlots_next hn hc, State.minuteNext, if_neg (by omega)]
  have starts : s.minuteStarts = false := by
    have next : s.cycleMoved.walker.next = (SlotPair.cells none none).put target k := by
      rw [State.cycleMoved_walker]; exact hn
    rw [State.minuteStarts, State.minuteCurrents_empty hc, next, SlotPair.standing_put]
    simpa using hk
  have queued : s.minuteSlots.walker.queuedSwitch = none := by
    rw [slots, State.updWalker_walker, State.cycleMoved_walker]; exact hq
  have state : s.minuteSlots.walker.state = .stalled := by
    rw [slots, State.updWalker_walker, State.cycleMoved_walker]; exact hs
  rw [State.walkMinute_eq, if_neg (by simp [queued]), starts, ← slots]
  simp only [State.minutePass, state, Bool.false_eq_true, ↓reduceIte]

end

/-! ## The clock's events (R25, R26) -/

/-- A stop of the crystal while the clock is not degraded raises the record and CLOCK_DEGRADED. -/
theorem State.stopCrystal_eq {s : State} (hc : s.clock.crystal = true) (hd : s.clock.degraded = false) :
    ∃ n : Notice, n.kind = .clockDegraded ∧ s.stopCrystal = { s with
      clock := { s.clock with crystal := false, degraded := true }
      faults := updAt s.faults clockSource fun r => { r.report .clockDegraded s.clock.minute with state := .active }
      link := s.link.place n } := by
  let x := (s.updClock fun c => { c with crystal := false, degraded := true }).reportPlain clockSource .clockDegraded
    .active
  refine ⟨x.noticeOf .clockDegraded none (some clockSource.val)
    (x.faults[clockSource].state.code + 256 * x.faults[clockSource].kind.code) none, rfl, ?_⟩
  rw [State.stopCrystal, if_pos hc]
  simp only [hd, Bool.false_eq_true, ↓reduceIte]
  rfl

/-- Settles O33. -/
theorem theClockCounts : Obligations.TheClockCounts := by
  intro s hs
  refine ⟨fun h => ?_, fun hm i hi => ?_, fun hc hd => ?_, finish_same hs rfl⟩
  · have ticks : s.tickSecond = _ := if_pos h
    exact (congrArg finish ticks).trans (finish_same hs rfl)
  · have run : exec i s = .next (s.minuteEvent.updLink Link.startFrame) := by
      rcases hi with rfl | ⟨rfl, h59⟩
      · exact exec_minuteEvent hs
      · have ticks : s.tickSecond = s.minuteEvent := if_neg (by omega)
        exact (congrArg finish ticks).trans (exec_minuteEvent hs)
    have kept := s.minuteEvent_keeps
    have clock : s.minuteEvent.clock = s.minutePassed.clock := (s.minutePassed.walkMinute_keeps _).same .clock rfl
    exact ⟨_, run, clock.trans (State.minutePassed_clock hm), kept.working rfl rfl rfl rfl, kept.same .doors rfl,
      kept.same .air rfl, kept.same .overrides rfl⟩
  · obtain ⟨n, kind, stops⟩ := State.stopCrystal_eq hc hd
    refine ⟨_, n, (congrArg finish stops).trans (finish_handed hs (ns := [n]) rfl), rfl, ?_, ?_, rfl, kind, rfl⟩
    · exact congrArg FaultRec.state (updAt_self _ _ _)
    · exact congrArg FaultRec.kind (updAt_self _ _ _)

/-! ## A start at its minute (R40, R41) -/

/-- A minute that the walker rests through comes to its slots. -/
theorem State.minuteEvent_rests {s x : State} (hx : s.minutePassed.minuteSlots = x)
    (hs : x.walker.state = .paused ∨ x.walker.state = .idle ∨ x.walker.state = .finished)
    (hq : x.walker.queuedSwitch ≠ some .atWeekEnd) : s.minuteEvent = x := by
  subst hx
  exact State.walkMinute_rests _ hs hq

/-- Settles O34: the one booking in NEXT starts and meets none in CURRENT, and a PAUSED walker makes no pass. -/
theorem minuteEventStartsABooking : Obligations.MinuteEventStartsABooking := by
  intro target k s hs hp hq hn hc hk
  let y := s.minutePassed.cycleMoved.updWalker fun w => { w with next := w.next.drop target }
  have slots : s.minutePassed.minuteSlots = y.startBooking target k k.entry.duration := by
    rw [State.minuteSlots_next (s := s.minutePassed) hn hc, State.minuteNext, if_pos (by omega)]
  have parts : y.walker = { s.walker with
      cycle := (s.walker.advance 1).cycle, offset := (s.walker.advance 1).offset, next := .cells none none } := by
    have moved := s.minutePassed.cycleMoved_walker
    rw [State.updWalker_walker, moved]
    simp only [State.minutePassed, State.updClock_walker, hn, SlotPair.drop_put]
  have current : y.walker.current = .cells none none := by rw [parts]; exact hc
  obtain ⟨walker, link⟩ := State.startBooking_alone (s := y) (t := target) k k.entry.duration
    (by rw [current, SlotPair.meeting_empty])
  have kept := s.minuteEvent_keeps
  have clock : (y.startBooking target k k.entry.duration).clock = y.clock :=
    (y.startBooking_keeps target k k.entry.duration).same .clock rfl
  have event : s.minuteEvent = y.startBooking target k k.entry.duration := by
    refine State.minuteEvent_rests slots ?_ ?_
    · rw [walker, parts]; exact .inl hp
    · rw [walker, parts]; simp [hq]
  rw [event] at kept
  have run := exec_minuteEvent hs
  rw [event] at run
  refine ⟨_, run, ?_, ?_, ?_, ?_, ?_, kept.same .drift rfl, kept.same .faults rfl, kept.same .blinds rfl⟩
  · rw [State.updLink_walker, walker, parts]
  · rw [State.updLink_walker, walker, current]
    rfl
  · rw [State.updLink_link, link]
    simp only [State.bookingNotice, State.noticeOf, State.updLink_clock, clock]
    rfl
  · rw [State.updLink_walker, walker, parts]; exact hp
  · rw [State.updLink_walker, walker, parts]

end Sys2Proof.Machine
end

