-- ==== Sys2Proof/Proofs/Resume.lean ====
section
/-! PROOF. The arming pass at one entry, as WALKER_RESUME makes it (R35 to R37, R46 to R48). -/

namespace Sys2Proof.Machine
open Sys2Proof

/-- A RUNNING walker is RUNNING or PAUSED once it has missed an entry. -/
theorem Walker.missed_state {w : Walker} (k : Nat) (h : w.state = .running) :
    (w.missed k).state = .running ∨ (w.missed k).state = .paused := by
  unfold Walker.missed
  split
  · exact .inr rfl
  · exact .inl h

section
variable {s : State} {k : Nat} {e : Entry} {w' : Walker} (hs : s.Takes) (tag : Byte) (hp : s.walker.state = .paused)
  (hc : s.walker.cursor = some k) (he : s.walker.active.entries[k]? = some e)
  (hd : e.start + s.walker.offset ≤ s.walker.cycle + s.lead e) (h : s.walker.passesTo s.lead k w')
include hs hp hc he hd

/-- With a NEXT slot that it needs occupied, the walker is STALLED and nothing else moves. -/
theorem exec_walkerResume_stalls (hn : s.walker.stands k e.target = false)
    (hf : s.walker.next.free e.target = false) : exec (.walkerResume tag) s = .next { s with
      walker := { s.walker with state := .stalled }, link := s.link.answered 0x18 tag .ok [] } := by
  have stalls : State.armingPass false passBound s.resumed =
      s.resumed.updWalker fun w => { w with state := .stalled } :=
    State.armingPass_stalls (s := s.resumed) hc he false 399 ((State.dueEntry_eq_true s.resumed e).mpr hd)
      (State.handleEntry_stalls (s := s.resumed) hn hf)
  exact exec_walkerResume hs tag hp stalls (ns := []) rfl

/-- From LAST, with an AT_CHAIN_END switch queued, the cursor makes the switch (R33, R46). -/
theorem exec_walkerResume_switches (hh : s.walker.stands k e.target = true ∨ s.walker.next.free e.target = true)
    (hk : k + 1 = s.walker.active.entries.length) (hq : s.walker.queuedSwitch = some .atChainEnd) :
    ∃ t, exec (.walkerResume tag) s = .next t ∧ s.walker.Switched t.walker ∧ t.clock = s.clock ∧
      t.working = s.working := by
  obtain ⟨x, handled⟩ := State.handleEntry_isSome (s := s.resumed) hh false
  have same : s.walker.SameChain x.walker :=
    Walker.SameChain.trans (v := s.resumed.walker) ⟨rfl, rfl, rfl, id⟩ (State.handleEntry_sameChain handled)
  have moved : x.moveCursor k = x.switchChain :=
    State.moveCursor_switch (same.active ▸ hk) (same.queuedSwitch ▸ hq)
  have switched : s.walker.Switched x.switchChain.walker := by
    obtain ⟨active, standby, queuedSwitch, stopMark⟩ := x.walker.switched_switched x.clock.minute x.clock.isSet
    rw [x.switchChain_parts.1]
    exact ⟨by rw [active, same.standby], by rw [standby, same.active], queuedSwitch, stopMark⟩
  have pass : State.armingPass false passBound s.resumed = x.switchChain.passOn false 399 := by
    rw [← moved]
    exact State.armingPass_goesOn (s := s.resumed) hc he false 399 ((State.dueEntry_eq_true s.resumed e).mpr hd) handled
  have kept := s.resumed.armingPass_keeps false passBound
  obtain ⟨ns, link⟩ := kept.same .link rfl
  have ends := State.passOn_sameChain false 399 x.switchChain (by rw [switched.queuedSwitch]; simp)
  rw [← pass] at ends
  exact ⟨_, exec_walkerResume hs tag hp rfl link, switched.after ends, kept.same .clock rfl,
    kept.working rfl rfl rfl rfl⟩

include h

/-- An entry that stands in a slot already is passed over. -/
theorem exec_walkerResume_passesOver (hn : s.walker.stands k e.target = true) :
    exec (.walkerResume tag) s = .next { s with
      walker := w', link := (s.link.handed (s.finishNotices w')).answered 0x18 tag .ok [] } := by
  obtain ⟨next, current, mark⟩ := h.slots
  rw [exec_walkerResume_handled hs tag hp hc he hd (State.handleEntry_stands (s := s.resumed) hn false) h (.refl _ _)
    (next := w'.next) (current := w'.current) (mark := w'.stopMark) (state := .running)
    (by rw [next, current, mark]; rfl) (.inl rfl) (ns := []) rfl]
  rfl

variable (hn : s.walker.stands k e.target = false) (hf : s.walker.next.free e.target = true)
include hn hf

/-- An entry before its start is ARMED in NEXT. -/
theorem exec_walkerResume_arms (hb : s.walker.cycle < e.start + s.walker.offset) :
    ∃ t, exec (.walkerResume tag) s = .next t ∧ t = { s with
      walker := { w' with next := s.walker.next.put e.target (s.walker.booked e k false) }
      link := (s.link.handed (s.armNotices e k ++ s.finishNotices w')).answered 0x18 tag .ok []
      space := { s.space with units := t.space.units }, lighting := t.lighting } := by
  obtain ⟨-, current, mark⟩ := h.slots
  obtain ⟨walker, link⟩ := s.resumed.armEntry_ahead e k
  refine ⟨_, exec_walkerResume_handled hs tag hp hc he hd (State.handleEntry_ahead (s := s.resumed) hn hf hb false) h
    (State.armEntry_keeps _ _ _ _) (next := s.walker.next.put e.target (s.walker.booked e k false))
    (current := w'.current) (mark := w'.stopMark) (state := .running) ?_ (.inl rfl) link, rfl⟩
  rw [walker, current, mark]
  rfl

/-- An entry from its start on that runs at once in CURRENT, whatever it displaces there. -/
theorem exec_walkerResume_startsLate (hb : e.start + s.walker.offset ≤ s.walker.cycle)
    (hl : s.walker.cycle < e.start + s.walker.offset + e.duration) {slots : SlotPair} {ns : List Notice}
    (walker : (s.resumed.armEntry e k true).walker = { s.resumed.walker with current := slots })
    (link : (s.resumed.armEntry e k true).link = s.link.handed ns) :
    ∃ t, exec (.walkerResume tag) s = .next t ∧ t = { s with
      walker := { w' with current := slots }
      link := (s.link.handed (ns ++ s.finishNotices w')).answered 0x18 tag .ok []
      space := { s.space with units := t.space.units }, lighting := t.lighting } := by
  obtain ⟨next, -, mark⟩ := h.slots
  refine ⟨_, exec_walkerResume_handled hs tag hp hc he hd (State.handleEntry_late (s := s.resumed) hn hf hb hl false) h
    (State.armEntry_keeps _ _ _ _) (next := w'.next) (current := slots) (mark := w'.stopMark) (state := .running) ?_
    (.inl rfl) link, rfl⟩
  rw [walker, next, mark]
  rfl

/-- An entry from its end on is missed. -/
theorem exec_walkerResume_misses (hl : e.start + s.walker.offset + e.duration ≤ s.walker.cycle) :
    exec (.walkerResume tag) s = .next { s with
      walker := { w' with
        stopMark := if s.walker.marks k then none else s.walker.stopMark
        state := WalkerState.movedTo (s.resumed.walker.missed k).state w'.state }
      link := (s.link.handed (s.missNotices e k ++ s.finishNotices w')).answered 0x18 tag .ok [] } := by
  obtain ⟨next, current, -⟩ := h.slots
  have misses := s.resumed.missEntry_eq e k
  have state := Walker.missed_state (w := s.resumed.walker) k rfl
  rw [exec_walkerResume_handled hs tag hp hc he hd (State.handleEntry_missed (s := s.resumed) hn hf hl false) h
    ((State.missEntry_keeps _ _ _).mono rfl) (next := w'.next) (current := w'.current)
    (mark := if s.walker.marks k then none else s.walker.stopMark) (state := (s.resumed.walker.missed k).state)
    (by rw [misses, next, current]; rfl) state (ns := s.missNotices e k) (by rw [misses]; rfl), misses]
  rfl

end

/-- A missed entry leaves the walker PAUSED where its mark is one of PAUSE mode and the chain goes on (R47). -/
theorem Walker.missed_movedTo (w : Walker) (k : Nat) (next : WalkerState) (h : w.state = .running) :
    WalkerState.movedTo (w.missed k).state next =
      if next = .running ∧ w.marks k = true ∧ (w.stopMark.any fun m => m.mode == .pause) = true then .paused
      else next := by
  unfold WalkerState.movedTo Walker.missed
  by_cases hm : w.marks k = true ∧ (w.stopMark.any fun m => m.mode == .pause) = true
  · simp only [hm, and_self, and_true, ↓reduceIte, true_and]
  · simp only [h, hm, and_false, ↓reduceIte, reduceCtorEq, false_and]

/-- The mark that names an entry in PAUSE mode. -/
theorem Walker.marks_pause_iff (w : Walker) (k : Nat) :
    w.marks k = true ∧ (w.stopMark.any fun m => m.mode == .pause) = true ↔
      w.stopMark = some { index := k, mode := .pause } := by
  unfold Walker.marks
  cases w.stopMark with
  | none => simp
  | some m =>
    obtain ⟨index, mode⟩ := m
    simp

/-- Settles O35: the cases of R35 at one entry, and a minute that starts no booking. -/
theorem cursorEntriesAreArmed : Obligations.CursorEntriesAreArmed := by
  refine ⟨fun tag k e s hs hp hc he => ?_, fun target b s hs hw hq hn hc hb => ?_⟩
  · intro w lead begins stands nextFree marked note armed late told hd
    have standing : stands ↔ s.walker.stands k e.target = true := (Walker.stands_iff _ _ _).symm
    have free : nextFree ↔ s.walker.next.free e.target = true := (SlotPair.free_iff _ _).symm
    rw [standing, free]
    simp only [Bool.not_eq_true]
    refine ⟨fun hn hf => exec_walkerResume_stalls hs tag hp hc he hd hn hf, fun w' h => ⟨fun hn => ?_,
      fun hn hf hb => ?_, fun hn hf hb hl hm => ?_, fun target old hn hf hb hl hm hk => ?_, fun hn hf hl => ?_⟩,
      fun hh hk hq => ?_⟩
    · exact exec_walkerResume_passesOver hs tag hp hc he hd h hn
    · exact exec_walkerResume_arms hs tag hp hc he hd h hn hf hb
    · have meeting := (SlotPair.meeting_eq_nil _ _).mpr hm
      obtain ⟨walker, link⟩ := State.armEntry_late_alone (s := s.resumed) k meeting
      have run := exec_walkerResume_startsLate hs tag hp hc he hd h hn hf hb hl walker link
      rw [List.append_assoc] at run
      exact run
    · obtain ⟨walker, link⟩ := State.armEntry_late_displacing (s := s.resumed) k hm hk
      have code : old.displaced.code = if old.state = .held then 4 else 3 := by
        unfold Booking.displaced
        split <;> rfl
      have run := exec_walkerResume_startsLate hs tag hp hc he hd h hn hf hb hl walker link
      rw [List.append_assoc, code] at run
      exact run
    · rw [exec_walkerResume_misses hs tag hp hc he hd h hn hf hl, Walker.missed_movedTo _ _ _ rfl]
      simp only [Walker.marks_pause_iff]
      rfl
    · obtain ⟨t, run, ⟨active, standby, queuedSwitch, stopMark⟩, clock, working⟩ :=
        exec_walkerResume_switches hs tag hp hc he hd hh hk hq
      exact ⟨t, run, active, standby, queuedSwitch, stopMark, clock, working⟩
  · have event := State.walkMinute_stalled (s := s.minutePassed) s.weekEnds hw hq hn hc hb
    have run := exec_minuteEvent hs
    rw [State.minuteEvent_eq, event] at run
    have walker := s.minutePassed.cycleMoved_walker
    refine ⟨_, run, ?_, ?_, ?_, ?_, Link.startFrame_idle _ hs.1⟩
    · rw [State.updLink_walker, State.updWalker_walker, walker]; exact hw
    · rw [State.updLink_walker, State.updWalker_walker, walker]; rfl
    · rw [State.updLink_walker, State.updWalker_walker, walker]
      exact (congrArg (fun p : SlotPair => p.put target _) hn).trans (SlotPair.put_put target b _)
    · rw [State.updLink_walker, State.updWalker_walker, walker]; exact hc

end Sys2Proof.Machine
end

