-- ==== Sys2Proof/Proofs/Ends.lean ====
section
/-! PROOF. How a booking in CURRENT ends (R42 to R45): at a minute event, as its unit becomes VACANT, and what an
occupied unit makes of it. -/

namespace Sys2Proof.Machine
open Sys2Proof

/-! ## The minute of a booking in CURRENT (R40, step 2) -/

/-- The booking with its counters moved on by a minute. -/
def Booking.aged (k : Booking) (empty : Bool) : Booking :=
  { k with
    sinceStart := k.sinceStart + 1
    vacant := if empty then k.vacant + 1 else 0
    minutes := if k.state = .running then k.minutes - 1 else k.minutes }

section
variable (s : State) (t : Target) (k : Booking)

/-- The booking in CURRENT as the minute has aged it. -/
def State.agedBooking : Booking := k.aged (s.vacantTarget t)

/-- The booking aged in its slot. -/
def State.aged : State := s.updWalker fun w => { w with current := w.current.put t (s.agedBooking t k) }

/-- The BOOKING_ENDING at the warning point (R42). -/
def State.endingNotices : List Notice :=
  let warning := s.working.settings.endingWarning
  if (s.agedBooking t k).minutes = warning ∧ warning ≠ 0 ∧ k.entry.notifyEnd = true then
    [s.bookingNotice .bookingEnding k warning]
  else []

/-- The booking aged in its slot, and its ending told at the warning point. -/
def State.warned : State := { s.aged t k with link := s.link.handed (s.endingNotices t k) }

end

section
variable {s : State} {t : Target} {k : Booking}

theorem State.minuteCurrent_waits (h : k.state ≠ .running) : s.minuteCurrent t k = s.aged t k := if_pos h

variable (hr : k.state = .running)
include hr

theorem State.minuteCurrent_held (h0 : (s.agedBooking t k).minutes = 0)
    (hh : (k.entry.hold && !s.vacantTarget t) = true) : s.minuteCurrent t k =
      ((s.aged t k).updWalker fun w =>
        { w with current := w.current.put t { s.agedBooking t k with state := .held } }).deriveUnits
          (s.space.units.ofTarget t) :=
  (if_neg fun h => h hr).trans ((if_pos h0).trans (if_pos hh))

theorem State.minuteCurrent_ends (h0 : (s.agedBooking t k).minutes = 0)
    (hh : (k.entry.hold && !s.vacantTarget t) = false) : s.minuteCurrent t k =
      (s.aged t k).leaveCurrent t (s.agedBooking t k) .ended true :=
  (if_neg fun h => h hr).trans ((if_pos h0).trans (if_neg (by rw [Bool.not_eq_true]; exact hh)))

/-- Before its last minute a booking is warned, and leaves by its profile's minutes (R44, R45). -/
theorem State.minuteCurrent_goesOn (h0 : (s.agedBooking t k).minutes ≠ 0) : s.minuteCurrent t k =
    let p := s.working.profiles[k.entry.profile]
    if 0 < p.noShow ∧ p.noShow ≤ (s.agedBooking t k).sinceStart ∧ k.seenOccupied = false then
      (s.warned t k).leaveCurrent t (s.agedBooking t k) .noShow false
    else if k.seenOccupied = true ∧ p.earlyVacate ≤ (s.agedBooking t k).vacant then
      (s.warned t k).leaveCurrent t (s.agedBooking t k) .endedEarly false
    else s.warned t k := by
  have warned : (if s.working.settings.endingWarning ≠ 0 ∧
      (s.agedBooking t k).minutes = s.working.settings.endingWarning ∧ k.entry.notifyEnd = true then
      (s.aged t k).notifyBooking .bookingEnding (s.agedBooking t k) (s.agedBooking t k).minutes
    else s.aged t k) = s.warned t k := by
    unfold State.warned State.endingNotices
    by_cases h : s.working.settings.endingWarning ≠ 0 ∧
      (s.agedBooking t k).minutes = s.working.settings.endingWarning ∧ k.entry.notifyEnd = true
    · obtain ⟨given, point, notify⟩ := h
      rw [if_pos ⟨given, point, notify⟩, if_pos ⟨point, given, notify⟩, point]
      rfl
    · rw [if_neg h, if_neg fun ⟨point, given, notify⟩ => h ⟨given, point, notify⟩]
      rfl
  have goes : s.minuteCurrent t k =
      let x := if s.working.settings.endingWarning ≠ 0 ∧
          (s.agedBooking t k).minutes = s.working.settings.endingWarning ∧ k.entry.notifyEnd = true then
          (s.aged t k).notifyBooking .bookingEnding (s.agedBooking t k) (s.agedBooking t k).minutes
        else s.aged t k
      let p := x.working.profiles[k.entry.profile]
      if 0 < p.noShow ∧ p.noShow ≤ (s.agedBooking t k).sinceStart ∧ k.seenOccupied = false then
        x.leaveCurrent t (s.agedBooking t k) .noShow false
      else if k.seenOccupied = true ∧ p.earlyVacate ≤ (s.agedBooking t k).vacant then
        x.leaveCurrent t (s.agedBooking t k) .endedEarly false
      else x := (if_neg fun h => h hr).trans (if_neg h0)
  rw [goes, warned]
  rfl

end

/-! ## Staying and leaving -/

/-- The one booking in CURRENT stays there, as it is now. -/
structure State.Stays (s x : State) (t : Target) (k : Booking) (ns : List Notice) : Prop where
  walker : x.walker = { s.walker with current := (SlotPair.cells none none).put t k }
  link : x.link = s.link.handed ns

/-- The one booking in CURRENT leaves it. -/
structure State.Leaves (s x : State) (t : Target) (k : Booking) (o : BookingOutcome) (ns : List Notice) : Prop where
  walker : x.walker = ({ s.walker with current := .cells none none } : Walker).stopDone k
  link : x.link = s.link.handed (ns ++ s.doneNotices k o)
  units : ∀ id u, s.unit? id = some u → ∃ v, x.unit? id = some v ∧ v.headcount = u.headcount ∧
    v.occupancy = u.occupancy ∧ v.lingering =
      (if id ∈ s.space.units.ofTarget t ∧ u.occupancy ≠ .vacant then some k.entry.profile else u.lingering)

/-- What is seen of a booking that stays, once the transmitter has started. -/
theorem State.Stays.sent {s x : State} {t : Target} {k : Booking} {ns : List Notice} (h : s.Stays x t k ns) :
    x.walker.current = (SlotPair.cells none none).put t k ∧ x.walker.stopMark = s.walker.stopMark ∧
      x.link.startFrame = (s.link.handed ns).startFrame :=
  ⟨(congrArg Walker.current h.walker :), (congrArg Walker.stopMark h.walker :), congrArg Link.startFrame h.link⟩

/-- What is seen of a booking that leaves, once the transmitter has started. -/
theorem State.Leaves.sent {s x : State} {t : Target} {k : Booking} {o : BookingOutcome} {ns : List Notice}
    (h : s.Leaves x t k o ns) :
    x.walker.current = .cells none none ∧ x.link.startFrame = (s.link.handed (ns ++ s.doneNotices k o)).startFrame ∧
      x.walker.stopMark =
        (if k.marked = true ∧ (s.walker.stopMark.any fun m => decide (k.index = some m.index)) = true then none
        else s.walker.stopMark) ∧
      ∀ id u, s.unit? id = some u → ∃ v, x.unit? id = some v ∧ v.headcount = u.headcount ∧
        v.occupancy = u.occupancy ∧ v.lingering =
          (if id ∈ s.space.units.ofTarget t ∧ u.occupancy ≠ .vacant then some k.entry.profile else u.lingering) := by
  refine ⟨?_, congrArg Link.startFrame h.link, ?_, h.units⟩
  · rw [h.walker, Walker.stopDone_parts]
  · rw [h.walker, Walker.stopDone_stopMark]

/-- A booking aged in its slot leaves it, behind what has been told already. -/
theorem State.leaveCurrent_leaves {s x : State} {t : Target} {k k1 : Booking}
    (walker : x.walker = { s.walker with current := (SlotPair.cells none none).put t k1 })
    (space : x.space = s.space) (clock : x.clock = s.clock) {told : List Notice} (link : x.link = s.link.handed told)
    (index : k1.index = k.index) (entry : k1.entry = k.entry) (marked : k1.marked = k.marked)
    (o : BookingOutcome) (atEnd : Bool) :
    s.Leaves (x.leaveCurrent t k1 o atEnd) t k o
      (told ++ ((if o ≠ .ended ∨ k.entry.notifyEnd = true then [s.bookingNotice .bookingEnded k o.code] else []) ++
        if atEnd then s.overrunNotices t k else [])) := by
  obtain ⟨links, walkers, units⟩ := x.leaveCurrent_parts t k1 o atEnd
  have done (w : Walker) : w.stopDone k1 = w.stopDone k := by simp only [Walker.stopDone, index, marked]
  have stamp (kind : NoticeKind) (value : Nat) : x.bookingNotice kind k1 value = s.bookingNotice kind k value := by
    simp only [State.bookingNotice, State.noticeOf_congr clock, index, entry]
  have vacant : x.vacantUnit = s.vacantUnit := by
    funext id
    simp only [State.vacantUnit, State.unit?, space]
  have everyone : x.vacantTarget t = s.vacantTarget t := by simp only [State.vacantTarget, vacant, space]
  have counts (ids : List UnitId) : x.headcounts ids = s.headcounts ids := by
    simp only [State.headcounts, State.unit?, space]
  have overran : x.overrunNotices t k1 = s.overrunNotices t k := by
    simp only [State.overrunNotices, State.noticeOf_congr clock, everyone, counts, vacant, space, index, entry]
  have notices : x.leaveNotices t k1 o atEnd =
      ((if o ≠ .ended ∨ k.entry.notifyEnd = true then [s.bookingNotice .bookingEnded k o.code] else []) ++
        if atEnd then s.overrunNotices t k else []) ++ s.doneNotices k o := by
    simp only [State.leaveNotices, State.doneNotices, stamp, overran, entry, marked, List.append_assoc]
  refine ⟨?_, ?_, fun id u hu => ?_⟩
  · rw [walkers, done, walker]
    simp only [SlotPair.drop_put]
  · rw [links, link, notices, ← Link.handed_append]
    simp only [List.append_assoc]
  · obtain ⟨v, hv, tenancy⟩ := units id u ((State.unit?_congr (congrArg Space.units space) id).trans hu)
    simp only [UnitRec.tenancy, Tenancy.mk.injEq] at tenancy
    obtain ⟨headcount, -, occupancy, -, -, -, -, lingering⟩ := tenancy
    rw [space] at lingering
    refine ⟨v, hv, headcount, occupancy, ?_⟩
    rw [lingering, entry]

/-! ## What a minute makes of the booking (R42 to R45) -/

/-- What a booking tells that ends at its last minute (R42). -/
def State.lastNotices (s : State) (t : Target) (k : Booking) : List Notice :=
  (if k.entry.notifyEnd then [s.bookingNotice .bookingEnded k 0] else []) ++ s.overrunNotices t k

/-- How a minute concludes for a booking in CURRENT: it stays as it is then, or it leaves. -/
def State.Concludes (s : State) (t : Target) (k : Booking) (stays : Booking → List Notice → Prop)
    (leaves : BookingOutcome → List Notice → Prop) : Prop :=
  let p := s.working.profiles[k.entry.profile]
  let k1 := s.agedBooking t k
  if k.state ≠ .running then stays k1 []
  else if k1.minutes = 0 then
    if k.entry.hold && !s.vacantTarget t then stays { k1 with state := .held } []
    else leaves .ended (s.lastNotices t k)
  else if 0 < p.noShow ∧ p.noShow ≤ k1.sinceStart ∧ k.seenOccupied = false then
    leaves .noShow (s.endingNotices t k ++ [s.bookingNotice .bookingEnded k 2])
  else if k.seenOccupied = true ∧ p.earlyVacate ≤ k1.vacant then
    leaves .endedEarly (s.endingNotices t k ++ [s.bookingNotice .bookingEnded k 1])
  else stays k1 (s.endingNotices t k)

section
variable {s : State} {t : Target} {k : Booking}

theorem State.Concludes.mono {stays stays' : Booking → List Notice → Prop}
    {leaves leaves' : BookingOutcome → List Notice → Prop} (h : s.Concludes t k stays leaves)
    (hs : ∀ k' ns, stays k' ns → stays' k' ns) (hl : ∀ o ns, leaves o ns → leaves' o ns) :
    s.Concludes t k stays' leaves' := by
  unfold State.Concludes at h ⊢
  dsimp only at h ⊢
  split_ifs at h ⊢
  · exact hs _ _ h
  · exact hs _ _ h
  · exact hl _ _ h
  · exact hl _ _ h
  · exact hl _ _ h
  · exact hs _ _ h

variable (hc : s.walker.current = (SlotPair.cells none none).put t k)
include hc

theorem State.aged_walker : (s.aged t k).walker =
    { s.walker with current := (SlotPair.cells none none).put t (s.agedBooking t k) } := by
  rw [State.aged, State.updWalker_walker, hc, SlotPair.put_put]

theorem State.minuteCurrent_concludes :
    s.Concludes t k (s.Stays (s.minuteCurrent t k) t) (s.Leaves (s.minuteCurrent t k) t k) := by
  have leaves {x : State} (aged : x = s.aged t k ∨ x = s.warned t k) {told : List Notice}
      (link : x.link = s.link.handed told) (o : BookingOutcome) (atEnd : Bool) :
      s.Leaves (x.leaveCurrent t (s.agedBooking t k) o atEnd) t k o
        (told ++ ((if o ≠ .ended ∨ k.entry.notifyEnd = true then [s.bookingNotice .bookingEnded k o.code] else []) ++
          if atEnd then s.overrunNotices t k else [])) := by
    refine State.leaveCurrent_leaves (k := k) (k1 := s.agedBooking t k) ?_ ?_ ?_ link rfl rfl rfl o atEnd
    · rcases aged with rfl | rfl <;> exact State.aged_walker hc
    · rcases aged with rfl | rfl <;> rfl
    · rcases aged with rfl | rfl <;> rfl
  unfold State.Concludes
  dsimp only
  split_ifs with waits last held noShow early
  · rw [State.minuteCurrent_waits waits]
    exact ⟨State.aged_walker hc, rfl⟩
  · rw [State.minuteCurrent_held (not_not.mp waits) last held]
    let x := (s.aged t k).updWalker fun w =>
      { w with current := w.current.put t { s.agedBooking t k with state := .held } }
    have kept := x.deriveUnits_keeps (s.space.units.ofTarget t)
    have walker : (x.deriveUnits (s.space.units.ofTarget t)).walker = x.walker := kept.same .walker rfl
    have link : (x.deriveUnits (s.space.units.ofTarget t)).link = x.link := kept.same .notices rfl
    refine ⟨walker.trans ?_, link⟩
    rw [State.updWalker_walker, State.aged_walker hc]
    simp only [SlotPair.put_put]
  · rw [State.minuteCurrent_ends (not_not.mp waits) last (by simpa using held)]
    simpa [State.lastNotices, BookingOutcome.code] using leaves (told := []) (.inl rfl) rfl .ended true
  · rw [State.minuteCurrent_goesOn (not_not.mp waits) last, if_pos noShow]
    simpa [BookingOutcome.code] using leaves (.inr rfl) rfl .noShow false
  · rw [State.minuteCurrent_goesOn (not_not.mp waits) last, if_neg noShow, if_pos early]
    simpa [BookingOutcome.code] using leaves (.inr rfl) rfl .endedEarly false
  · rw [State.minuteCurrent_goesOn (not_not.mp waits) last, if_neg noShow, if_neg early]
    exact ⟨State.aged_walker hc, rfl⟩

/-- The slots of CURRENT, the stop mark and the state are all of the walker that a minute of CURRENT can change. -/
theorem State.minuteCurrent_walker : ∃ p, (s.minuteCurrent t k).walker = { s.walker with current := p } ∨
    (s.minuteCurrent t k).walker = ({ s.walker with current := p } : Walker).stopDone k := by
  have concludes := State.minuteCurrent_concludes hc
  unfold State.Concludes at concludes
  dsimp only at concludes
  split_ifs at concludes
  · exact ⟨_, .inl concludes.walker⟩
  · exact ⟨_, .inl concludes.walker⟩
  · exact ⟨_, .inr concludes.walker⟩
  · exact ⟨_, .inr concludes.walker⟩
  · exact ⟨_, .inr concludes.walker⟩
  · exact ⟨_, .inl concludes.walker⟩

end

/-! ## The minute event with one booking in CURRENT -/

/-- The state in which CURRENT has its minute. -/
def State.currentMinute (s : State) : State := s.minutePassed.cycleMoved

theorem State.currentMinute_walker (s : State) : s.currentMinute.walker = { s.walker with
    cycle := (s.walker.advance 1).cycle, offset := (s.walker.advance 1).offset } := s.minutePassed.cycleMoved_walker

section
variable {s : State} {t : Target} {k : Booking} (hc : s.walker.current = (SlotPair.cells none none).put t k)
include hc

theorem State.currentMinute_current : s.currentMinute.walker.current = (SlotPair.cells none none).put t k := by
  rw [State.currentMinute_walker]
  exact hc

variable (hs : s.walker.state = .paused ∨ s.walker.state = .idle ∨ s.walker.state = .finished)
include hs

/-- A walker that rests keeps all but its slots and its stop mark through a minute of CURRENT. -/
theorem State.currentMinute_rests : let x := s.currentMinute.minuteCurrent t k
    x.walker.next = s.walker.next ∧ x.walker.state = s.walker.state ∧ x.walker.active = s.walker.active ∧
      x.walker.queuedSwitch = s.walker.queuedSwitch := by
  obtain ⟨p, walker | walker⟩ := State.minuteCurrent_walker (State.currentMinute_current hc)
  · simp only [walker, State.currentMinute_walker, and_self]
  · rw [State.currentMinute_walker] at walker
    have state := Walker.stopDone_state_of_rest (w := { s.walker with
      cycle := (s.walker.advance 1).cycle, offset := (s.walker.advance 1).offset, current := p }) hs k
    have parts := Walker.stopDone_parts { s.walker with
      cycle := (s.walker.advance 1).cycle, offset := (s.walker.advance 1).offset, current := p } k
    dsimp only
    rw [walker]
    exact ⟨(congrArg Walker.next parts :), state, (congrArg Walker.active parts :),
      (congrArg Walker.queuedSwitch parts :)⟩

theorem State.minuteEvent_current (hq : s.walker.queuedSwitch ≠ some .atWeekEnd)
    (hn : s.walker.next = .cells none none) : s.minuteEvent = s.currentMinute.minuteCurrent t k := by
  obtain ⟨next, state, -, queued⟩ := State.currentMinute_rests hc hs
  refine State.minuteEvent_rests (State.minuteSlots_current (s := s.minutePassed) hc (next.trans hn)) ?_ ?_
  · exact state ▸ hs
  · exact queued ▸ hq

end

/-! ## A HELD booking as its unit becomes VACANT (R43, R82) -/

theorem State.concerns_eq (s : State) (t : Target) (id : UnitId) :
    s.concerns t id = decide (id ∈ s.space.units.ofTarget t) := by
  simp [State.concerns, List.any_eq]

/-- With one booking in CURRENT, the unit's HELD booking is that one or none. -/
theorem State.endHeld_put {s : State} {t : Target} {k : Booking}
    (hc : s.walker.current = (SlotPair.cells none none).put t k) (id : UnitId) : s.endHeld id =
      if s.concerns t id && decide (k.state = .held) && s.vacantTarget t then s.leaveCurrent t k .ended false
      else s := by
  simp only [State.endHeld, hc, SlotPair.standing_put, List.foldl_cons, List.foldl_nil]

/-- A unit VACANT, before the walker ends its HELD booking. -/
def State.vacated (s : State) (id : UnitId) : State :=
  ((s.modifyUnit id fun u => { u with occupancy := .vacant, clearing := none }).modifyUnit id
    fun u => { u with lingering := none }).derive id

theorem State.clearingReached_vacates {s : State} {id : UnitId} {u : UnitRec} (hu : s.unit? id = some u)
    (ho : u.occupancy = .clearing) (hc : u.clearing.isSome = true) :
    s.clearingReached id = (s.vacated id).endHeld id := by
  simp only [State.clearingReached, hu, hc, ↓reduceIte, State.endClearing, State.setOccupancy,
    State.occupancyChanged, ho, reduceCtorEq, State.becomeVacant, State.vacated]

theorem State.vacated_keeps (s : State) (id : UnitId) : Keeps [.units, .modes, .lighting] s (s.vacated id) :=
  (((s.modifyUnit_keeps_headcounts id (fun u => { u with occupancy := .vacant, clearing := none }) fun _ => rfl).trans
    (State.modifyUnit_keeps_headcounts _ id (fun u => { u with lingering := none }) fun _ => rfl)).mono rfl).trans
    ((State.derive_keeps _ id).mono rfl)

section
variable {s : State} {id : UnitId} {u : UnitRec} (hu : s.unit? id = some u)
include hu

theorem State.vacated_record : ∃ v, (s.vacated id).unit? id = some v ∧
    v.tenancy = { u.tenancy with occupancy := .vacant, clearing := none, lingering := none } := by
  have written : ((s.modifyUnit id fun u => { u with occupancy := .vacant, clearing := none }).modifyUnit id
      fun u => { u with lingering := none }).unit? id =
      some { u with occupancy := .vacant, clearing := none, lingering := none } := by
    rw [State.unit?_modifyUnit_self, State.unit?_modifyUnit_self, hu]
    rfl
  exact (State.derive_sameTenancy _ id).record written

theorem State.vacated_vacantUnit (j : UnitId) : (s.vacated id).vacantUnit j = (decide (j = id) || s.vacantUnit j) := by
  by_cases hj : j = id
  · subst hj
    obtain ⟨v, hv, tenancy⟩ := State.vacated_record hu
    have vacant : v.occupancy = .vacant := congrArg Tenancy.occupancy tenancy
    simp [State.vacantUnit, hv, vacant]
  · have other : (s.vacated id).unit? j = s.unit? j := by
      rw [State.vacated, State.derive_unit?_other _ hj, State.unit?_modifyUnit_other _ _ hj,
        State.unit?_modifyUnit_other _ _ hj]
    simp [State.vacantUnit, other, hj]

theorem State.vacated_vacantTarget (t : Target) : (s.vacated id).vacantTarget t = true ↔
    ∀ j ∈ s.space.units.ofTarget t, j ≠ id → s.vacantUnit j = true := by
  have units : (s.vacated id).space.units.ofTarget t = s.space.units.ofTarget t :=
    Units.ofTarget_congr ((s.vacated_keeps id).same .arrangement rfl) t
  simp only [State.vacantTarget, units, List.all_eq_true, State.vacated_vacantUnit hu, Bool.or_eq_true,
    decide_eq_true_eq, or_iff_not_imp_left]

end

/-- How the end of a unit's clearing goes on to the HELD booking of its target (R43): with the last of its units
VACANT it ends ENDED, and else it stays. -/
theorem State.clearingReached_held {s : State} {t : Target} {k : Booking}
    (hc : s.walker.current = (SlotPair.cells none none).put t k) (hk : k.state = .held) {id : UnitId}
    (hid : id ∈ s.space.units.ofTarget t) {u : UnitRec} (hu : s.unit? id = some u) (ho : u.occupancy = .clearing)
    (timer : u.clearing.isSome = true) :
    if ∀ j ∈ s.space.units.ofTarget t, j ≠ id → s.vacantUnit j = true then
      (s.clearingReached id).walker.current = .cells none none ∧
        (s.clearingReached id).link = s.link.handed
          ((if k.entry.notifyEnd then [s.bookingNotice .bookingEnded k 0] else []) ++
            if k.marked then [s.bookingNotice .stopMarkDone k 0] else [])
    else (s.clearingReached id).walker = s.walker ∧ (s.clearingReached id).link = s.link := by
  have kept := s.vacated_keeps id
  have walker : (s.vacated id).walker = s.walker := kept.same .walker rfl
  have link : (s.vacated id).link = s.link := kept.same .notices rfl
  have clock : (s.vacated id).clock = s.clock := kept.same .clock rfl
  have concerned : (s.vacated id).concerns t id = true := by
    rw [State.concerns_eq, Units.ofTarget_congr (kept.same .arrangement rfl), decide_eq_true hid]
  have vacant := State.vacated_vacantTarget hu t
  have current : (s.vacated id).walker.current = (SlotPair.cells none none).put t k := by rw [walker]; exact hc
  have ends := (State.clearingReached_vacates hu ho timer).trans (State.endHeld_put current id)
  rw [concerned, decide_eq_true hk, Bool.true_and, Bool.true_and] at ends
  by_cases last : ∀ j ∈ s.space.units.ofTarget t, j ≠ id → s.vacantUnit j = true
  · rw [if_pos (vacant.mpr last)] at ends
    rw [if_pos last]
    obtain ⟨links, walkers, -⟩ := (s.vacated id).leaveCurrent_parts t k .ended false
    refine ⟨?_, ?_⟩
    · rw [ends, walkers, current, SlotPair.drop_put, Walker.stopDone_parts]
    · rw [ends, links, link, State.leaveNotices_released]
      simp only [State.bookingNotice, State.noticeOf_congr clock]
  · rw [if_neg fun all => last (vacant.mp all)] at ends
    rw [if_neg last]
    exact ⟨(congrArg State.walker ends).trans walker, (congrArg State.link ends).trans link⟩

/-! ## A unit that becomes OCCUPIED (R44, R45) -/

theorem unitOperand_of_code {b : Byte} {id : UnitId} (h : b.toNat = unitCode id) : unitOperand b = some id := by
  cases id <;> simp [unitOperand, h, unitCode]

/-- What an occupied unit makes of its booking in CURRENT. -/
def Booking.seen (k : Booking) : Booking :=
  { k with seenOccupied := k.seenOccupied || decide (k.state = .running), vacant := 0 }

/-- A unit that leaves VACANT for OCCUPIED shows in the booking that stands in CURRENT for it. -/
theorem State.setOccupancy_seen {s : State} {t : Target} {k : Booking}
    (hc : s.walker.current = (SlotPair.cells none none).put t k) {id : UnitId}
    (hid : id ∈ s.space.units.ofTarget t) {u : UnitRec} (hu : s.unit? id = some u) (ho : u.occupancy = .vacant)
    (c : Option Nat) : (s.setOccupancy id .occupied c).walker =
      { s.walker with current := (SlotPair.cells none none).put t k.seen } := by
  let written := s.modifyUnit id fun u => { u with occupancy := .occupied, clearing := c }
  have moved : s.setOccupancy id .occupied c = ((written.clearVacant id).seeOccupied id).derive id := by
    simp only [State.setOccupancy, hu, State.occupancyChanged, ho, reduceCtorEq, ↓reduceIte]
    rfl
  have derived : (((written.clearVacant id).seeOccupied id).derive id).walker =
      ((written.clearVacant id).seeOccupied id).walker := (State.derive_keeps _ id).same .walker rfl
  have concerned : written.concerns t id = true := by
    have arrangement : written.space.units.ids = s.space.units.ids := (s.modifyUnit_keeps id _).same .arrangement rfl
    rw [State.concerns_eq, Units.ofTarget_congr arrangement, decide_eq_true hid]
  have cleared : (written.clearVacant id).walker =
      { s.walker with current := (SlotPair.cells none none).put t { k with vacant := 0 } } := by
    have current : written.walker.current = (SlotPair.cells none none).put t k := hc
    rw [State.clearVacant, State.updWalker_walker, current, SlotPair.map_put, if_pos concerned]
    rfl
  have still : (written.clearVacant id).concerns t id = true := concerned
  rw [moved, derived, State.seeOccupied, State.updWalker_walker, cleared]
  dsimp only
  rw [SlotPair.map_put, still, Bool.true_and, Booking.seen]
  cases decide (k.state = .running) <;> simp

theorem State.setHeadcount_seen {s : State} {t : Target} {k : Booking}
    (hc : s.walker.current = (SlotPair.cells none none).put t k) {id : UnitId}
    (hid : id ∈ s.space.units.ofTarget t) {u : UnitRec} (hu : s.unit? id = some u) (ho : u.occupancy = .vacant)
    {n : Nat} (hn : 0 < n) (count : CountState) : (s.setHeadcount id n count).walker =
      { s.walker with current := (SlotPair.cells none none).put t k.seen } := by
  let counted := s.modifyUnit id fun u =>
    { u with headcount := n, count := count, forcedTimer := if 0 < n then 0 else u.forcedTimer }
  have record : counted.unit? id =
      some { u with headcount := n, count := count, forcedTimer := if 0 < n then 0 else u.forcedTimer } := by
    rw [State.unit?_modifyUnit_self, hu]
    rfl
  have evaluated : s.setHeadcount id n count = counted.setOccupancy id .occupied u.clearing := by
    have evaluates : s.setHeadcount id n count = counted.evaluate id := rfl
    simp only [evaluates, State.evaluate, record, State.evidence, hn, decide_true, Bool.true_or, ho, nextOccupancy]
  have member : id ∈ counted.space.units.ofTarget t := by
    rw [Units.ofTarget_congr ((s.modifyUnit_keeps id _).same .arrangement rfl)]
    exact hid
  rw [evaluated]
  exact State.setOccupancy_seen (s := counted) hc member record ho _

/-- Settles O36: a minute concludes for the booking, its unit becomes VACANT, or its unit becomes OCCUPIED. -/
theorem bookingsEnd : Obligations.BookingsEnd := by
  intro target k s hc
  refine ⟨fun hs rest hq hn => ?_, fun id u hs hid hu clearing timer held => ?_,
    fun tag x n id u hs hid hx hu vacant hpos => ?_⟩
  · obtain ⟨next, state, active, -⟩ := State.currentMinute_rests hc rest
    have event := State.minuteEvent_current hc rest hq hn
    have kept := s.minuteEvent_keeps
    have clock : (s.currentMinute.minuteCurrent target k).clock = s.currentMinute.clock :=
      (s.currentMinute.minuteCurrent_keeps target k).same .clock rfl
    have concludes := State.minuteCurrent_concludes (State.currentMinute_current hc)
    have run := exec_minuteEvent hs
    rw [event] at kept run
    generalize s.currentMinute.minuteCurrent target k = x at *
    have stamp : (x.updLink Link.startFrame).noticeOf = s.currentMinute.noticeOf := by
      funext kind place index value tag
      exact State.noticeOf_congr clock kind place index value tag
    refine ⟨_, run, next.trans hn, state, active, kept.working rfl rfl rfl rfl, kept.same .doors rfl,
      kept.same .presence rfl, kept.same .drift rfl, kept.same .faults rfl, kept.same .blinds rfl, ?_⟩
    have seen := concludes.mono (fun _ _ => State.Stays.sent) (fun _ _ => State.Leaves.sent)
    have mark : s.currentMinute.walker.stopMark = s.walker.stopMark := by rw [State.currentMinute_walker]
    simp only [mark] at seen
    simp only [stamp]
    exact seen
  · have run : exec (.clearingExpiry id) s = finish (s.clearingReached id) := rfl
    have ends := State.clearingReached_held hc held hid hu clearing timer
    obtain ⟨v, hv, tenancy⟩ := State.setOccupancy_vacant hu
    have reached : s.clearingReached id = s.setOccupancy id .vacant none := by
      simp only [State.clearingReached, hu, timer, ↓reduceIte]
      rfl
    rw [← reached] at hv
    simp only [UnitRec.tenancy, Tenancy.mk.injEq] at tenancy
    obtain ⟨-, -, occupancy, -, -, -, -, lingering⟩ := tenancy
    rw [if_neg (by simp [clearing])] at lingering
    by_cases last : ∀ j ∈ s.space.units.ofTarget target, j ≠ id → s.vacantUnit j = true
    · obtain ⟨current, link⟩ := (if_pos last).mp ends
      exact ⟨_, v, run.trans (finish_handed hs link), hv, occupancy, lingering, (if_pos last).mpr ⟨current, rfl⟩⟩
    · obtain ⟨walker, link⟩ := (if_neg last).mp ends
      exact ⟨_, v, run.trans (finish_same hs link), hv, occupancy, lingering, (if_neg last).mpr ⟨walker, link⟩⟩
  · have bound : 0 < min id.maxHeadcount n.toNat := by
      cases id <;> simp only [UnitId.maxHeadcount] <;> omega
    have kept := s.setHeadcount_keeps id (min id.maxHeadcount n.toNat) .exact
    obtain ⟨ns, link⟩ := kept.same .link rfl
    have set : s.answerSetHeadcount x n =
        acceptClamped (decide (id.maxHeadcount < n.toNat)) (byte2 (min id.maxHeadcount n.toNat))
          (s.setHeadcount id (min id.maxHeadcount n.toNat) .exact) := by
      simp only [State.answerSetHeadcount, unitOperand_of_code hx, hu]
    exact ⟨_, exec_answered hs rfl rfl set (by rw [link, Link.handed_requests]),
      State.setHeadcount_seen hc hid hu vacant bound .exact⟩

end Sys2Proof.Machine
end

