-- ==== Sys2Proof/Proofs/ClockSet.lean ====
section
/-! PROOF. SET_TIME (R27): the clock and its record, and what the walker makes of the step (R50). -/

namespace Sys2Proof.Machine
open Sys2Proof

/-! ## A record withdrawn (R171) -/

/-- The FAULT_CLEARED of a record that is not CLEAR. -/
def State.clearedNotices (s : State) (i : Fin 21) : List Notice :=
  if s.faults[i].state ≠ .clear then [s.noticeOf .faultCleared none (some i.val) (256 * s.faults[i].kind.code) none]
  else []

theorem State.withdrawFault_eq (s : State) (i : Fin 21) : s.withdrawFault i = { s with
    faults := s.faults.set i { s.faults[i] with state := .clear }, link := s.link.handed (s.clearedNotices i) } := by
  unfold State.withdrawFault State.clearedNotices
  by_cases hr : s.faults[i].state = .clear
  · have same : s.faults.set i { s.faults[i] with state := .clear } = s.faults :=
      updAt_id s.faults i (fun r => { r with state := .clear }) (by rw [← hr])
    rw [if_pos hr, if_neg (not_not.mpr hr), same]
    rfl
  · have code : FaultState.clear.code + 256 * s.faults[i].kind.code = 256 * s.faults[i].kind.code := Nat.zero_add _
    rw [if_neg hr, if_pos hr, ← code]
    simp only [State.notifyFault, State.updFault, updAt_self]
    rfl

/-! ## The clock and its record (R27) -/

/-- The degraded flag clears with a clock set: the crystal runs. -/
abbrev State.clockClears (s : State) : Prop := s.clock.crystal = true ∧ s.clock.degraded = true

/-- The clock at the time carried. -/
def State.clockTimed (s : State) (minute second : Nat) : State :=
  s.updClock fun c =>
    { c with minute := minute, second := second, isSet := true, subMs := 0, degraded := c.degraded && !c.crystal }

/-- The FAULT_CLEARED of a clock set. -/
def State.clockCleared (s : State) (minute second : Nat) : List Notice :=
  if s.clockClears then (s.clockTimed minute second).clearedNotices clockSource else []

/-- The clock at the time carried and its record withdrawn, before the walker handles the step. -/
def State.clockWritten (s : State) (minute second : Nat) : State :=
  { s.clockTimed minute second with
    faults :=
      if s.clockClears then s.faults.set clockSource { s.faults[clockSource] with state := .clear } else s.faults
    link := s.link.handed (s.clockCleared minute second) }

theorem State.setClock_eq (s : State) (minute second : Nat) :
    s.setClock minute second = (s.clockWritten minute second).clockSet s.clock.minute s.clock.isSet := by
  let flag : Bool := s.clock.crystal && s.clock.degraded
  have degraded : (if flag then false else s.clock.degraded) = (s.clock.degraded && !s.clock.crystal) := by
    unfold flag
    cases s.clock.crystal <;> cases s.clock.degraded <;> rfl
  have timed : s.updClock (fun c => { c with
      minute := minute, second := second, isSet := true, subMs := 0
      degraded := if flag then false else c.degraded }) = s.clockTimed minute second := by
    rw [State.updClock, degraded]
    rfl
  have written : (if flag then (s.clockTimed minute second).withdrawFault clockSource else s.clockTimed minute second) =
      s.clockWritten minute second := by
    rw [State.withdrawFault_eq]
    unfold State.clockWritten State.clockCleared
    by_cases h : s.clockClears
    · have set : flag = true := by simp only [flag, h, Bool.and_self]
      rw [if_pos set, if_pos h, if_pos h]
      rfl
    · have unset : flag ≠ true := fun set => h (Bool.and_eq_true_iff.mp set)
      rw [if_neg unset, if_neg h, if_neg h]
      rfl
  rw [← written, ← timed]
  rfl

/-! ## A large step (R50) -/

/-- The end of the entry is still to come at the minute (R50). -/
def endsAfter (minute : Nat) (e : Entry) : Bool := decide (minute < e.start + e.duration)

/-- The walker that a large step has placed. -/
def State.placed (s : State) : Walker :=
  let found := s.walker.active.entries.findIdx? (endsAfter s.clock.minute)
  { s.walker with
    cycle := s.clock.minute, offset := if found.isSome then 0 else 10080, cursor := some (found.getD 0) }

/-- The walker placed and RUNNING, before its pass. -/
def State.placedRunning (s : State) : State := { s with walker := { s.placed with state := .running } }

/-- A walker that a large step sets RUNNING. -/
abbrev Walker.moves (w : Walker) : Prop := w.state = .clockWait ∨ w.state = .running ∨ w.state = .stalled

section
variable {s : State}

theorem State.reposition_eq (s : State) : s.walker.reposition s.clock.minute = s.placed :=
  s.walker.placeAt_parts s.clock.minute (endsAfter s.clock.minute)

theorem State.largeSet_rests (h : s.walker.state = .idle ∨ s.walker.state = .finished) : s.largeSet = s := by
  rcases h with h | h <;> simp only [State.largeSet, h]

theorem State.largeSet_paused (h : s.walker.state = .paused) : s.largeSet = { s with walker := s.placed } := by
  simp only [State.largeSet, h, State.updWalker, State.reposition_eq]

theorem State.largeSet_moves (h : s.walker.moves) : s.largeSet = s.placedRunning.armingPass true passBound := by
  rcases h with h | h | h <;> simp only [State.largeSet, h, State.updWalker, State.reposition_eq] <;> rfl

/-- The walker placed at an entry that is not due is RUNNING, with nothing to tell. -/
theorem State.largeSet_notDue (h : s.walker.moves) {k : Nat} {e : Entry} (hk : s.placed.cursor = some k)
    (he : s.walker.active.entries[k]? = some e) (hd : s.placed.cycle + s.lead e < e.start + s.placed.offset) :
    s.largeSet = s.placedRunning :=
  (State.largeSet_moves h).trans
    (State.armingPass_notDue (s := s.placedRunning) hk he true 399 ((State.dueEntry_eq_false s.placedRunning e).mpr hd))

end

/-- A large step finds the entry in progress, a NEXT slot it needs occupied and its index in no slot. -/
structure State.FindsOccupied (s : State) (k : Nat) (e : Entry) (w' : Walker) : Prop where
  found : s.walker.active.entries.findIdx? (endsAfter s.clock.minute) = some k
  entry : s.walker.active.entries[k]? = some e
  begun : e.start ≤ s.clock.minute
  apart : s.walker.stands k e.target = false
  occupied : s.walker.next.free e.target = false
  passes : s.placedRunning.walker.passesTo s.lead k w'

/-- An entry found in progress, as its cells' slots say it. -/
theorem State.findsOccupied_of_slots {s : State} {k : Nat} {e : Entry} {w' : Walker}
    (found : s.walker.active.entries.findIdx? (endsAfter s.clock.minute) = some k)
    (entry : s.walker.active.entries[k]? = some e) (begun : e.start ≤ s.clock.minute)
    (apart : ∀ c ∈ e.target.cells, ∀ b, s.walker.next.inCell c = some b ∨ s.walker.current.inCell c = some b →
      b.index ≠ some k)
    (occupied : ∃ c ∈ e.target.cells, s.walker.next.inCell c ≠ none)
    (passes : s.placedRunning.walker.passesTo s.lead k w') : s.FindsOccupied k e w' := by
  refine ⟨found, entry, begun, ?_, ?_, passes⟩
  · rw [← Bool.not_eq_true, Walker.stands_iff]
    exact fun ⟨c, hc, b, stands, index⟩ => apart c hc b stands index
  · rw [← Bool.not_eq_true, SlotPair.free_iff]
    obtain ⟨c, hc, standing⟩ := occupied
    exact fun free => standing (free c hc)

/-- What a large step tells of the entry that it passes over. -/
def State.passNotices (s : State) (k : Nat) (e : Entry) (w' : Walker) : List Notice :=
  s.missNotices e k ++ s.finishNotices w'

section
variable {s : State} {k : Nat} {e : Entry} {w' : Walker} (h : s.FindsOccupied k e w')
include h

theorem State.FindsOccupied.placed : s.placed =
    { s.walker with cycle := s.clock.minute, offset := 0, cursor := some k } := by
  simp only [State.placed, h.found, Option.isSome_some, ↓reduceIte, Option.getD_some]

theorem State.FindsOccupied.unique {j : Nat} {f : Entry} {v : Walker} (g : s.FindsOccupied j f v) :
    s.passNotices j f v = s.passNotices k e w' := by
  obtain rfl : k = j := Option.some.inj (h.found.symm.trans g.found)
  obtain rfl : e = f := Option.some.inj (h.entry.symm.trans g.entry)
  rw [h.passes.unique g.passes]

/-- It is passed over with ENTRY_MISSED, a stop mark on it being done. -/
theorem State.FindsOccupied.largeSet (hm : s.walker.moves) :
    s.largeSet.walker = { w' with
        stopMark := if s.walker.marks k then none else s.walker.stopMark
        state := if w'.state = .running ∧ s.walker.marks k = true ∧
          (s.walker.stopMark.any fun m => m.mode == .pause) = true then .paused else w'.state } ∧
      s.largeSet.link = s.link.handed (s.passNotices k e w') := by
  obtain ⟨next, current, -⟩ := h.passes.slots
  have begun : e.start + s.placedRunning.walker.offset ≤ s.placedRunning.walker.cycle := by
    simpa [State.placedRunning, h.placed] using h.begun
  have due : s.placedRunning.dueEntry e = true :=
    (State.dueEntry_eq_true s.placedRunning e).mpr (begun.trans (Nat.le_add_right _ _))
  have misses := s.placedRunning.missEntry_eq e k
  have state := Walker.missed_state (w := s.placedRunning.walker) k rfl
  have pass := State.armingPass_handled (s := s.placedRunning) (by rw [State.placedRunning, h.placed]) h.entry due
    (State.handleEntry_passedOver (s := s.placedRunning) h.apart h.occupied begun) h.passes
    ((State.missEntry_keeps _ _ _).mono rfl) (next := w'.next) (current := w'.current)
    (mark := if s.walker.marks k then none else s.walker.stopMark) (state := (s.placedRunning.walker.missed k).state)
    (by rw [misses, next, current]; rfl) state
  rw [State.largeSet_moves hm, pass, Walker.missed_movedTo _ _ _ rfl, misses]
  refine ⟨rfl, ?_⟩
  rw [State.passNotices, Link.handed_append]
  rfl

end

/-! ## The step of a clock set (R50) -/

/-- The walker with C risen by a step, and the week that R34 takes off C and O. -/
def Walker.risen (w : Walker) (d : Nat) : Walker :=
  let c := min 20159 (w.cycle + d)
  let week := if 10080 ≤ c ∧ 10080 ≤ w.offset then 10080 else 0
  { w with cycle := c - week, offset := w.offset - week }

theorem Walker.advance_risen {w : Walker} (h : w.state = .paused ∨ w.state = .running ∨ w.state = .stalled) (d : Nat) :
    w.advance d = w.risen d := by
  have risen : w.advance d = { w with cycle := min 20159 (w.cycle + d) }.settleCycle := by
    rcases h with h | h | h <;> simp only [Walker.advance, h] <;> rfl
  rw [risen, Walker.settleCycle, Walker.risen]
  by_cases hc : 10080 ≤ min 20159 (w.cycle + d) ∧ 10080 ≤ w.offset
  · exact (if_pos hc).trans (by rw [if_pos hc]; rfl)
  · exact (if_neg hc).trans (by rw [if_neg hc]; rfl)

section
variable {s : State} {old : Nat} {wasSet : Bool}

theorem State.clockSet_rests (h : s.walker.state = .idle ∨ s.walker.state = .finished) :
    s.clockSet old wasSet = s := by
  have large := State.largeSet_rests h
  unfold State.clockSet
  rcases h with h | h <;> simp only [h, large, ite_self]

theorem State.clockSet_noStep (hw : wasSet = true) (hd : clockStep old s.clock.minute = 0) :
    s.clockSet old wasSet = s := by
  simp only [State.clockSet, hw, hd, ↓reduceIte]

theorem State.clockSet_large (h : wasSet = false ∨ 15 < clockStep old s.clock.minute) :
    s.clockSet old wasSet = s.largeSet := by
  unfold State.clockSet
  rcases h with rfl | hd
  · rfl
  · have step : clockStep old s.clock.minute ≠ 0 ∧ ¬ clockStep old s.clock.minute ≤ 15 := by omega
    simp only [step, ↓reduceIte, ite_self]

section
variable (hw : wasSet = true) (h1 : 1 ≤ clockStep old s.clock.minute) (h15 : clockStep old s.clock.minute ≤ 15)
include hw h1 h15

theorem State.clockSet_small_paused (h : s.walker.state = .paused) :
    s.clockSet old wasSet = { s with walker := s.walker.risen (clockStep old s.clock.minute) } := by
  simp only [State.clockSet, hw, Nat.pos_iff_ne_zero.mp h1, h15, h, ↓reduceIte, State.updWalker,
    Walker.advance_risen (.inl h)]

/-- A small step to a cursor entry that is not due leaves the walker RUNNING. -/
theorem State.clockSet_small_notDue (h : s.walker.state = .running ∨ s.walker.state = .stalled) {k : Nat} {e : Entry}
    (hk : s.walker.cursor = some k) (he : s.walker.active.entries[k]? = some e)
    (hd : (s.walker.risen (clockStep old s.clock.minute)).cycle + s.lead e <
      e.start + (s.walker.risen (clockStep old s.clock.minute)).offset) : s.clockSet old wasSet =
      { s with walker := { s.walker.risen (clockStep old s.clock.minute) with state := .running } } := by
  let x : State := { s with walker := s.walker.risen (clockStep old s.clock.minute) }
  have set : s.clockSet old wasSet = (s.updWalker fun w => w.advance (clockStep old s.clock.minute)).pass := by
    rcases h with h | h <;> simp only [State.clockSet, hw, Nat.pos_iff_ne_zero.mp h1, h15, h, ↓reduceIte]
  have placed : (s.updWalker fun w => w.advance (clockStep old s.clock.minute)) = x := by
    rw [State.updWalker, Walker.advance_risen (.inr h)]
  have pass : x.pass = x.armingPass false passBound := by
    have state : x.walker.state = s.walker.state := rfl
    rcases h with h | h <;> simp only [State.pass, state, h]
  rw [set, placed, pass]
  exact State.armingPass_notDue (s := x) hk he false 399 ((State.dueEntry_eq_false x e).mpr hd)

end

/-- A clock set by a large step passes an entry over. -/
structure State.PassesOver (s : State) (old : Nat) (wasSet : Bool) (k : Nat) (e : Entry) (w' : Walker) : Prop where
  large : wasSet = false ∨ 15 < clockStep old s.clock.minute
  moves : s.walker.moves
  finds : s.FindsOccupied k e w'

section
variable {s : State} {old : Nat} {wasSet : Bool} (k : Nat) (e : Entry) (w' : Walker)

theorem State.not_passesOver_of_rests
    (h : s.walker.state = .idle ∨ s.walker.state = .finished ∨ s.walker.state = .paused) :
    ¬ s.PassesOver old wasSet k e w' := by
  intro passing
  have moves := passing.moves
  unfold Walker.moves at moves
  rcases h with h | h | h <;> simp [h] at moves

theorem State.not_passesOver_of_small (hw : wasSet = true) (h15 : clockStep old s.clock.minute ≤ 15) :
    ¬ s.PassesOver old wasSet k e w' := by
  intro passing
  rcases passing.large with unset | large
  · simp [hw] at unset
  · omega

/-- An entry in progress is due. -/
theorem State.not_passesOver_of_notDue {f : Entry} (hf : s.walker.active.entries[s.placed.cursor.getD 0]? = some f)
    (hd : s.placed.cycle + s.lead f < f.start + s.placed.offset) : ¬ s.PassesOver old wasSet k e w' := by
  intro passing
  have finds := passing.finds
  rw [finds.placed] at hf hd
  obtain rfl : e = f := Option.some.inj (finds.entry.symm.trans hf)
  have begun := finds.begun
  dsimp only at hd
  omega

end

/-- What a clock set hands over of the walker: an entry passed over, and nothing where the walker alone changes. -/
theorem State.clockSet_notices (s : State) (old : Nat) (wasSet : Bool) :
    ∃ ns, (s.clockSet old wasSet).link = s.link.handed ns ∧
      (∀ v, s.clockSet old wasSet = { s with walker := v } → (∀ k e w', ¬ s.PassesOver old wasSet k e w') → ns = []) ∧
      ∀ k e w', s.PassesOver old wasSet k e w' → ns = s.passNotices k e w' := by
  by_cases passes : ∃ k e w', s.PassesOver old wasSet k e w'
  · obtain ⟨k, e, w', passing⟩ := passes
    refine ⟨s.passNotices k e w', ?_, fun _ _ no => absurd passing (no k e w'), fun j f v p => ?_⟩
    · rw [State.clockSet_large passing.large]
      exact (passing.finds.largeSet passing.moves).2
    · exact (passing.finds.unique p.finds).symm
  · have no : ∀ k e w', ¬ s.PassesOver old wasSet k e w' := fun k e w' p => passes ⟨k, e, w', p⟩
    by_cases quiet : ∃ v, s.clockSet old wasSet = { s with walker := v }
    · obtain ⟨v, same⟩ := quiet
      exact ⟨[], (congrArg State.link same :), fun _ _ _ => rfl, fun k e w' p => absurd p (no k e w')⟩
    · obtain ⟨ns, link⟩ := (s.clockSet_keeps old wasSet).same .link rfl
      exact ⟨ns, link, fun v same _ => absurd ⟨v, same⟩ quiet, fun k e w' p => absurd p (no k e w')⟩

end

/-! ## SET_TIME -/

/-- Settles O19: the walker makes of the step what R50 says, behind the FAULT_CLEARED of the clock's record. -/
theorem setTimeSetsTheClock : Obligations.SetTimeSetsTheClock := by
  intro tag minute second s hs
  refine ⟨fun hm hsec => ?_, fun h => ?_⟩
  · let y := s.clockWritten minute.toNat second.toNat
    obtain ⟨ns, link, quiet, passed⟩ := y.clockSet_notices s.clock.minute s.clock.isSet
    have set : s.answerSetTime minute second = accept [] (y.clockSet s.clock.minute s.clock.isSet) := by
      rw [State.answerSetTime, if_neg (by omega), State.setClock_eq]
    have kept := s.setClock_keeps minute.toNat second.toNat
    rw [State.setClock_eq] at kept
    have clocks := y.clockSet_keeps s.clock.minute s.clock.isSet
    have handed : (y.clockSet s.clock.minute s.clock.isSet).link =
        s.link.handed (s.clockCleared minute.toNat second.toNat ++ ns) := by rw [link, Link.handed_append]; rfl
    let t : State := { y.clockSet s.clock.minute s.clock.isSet with
      link := (y.clockSet s.clock.minute s.clock.isSet).link.answered 0x03 tag .ok [] }
    have run : exec (.setTime tag minute second) s = .next t :=
      exec_answered hs rfl rfl set (by rw [handed, Link.handed_requests])
    have clock : (y.clockSet s.clock.minute s.clock.isSet).clock = y.clock := clocks.same .clock rfl
    have faults : (y.clockSet s.clock.minute s.clock.isSet).faults = y.faults := clocks.same .faults rfl
    refine ⟨t, ns, run, clock, kept.working rfl rfl rfl rfl, kept.same .air rfl, kept.same .supervision rfl,
      kept.same .doors rfl, kept.same .overrides rfl, ?_⟩
    intro clears record cleared w d small large c week risen found placed lead
    have alone {v : Walker} (same : y.clockSet s.clock.minute s.clock.isSet = { y with walker := v })
        (no : ∀ k e w', ¬ y.PassesOver s.clock.minute s.clock.isSet k e w') :
        (y.clockSet s.clock.minute s.clock.isSet).walker = v ∧ ns = [] := ⟨congrArg State.walker same, quiet v same no⟩
    have stamp (n : NoticeKind) (p : Option Place) (i : Option Nat) (v : Nat) (g : Option Half) :
        t.noticeOf n p i v g = y.noticeOf n p i v g := State.noticeOf_congr clock n p i v g
    refine ⟨faults, ?_, fun _ => ⟨?_, ?_, ?_, ?_, ?_⟩⟩
    · have told : s.clockCleared minute.toNat second.toNat = cleared := by
        unfold State.clockCleared State.clearedNotices cleared
        rw [← ite_and]
        refine if_congr Iff.rfl ?_ rfl
        exact congrArg (fun n => [n]) (stamp _ _ _ _ _).symm
      rw [← told, ← handed]
    · rintro (h | h | ⟨h, hd⟩)
      · exact alone (v := w) (State.clockSet_rests (.inl h)) (State.not_passesOver_of_rests · · · (.inl h))
      · exact alone (v := w) (State.clockSet_rests (.inr h)) (State.not_passesOver_of_rests · · · (.inr (.inl h)))
      · exact alone (v := w) (State.clockSet_noStep h hd)
          (State.not_passesOver_of_small · · · h (hd.le.trans (Nat.zero_le 15)))
    · rintro ⟨h, h1, h15⟩ hp
      exact alone (State.clockSet_small_paused h h1 h15 hp) (State.not_passesOver_of_small · · · h h15)
    · rintro hl hp
      exact alone ((State.clockSet_large hl).trans (State.largeSet_paused hp))
        (State.not_passesOver_of_rests · · · (.inr (.inr hp)))
    · rintro k e ⟨h, h1, h15⟩ hr hk he hd
      exact alone (State.clockSet_small_notDue h h1 h15 hr hk he hd) (State.not_passesOver_of_small · · · h h15)
    · intro e hl hr he runs
      refine ⟨fun hd => ?_, fun w' hf hb ha ho hp => ?_⟩
      · exact alone ((State.clockSet_large hl).trans (State.largeSet_notDue hr rfl he hd))
          (State.not_passesOver_of_notDue · · · he hd)
      · obtain ⟨k, hk⟩ := Option.isSome_iff_exists.mp hf
        intro marked note
        rw [hk] at he hp
        have finds : y.FindsOccupied k e w' := State.findsOccupied_of_slots hk he hb (hk ▸ ha) ho hp
        have marks : s.walker.marks k = marked := by
          simp only [Walker.marks, marked, hk, Option.some.injEq, eq_comm, w]
        obtain ⟨walker, -⟩ := finds.largeSet hr
        refine ⟨?_, ?_⟩
        · rw [← marks]
          exact (congrArg State.walker (State.clockSet_large hl)).trans walker
        · rw [passed k e w' ⟨hl, hr, finds⟩, ← marks]
          simp only [note, stamp, hk]
          rfl
  · exact exec_refused hs rfl rfl (if_pos h)

end Sys2Proof.Machine
end

