-- ==== Sys2Proof/Proofs/Evaluation.lean ====
section
/-! PROOF. What an evaluation of a unit's occupancy state leaves (R72, R73, R80, R82, R84): the record of the unit, and
no notice. -/

namespace Sys2Proof.Machine
open Sys2Proof

/-- A cell's unit exists. -/
theorem State.unit?_idOf (s : State) (c : Cell) : s.unit? (s.space.units.idOf c) = some (s.unitOf c) := by
  unfold State.unit? State.unitOf
  cases s.space.units <;> cases c <;> rfl

/-! ## Evaluation (R80, R82) -/

/-- What an occupancy evaluation may move: it hands over no notice. -/
abbrev evaluationMoves : List Block := [.walker, .units, .modes, .lighting]

/-- A change of occupancy state, but to VACANT, is handed on without a notice and without a trace in any tenancy. -/
theorem State.occupancyChanged_quiet (s : State) (id : UnitId) {old new : Occupancy}
    (h : new = .vacant → old = .vacant) :
    s.SameTenancy (s.occupancyChanged id old new) ∧ Keeps evaluationMoves s (s.occupancyChanged id old new) := by
  unfold State.occupancyChanged
  split
  · exact ⟨.refl s, .refl _ s⟩
  · next moved =>
    cases new with
    | vacant => exact absurd (h rfl) moved
    | occupied =>
      have cleared : Keeps [.walker] s (if old = .vacant then s.clearVacant id else s) :=
        .ite (s.clearVacant_keeps id) (.refl _ s)
      have seen := cleared.trans (State.seeOccupied_keeps _ id)
      exact ⟨(State.SameTenancy.of_units (seen.same .units rfl)).trans (State.derive_sameTenancy _ id),
        (seen.mono rfl).trans ((State.derive_keeps _ id).mono rfl)⟩
    | clearing => exact ⟨s.derive_sameTenancy id, (s.derive_keeps id).mono rfl⟩

theorem nextOccupancy_vacant {o : Occupancy} {e : Bool} {c : Option Nat} (h : (nextOccupancy o e c).1 = .vacant) :
    o = .vacant := by
  cases o <;> cases e <;> first | rfl | cases h

/-- The tenancy of a unit once its occupancy state has been evaluated on some evidence. -/
def Tenancy.evaluated (x : Tenancy) (evidence : Bool) : Tenancy :=
  { x with
    occupancy := (nextOccupancy x.occupancy evidence x.clearing).1
    clearing := (nextOccupancy x.occupancy evidence x.clearing).2 }

/-- The record of a unit with the occupancy state that R80 gives it. -/
def State.judged (s : State) (id : UnitId) (u : UnitRec) : State :=
  s.modifyUnit id fun r => { r with
    occupancy := (nextOccupancy u.occupancy (s.evidence id u) u.clearing).1
    clearing := (nextOccupancy u.occupancy (s.evidence id u) u.clearing).2 }

theorem State.evaluate_eq {s : State} {id : UnitId} {u : UnitRec} (hu : s.unit? id = some u) :
    s.evaluate id = (s.judged id u).occupancyChanged id u.occupancy
      (nextOccupancy u.occupancy (s.evidence id u) u.clearing).1 := by
  simp only [State.evaluate, State.setOccupancy, hu]
  rfl

theorem State.evaluate_record {s : State} {id : UnitId} {u : UnitRec} (hu : s.unit? id = some u) :
    ∃ v, (s.evaluate id).unit? id = some v ∧ v.tenancy = u.tenancy.evaluated (s.evidence id u) := by
  have judged : ∃ r, (s.judged id u).unit? id = some r ∧ r.tenancy = u.tenancy.evaluated (s.evidence id u) := by
    rw [State.judged, State.unit?_modifyUnit_self, hu]
    exact ⟨_, rfl, rfl⟩
  obtain ⟨r, hr, tenancy⟩ := judged
  obtain ⟨v, hv, same⟩ := ((s.judged id u).occupancyChanged_quiet id nextOccupancy_vacant).1.record hr
  rw [State.evaluate_eq hu]
  exact ⟨v, hv, same.trans tenancy⟩

theorem State.evaluate_keeps_quiet (s : State) (id : UnitId) : Keeps evaluationMoves s (s.evaluate id) := by
  cases hu : s.unit? id with
  | none =>
    have same : s.evaluate id = s := by simp only [State.evaluate, hu]
    rw [same]
    exact .refl _ s
  | some u =>
    have judged : Keeps [.units] s (s.judged id u) := s.modifyUnit_keeps_both id _ (fun _ => rfl) fun _ => rfl
    rw [State.evaluate_eq hu]
    exact (judged.mono rfl).trans (State.occupancyChanged_quiet _ id nextOccupancy_vacant).2

/-! ## The headcount (R72, R73) -/

/-- What a change of headcount may move: it hands over no notice. -/
abbrev countMoves : List Block := [.walker, .units, .headcounts, .modes, .lighting]

/-- The record of a unit with its headcount and count state as they are set, before the evaluation (R68, R72). -/
def State.headcounted (s : State) (id : UnitId) (n : Nat) (count : CountState) : State :=
  s.modifyUnit id fun u =>
    { u with headcount := n, count := count, forcedTimer := if 0 < n then 0 else u.forcedTimer }

theorem State.setHeadcount_record {s : State} {id : UnitId} {u : UnitRec} (hu : s.unit? id = some u) (n : Nat)
    (count : CountState) :
    ∃ v, (s.setHeadcount id n count).unit? id = some v ∧
      v.tenancy = Tenancy.evaluated { u.tenancy with
        headcount := n, count := count, forcedTimer := if 0 < n then 0 else u.forcedTimer }
        (decide (0 < n) || s.presenceOf id) := by
  have hn : (s.headcounted id n count).unit? id =
      some { u with headcount := n, count := count, forcedTimer := if 0 < n then 0 else u.forcedTimer } := by
    rw [State.headcounted, State.unit?_modifyUnit_self, hu]; rfl
  exact State.evaluate_record hn

theorem State.setHeadcount_keeps_quiet (s : State) (id : UnitId) (n : Nat) (count : CountState) :
    Keeps countMoves s (s.setHeadcount id n count) := by
  have written : Keeps [.units, .headcounts] s (s.headcounted id n count) :=
    s.modifyUnit_keeps_modes id _ fun _ => rfl
  exact (written.mono rfl).trans ((State.evaluate_keeps_quiet _ id).mono rfl)

/-- The vacancy timer's run ends at an ENTRY without presence (R84). -/
def State.entering (s : State) (c : Cell) : State :=
  if s.presenceOf (s.space.units.idOf c) then s
  else s.modifyUnit (s.space.units.idOf c) fun u => { u with vacancyTimer := 0, vacancyTold := true }

theorem State.entering_keeps (s : State) (c : Cell) : Keeps [.units] s (s.entering c) :=
  .ite (.refl _ s) (s.modifyUnit_keeps_both _ _ (fun _ => rfl) fun _ => rfl)

theorem State.entering_record (s : State) (c : Cell) :
    ∃ v, (s.entering c).unit? (s.space.units.idOf c) = some v ∧ v.headcount = (s.unitOf c).headcount ∧
      (s.presenceOf (s.space.units.idOf c) = false → v.vacancyTimer = 0 ∧ v.vacancyTold = true) := by
  unfold State.entering
  split
  · next present => exact ⟨_, s.unit?_idOf c, rfl, fun absent => by simp [absent] at present⟩
  · refine ⟨{ s.unitOf c with vacancyTimer := 0, vacancyTold := true }, ?_, rfl, fun _ => ⟨rfl, rfl⟩⟩
    rw [State.unit?_modifyUnit_self, s.unit?_idOf]; rfl

theorem State.enter_eq (s : State) (c : Cell) : s.enter c =
    if (s.unitOf c).headcount < (s.space.units.idOf c).maxHeadcount then
      (s.entering c).setHeadcount (s.space.units.idOf c) ((s.unitOf c).headcount + 1) (s.unitOf c).count
    else (s.entering c).setHeadcount (s.space.units.idOf c) (s.unitOf c).headcount .uncertain := by
  rw [← ite_not]
  simp only [not_lt]
  rfl

theorem State.enter_keeps_quiet (s : State) (c : Cell) : Keeps countMoves s (s.enter c) := by
  have begun : Keeps countMoves s (s.entering c) := (s.entering_keeps c).mono rfl
  rw [State.enter_eq]
  exact .ite (begun.trans (State.setHeadcount_keeps_quiet ..)) (begun.trans (State.setHeadcount_keeps_quiet ..))

theorem maxHeadcount_pos (id : UnitId) : 0 < id.maxHeadcount := by cases id <;> decide

/-- A headcount above 0 is evidence: the unit is OCCUPIED, with the headcount and count state that were set. -/
theorem State.setHeadcount_above {s : State} {id : UnitId} {u : UnitRec} (hu : s.unit? id = some u) {n : Nat}
    (hn : 0 < n) (count : CountState) :
    ∃ v, (s.setHeadcount id n count).unit? id = some v ∧ v.headcount = n ∧ v.count = count ∧
      v.occupancy = .occupied ∧ v.vacancyTimer = u.vacancyTimer ∧ v.vacancyTold = u.vacancyTold := by
  obtain ⟨v, hv, tenancy⟩ := State.setHeadcount_record hu n count
  have occupied := congrArg Tenancy.occupancy tenancy
  simp only [Tenancy.evaluated, hn, decide_true, Bool.true_or, nextOccupancy_evidence] at occupied
  exact ⟨v, hv, congrArg Tenancy.headcount tenancy, congrArg Tenancy.count tenancy, occupied,
    congrArg Tenancy.vacancyTimer tenancy, congrArg Tenancy.vacancyTold tenancy⟩

/-- An ENTRY (R72, R84). -/
theorem State.enter_record (s : State) (c : Cell) :
    ∃ v, (s.enter c).unit? (s.space.units.idOf c) = some v ∧ v.occupancy = .occupied ∧
      (s.presenceOf (s.space.units.idOf c) = false → v.vacancyTimer = 0 ∧ v.vacancyTold = true) ∧
      if (s.unitOf c).headcount < (s.space.units.idOf c).maxHeadcount then
        v.headcount = (s.unitOf c).headcount + 1 ∧ v.count = (s.unitOf c).count
      else v.headcount = (s.unitOf c).headcount ∧ v.count = .uncertain := by
  obtain ⟨u, hu, -, ends⟩ := s.entering_record c
  have set {n : Nat} (hn : 0 < n) (count : CountState) := State.setHeadcount_above hu hn count
  rw [State.enter_eq]
  split
  · obtain ⟨v, hv, headcount, count, occupied, timer, told⟩ := set (Nat.succ_pos _) (s.unitOf c).count
    exact ⟨v, hv, occupied, by rwa [timer, told], headcount, count⟩
  · next full =>
    have pos := (maxHeadcount_pos (s.space.units.idOf c)).trans_le (Nat.le_of_not_lt full)
    obtain ⟨v, hv, headcount, count, occupied, timer, told⟩ := set pos .uncertain
    exact ⟨v, hv, occupied, by rwa [timer, told], headcount, count⟩

theorem State.leave_counted {s : State} {c : Cell} (h : 0 < (s.unitOf c).headcount) : s.leave c =
    s.setHeadcount (s.space.units.idOf c) ((s.unitOf c).headcount - 1) (s.unitOf c).count := if_pos h

theorem State.leave_drifts {s : State} {c : Cell} (h : (s.unitOf c).headcount = 0) :
    s.leave c = { s with drift := s.drift.set c (min 255 (s.drift.get c + 1)) } :=
  if_neg (Nat.not_lt.mpr h.le)

/-- What was counted is handed on without a notice. -/
theorem State.handCount_keeps_quiet (s : State) (c : Cell) (n : Counted) :
    Keeps (.drift :: countMoves) s (s.handCount c n) := by
  cases n with
  | nothing => exact .refl _ s
  | turnBack => exact .refl _ s
  | entry => exact (s.enter_keeps_quiet c).mono rfl
  | exit => exact .ite ((State.setHeadcount_keeps_quiet ..).mono rfl) ((s.updDrift_keeps _).mono rfl)

end Sys2Proof.Machine
end

