-- ==== Sys2Proof/Proofs/Beams.lean ====
section
/-! PROOF. The beams of a doorway channel (R54, R55), the passage table (R56), and what the end of a debounce comes to
in each state of the channel (R59, R61, R69). -/

namespace Sys2Proof.Machine
open Sys2Proof

/-! ## One channel of several -/

theorem updAt_updAt {α : Type} {n : Nat} (v : Vector α n) (i : Fin n) (f g : α → α) :
    updAt (updAt v i f) i g = updAt v i fun x => g (f x) := by
  simp [updAt]

theorem State.updDoor_updDoor (s : State) (i : Fin 4) (f g : Door → Door) :
    (s.updDoor i f).updDoor i g = s.updDoor i fun d => g (f d) := by
  simp only [State.updDoor, updAt_updAt]

theorem State.updDoor_get (s : State) (i : Fin 4) (f : Door → Door) : (s.updDoor i f).doors[i] = f s.doors[i] :=
  updAt_self s.doors i f

/-! ## Beams (R54, R55) -/

/-- The other beam of a channel. -/
def otherBeam : BeamSide → BeamSide
  | .outer => .inner
  | .inner => .outer

/-- A beam whose pin has held its level for the debounce time. -/
def Beam.settled (b : Beam) : Beam := { b with debounced := some b.pin, pending := none }

/-- A beam at a beam event: its state has turned with its debounced level. -/
def Beam.turned (b : Beam) (broke : Bool) : Beam :=
  { b with debounced := some b.pin, pending := none, broken := broke }

@[simp] theorem Door.beam_updBeam (d : Door) (side : BeamSide) (f : Beam → Beam) :
    (d.updBeam side f).beam side = f (d.beam side) := by
  cases side <;> rfl

theorem Door.updBeam_updBeam (d : Door) (side : BeamSide) (f g : Beam → Beam) :
    (d.updBeam side f).updBeam side g = d.updBeam side fun b => g (f b) := by
  cases side <;> rfl

section
variable (d : Door) (side : BeamSide) (f : Beam → Beam)

@[simp] theorem Door.updBeam_passage : (d.updBeam side f).passage = d.passage := by cases side <;> rfl
@[simp] theorem Door.updBeam_rearm : (d.updBeam side f).rearm = d.rearm := by cases side <;> rfl
@[simp] theorem Door.updBeam_transit : (d.updBeam side f).transit = d.transit := by cases side <;> rfl
@[simp] theorem Door.updBeam_stuck : (d.updBeam side f).stuck = d.stuck := by cases side <;> rfl
@[simp] theorem Door.updBeam_entries : (d.updBeam side f).entries = d.entries := by cases side <;> rfl
@[simp] theorem Door.updBeam_exits : (d.updBeam side f).exits = d.exits := by cases side <;> rfl
@[simp] theorem Door.updBeam_turnBacks : (d.updBeam side f).turnBacks = d.turnBacks := by cases side <;> rfl

end

/-- Neither beam is BROKEN. -/
def Door.bothClear (d : Door) : Bool := !d.outer.broken && !d.inner.broken

theorem Door.bothClear_turned (d : Door) (side : BeamSide) (broke : Bool) :
    (d.updBeam side fun b => b.turned broke).bothClear = true ↔
      broke = false ∧ (d.beam (otherBeam side)).broken = false := by
  cases side
  · simp [Door.bothClear, Door.updBeam, Beam.turned, Door.beam, otherBeam]
  · simp [Door.bothClear, Door.updBeam, Beam.turned, Door.beam, otherBeam, and_comm]

/-! ## The passage table (R56) -/

/-- What a passage counts that returns to IDLE. -/
def Passage.counted : Passage → Counted
  | .inInner => .entry
  | .outOuter => .exit
  | .inOuter | .outInner => .turnBack
  | _ => .nothing

theorem Passage.counted_entry (p : Passage) : p.counted = .entry ↔ p = .inInner := by
  cases p <;> simp [Passage.counted]

theorem Passage.counted_exit (p : Passage) : p.counted = .exit ↔ p = .outOuter := by
  cases p <;> simp [Passage.counted]

theorem Passage.counted_turnBack (p : Passage) : p.counted = .turnBack ↔ p = .inOuter ∨ p = .outInner := by
  cases p <;> simp [Passage.counted]

/-- What is counted at a move of the passage state. -/
def Passage.counts (p next : Passage) : Counted := if next = .idle then p.counted else .nothing

theorem Passage.counts_eq {p next : Passage} {c : Counted} (h : c ≠ .nothing) :
    p.counts next = c ↔ next = .idle ∧ p.counted = c := by
  unfold Passage.counts
  split
  · next idle => simp [idle]
  · next idle => simp [idle, h.symm]

/-- The table of the model is that of R56, row by row; no row is one of a blocked channel. -/
theorem passageRows_next : ∀ r ∈ passageRows,
    passageNext r.1 r.2.1 r.2.2.1 = (r.2.2.2, r.1.counts r.2.2.2) ∧ r.1 ≠ .blocked := by
  decide

/-- The channel after a move of the passage state, with its counters as R56 gives them. -/
theorem Door.move_counts (d : Door) (next : Passage) : d.move next (d.passage.counts next) = { d with
    passage := next
    transit := if next = .idle then none else if d.passage = .idle then some 0 else d.transit
    entries := d.entries + (if next = .idle ∧ d.passage = .inInner then 1 else 0)
    exits := d.exits + (if next = .idle ∧ d.passage = .outOuter then 1 else 0)
    turnBacks := d.turnBacks +
      (if next = .idle ∧ (d.passage = .inOuter ∨ d.passage = .outInner) then 1 else 0) } := by
  have add (x : Half) (p : Prop) [Decidable p] : x + (if p then 1 else 0) = if p then x + 1 else x := by
    split <;> simp
  simp only [Door.move, add, Passage.counts_eq (ne_of_beq_false rfl : Counted.entry ≠ .nothing),
    Passage.counts_eq (ne_of_beq_false rfl : Counted.exit ≠ .nothing),
    Passage.counts_eq (ne_of_beq_false rfl : Counted.turnBack ≠ .nothing), Passage.counted_entry,
    Passage.counted_exit, Passage.counted_turnBack]

/-! ## The end of a debounce (R54, R55, R69) -/

section
variable {s : State} {i : Fin 4} {side : BeamSide} {broke : Bool}

/-- The beam's level is the debounced level; nothing else of it is judged yet. -/
def State.beamSettled (s : State) (i : Fin 4) (side : BeamSide) : State :=
  s.updDoor i fun d => d.updBeam side Beam.settled

/-- The beam has turned at a beam event, which the channel has not taken yet. -/
def State.beamTurned (s : State) (i : Fin 4) (side : BeamSide) (broke : Bool) : State :=
  s.updDoor i fun d => d.updBeam side fun b => b.turned broke

theorem State.beamTurned_get : (s.beamTurned i side broke).doors[i] =
    s.doors[i].updBeam side fun b => b.turned broke := State.updDoor_get ..

theorem State.beamTurned_passage : (s.beamTurned i side broke).doors[i].passage = s.doors[i].passage := by
  rw [State.beamTurned_get, Door.updBeam_passage]

theorem State.beamTurned_rearm : (s.beamTurned i side broke).doors[i].rearm = s.doors[i].rearm := by
  rw [State.beamTurned_get, Door.updBeam_rearm]

theorem State.beamTurned_bothClear : (s.beamTurned i side broke).doors[i].bothClear = true ↔
    broke = false ∧ (s.doors[i].beam (otherBeam side)).broken = false := by
  rw [State.beamTurned_get, Door.bothClear_turned]

theorem State.completeDebounce_unchanged (hp : (s.doors[i].beam side).pending.isSome = true)
    (h : (s.doors[i].beam side).debounced = some (s.doors[i].beam side).pin) :
    s.completeDebounce i side = s.beamSettled i side := by
  obtain ⟨p, hp⟩ := Option.isSome_iff_exists.mp hp
  simp only [State.completeDebounce, hp, h, ↓reduceIte]
  rfl

theorem State.completeDebounce_first (hp : (s.doors[i].beam side).pending.isSome = true)
    (h : (s.doors[i].beam side).debounced = none) :
    s.completeDebounce i side = (s.beamSettled i side).firstLevel i side (s.doors[i].beam side).pin := by
  obtain ⟨p, hp⟩ := Option.isSome_iff_exists.mp hp
  simp only [State.completeDebounce, hp, h]
  rfl

theorem State.completeDebounce_turns (h : s.BeamTurns i side broke) :
    s.completeDebounce i side = (s.beamTurned i side broke).beamEvent i side broke := by
  obtain ⟨hp, hd, hb, hf⟩ := h
  obtain ⟨p, hp⟩ := Option.isSome_iff_exists.mp hp
  have changed : ¬ (!(s.doors[i].beam side).pin) = (s.doors[i].beam side).pin := by simp
  have turns : ¬ broke = (s.doors[i].beam side).broken := by rw [hb]; cases broke <;> decide
  simp only [State.completeDebounce, hp, hd, changed, hf, turns, ↓reduceIte, State.updDoor_updDoor,
    Door.updBeam_updBeam]
  rfl

/-- A first level that does not mean BROKEN says nothing of the passage (R69). -/
theorem State.firstLevel_unbroken {high : Bool}
    (h : (s.working.settings.beamEdge i side).breaks high ≠ some true) : s.firstLevel i side high = s := by
  unfold State.firstLevel
  split
  · next broken => exact absurd broken h
  · rfl

theorem State.firstLevel_broken {high : Bool}
    (h : (s.working.settings.beamEdge i side).breaks high = some true) : s.firstLevel i side high =
      s.updDoor i fun d => (d.updBeam side fun b => { b with broken := true }).returned (s.doorCell i).isSome := by
  simp only [State.firstLevel, h]

/-! ## Beam events (R56, R59, R61) -/

theorem State.beamEvent_disabled (h : s.doorCell i = none) : s.beamEvent i side broke = s := by
  simp only [State.beamEvent, h]

variable {c : Cell} (hc : s.doorCell i = some c)
include hc

theorem State.beamEvent_blocked (hp : s.doors[i].passage = .blocked) : s.beamEvent i side broke =
    s.updDoor i fun d => { d with blockClear := if s.doors[i].bothClear then some 0 else none } := by
  simp only [State.beamEvent, hc, hp, ↓reduceIte]
  rfl

theorem State.beamEvent_waits (hp : s.doors[i].passage ≠ .blocked) (hr : s.doors[i].rearm = true) :
    s.beamEvent i side broke = if s.doors[i].bothClear then
      (s.updDoor i fun d => { d with rearm := false, stuck := none, stuckTold := false }).withdrawDoor i else s := by
  simp only [State.beamEvent, hc, hp, hr, ↓reduceIte]
  rfl

theorem State.beamEvent_moves (hp : s.doors[i].passage ≠ .blocked) (hr : s.doors[i].rearm = false) :
    s.beamEvent i side broke =
      (s.updDoor i fun d => d.move (passageNext s.doors[i].passage side broke).1
        (passageNext s.doors[i].passage side broke).2).handCount c (passageNext s.doors[i].passage side broke).2 := by
  simp only [State.beamEvent, hc, hp, hr, Bool.false_eq_true, ↓reduceIte]

end

end Sys2Proof.Machine
end

