-- ==== Sys2Proof/Proofs/Passages.lean ====
section
/-! PROOF. Passages through a doorway and what they count (R56, R69, R72, R73). -/

namespace Sys2Proof.Machine
open Sys2Proof

section
variable {s : State} {i : Fin 4} {side : BeamSide} {broke : Bool}

/-! ## A row of the passage table -/

/-- The channel has moved to the next passage state at a beam event, and what that counts is not handed on yet. -/
def State.passed (s : State) (i : Fin 4) (side : BeamSide) (broke : Bool) (next : Passage) : State :=
  (s.beamTurned i side broke).updDoor i fun d => d.move next (s.doors[i].passage.counts next)

theorem State.completeDebounce_row {c : Cell} {next : Passage} (h : s.BeamTurns i side broke)
    (hc : s.doorCell i = some c) (hr : s.doors[i].rearm = false)
    (row : (s.doors[i].passage, side, broke, next) ∈ passageRows) :
    s.completeDebounce i side = (s.passed i side broke next).handCount c (s.doors[i].passage.counts next) := by
  obtain ⟨table, unblocked⟩ := passageRows_next _ row
  dsimp only at table unblocked
  have passage : (s.beamTurned i side broke).doors[i].passage = s.doors[i].passage := State.beamTurned_passage
  have cell : (s.beamTurned i side broke).doorCell i = some c := hc
  rw [State.completeDebounce_turns h,
    State.beamEvent_moves cell (passage ▸ unblocked) (State.beamTurned_rearm.trans hr), passage, table]
  rfl

theorem State.passed_doors (s : State) (i : Fin 4) (side : BeamSide) (broke : Bool) (next : Passage) :
    (s.passed i side broke next).doors = s.doors.set i
      { (s.doors[i].updBeam side fun b => b.turned broke) with
        passage := next
        transit := if next = .idle then none
          else if s.doors[i].passage = .idle then some 0 else s.doors[i].transit
        entries := s.doors[i].entries + (if next = .idle ∧ s.doors[i].passage = .inInner then 1 else 0)
        exits := s.doors[i].exits + (if next = .idle ∧ s.doors[i].passage = .outOuter then 1 else 0)
        turnBacks := s.doors[i].turnBacks +
          (if next = .idle ∧ (s.doors[i].passage = .inOuter ∨ s.doors[i].passage = .outInner) then 1
           else 0) } := by
  have move := Door.move_counts (s.doors[i].updBeam side fun b => b.turned broke) next
  simp only [Door.updBeam_passage, Door.updBeam_transit, Door.updBeam_entries, Door.updBeam_exits,
    Door.updBeam_turnBacks] at move
  rw [← move]
  simp only [State.passed, State.beamTurned, State.updDoor_updDoor]
  rfl

/-- A row of the table as a command: the channel as R56 moves it, and what it counts handed to the cell's unit. -/
theorem exec_beamDebounce_row (hs : s.Settled) {c : Cell} {next : Passage} (h : s.BeamTurns i side broke)
    (hc : s.doorCell i = some c) (hr : s.doors[i].rearm = false)
    (row : (s.doors[i].passage, side, broke, next) ∈ passageRows) :
    exec (.beamDebounce i side) s =
      .next ((s.passed i side broke next).handCount c (s.doors[i].passage.counts next)) := by
  have link := (State.handCount_keeps_quiet (s.passed i side broke next) c
    (s.doors[i].passage.counts next)).same .notices rfl
  exact (congrArg finish (State.completeDebounce_row h hc hr row)).trans (finish_same hs link)

/-- What a row counts of a passage that turned back, or goes on, leaves all but the channels. -/
theorem State.handCount_nobody (t : State) (c : Cell) {p next : Passage}
    (h : next ≠ .idle ∨ p = .inOuter ∨ p = .outInner) : t.handCount c (p.counts next) = t := by
  by_cases idle : next = .idle
  · have back : p.counted = .turnBack := (Passage.counted_turnBack p).mpr (h.resolve_left (not_not.mpr idle))
    rw [Passage.counts, if_pos idle, back]
    rfl
  · rw [Passage.counts, if_neg idle]
    rfl

/-! ## Levels that give no beam event -/

theorem exec_beamDebounce_disabled (hs : s.Settled) (h : s.BeamTurns i side broke) (hc : s.doorCell i = none) :
    exec (.beamDebounce i side) s = .next (s.beamTurned i side broke) := by
  have cell : (s.beamTurned i side broke).doorCell i = none := hc
  have turns : s.completeDebounce i side = s.beamTurned i side broke := by
    rw [State.completeDebounce_turns h, State.beamEvent_disabled cell]
  exact (congrArg finish turns).trans (finish_same hs rfl)

theorem exec_beamDebounce_quiet (hs : s.Settled) (hp : (s.doors[i].beam side).pending.isSome = true)
    (h : (s.doors[i].beam side).debounced = some (s.doors[i].beam side).pin ∨
      ((s.doors[i].beam side).debounced = none ∧
        (s.working.settings.beamEdge i side).breaks (s.doors[i].beam side).pin ≠ some true)) :
    exec (.beamDebounce i side) s = .next (s.beamSettled i side) := by
  have quiet : s.completeDebounce i side = s.beamSettled i side := by
    rcases h with same | ⟨first, unbroken⟩
    · exact State.completeDebounce_unchanged hp same
    · rw [State.completeDebounce_first hp first]
      exact State.firstLevel_unbroken (s := s.beamSettled i side) unbroken
  exact (congrArg finish quiet).trans (finish_same hs rfl)

/-- The channel at a first level that means BROKEN (R69). -/
def Door.firstBroken (d : Door) (side : BeamSide) (assigned : Bool) : Door :=
  (d.updBeam side fun b => b.turned true).returned assigned

theorem exec_beamDebounce_firstBroken (hs : s.Settled) (hp : (s.doors[i].beam side).pending.isSome = true)
    (h : (s.doors[i].beam side).debounced = none)
    (hb : (s.working.settings.beamEdge i side).breaks (s.doors[i].beam side).pin = some true) :
    exec (.beamDebounce i side) s =
      .next (s.updDoor i fun d => d.firstBroken side (s.doorCell i).isSome) := by
  have broken : s.completeDebounce i side = s.updDoor i fun d => d.firstBroken side (s.doorCell i).isSome := by
    rw [State.completeDebounce_first hp h, State.firstLevel_broken (s := s.beamSettled i side) hb]
    simp only [State.beamSettled, State.updDoor_updDoor, Door.updBeam_updBeam]
    rfl
  exact (congrArg finish broken).trans (finish_same hs rfl)

theorem Door.returned_passage (d : Door) (assigned : Bool) : (d.returned assigned).passage = .idle := rfl

theorem Door.returned_rearm (d : Door) (assigned : Bool) :
    (d.returned assigned).rearm = (assigned && !d.bothClear) := by
  simp [Door.returned, Door.bothClear]

theorem Door.returned_beam (d : Door) (assigned : Bool) (side : BeamSide) :
    (d.returned assigned).beam side = d.beam side := by
  cases side <;> rfl

theorem Door.firstBroken_rearm (d : Door) (side : BeamSide) (assigned : Bool) :
    (d.firstBroken side assigned).rearm = assigned := by
  have broken : (d.updBeam side fun b => b.turned true).bothClear = false := by
    rw [Bool.eq_false_iff, ne_eq, Door.bothClear_turned]
    simp
  rw [Door.firstBroken, Door.returned_rearm, broken, Bool.not_false, Bool.and_true]

theorem Door.firstBroken_beam (d : Door) (side : BeamSide) (assigned : Bool) :
    (d.firstBroken side assigned).beam side = (d.beam side).turned true := by
  rw [Door.firstBroken, Door.returned_beam, Door.beam_updBeam]

end

/-- Settles O49: a row of the table moves the channel and hands on what it counts; the other levels move the beam
alone, or return the channel to IDLE. -/
theorem passagesAreCounted : Obligations.PassagesAreCounted := by
  intro i side broke s hs
  refine ⟨fun c next h hc hr row => ?_, fun h hc => exec_beamDebounce_disabled hs h hc, fun hp =>
    ⟨fun h => exec_beamDebounce_quiet hs hp h, fun h hb => ?_⟩⟩
  · let x := s.passed i side broke next
    have kept := x.handCount_keeps_quiet c (s.doors[i].passage.counts next)
    have doors : (x.handCount c (s.doors[i].passage.counts next)).doors = x.doors := kept.same .doors rfl
    have counts {p : Passage} (idle : next = .idle) (hp : s.doors[i].passage = p) :
        x.handCount c (s.doors[i].passage.counts next) = x.handCount c p.counted := by
      rw [Passage.counts, if_pos idle, hp]
    refine ⟨_, exec_beamDebounce_row hs h hc hr row, doors.trans (s.passed_doors i side broke next),
      kept.same .presence rfl, kept.working rfl rfl rfl rfl, kept.same .notices rfl, kept.same .air rfl,
      fun nobody => ?_, fun idle entry => ?_, fun idle exit occupied => ?_, fun idle exit empty => ?_⟩
    · rw [State.handCount_nobody _ c nobody]
      rfl
    · obtain ⟨v, hv, occupied, ends, headcount⟩ := x.enter_record c
      have entered : x.handCount c (s.doors[i].passage.counts next) = x.enter c := counts idle entry
      rw [entered]
      exact ⟨v, hv, (x.enter_keeps_quiet c).same .drift rfl, occupied, ends, headcount⟩
    · have left : x.handCount c (s.doors[i].passage.counts next) = x.leave c := counts idle exit
      rw [left, State.leave_counted (s := x) occupied]
      obtain ⟨v, hv, tenancy⟩ := State.setHeadcount_record (x.unit?_idOf c) ((s.unitOf c).headcount - 1)
        (s.unitOf c).count
      exact ⟨v, hv, (State.setHeadcount_keeps_quiet ..).same .drift rfl, congrArg Tenancy.headcount tenancy,
        congrArg Tenancy.count tenancy⟩
    · have left : x.handCount c (s.doors[i].passage.counts next) = x.leave c := counts idle exit
      rw [left, State.leave_drifts (s := x) empty]
      rfl
  · have channel := State.updDoor_get s i fun d => d.firstBroken side (s.doorCell i).isSome
    have run := exec_beamDebounce_firstBroken hs hp h hb
    refine ⟨_, run, rfl, ?_⟩
    rw [channel, Door.firstBroken_rearm, Door.firstBroken_beam, Option.isSome_iff_ne_none]
    refine ⟨Door.returned_passage _ _, Iff.rfl, rfl, rfl, ?_, ?_⟩
    · exact Door.updBeam_entries ..
    · exact Door.updBeam_exits ..

end Sys2Proof.Machine
end

