-- ==== Sys2Proof/Proofs/Blocking.lean ====
section
/-! PROOF. Blocked and stuck doorways (R58 to R61, R75). -/

namespace Sys2Proof.Machine
open Sys2Proof

/-! ## The record of a doorway (R60, R171) -/

theorem State.withdrawDoor_idle {s : State} {i : Fin 4} (hp : s.doors[i].passage = .idle)
    (hr : s.doors[i].rearm = false) : s.withdrawDoor i = s.withdrawFault (doorSource i) := if_pos ⟨hp, hr⟩

theorem State.withdrawDoor_space (s : State) (i : Fin 4) : (s.withdrawDoor i).space = s.space := by
  rw [State.withdrawDoor, State.withdrawFault_eq]
  split <;> rfl

theorem State.withdrawFault_state (s : State) (j : Fin 21) : (s.withdrawFault j).faults[j].state = .clear := by
  rw [State.withdrawFault_eq]
  exact congrArg FaultRec.state (updAt_self s.faults j fun r => { r with state := .clear })

/-- A report from a source that recovers by itself, with the notice of its record (R170, R171). -/
theorem State.reportPlain_notified (s : State) (j : Fin 21) (kind : FaultKind) (state : FaultState)
    (notice : NoticeKind) : (s.reportPlain j kind state).notifyFault notice j = { s with
      faults := s.faults.set j { s.faults[j].report kind s.clock.minute with state := state }
      link := s.link.place (s.noticeOf notice none (some j.val) (state.code + 256 * kind.code) none) } := by
  have record : (s.reportPlain j kind state).faults[j] =
      { s.faults[j].report kind s.clock.minute with state := state } := updAt_self ..
  unfold State.notifyFault
  rw [record]
  rfl

section
variable {s : State} (hs : s.Settled) {i : Fin 4}
include hs

/-! ## Blocking (R58, R59) -/

/-- A channel that a passage outlasts. -/
def Door.block (d : Door) : Door :=
  { d with
    passage := .blocked, transit := none, blockClear := none, blocks := d.blocks + 1
    stuck := some 0, stuckTold := false }

theorem exec_transitTimeout {c : Cell} (hc : s.doorCell i = some c) (ht : s.doors[i].transit.isSome = true) :
    exec (.transitTimeout i) s = .next { s with
      doors := updAt s.doors i Door.block
      space := { s.space with
        units := s.space.units.modify (s.space.units.idOf c) fun u => { u with count := .uncertain } }
      link := (s.link.place (s.noticeOf .doorBlocked (some c.place) (some i.val)
        s.doors[i].passage.code none)).startFrame } := by
  obtain ⟨k, hk⟩ := Option.isSome_iff_exists.mp ht
  have blocks : s.blockDoor i = ((s.updDoor i Door.block).blockedDoor c).notify .doorBlocked (some c.place)
      (some i.val) s.doors[i].passage.code none := by
    simp only [State.blockDoor, hk, hc]
    rfl
  let notice := s.noticeOf .doorBlocked (some c.place) (some i.val) s.doors[i].passage.code none
  exact (congrArg finish blocks).trans (finish_handed (ns := [notice]) hs rfl)

/-- A blocked channel at a beam event: only the block-clear timer starts or stops (R59). -/
def Door.blockedEvent (d : Door) (side : BeamSide) (broke : Bool) : Door :=
  { (d.updBeam side fun b => b.turned broke) with
    blockClear := if broke = false ∧ (d.beam (otherBeam side)).broken = false then some 0 else none }

theorem exec_beamDebounce_blocked {side : BeamSide} {broke : Bool} {c : Cell} (h : s.BeamTurns i side broke)
    (hc : s.doorCell i = some c) (hp : s.doors[i].passage = .blocked) :
    exec (.beamDebounce i side) s = .next { s with doors := updAt s.doors i (·.blockedEvent side broke) } := by
  have passage := (State.beamTurned_passage (side := side) (broke := broke)).trans hp
  have cell : (s.beamTurned i side broke).doorCell i = some c := hc
  have event : s.completeDebounce i side = { s with doors := updAt s.doors i (·.blockedEvent side broke) } := by
    rw [State.completeDebounce_turns h, State.beamEvent_blocked cell passage, State.beamTurned_get]
    simp only [Door.bothClear_turned, State.beamTurned, State.updDoor_updDoor]
    rfl
  exact (congrArg finish event).trans (finish_same hs rfl)

/-- The channel that leaves BLOCKED. -/
def Door.unblock (d : Door) : Door :=
  { d with passage := .idle, blockClear := none, stuck := none, stuckTold := false }

theorem exec_blockClearExpiry (hp : s.doors[i].passage = .blocked) (hb : s.doors[i].blockClear.isSome = true) :
    ∃ t ns, exec (.blockClearExpiry i) s = .next t ∧ t.doors = updAt s.doors i Door.unblock ∧
      (s.doors[i].rearm = false → t.faults[doorSource i].state = .clear) ∧
      t.space = s.space ∧ t.drift = s.drift ∧ t.link = (s.link.handed ns).startFrame := by
  let x := s.updDoor i Door.unblock
  have channel : x.doors[i] = s.doors[i].unblock := State.updDoor_get ..
  have unblocks : s.unblockDoor i = x.withdrawDoor i := if_pos ⟨hp, hb⟩
  have kept := x.withdrawDoor_keeps i
  obtain ⟨ns, link⟩ := kept.same .link rfl
  have run : exec (.blockClearExpiry i) s = finish (x.withdrawDoor i) := congrArg finish unblocks
  have withdrawn (hr : s.doors[i].rearm = false) : (x.withdrawDoor i).faults[doorSource i].state = .clear := by
    rw [State.withdrawDoor_idle (by rw [channel]; rfl) (by rw [channel]; exact hr)]
    exact x.withdrawFault_state _
  exact ⟨_, ns, run.trans (finish_handed hs link), kept.same .doors rfl, withdrawn, x.withdrawDoor_space i,
    kept.same .drift rfl, rfl⟩

/-! ## The rearm wait (R61) -/

/-- A clear that leaves both beams CLEAR ends the rearm wait, and the fault of the channel. -/
theorem exec_beamDebounce_rearmed {side : BeamSide} {broke : Bool} {c : Cell} (h : s.BeamTurns i side broke)
    (hc : s.doorCell i = some c) (hp : s.doors[i].passage = .idle) (hr : s.doors[i].rearm = true)
    (clear : broke = false ∧ (s.doors[i].beam (otherBeam side)).broken = false) :
    ∃ t, exec (.beamDebounce i side) s = .next t ∧
      t.doors[i] = { (s.doors[i].updBeam side fun b => b.turned broke) with
        rearm := false, stuck := none, stuckTold := false } ∧
      t.faults[doorSource i].state = .clear ∧ t.space = s.space ∧ t.drift = s.drift := by
  let x := (s.beamTurned i side broke).updDoor i fun d => { d with rearm := false, stuck := none, stuckTold := false }
  have passage : (s.beamTurned i side broke).doors[i].passage ≠ .blocked := by
    rw [State.beamTurned_passage, hp]; decide
  have cell : (s.beamTurned i side broke).doorCell i = some c := hc
  have event : s.completeDebounce i side = x.withdrawDoor i := by
    rw [State.completeDebounce_turns h, State.beamEvent_waits cell passage (State.beamTurned_rearm.trans hr),
      if_pos (State.beamTurned_bothClear.mpr clear)]
  have channel : x.doors[i] = { (s.doors[i].updBeam side fun b => b.turned broke) with
      rearm := false, stuck := none, stuckTold := false } := by
    rw [State.updDoor_get, State.beamTurned_get]
  have kept := x.withdrawDoor_keeps i
  have doors : (x.withdrawDoor i).doors = x.doors := kept.same .doors rfl
  obtain ⟨ns, link⟩ := kept.same .link rfl
  have run : exec (.beamDebounce i side) s = finish (x.withdrawDoor i) := congrArg finish event
  have withdrawn : (x.withdrawDoor i).faults[doorSource i].state = .clear := by
    rw [State.withdrawDoor_idle (by rw [channel, ← hp]; exact Door.updBeam_passage ..) (by rw [channel])]
    exact x.withdrawFault_state _
  refine ⟨_, run.trans (finish_handed hs link), ?_, withdrawn, x.withdrawDoor_space i, kept.same .drift rfl⟩
  dsimp only
  rw [doors, channel]

/-- Any other beam event in the rearm wait moves the beam alone. -/
theorem exec_beamDebounce_waits {side : BeamSide} {broke : Bool} {c : Cell} (h : s.BeamTurns i side broke)
    (hc : s.doorCell i = some c) (hp : s.doors[i].passage = .idle) (hr : s.doors[i].rearm = true)
    (blocked : ¬ (broke = false ∧ (s.doors[i].beam (otherBeam side)).broken = false)) :
    exec (.beamDebounce i side) s = .next (s.beamTurned i side broke) := by
  have passage : (s.beamTurned i side broke).doors[i].passage ≠ .blocked := by
    rw [State.beamTurned_passage, hp]; decide
  have cell : (s.beamTurned i side broke).doorCell i = some c := hc
  have event : s.completeDebounce i side = s.beamTurned i side broke := by
    rw [State.completeDebounce_turns h, State.beamEvent_waits cell passage (State.beamTurned_rearm.trans hr),
      if_neg (mt State.beamTurned_bothClear.mp blocked)]
  exact (congrArg finish event).trans (finish_same hs rfl)

/-! ## A stuck channel (R60) -/

theorem exec_doorwayStuck {k : Nat} (hk : s.doors[i].stuck = some k) (ht : s.doors[i].stuckTold = false) :
    exec (.doorwayStuck i) s = .next { s with
      doors := s.doors.set i { s.doors[i] with stuck := some (max k 600000), stuckTold := true }
      faults := s.faults.set (doorSource i)
        { s.faults[doorSource i].report .doorwayStuck s.clock.minute with state := .active }
      link := (s.link.place (s.noticeOf .faultRaised none (some (doorSource i).val)
        (5 + 256 * FaultKind.doorwayStuck.code) none)).startFrame } := by
  let x := s.updDoor i fun d => { d with stuck := some (max k Config.stuckMs), stuckTold := true }
  have sticks : s.stickDoor i =
      (x.reportPlain (doorSource i) .doorwayStuck .active).notifyFault .faultRaised (doorSource i) := by
    simp only [State.stickDoor, hk, ht, Bool.false_eq_true, ↓reduceIte]
    rfl
  rw [State.reportPlain_notified] at sticks
  let notice := s.noticeOf .faultRaised none (some (doorSource i).val) (5 + 256 * FaultKind.doorwayStuck.code) none
  exact (congrArg finish sticks).trans (finish_handed (ns := [notice]) hs rfl)

end

/-- Settles O50: each event of a channel by its command. -/
theorem blockedDoorways : Obligations.BlockedDoorways := by
  intro i side broke c s hs hc
  refine ⟨fun ht => exec_transitTimeout hs hc ht, fun h hp => exec_beamDebounce_blocked hs h hc hp,
    fun h hp hr => ?_, fun hp hb => exec_blockClearExpiry hs hp hb, fun k hk ht => ?_⟩
  · by_cases clear : broke = false ∧ (s.doors[i].beam (otherBeam side)).broken = false
    · obtain ⟨t, run, channel, faults, space, drift⟩ := exec_beamDebounce_rearmed hs h hc hp hr clear
      refine ⟨t, run, ?_⟩
      rw [channel]
      exact ⟨(Door.updBeam_passage ..).trans hp, (if_pos clear).mpr ⟨rfl, rfl, faults⟩, space, drift,
        Door.updBeam_entries .., Door.updBeam_exits ..⟩
    · refine ⟨_, exec_beamDebounce_waits hs h hc hp hr clear, ?_⟩
      rw [State.beamTurned_get, Door.updBeam_passage, Door.updBeam_rearm, Door.updBeam_stuck, Door.updBeam_entries,
        Door.updBeam_exits]
      exact ⟨hp, (if_neg clear).mpr ⟨hr, rfl, rfl⟩, rfl, rfl, rfl, rfl⟩
  · let stuck (r : FaultRec) : FaultRec := { r.report .doorwayStuck s.clock.minute with state := .active }
    have record : (updAt s.faults (doorSource i) stuck)[doorSource i] = stuck s.faults[doorSource i] := updAt_self ..
    refine ⟨_, exec_doorwayStuck hs hk ht, rfl, congrArg FaultRec.state record, congrArg FaultRec.kind record,
      congrArg FaultRec.occurrences record, fun clear retry => ?_, fun j hj => updAt_other s.faults stuck hj, rfl, rfl,
      rfl⟩
    exact (congrArg FaultRec.firstSeen record).trans (if_pos ⟨clear, retry⟩)

end Sys2Proof.Machine
end

