-- ==== Sys2Proof/Proofs/PresenceHold.lean ====
section
/-! PROOF. Motion, the presence of cells and units, and the gated timers (R64 to R68, R80). -/

namespace Sys2Proof.Machine
open Sys2Proof

/-! ## The presence of a cell and of its unit (R65, R66) -/

/-- A cell's presence as it is written, before its unit takes the change. -/
def State.sensed (s : State) (c : Cell) (p : Bool) (since : Option Nat) : State :=
  s.updPresence fun m => { m with cells := m.cells.set c { present := p, sinceMotion := since } }

/-- A cell with presence gives its unit presence. -/
theorem State.presenceOf_idOf {s : State} {c : Cell} (h : (s.presence.cells.get c).present = true) :
    s.presenceOf (s.space.units.idOf c) = true := by
  unfold State.presenceOf
  cases s.space.units <;> cases c
  case joined.a => exact Bool.or_eq_true_iff.mpr (.inl h)
  case joined.b => exact Bool.or_eq_true_iff.mpr (.inr h)
  all_goals exact h

theorem State.presenceOf_sensed (s : State) (c : Cell) (since : Option Nat) :
    (s.sensed c true since).presenceOf (s.space.units.idOf c) = true :=
  State.presenceOf_idOf (s := s.sensed c true since) (congrArg CellPresence.present (PerCell.get_set_self ..))

theorem State.setPresence_same {s : State} {c : Cell} {p : Bool} (since : Option Nat)
    (h : (s.sensed c p since).presenceOf (s.space.units.idOf c) = s.presenceOf (s.space.units.idOf c)) :
    s.setPresence c p since = s.sensed c p since := if_pos h

theorem State.setPresence_changed {s : State} {c : Cell} {p : Bool} (since : Option Nat)
    (h : (s.sensed c p since).presenceOf (s.space.units.idOf c) ≠ s.presenceOf (s.space.units.idOf c)) :
    s.setPresence c p since = (s.sensed c p since).unitPresence (s.space.units.idOf c) p := if_neg h

/-- The gated timers of a unit at a change of its presence (R67, R68). -/
def UnitRec.gated (u : UnitRec) (p : Bool) : UnitRec :=
  if p then { u with vacancyTimer := 0, vacancyTold := false } else { u with forcedTimer := 0 }

theorem State.unitPresence_record {s : State} {id : UnitId} {u : UnitRec} (hu : s.unit? id = some u) (p : Bool) :
    ∃ v, (s.unitPresence id p).unit? id = some v ∧
      v.tenancy = (u.gated p).tenancy.evaluated (decide (0 < (u.gated p).headcount) || s.presenceOf id) := by
  have gated : (s.modifyUnit id fun u => u.gated p).unit? id = some (u.gated p) := by
    rw [State.unit?_modifyUnit_self, hu]; rfl
  exact State.evaluate_record gated

theorem State.unitPresence_keeps_quiet (s : State) (id : UnitId) (p : Bool) :
    Keeps evaluationMoves s (s.unitPresence id p) := by
  have gated : Keeps [.units] s (s.modifyUnit id fun u => u.gated p) :=
    s.modifyUnit_keeps_both id _ (fun u => by cases p <;> rfl) fun u => by cases p <;> rfl
  exact (gated.mono rfl).trans (State.evaluate_keeps_quiet _ id)

/-- A change of presence hands over no notice. -/
theorem State.setPresence_keeps_quiet (s : State) (c : Cell) (p : Bool) (since : Option Nat) :
    Keeps evaluationMoves (s.sensed c p since) (s.setPresence c p since) :=
  .ite (.refl _ _) (State.unitPresence_keeps_quiet ..)

/-- Motion in a unit without presence makes it OCCUPIED (R67, R80). -/
theorem State.setPresence_begins {s : State} {c : Cell} (since : Option Nat)
    (h : s.presenceOf (s.space.units.idOf c) = false) :
    ∃ v, (s.setPresence c true since).unit? (s.space.units.idOf c) = some v ∧
      v.headcount = (s.unitOf c).headcount ∧ v.occupancy = .occupied ∧ v.vacancyTimer = 0 := by
  have present := s.presenceOf_sensed c since
  rw [State.setPresence_changed since (by rw [present, h]; decide)]
  obtain ⟨v, hv, tenancy⟩ := State.unitPresence_record (s := s.sensed c true since) (s.unit?_idOf c) true
  have occupied := congrArg Tenancy.occupancy tenancy
  simp only [Tenancy.evaluated, present, Bool.or_true, nextOccupancy_evidence] at occupied
  exact ⟨v, hv, congrArg Tenancy.headcount tenancy, occupied, congrArg Tenancy.vacancyTimer tenancy⟩

/-- The last presence of a unit goes: an empty OCCUPIED unit is CLEARING (R68, R80). -/
theorem State.setPresence_ends {s : State} {c : Cell} (since : Option Nat)
    (h : s.presenceOf (s.space.units.idOf c) = true)
    (gone : (s.sensed c false since).presenceOf (s.space.units.idOf c) = false) :
    ∃ v, (s.setPresence c false since).unit? (s.space.units.idOf c) = some v ∧
      v.headcount = (s.unitOf c).headcount ∧ v.forcedTimer = 0 ∧
      ((s.unitOf c).occupancy = .occupied → (s.unitOf c).headcount = 0 →
        v.occupancy = .clearing ∧ v.clearing = some 0) := by
  rw [State.setPresence_changed since (by rw [gone, h]; decide)]
  obtain ⟨v, hv, tenancy⟩ := State.unitPresence_record (s := s.sensed c false since) (s.unit?_idOf c) false
  refine ⟨v, hv, congrArg Tenancy.headcount tenancy, congrArg Tenancy.forcedTimer tenancy, fun occupied empty => ?_⟩
  have evidence : (decide (0 < ((s.unitOf c).gated false).headcount) ||
      (s.sensed c false since).presenceOf (s.space.units.idOf c)) = false := by
    rw [gone, Bool.or_false]
    exact decide_eq_false (Nat.not_lt.mpr empty.le)
  have clears : nextOccupancy ((s.unitOf c).gated false).occupancy false ((s.unitOf c).gated false).clearing =
      (.clearing, some 0) := by
    have occupancy : ((s.unitOf c).gated false).occupancy = .occupied := occupied
    rw [occupancy]
    rfl
  rw [evidence] at tenancy
  exact ⟨(congrArg Tenancy.occupancy tenancy).trans (congrArg Prod.fst clears),
    (congrArg Tenancy.clearing tenancy).trans (congrArg Prod.snd clears)⟩

/-! ## Motion (R64, R65) -/

theorem DetectorEdge.selects_iff (e : DetectorEdge) (high : Bool) :
    e.selects high = true ↔ e = .both ∨ (e = .rising ↔ high = true) := by
  cases e <;> simp [DetectorEdge.selects]

section
variable {s : State} {d : Fin 6}

/-- The detector's level is the filtered level. -/
def Detector.settled (r : Detector) : Detector := { r with filtered := some r.pin, filter := none }

/-- The detector at a motion event. -/
def Detector.moved (r : Detector) : Detector :=
  { r with filtered := some r.pin, filter := none, sinceMotion := some 0 }

/-- The detector has seen a motion, which no cell has taken yet. -/
def State.motionSeen (s : State) (d : Fin 6) : State := s.updDetector d Detector.moved

theorem State.motionSeen_eq (s : State) (d : Fin 6) :
    (s.updDetector d Detector.settled).updDetector d (fun r => { r with sinceMotion := some 0 }) = s.motionSeen d := by
  simp only [State.updDetector, State.updPresence, updAt_updAt]
  rfl

variable (hf : s.presence.detectors[d].filter.isSome = true)
  (hd : s.presence.detectors[d].filtered = some (!s.presence.detectors[d].pin))
include hf hd

theorem State.completeFilter_unselected
    (h : s.working.settings.detectorEdge[d].selects s.presence.detectors[d].pin = false) :
    s.completeFilter d = s.updDetector d Detector.settled := by
  obtain ⟨k, hk⟩ := Option.isSome_iff_exists.mp hf
  simp only [State.completeFilter, hk, hd, h, Bool.false_eq_true, and_false, ↓reduceIte]
  rfl

/-- A selected change reaches the cell of the detector. -/
theorem State.completeFilter_cell
    (h : s.working.settings.detectorEdge[d].selects s.presence.detectors[d].pin = true) {c : Cell}
    (hc : s.working.settings.detectorAssign[d].cell? = some c) :
    s.completeFilter d = (s.motionSeen d).setPresence c true (some 0) := by
  obtain ⟨k, hk⟩ := Option.isSome_iff_exists.mp hf
  have changed : (!s.presence.detectors[d].pin) ≠ s.presence.detectors[d].pin := Bool.not_ne_self _
  rw [← s.motionSeen_eq d]
  simp only [State.completeFilter, hk, hd, h, hc, changed, ne_eq, not_false_eq_true, and_self, ↓reduceIte]
  rfl

/-- A selected change of a DISABLED detector reaches no cell. -/
theorem State.completeFilter_disabled
    (h : s.working.settings.detectorEdge[d].selects s.presence.detectors[d].pin = true)
    (hc : s.working.settings.detectorAssign[d].cell? = none) : s.completeFilter d = s.motionSeen d := by
  obtain ⟨k, hk⟩ := Option.isSome_iff_exists.mp hf
  have changed : (!s.presence.detectors[d].pin) ≠ s.presence.detectors[d].pin := Bool.not_ne_self _
  rw [← s.motionSeen_eq d]
  simp only [State.completeFilter, hk, hd, h, hc, changed, ne_eq, not_false_eq_true, and_self, ↓reduceIte]
  rfl

end

/-! ## A change of presence as a command -/

/-- What a command leaves that writes the presence of a cell. -/
structure State.PresenceWritten (s : State) (c : Cell) (p : Bool) (since : Option Nat) (t : State) : Prop where
  written : t.presence = (s.sensed c p since).presence
  link : t.link = s.link
  doors : t.doors = s.doors
  working : t.working = s.working
  drift : t.drift = s.drift

theorem State.setPresence_written (s : State) (c : Cell) (p : Bool) (since : Option Nat) :
    s.PresenceWritten c p since (s.setPresence c p since) :=
  have k := s.setPresence_keeps_quiet c p since
  ⟨k.same .presence rfl, k.same .notices rfl, k.same .doors rfl, k.working rfl rfl rfl rfl, k.same .drift rfl⟩

theorem State.PresenceWritten.presenceOf {s t : State} {c : Cell} {p : Bool} {since : Option Nat}
    (h : s.PresenceWritten c p since t) (id : UnitId) : t.presenceOf id = (s.sensed c p since).presenceOf id := by
  unfold State.presenceOf
  rw [h.written]

/-! ## The gated timers (R67, R68) -/

/-- A second of a unit's gated timers, with the presence of the unit. -/
def UnitRec.ticked (u : UnitRec) (present : Bool) : UnitRec :=
  { u with
    vacancyTimer := if present then u.vacancyTimer else min 65535 (u.vacancyTimer + 1)
    vacancyTold := u.vacancyTold && (present || u.vacancyTimer != 0)
    forcedTimer := if present = true ∧ u.headcount = 0 then min 60 (u.forcedTimer + 1) else u.forcedTimer }

theorem State.gatedTick_eq (s : State) (id : UnitId) :
    s.gatedTick id = s.modifyUnit id fun u => u.ticked (s.presenceOf id) := by
  have told (told present : Bool) (n : Nat) :
      (if (!present) = true ∧ n = 0 then false else told) = (told && (present || n != 0)) := by
    by_cases zero : n = 0 <;> cases present <;> simp [zero]
  unfold State.gatedTick
  simp only [Bool.and_eq_true, beq_iff_eq, told]
  rfl

/-- The units after a second, each with its own presence. -/
def State.tickedUnits (s : State) : Units :=
  match s.space.units with
  | .split a b => .split (a.ticked (s.presenceOf .a)) (b.ticked (s.presenceOf .b))
  | .joined ab => .joined (ab.ticked (s.presenceOf .ab))

theorem State.gatedTicks_eq (s : State) : s.gatedTicks = { s with
    presence := { s.presence with tickMs := 0 }, space := { s.space with units := s.tickedUnits } } := by
  unfold State.gatedTicks State.tickedUnits
  dsimp only [State.updPresence_space]
  cases hu : s.space.units with
  | split a b =>
    simp only [Units.ids, List.foldl_cons, List.foldl_nil, State.gatedTick_eq, State.modifyUnit, State.updSpace,
      State.updPresence, hu]
    rfl
  | joined ab =>
    simp only [Units.ids, List.foldl_cons, List.foldl_nil, State.gatedTick_eq, State.modifyUnit, State.updSpace,
      State.updPresence, hu]
    rfl

theorem State.tickedUnits_get? {s : State} {id : UnitId} {u : UnitRec} (hu : s.unit? id = some u) :
    s.tickedUnits.get? id = some (u.ticked (s.presenceOf id)) := by
  unfold State.unit? at hu
  unfold State.tickedUnits
  cases hs : s.space.units with
  | split a b =>
    rw [hs] at hu
    cases id <;> cases hu <;> rfl
  | joined ab =>
    rw [hs] at hu
    cases id <;> cases hu
    rfl

/-- Settles O51: motion begins the presence of a unit or finds it, the hold's end ends it or leaves another cell's, and
a second ticks every unit. -/
theorem presenceFollowsMotion : Obligations.PresenceFollowsMotion := by
  intro d s hs
  refine ⟨fun hf hd => ⟨fun h => ⟨fun c hc => ?_, fun hc => ?_⟩, fun h => ?_⟩, fun c k hk => ?_, ?_⟩
  · have selected := (DetectorEdge.selects_iff _ _).mpr h
    let x := s.motionSeen d
    have same := x.setPresence_written c true (some 0)
    have run : exec (.motionEvent d) s = .next (x.setPresence c true (some 0)) :=
      (congrArg finish (State.completeFilter_cell hf hd selected hc)).trans (finish_same hs same.link)
    cases hp : s.presenceOf (s.space.units.idOf c)
    case false =>
      obtain ⟨v, hv, headcount, occupied, timer⟩ := State.setPresence_begins (s := x) (some 0) hp
      exact ⟨_, v, run, same.written, hv, headcount, fun _ => ⟨occupied, timer⟩, (nomatch ·), same.link, same.doors,
        same.working, same.drift⟩
    case true =>
      have present : (x.sensed c true (some 0)).presenceOf (x.space.units.idOf c) =
          x.presenceOf (x.space.units.idOf c) := (x.presenceOf_sensed c (some 0)).trans hp.symm
      rw [State.setPresence_same (s := x) (some 0) present] at run
      exact ⟨_, _, run, rfl, s.unit?_idOf c, rfl, (nomatch ·), fun _ => rfl, rfl, rfl, rfl, rfl⟩
  · have selected := (DetectorEdge.selects_iff _ _).mpr h
    exact (congrArg finish (State.completeFilter_disabled hf hd selected hc)).trans (finish_same hs rfl)
  · have unselected := Bool.eq_false_iff.mpr (mt (DetectorEdge.selects_iff _ _).mp h)
    exact (congrArg finish (State.completeFilter_unselected hf hd unselected)).trans (finish_same hs rfl)
  · let since := some (max k (s.working.settings.presenceHold * 1000))
    have same := s.setPresence_written c false since
    have expires : s.presenceExpiry c = s.setPresence c false since := by
      simp only [State.presenceExpiry, hk, ↓reduceIte]
      rfl
    have run : exec (.presenceHoldExpiry c) s = .next (s.setPresence c false since) :=
      (congrArg finish expires).trans (finish_same hs same.link)
    have before : s.presenceOf (s.space.units.idOf c) = true := State.presenceOf_idOf (congrArg CellPresence.present hk)
    have after := same.presenceOf (s.space.units.idOf c)
    cases hp : (s.sensed c false since).presenceOf (s.space.units.idOf c)
    case false =>
      obtain ⟨v, hv, headcount, forced, clears⟩ := State.setPresence_ends since before hp
      rw [hp] at after
      refine ⟨_, v, run, same.written, hv, headcount, fun _ => ⟨forced, clears⟩, fun present => ?_, same.link,
        same.doors, same.working, same.drift⟩
      rw [after] at present
      cases present
    case true =>
      rw [State.setPresence_same since (hp.trans before.symm)] at run
      refine ⟨_, _, run, rfl, s.unit?_idOf c, rfl, fun absent => ?_, fun _ => rfl, rfl, rfl, rfl, rfl⟩
      rw [hp] at absent
      cases absent
  · refine ⟨_, (congrArg finish s.gatedTicks_eq).trans (finish_same hs rfl), rfl, fun id u hu => ?_⟩
    exact State.tickedUnits_get? hu

end Sys2Proof.Machine
end

