-- ==== Sys2Proof/Proofs/Headcounts.lean ====
section
/-! PROOF. Headcounts within their maxima (R4, R6, R72, R79): what writes a headcount, and what a whole step makes of
them. -/

namespace Sys2Proof.Machine
open Sys2Proof

/-! ## The bound -/

/-- Where no headcount changes, the bound stays. -/
theorem State.HeadcountSound.kept {xs : List Block} {s t : State} (h : s.HeadcountSound) (k : Keeps xs s t)
    (w : xs.contains .headcounts = false) : t.HeadcountSound := by
  intro id u hu
  have headcounts : (t.unit? id).map (·.headcount) = (s.unit? id).map (·.headcount) := k.same .headcounts w id
  rw [hu, Option.map_some] at headcounts
  obtain ⟨v, hv, same⟩ := Option.map_eq_some_iff.mp headcounts.symm
  exact same ▸ h id v hv

theorem State.HeadcountSound.foldl {α : Type} {f : State → α → State} {s : State} (h : s.HeadcountSound)
    (l : List α) (step : ∀ s a, s.HeadcountSound → (f s a).HeadcountSound) : (l.foldl f s).HeadcountSound := by
  induction l generalizing s with
  | nil => exact h
  | cons a l ih => exact ih (step s a h)

theorem State.HeadcountSound.ite {c : Prop} [Decidable c] {s t : State} (h : s.HeadcountSound)
    (k : t.HeadcountSound) : (if c then s else t).HeadcountSound := by
  split
  · exact h
  · exact k

/-- A record written with a headcount within the bound. -/
theorem State.HeadcountSound.modifyUnit {s : State} (h : s.HeadcountSound) (id : UnitId) (f : UnitRec → UnitRec)
    (hf : ∀ u, (f u).headcount ≤ id.maxHeadcount) : (s.modifyUnit id f).HeadcountSound := by
  intro j u hu
  by_cases hj : j = id
  · subst hj
    rw [State.unit?_modifyUnit_self] at hu
    obtain ⟨v, -, rfl⟩ := Option.map_eq_some_iff.mp hu
    exact hf v
  · rw [State.unit?_modifyUnit_other _ _ hj] at hu
    exact h j u hu

/-- The headcount of a cell's unit. -/
theorem State.HeadcountSound.ofCell {s : State} (h : s.HeadcountSound) (c : Cell) :
    (s.unitOf c).headcount ≤ (s.space.units.idOf c).maxHeadcount := h _ _ (s.unit?_idOf c)

/-! ## Counting (R72, R73, R76, R77) -/

theorem State.HeadcountSound.setHeadcount {s : State} (h : s.HeadcountSound) {id : UnitId} {n : Nat}
    (hn : n ≤ id.maxHeadcount) (count : CountState) : (s.setHeadcount id n count).HeadcountSound := by
  have counted : (s.headcounted id n count).HeadcountSound := h.modifyUnit id _ fun _ => hn
  exact counted.kept (State.evaluate_keeps _ id) rfl

/-- An ENTRY counts below the maximum alone (R72). -/
theorem State.HeadcountSound.enter {s : State} (h : s.HeadcountSound) (c : Cell) : (s.enter c).HeadcountSound := by
  have begun : (s.entering c).HeadcountSound := h.kept (s.entering_keeps c) rfl
  rw [State.enter_eq]
  split
  · next room => exact begun.setHeadcount room _
  · exact begun.setHeadcount (h.ofCell c) _

/-- An EXIT counts downwards alone (R73). -/
theorem State.HeadcountSound.leave {s : State} (h : s.HeadcountSound) (c : Cell) : (s.leave c).HeadcountSound :=
  .ite (h.setHeadcount ((Nat.sub_le _ 1).trans (h.ofCell c)) _) (h.kept (s.updDrift_keeps _) rfl)

theorem State.HeadcountSound.forcedReached {s : State} (h : s.HeadcountSound) (id : UnitId) :
    (s.forcedReached id).HeadcountSound := by
  unfold State.forcedReached
  split
  · exact h
  · exact .ite (h.setHeadcount (maxHeadcount_pos id) _) h

/-- The zeroing correction (R77). -/
theorem State.HeadcountSound.confirmVacancy {s : State} (h : s.HeadcountSound) (id : UnitId) :
    (s.confirmVacancy id).HeadcountSound := by
  unfold State.confirmVacancy
  split
  · exact h
  · have zeroed : (s.modifyUnit id fun u =>
        { u with vacancyTold := true, headcount := 0, count := .exact }).HeadcountSound :=
      h.modifyUnit id _ fun _ => Nat.zero_le _
    exact (State.HeadcountSound.ite (zeroed.kept (State.notify_keeps ..) rfl) zeroed).kept
      (State.setOccupancy_keeps ..) rfl

theorem State.HeadcountSound.vacancyReached {s : State} (h : s.HeadcountSound) (id : UnitId) :
    (s.vacancyReached id).HeadcountSound := by
  unfold State.vacancyReached
  split
  · exact h
  · next u _ =>
    have timed := s.modifyUnit_keeps_both id
      (fun r => { r with vacancyTimer := max u.vacancyTimer s.working.settings.vacancyConfirm }) (fun _ => rfl)
      fun _ => rfl
    exact .ite h (State.HeadcountSound.confirmVacancy (h.kept timed rfl) id)

theorem State.HeadcountSound.handCount {s : State} (h : s.HeadcountSound) (c : Cell) (n : Counted) :
    (s.handCount c n).HeadcountSound := by
  cases n with
  | entry => exact h.enter c
  | exit => exact h.leave c
  | nothing => exact h
  | turnBack => exact h

theorem State.HeadcountSound.beamEvent {s : State} (h : s.HeadcountSound) (i : Fin 4) (side : BeamSide)
    (broke : Bool) : (s.beamEvent i side broke).HeadcountSound := by
  have moved (f) : (s.updDoor i f).HeadcountSound := h.kept (s.updDoor_keeps i f) rfl
  unfold State.beamEvent
  split
  · exact h
  · next c _ =>
    exact .ite (moved _) (.ite (.ite ((moved _).kept (State.withdrawDoor_keeps ..) rfl) h) ((moved _).handCount c _))

theorem State.HeadcountSound.completeDebounce {s : State} (h : s.HeadcountSound) (i : Fin 4) (side : BeamSide) :
    (s.completeDebounce i side).HeadcountSound := by
  have moved {t : State} (ht : t.HeadcountSound) (f) : (t.updDoor i f).HeadcountSound :=
    ht.kept (t.updDoor_keeps i f) rfl
  unfold State.completeDebounce
  dsimp only
  split
  · exact h
  · split
    · exact (moved h _).kept (State.firstLevel_keeps ..) rfl
    · exact .ite (moved h _) (.ite (moved (moved h _) _) ((moved (moved h _) _).beamEvent i side _))

/-! ## Join and split (R4, R6) -/

/-- The headcounts of A and B add up to one of AB (R4). -/
theorem State.HeadcountSound.join {s : State} {a b : UnitRec} (h : s.HeadcountSound)
    (hu : s.space.units = .split a b) : (s.join a b).HeadcountSound := by
  have ha : a.headcount ≤ 250 := h .a a (by rw [State.unit?, hu]; rfl)
  have hb : b.headcount ≤ 250 := h .b b (by rw [State.unit?, hu]; rfl)
  have joined : (s.updSpace fun p =>
      { p with units := .joined (joinRecord a b (s.presenceOf .ab)) }).HeadcountSound := by
    intro id u hget
    cases id <;> cases hget
    exact Nat.add_le_add ha hb
  have derived (o : Occupancy) := (joined.kept (State.joinBookings_keeps _ s o) rfl).kept
    (State.deriveCore_keeps _ .ab) rfl
  exact (((derived _).kept (State.daylightAcross_keeps ..) rfl).kept (State.daylightAcross_keeps ..) rfl).kept
    (State.airUpdate_keeps _) rfl

/-- The limits of a split leave neither cell more than it holds (R6). -/
theorem splitShare_le {h : Nat} (hh : h ≤ 500) (areaA areaB : Nat) :
    splitShare h areaA areaB ≤ 250 ∧ h - splitShare h areaA areaB ≤ 250 := by
  unfold splitShare
  generalize (h * areaA + (areaA + areaB) / 2) / (areaA + areaB) = share
  dsimp only
  split
  · omega
  split <;> omega

theorem State.HeadcountSound.split {s : State} {ab : UnitRec} (h : s.HeadcountSound)
    (hu : s.space.units = .joined ab) : (s.split ab).HeadcountSound := by
  have hab : ab.headcount ≤ 500 := h .ab ab (by rw [State.unit?, hu]; rfl)
  obtain ⟨shareA, shareB⟩ := splitShare_le hab s.working.settings.area.a s.working.settings.area.b
  have parted {n m : Nat} (hn : n ≤ 250) (hm : m ≤ 250) (p q : Bool) : (s.updSpace fun x =>
      { x with units := .split (splitRecord ab n p) (splitRecord ab m q) }).HeadcountSound := by
    intro id u hget
    cases id <;> cases hget
    · exact hn
    · exact hm
  have derived := ((parted shareA shareB (s.presenceOf .a) (s.presenceOf .b)).kept (State.deriveCore_keeps _ .a)
    rfl).kept (State.deriveCore_keeps _ .b) rfl
  have lit := (derived.kept (State.daylightAcross_keeps _ .a ab.mode) rfl).kept
    (State.daylightAcross_keeps _ .b ab.mode) rfl
  exact ((lit.kept (State.vacatedBySplit_keeps ..) rfl).kept (State.vacatedBySplit_keeps ..) rfl).kept
    (State.airUpdate_keeps _) rfl

theorem State.HeadcountSound.arrange {s : State} (h : s.HeadcountSound) (always : Bool) :
    (s.arrange always).HeadcountSound := by
  unfold State.arrange
  split
  · next hu _ => exact ((h.join hu).kept (State.notifyPartition_keeps _) rfl).kept (State.notifyMismatch_keeps _) rfl
  · next hu _ => exact (h.split hu).kept (State.notifyPartition_keeps _) rfl
  · exact .ite (h.kept s.notifyPartition_keeps rfl) h

theorem State.HeadcountSound.completePartition {s : State} (h : s.HeadcountSound) :
    s.completePartition.HeadcountSound := by
  unfold State.completePartition
  split
  · exact h
  · exact State.HeadcountSound.arrange (h.kept (s.updSpace_partition_partitionTimer_keeps _ _) rfl) true

/-! ## Settings and resets -/

/-- Of the writes of settings, that of `divisible` joins and splits, and that of vacancy confirm zeroes. -/
theorem State.HeadcountSound.settingWritten {s : State} (h : s.HeadcountSound) (k : SettingKey) (before : Settings) :
    (s.settingWritten k before).HeadcountSound := by
  cases k
  case divisible => exact h.arrange false
  case vacancyConfirm => exact h.foldl _ fun _ _ hs => .ite (hs.confirmVacancy _) hs
  case firePolarity => exact h.kept s.polarityWritten_keeps rfl
  case doorAssign => exact h.kept (State.returnDoor_keeps ..) rfl
  case outerEdge => exact h.kept (State.returnDoor_keeps ..) rfl
  case innerEdge => exact h.kept (State.returnDoor_keeps ..) rfl
  case transitTimeout => exact h.kept s.transitWritten_keeps rfl
  case presenceHold => exact (h.kept (s.judgePresence_keeps .a) rfl).kept (State.judgePresence_keeps _ .b) rfl
  case clearingDelay => exact h.kept s.clearingWritten_keeps rfl
  case airPeriod => exact h.kept s.airPeriodWritten_keeps rfl
  case defaultCap => exact h.kept s.defaultCapWritten_keeps rfl
  case firePosition => exact h.kept (State.firePositionWritten_keeps ..) rfl
  case strokeTime => exact h.kept (State.strokeWritten_keeps ..) rfl
  case channelCell => exact h.kept (State.channelCellWritten_keeps ..) rfl
  case driverMin => exact h.kept (State.driverMinWritten_keeps ..) rfl
  case blindCell => exact h.kept (State.blindCellWritten_keeps ..) rfl
  case travelUp => exact h.kept (State.travelWritten_keeps ..) rfl
  case travelDown => exact h.kept (State.travelWritten_keeps ..) rfl
  case driveSlots => exact h.kept s.driveSlotsWritten_keeps rfl
  case retryInterval => exact h.kept s.retryWritten_keeps rfl
  case supervisionPeriod => exact h.kept s.periodWritten_keeps rfl
  all_goals exact h

theorem State.HeadcountSound.restore {s : State} (h : s.HeadcountSound) (image : Image) :
    (s.restore image).HeadcountSound := by
  have written := State.HeadcountSound.foldl (h.kept (s.withSettings_keeps image.working.settings) rfl)
    (allSettings.filter fun k => decide (s.working.settings.get k ≠ image.working.settings.get k) &&
      !k.standsAtRestore) fun _ k hs => hs.settingWritten k s.working.settings
  exact ((written.kept (State.withProfiles_keeps ..) rfl).kept (State.withTables_keeps ..) rfl).kept
    (State.withCalibrations_keeps ..) rfl

/-- At a reset every headcount is 0 (R24). -/
theorem State.resetBy_headcountSound (s : State) (cause : ResetCause) : (s.resetBy cause).HeadcountSound := by
  have initial (w image clock) : (State.initial w image cause clock s.pins s.pending).HeadcountSound := by
    intro id u hu
    cases id <;> cases hu <;> exact Nat.zero_le _
  exact (((initial _ _ _).kept (State.reportLost_keeps _) rfl).kept (State.reportDegraded_keeps _) rfl).kept
    (State.placeWalker_keeps _) rfl

/-! ## Requests -/

theorem State.HeadcountSound.accepted {s : State} (h : s.HeadcountSound) (data : List Byte) :
    (accept data s).2.HeadcountSound := h

theorem State.HeadcountSound.acceptedClamped {s : State} (h : s.HeadcountSound) (clamped : Bool)
    (stored : List Byte) : (acceptClamped clamped stored s).2.HeadcountSound := h

/-- What CLEAR_FAULT may move: the record, and what its source drives again (R174). -/
abbrev clearFaultMoves : List Block := [.notices, .doors, .drives, .lighting, .blinds, .rail, .faults]

theorem State.clearRecord_keeps {s t : State} {i : Fin 21} {keep : Bool} (h : s.clearRecord i keep = some t) :
    Keeps clearFaultMoves s t := by
  have told (f) : Keeps clearFaultMoves s ((s.updFault i f).notifyFault .faultCleared i) :=
    ((s.updFault_keeps i f).mono rfl).trans ((State.notifyFault_keeps ..).mono rfl)
  have driven (f src) : Keeps clearFaultMoves s (((s.updFault i f).notifyFault .faultCleared i).redriveSource src) :=
    (told f).trans ((State.redriveSource_keeps ..).mono rfl)
  unfold State.clearRecord at h
  split at h
  · split at h <;> cases h
    · exact driven _ _
    · exact told _
  · split at h <;> cases h
    · exact driven _ _
    · exact told _
  · cases h
    exact (s.updFault_keeps i _).mono rfl
  · split at h <;> cases h
    exact (told _).trans ((State.restartStuck_keeps ..).mono rfl)
  · cases h
  · cases h

theorem State.HeadcountSound.answerKeepalive {s : State} (h : s.HeadcountSound) :
    s.answerKeepalive.2.HeadcountSound := by
  unfold State.answerKeepalive
  dsimp only
  split
  · exact h
  · exact h
  · split
    · exact h
    · exact State.HeadcountSound.accepted (h.kept (s.lapse_keeps .early) rfl) _
  · exact h

theorem State.HeadcountSound.answerSetTime {s : State} (h : s.HeadcountSound) (minute : Half) (second : Byte) :
    (s.answerSetTime minute second).2.HeadcountSound := by
  unfold State.answerSetTime
  split
  · exact h
  · exact State.HeadcountSound.accepted (h.kept (State.setClock_keeps ..) rfl) _

theorem State.HeadcountSound.answerWalkerResume {s : State} (h : s.HeadcountSound) :
    s.answerWalkerResume.2.HeadcountSound := by
  unfold State.answerWalkerResume
  split
  · exact ((h.kept (s.updWalker_keeps _) rfl).kept (State.pass_keeps _) rfl).accepted _
  · exact h

theorem State.HeadcountSound.answerSetHeadcount {s : State} (h : s.HeadcountSound) (unit : Byte) (count : Half) :
    (s.answerSetHeadcount unit count).2.HeadcountSound := by
  unfold State.answerSetHeadcount
  split
  · exact h
  split
  · exact h
  · exact (h.setHeadcount (Nat.min_le_left ..) .exact).acceptedClamped _ _

theorem State.HeadcountSound.answerPutSetting {s : State} (h : s.HeadcountSound) (number inst : Byte)
    (value : Word32) : (s.answerPutSetting number inst value).2.HeadcountSound := by
  unfold State.answerPutSetting
  split
  · exact h
  split
  · exact h
  split
  · exact h
  · exact State.HeadcountSound.settingWritten (h.kept (s.withSettings_keeps _) rfl) _ _

theorem State.HeadcountSound.answerRestoreSettings {s : State} (h : s.HeadcountSound) :
    s.answerRestoreSettings.2.HeadcountSound := by
  unfold State.answerRestoreSettings
  split
  · exact h
  split
  · exact h
  · exact (h.restore _).accepted _

theorem State.HeadcountSound.answerChainSwitch {s : State} (h : s.HeadcountSound) (timing : Byte) :
    (s.answerChainSwitch timing).2.HeadcountSound := by
  unfold State.answerChainSwitch
  split
  · exact h
  split
  · exact h
  · split
    · exact State.HeadcountSound.accepted (h.kept s.switchAndPass_keeps rfl) _
    · exact h

theorem State.HeadcountSound.answerReleaseHold {s : State} (h : s.HeadcountSound) (cell : Byte) :
    (s.answerReleaseHold cell).2.HeadcountSound := by
  unfold State.answerReleaseHold
  split
  · exact h
  split
  · exact h
  · exact State.HeadcountSound.accepted (h.kept (State.leaveCurrent_keeps ..) rfl) _

theorem State.HeadcountSound.answerSetOverride {s : State} (h : s.HeadcountSound) (target : Byte)
    (value expiry : Half) : (s.answerSetOverride target value expiry).2.HeadcountSound := by
  unfold State.answerSetOverride
  split
  · exact h
  split
  · exact h
  split
  · exact h
  · exact State.HeadcountSound.acceptedClamped (h.kept (State.placeOverride_keeps ..) rfl) _ _

theorem State.HeadcountSound.answerClearOverride {s : State} (h : s.HeadcountSound) (target : Byte) :
    (s.answerClearOverride target).2.HeadcountSound := by
  unfold State.answerClearOverride
  split
  · exact State.HeadcountSound.accepted (h.kept (State.endOverride_keeps ..) rfl) _
  split
  · exact State.HeadcountSound.accepted (h.kept (State.endOverrides_keeps ..) rfl) _
  · exact h

theorem State.HeadcountSound.answerCalibrateDamper {s : State} (h : s.HeadcountSound) (cell : Byte) :
    (s.answerCalibrateDamper cell).2.HeadcountSound := by
  unfold State.answerCalibrateDamper
  split
  · exact h
  split
  · exact h
  split
  · exact h
  split
  · exact h
  · exact State.HeadcountSound.accepted (h.kept (State.beginDamperCal_keeps ..) rfl) _

theorem State.HeadcountSound.answerCalibrateBlind {s : State} (h : s.HeadcountSound) (group : Byte) :
    (s.answerCalibrateBlind group).2.HeadcountSound := by
  unfold State.answerCalibrateBlind
  split
  · exact h
  split
  · exact h
  split
  · exact h
  split
  · exact h
  · exact State.HeadcountSound.accepted (h.kept (State.beginBlindCal_keeps ..) rfl) _

theorem State.HeadcountSound.answerClearFault {s : State} (h : s.HeadcountSound) (source keepCount : Byte) :
    (s.answerClearFault source keepCount).2.HeadcountSound := by
  unfold State.answerClearFault
  split
  · split
    · next cleared => exact State.HeadcountSound.accepted (h.kept (State.clearRecord_keeps cleared) rfl) _
    · exact h
  · exact h

/-- Whatever a request does when it is taken, the headcounts stay within their maxima. -/
theorem State.HeadcountSound.answer {s : State} (h : s.HeadcountSound) (i : Instr) :
    (answer i s).2.HeadcountSound := by
  cases i
  case setHeadcount => exact h.answerSetHeadcount _ _
  case putSetting => exact h.answerPutSetting _ _ _
  case restoreSettings => exact h.answerRestoreSettings
  case keepalive => exact h.answerKeepalive
  case chainSwitch => exact h.answerChainSwitch _
  case chainCancel => exact State.HeadcountSound.accepted (h.kept s.cancelChain_keeps rfl) _
  case releaseHold => exact h.answerReleaseHold _
  case setOverride => exact h.answerSetOverride _ _ _
  case clearOverride => exact h.answerClearOverride _
  case calibrateDamper => exact h.answerCalibrateDamper _
  case calibrateBlind => exact h.answerCalibrateBlind _
  case clearFault => exact h.answerClearFault _ _
  case setTime => exact h.answerSetTime _ _
  case walkerResume => exact h.answerWalkerResume
  -- No other request writes a unit record.
  all_goals
    simp only [Machine.answer, State.answerIdent, State.answerRestart, State.answerSetNoticeMask,
      State.answerGetSetting, State.answerSaveSettings, State.answerGetChain, State.answerChainBegin,
      State.answerChainEntry, State.answerChainCommit, State.answerSetStopMark, State.answerWalkerPause,
      State.answerGetUnit, State.answerGetCell, State.answerPutProfile, State.answerGetProfile,
      State.answerGetDoorway, State.answerSetSupplyCap, State.answerPutDamperTable, State.answerGetChannel,
      State.answerSetSunState, State.answerGetBlind, State.answerGetFaults, State.answerUnknownKind]
    repeat' split
    all_goals exact h

/-! ## The line -/

/-- A property of the state that no update of the link interface ends, and no answer to a request. -/
structure KeptOnTheLine (P : State → Prop) : Prop where
  linked : ∀ (s : State) (f : Link → Link), P s → P (s.updLink f)
  answered : ∀ (s : State) (i : Instr), P s → P (answer i s).2

theorem KeptOnTheLine.take {P : State → Prop} (k : KeptOnTheLine P) {s : State} {f : State → Answer × State}
    (h : P (f s).2) (kind tag : Byte) : P (s.take kind tag f) := by
  unfold State.take
  exact k.linked _ _ h

theorem KeptOnTheLine.takeFrame {P : State → Prop} (k : KeptOnTheLine P) {s : State} (h : P s) (f : Frame) :
    P (s.takeFrame f) := by
  refine k.take ?_ _ _
  unfold handlerOf
  cases decodeRequest f.kind f.tag f.payload with
  | command i => exact k.answered s i h
  | badLength => exact h

theorem KeptOnTheLine.settleUpTo {P : State → Prop} (k : KeptOnTheLine P) (n : Nat) {s : State} (h : P s) :
    P (s.settleUpTo n) := by
  induction n generalizing s with
  | zero => exact k.linked _ _ h
  | succ n ih =>
    have started : P (s.updLink Link.startFrame) := k.linked _ _ h
    unfold State.settleUpTo
    dsimp only
    split
    · exact started
    · split
      · exact ih (k.takeFrame (k.linked _ _ started) _)
      · exact started

/-- What the link interface does at once after a command keeps such a property. -/
theorem KeptOnTheLine.finish {P : State → Prop} (k : KeptOnTheLine P) {s t : State} (h : P s)
    (e : Machine.finish s = .next t) : P t := by
  cases e
  exact k.settleUpTo _ h

/-- The arrival of a request keeps it, whether the request is taken at once or waits. -/
theorem KeptOnTheLine.arrive {P : State → Prop} (k : KeptOnTheLine P) {s t : State} (h : P s) {i : Instr}
    {f : State → Answer × State} (hf : P (f s).2) (e : Machine.finish (s.arrive i f) = .next t) : P t := by
  refine k.finish ?_ e
  unfold State.arrive
  split
  · exact h
  · split
    · exact k.take hf _ _
    · exact k.linked _ _ h

theorem headcountSound_keptOnTheLine : KeptOnTheLine State.HeadcountSound where
  linked := fun s f h => h.kept (s.updLink_keeps f) rfl
  answered := fun _ i h => h.answer i

theorem State.HeadcountSound.finish {s t : State} (h : s.HeadcountSound) (e : Machine.finish s = .next t) :
    t.HeadcountSound := headcountSound_keptOnTheLine.finish h e

/-- A command whose rule writes no headcount keeps the bound. -/
theorem State.HeadcountSound.finishKept {xs : List Block} {s t u : State} (h : s.HeadcountSound) (k : Keeps xs s t)
    (w : xs.contains .headcounts = false) (e : Machine.finish t = .next u) : u.HeadcountSound := (h.kept k w).finish e

/-- A command that is the arrival of a request keeps the bound. -/
theorem State.HeadcountSound.request {i : Instr} {s t : State} (h : s.HeadcountSound)
    (hi : exec i s = Machine.finish (s.arrive i (Machine.answer i))) (e : exec i s = .next t) : t.HeadcountSound :=
  headcountSound_keptOnTheLine.arrive h (h.answer i) (hi ▸ e)

/-! ## Commands and time -/

/-- A millisecond of time counts nobody. -/
theorem State.HeadcountSound.idle {s : State} (h : s.HeadcountSound) : s.idle.HeadcountSound := by
  intro id u hu
  have elapsed : s.idle.unit? id = (s.unit? id).map UnitRec.elapse := s.space.units.elapse_get? id
  rw [elapsed] at hu
  obtain ⟨v, hv, rfl⟩ := Option.map_eq_some_iff.mp hu
  exact h id v hv

/-- Every command keeps the headcounts within their maxima. -/
theorem exec_headcountSound {i : Instr} {s t : State} (h : s.HeadcountSound) (e : exec i s = .next t) :
    t.HeadcountSound := by
  cases i
  case beamDebounce => exact (h.completeDebounce _ _).finish e
  case vacancyConfirmed => exact (h.vacancyReached _).finish e
  case presenceForced => exact (h.forcedReached _).finish e
  case partitionDebounce => exact h.completePartition.finish e
  case powerOn => exact (s.resetBy_headcountSound _).finish e
  case brownOut => exact (s.resetBy_headcountSound _).finish e
  case resetLine => exact (s.resetBy_headcountSound _).finish e
  case restartReset => exact (State.HeadcountSound.ite (s.resetBy_headcountSound _) h).finish e
  case unknownKind =>
    simp only [exec, execUnknownKind] at e
    split at e
    · exact headcountSound_keptOnTheLine.arrive h h e
    · cases e
  case byteReceived => exact h.finishKept (s.updLink_keeps _) rfl e
  case gapTimeout => exact h.finishKept (s.updLink_keeps _) rfl e
  case transmitDone => exact h.finishKept (s.updLink_keeps _) rfl e
  case secondTick => exact h.finishKept s.tickSecond_keeps rfl e
  case minuteEvent => exact h.finishKept s.minuteEvent_keeps rfl e
  case crystalStopped => exact h.finishKept s.stopCrystal_keeps rfl e
  case crystalResumed => exact h.finishKept s.resumeCrystal_keeps rfl e
  case partitionContactEdge =>
    exact State.HeadcountSound.finish (s := s.updSpace _)
      (by rw [funext fun p : Space => p.contactEdge_eq _]; exact h) e
  case fireInputEdge =>
    exact State.HeadcountSound.finish (s := s.updSpace _)
      (by rw [funext fun p : Space => p.fireEdge_eq _ _]; exact h) e
  case fireDebounce => exact h.finishKept s.completeFire_keeps rfl e
  case purgeTimerExpiry => exact h.finishKept (s.purgeExpiry_keeps _) rfl e
  case overrideExpiry => exact h.finishKept (s.overrideExpires_keeps _) rfl e
  case beamPinEdge => exact h.finishKept (s.updDoor_keeps _ _) rfl e
  case transitTimeout => exact h.finishKept (s.blockDoor_keeps _) rfl e
  case blockClearExpiry => exact h.finishKept (s.unblockDoor_keeps _) rfl e
  case doorwayStuck => exact h.finishKept (s.stickDoor_keeps _) rfl e
  case detectorPinEdge => exact h.finishKept (s.updDetector_keeps _ _) rfl e
  case motionEvent => exact h.finishKept (s.completeFilter_keeps _) rfl e
  case presenceHoldExpiry => exact h.finishKept (s.presenceExpiry_keeps _) rfl e
  case gatedTimerTick => exact h.finishKept s.gatedTicks_keeps rfl e
  case clearingExpiry => exact h.finishKept (s.clearingReached_keeps _) rfl e
  case airUpdate => exact h.finishKept s.airUpdate_keeps rfl e
  case sensorSample => exact h.finishKept (s.sensorSample_keeps _) rfl e
  case holdTimerExpiry => exact h.finishKept (s.holdExpiry_keeps _) rfl e
  case damperStall => exact h.finishKept (s.reportStall_keeps _) rfl e
  case calibrationPhaseTimeout => exact h.finishKept (s.calPhaseExpiry_keeps _) rfl e
  case temperatureUpdate =>
    exact State.HeadcountSound.finishKept (h.kept (s.temperatureStep_keeps _) rfl) (State.refreshNeeds_keeps _) rfl e
  case lightingStep => exact h.finishKept s.lightingStep_keeps rfl e
  case pwmPeriodStart => exact h.finishKept s.loadDuties_keeps rfl e
  case daylightUpdate => exact h.finishKept s.daylightUpdate_keeps rfl e
  case freezeTimerExpiry => exact h.finishKept (s.unfreeze_keeps _) rfl e
  case blindEvaluation =>
    exact State.HeadcountSound.finishKept (h.kept (s.updBlinds_keeps _) rfl) (State.evaluateBlinds_keeps _) rfl e
  case currentSample =>
    exact State.HeadcountSound.finishKept (h.kept (s.updGroup_keeps _ _) rfl) (State.currentSample_keeps ..) rfl e
  case blindLimitUnseen => exact h.finishKept (s.endOverrun_keeps _) rfl e
  case reversingEnd => exact h.finishKept (s.endReversing_keeps _) rfl e
  case calibrationLegTimeout => exact h.finishKept (s.failLeg_keeps _) rfl e
  case sunHoldExpiry => exact h.finishKept (s.updBlinds_keeps _) rfl e
  case railSettleEnd => exact h.finishKept (.ite s.settleRail_keeps (.refl _ s)) rfl e
  case railLingerExpiry => exact h.finishKept (.ite s.dropRail_keeps (.refl _ s)) rfl e
  case railFaultPinEdge => exact h.finishKept (s.updRail_keeps _) rfl e
  case railDown => exact h.finishKept s.railDown_keeps rfl e
  case retryExpiry => exact h.finishKept (s.retryExpiry_keeps _) rfl e
  case normalTimerExpiry => exact h.finishKept (s.normalExpiry_keeps _) rfl e
  case periodEnd => exact h.finishKept s.periodEnd_keeps rfl e
  case saveDone =>
    refine State.HeadcountSound.finish ?_ e
    split
    · exact h
    · exact .ite (h.kept (s.saveOk_keeps _) rfl) (h.kept s.saveFailed_keeps rfl)
  case saveWriteTimeout => exact h.finishKept (.ite s.saveFailed_keeps (.refl _ s)) rfl e
  all_goals exact h.request rfl e

/-- Settles O4. A command keeps every headcount within its maximum by the rules above, and a millisecond of time
leaves the headcounts as they are. -/
theorem stepKeepsHeadcountsInRange : Obligations.StepKeepsHeadcountsInRange := by
  intro s t h e
  unfold step at e
  split at e
  · next rest _ => exact exec_headcountSound (s := { s with pending := rest }) h e
  · cases e
    exact h.idle

end Sys2Proof.Machine
end

