-- ==== Sys2Proof/Proofs/UnitRequests.lean ====
section
/-! PROOF. The requests on one unit: GET_UNIT (R22, R74) and SET_HEADCOUNT (R79). -/

namespace Sys2Proof.Machine
open Sys2Proof

/-! ## GET_UNIT (R74) -/

/-- The drift tallies that a GET_UNIT leaves (R74). -/
def State.driftRead (s : State) (id : UnitId) : PerCell Nat :=
  ⟨if unitHas id .a then 0 else s.drift.a, if unitHas id .b then 0 else s.drift.b⟩

theorem State.readDrift_eq (s : State) (id : UnitId) : s.readDrift id = { s with drift := s.driftRead id } := rfl

theorem State.driftRead_get (s : State) (id : UnitId) (c : Cell) :
    (s.driftRead id).get c = if c ∈ id.cells then 0 else s.drift.get c := by
  cases c <;> simp [State.driftRead, PerCell.get, unitHas]

/-- Settles O15: the tallies of the unit's cells are read, and so return to 0. -/
theorem getUnitClearsTheDriftTallies : Obligations.GetUnitClearsTheDriftTallies := by
  intro tag x id s hs hx
  refine ⟨fun hu => ?_, fun u hu => ⟨s.driftRead id, ?_, s.driftRead_get id⟩⟩
  · exact exec_refused (f := State.answerGetUnit x) hs rfl rfl (by
      simp only [State.answerGetUnit, unitOperand_of_code hx, hu])
  · have answered : s.answerGetUnit x = accept (s.unitBytes id u) { s with drift := s.driftRead id } := by
      simp only [State.answerGetUnit, unitOperand_of_code hx, hu, State.readDrift_eq]
    exact exec_answered hs rfl rfl answered rfl

/-! ## What a change of headcount leaves of the unit -/

/-- A derivation leaves the allocation to the next air update. -/
theorem State.derive_allocation (s : State) (id j : UnitId) :
    ((s.derive id).unit? j).map (·.allocation) = (s.unit? j).map (·.allocation) := by
  rw [State.unit?, State.derive_units]
  exact Units.get?_modify_map _ _ _ _ _ fun _ => rfl

theorem State.occupancyChanged_allocation (s : State) (id : UnitId) {old new : Occupancy}
    (h : new = .vacant → old = .vacant) (j : UnitId) :
    ((s.occupancyChanged id old new).unit? j).map (·.allocation) = (s.unit? j).map (·.allocation) := by
  unfold State.occupancyChanged
  split
  · rfl
  · next moved =>
    cases new with
    | vacant => exact absurd (h rfl) moved
    | occupied =>
      have cleared : Keeps [.walker] s (if old = .vacant then s.clearVacant id else s) :=
        .ite (s.clearVacant_keeps id) (.refl _ s)
      have units := (cleared.trans (State.seeOccupied_keeps _ id)).same .units rfl
      exact (State.derive_allocation _ id j).trans (congrArg _ (State.unit?_congr units j))
    | clearing => exact s.derive_allocation id j

theorem State.evaluate_allocation (s : State) (id j : UnitId) :
    ((s.evaluate id).unit? j).map (·.allocation) = (s.unit? j).map (·.allocation) := by
  cases hu : s.unit? id with
  | none => simp only [State.evaluate, hu]
  | some u =>
    rw [State.evaluate_eq hu, State.occupancyChanged_allocation _ id nextOccupancy_vacant]
    exact s.unit?_modifyUnit_map id j _ _ fun _ => rfl

/-- A change of headcount leaves every allocation to the next air update. -/
theorem State.setHeadcount_allocation (s : State) (id : UnitId) (n : Nat) (count : CountState) (j : UnitId) :
    ((s.setHeadcount id n count).unit? j).map (·.allocation) = (s.unit? j).map (·.allocation) :=
  (State.evaluate_allocation (s.headcounted id n count) id j).trans
    (s.unit?_modifyUnit_map id j _ _ fun _ => rfl)

/-- The headcounts of the other units stay. -/
theorem State.setHeadcount_other (s : State) {id j : UnitId} (h : j ≠ id) (n : Nat) (count : CountState) :
    ((s.setHeadcount id n count).unit? j).map (·.headcount) = (s.unit? j).map (·.headcount) := by
  have counted : (s.headcounted id n count).unit? j = s.unit? j := s.unit?_modifyUnit_other _ h
  have evaluated : (((s.headcounted id n count).evaluate id).unit? j).map (·.headcount) =
      ((s.headcounted id n count).unit? j).map (·.headcount) := (State.evaluate_keeps _ id).same .headcounts rfl j
  rw [← counted]
  exact evaluated

/-! ## SET_HEADCOUNT (R79) -/

/-- Settles O39: the count is set within the maximum, and the evaluation that follows hands over no notice. -/
theorem setHeadcountSetsTheCount : Obligations.SetHeadcountSetsTheCount := by
  intro tag x n id s hs hx
  refine ⟨fun hu => ?_, fun u hu => ?_⟩
  · exact exec_refused (f := State.answerSetHeadcount x n) hs rfl rfl (by
      simp only [State.answerSetHeadcount, unitOperand_of_code hx, hu])
  · have answered : s.answerSetHeadcount x n =
        acceptClamped (decide (id.maxHeadcount < n.toNat)) (byte2 (min id.maxHeadcount n.toNat))
          (s.setHeadcount id (min id.maxHeadcount n.toNat) .exact) := by
      simp only [State.answerSetHeadcount, unitOperand_of_code hx, hu]
    have k := s.setHeadcount_keeps_quiet id (min id.maxHeadcount n.toNat) .exact
    have link : (s.setHeadcount id (min id.maxHeadcount n.toNat) .exact).link = s.link := k.same .notices rfl
    obtain ⟨v, hv, tenancy⟩ := State.setHeadcount_record hu (min id.maxHeadcount n.toNat) .exact
    have allocation := s.setHeadcount_allocation id (min id.maxHeadcount n.toNat) .exact id
    rw [hv, hu, Option.map_some, Option.map_some, Option.some.injEq] at allocation
    refine ⟨_, [], v, exec_answered hs rfl rfl answered (by rw [link]), hv, congrArg Tenancy.headcount tenancy,
      congrArg Tenancy.count tenancy, congrArg Tenancy.vacancyTimer tenancy, allocation,
      fun j hj => s.setHeadcount_other hj _ _, ?_, k.same .drift rfl, k.same .doors rfl, k.same .presence rfl,
      k.working rfl rfl rfl rfl⟩
    dsimp only
    rw [link, Link.handed_nil]
    by_cases above : id.maxHeadcount < n.toNat
    · simp only [above, decide_true, ↓reduceIte, Nat.min_eq_left above.le]
    · simp only [above, decide_false, Bool.false_eq_true, ↓reduceIte]

end Sys2Proof.Machine
end

