-- ==== Sys2Proof/Proofs/SupplyCap.lean ====
section
/-! PROOF. The supply cap that the host requests (R101), and the sun flag (R145). -/

namespace Sys2Proof.Machine
open Sys2Proof

theorem bitOperand_of_code {b : Byte} {x : Bool} (h : b.toNat = if x then 1 else 0) : bitOperand b = some x := by
  cases x <;> simp [bitOperand, h]

theorem bitOperand_of_le {b : Byte} (h : 2 ≤ b.toNat) : bitOperand b = none := by
  unfold bitOperand
  split
  · omega
  · omega
  · rfl

theorem State.answerSetSupplyCap_host {cap : Half} (h : cap ≠ 0xFFFF) (s : State) : s.answerSetSupplyCap cap =
    acceptClamped (decide (40000 < cap.toNat)) (byte2 (min 40000 cap.toNat)) (s.requestCap (min 40000 cap.toNat)) :=
  if_neg h

theorem exec_setSupplyCap {s : State} (hs : s.Takes) (tag : Byte) {cap : Half} (h : cap ≠ 0xFFFF) :
    exec (.setSupplyCap tag cap) s = .next { s with
      air := { s.air with requestedCap := min 40000 cap.toNat, capSource := .host }
      link :=
        if 40000 < cap.toNat then s.link.answered 0x28 tag .clamped (byte2 40000)
        else s.link.answered 0x28 tag .ok [] } := by
  rw [exec_answered (f := State.answerSetSupplyCap cap) hs rfl rfl (s.answerSetSupplyCap_host h) rfl]
  by_cases above : 40000 < cap.toNat
  · simp only [above, decide_true, ↓reduceIte, Nat.min_eq_left above.le]
    rfl
  · simp only [above, decide_false, Bool.false_eq_true, ↓reduceIte]
    rfl

/-- Settles O40: each request is carried out as it is sent or clamped, and each leaves what it does not name. -/
theorem capAndSunFollowTheHost : Obligations.CapAndSunFollowTheHost := by
  intro tag x cap s
  refine ⟨fun hs hc => exec_setSupplyCap hs tag hc,
    fun hs => exec_answered (f := State.answerSetSupplyCap 0xFFFF) hs rfl rfl rfl rfl, fun hs sun hx => ?_,
    fun hs hx => ?_, fun hs hh => ?_⟩
  · have answered : s.answerSetSunState x = accept [] (s.updBlinds fun b => { b with sun := sun, sunHold := none }) := by
      simp only [State.answerSetSunState, bitOperand_of_code hx]
    exact exec_answered hs rfl rfl answered rfl
  · exact exec_refused (f := State.answerSetSunState x) hs rfl rfl (by
      simp only [State.answerSetSunState, bitOperand_of_le hx])
  · have ended : s.blinds.endSunHold = { s.blinds with sun := false, sunHold := none } :=
      if_pos (Option.isSome_iff_ne_none.mpr hh)
    have executed : exec .sunHoldExpiry s = finish (s.updBlinds Blinds.endSunHold) := rfl
    rw [executed, finish_same (t := s.updBlinds Blinds.endSunHold) hs rfl, State.updBlinds, ended]

end Sys2Proof.Machine
end

