-- ==== Sys2Proof/Proofs/CapShares.lean ====
section
/-! PROOF. The arithmetic of the air update: two shares of an amount (R98), the allocations under a cap (R99), and the
position of a flow in a damper table (R107). -/

namespace Sys2Proof.Machine
open Sys2Proof

/-! ## Two shares of an amount (R98) -/

/-- A share, rounded down, lies within one of the exact share. -/
theorem share_bounds (n w : Nat) {total : Nat} (h : 0 < total) :
    total * (n * w / total) ≤ n * w ∧ n * w < total * (n * w / total + 1) :=
  ⟨Nat.mul_div_le _ _, Nat.lt_mul_div_succ _ h⟩

theorem shares_le (n wa wb : Nat) : n * wa / (wa + wb) + n * wb / (wa + wb) ≤ n := by
  calc n * wa / (wa + wb) + n * wb / (wa + wb) ≤ (n * wa + n * wb) / (wa + wb) := Nat.div_add_div_le_add_div ..
    _ = n * (wa + wb) / (wa + wb) := by rw [Nat.mul_add]
    _ ≤ n := Nat.div_le_of_le_mul (Nat.mul_comm n _).le

/-- Rounding two shares down leaves at most one over. -/
theorem leftover_le (n : Nat) {wa wb : Nat} (h : 0 < wa + wb) :
    n - n * wa / (wa + wb) - n * wb / (wa + wb) ≤ 1 := by
  obtain ⟨-, above_a⟩ := share_bounds n wa h
  obtain ⟨-, above_b⟩ := share_bounds n wb h
  have whole : (wa + wb) * n < (wa + wb) * (n * wa / (wa + wb) + n * wb / (wa + wb) + 2) := by linarith
  have := Nat.lt_of_mul_lt_mul_left whole
  omega

theorem share_le {n wa wb : Nat} (h : n ≤ wa + wb) : n * wa / (wa + wb) ≤ wa ∧ n * wb / (wa + wb) ≤ wb :=
  ⟨Nat.div_le_of_le_mul (Nat.mul_le_mul_right wa h), Nat.div_le_of_le_mul (Nat.mul_le_mul_right wb h)⟩

theorem shareOut_fst (n wa wb : Nat) : (shareOut n wa wb).1 = n * wa / (wa + wb) +
    (if wb ≤ wa then n - n * wa / (wa + wb) - n * wb / (wa + wb) else 0) := by
  by_cases h : wa < wb
  · simp only [shareOut, h, ↓reduceIte, Nat.not_le.mpr h, Nat.add_zero]
  · simp only [shareOut, h, ↓reduceIte, Nat.not_lt.mp h]

theorem shareOut_snd (n wa wb : Nat) : (shareOut n wa wb).2 = n * wb / (wa + wb) +
    (if wb ≤ wa then 0 else n - n * wa / (wa + wb) - n * wb / (wa + wb)) := by
  by_cases h : wa < wb
  · simp only [shareOut, h, ↓reduceIte, Nat.not_le.mpr h]
  · simp only [shareOut, h, ↓reduceIte, Nat.not_lt.mp h, Nat.add_zero]

/-- With the leftover given out, the shares make up the amount. -/
theorem shareOut_sum (n wa wb : Nat) : (shareOut n wa wb).1 + (shareOut n wa wb).2 = n := by
  have := shares_le n wa wb
  rw [shareOut_fst, shareOut_snd]
  split <;> omega

/-- An amount less than the two weights gives neither more than its weight, the leftover included: it goes to the
larger weight, whose exact share falls short of it. -/
theorem shareOut_le {n wa wb : Nat} (h : n < wa + wb) : (shareOut n wa wb).1 ≤ wa ∧ (shareOut n wa wb).2 ≤ wb := by
  have total : 0 < wa + wb := Nat.zero_lt_of_lt h
  have leftover := leftover_le n total
  have short {w : Nat} (hw : 0 < w) : n * w / (wa + wb) < w :=
    Nat.div_lt_of_lt_mul (Nat.mul_lt_mul_of_pos_right h hw)
  obtain ⟨within_a, within_b⟩ := share_le h.le
  rw [shareOut_fst, shareOut_snd]
  split
  · next larger => exact ⟨by have := short (w := wa) (by omega); omega, within_b⟩
  · next larger => exact ⟨within_a, by have := short (w := wb) (by omega); omega⟩

/-! ## Allocations under a cap (R99) -/

section
variable {cap da db atA atB : Nat}

theorem allocate_fits (h : da + db ≤ cap) : allocate cap da db atA atB = (da, db) := if_pos h

/-- The floors fit and the demands do not: what is left of the cap is shared by what each asks above its floor. -/
theorem allocate_floors (short : cap < da + db) (floors : min atA da + min atB db ≤ cap) :
    allocate cap da db atA atB =
      (min atA da + (shareOut (cap - min atA da - min atB db) (da - min atA da) (db - min atB db)).1,
        min atB db + (shareOut (cap - min atA da - min atB db) (da - min atA da) (db - min atB db)).2) := by
  simp only [allocate, Nat.not_le.mpr short, floors, ↓reduceIte]

/-- The floors do not fit: the cap is shared by the floors. -/
theorem allocate_scaled (short : cap < min atA da + min atB db) :
    allocate cap da db atA atB = shareOut cap (min atA da) (min atB db) := by
  have demands : ¬ da + db ≤ cap := by omega
  simp only [allocate, demands, Nat.not_le.mpr short, ↓reduceIte]

/-- What each unit has where the floors fit and the demands do not. -/
theorem allocate_floors_shares (short : cap < da + db) (floors : min atA da + min atB db ≤ cap) :
    let fa := min atA da
    let fb := min atB db
    let ra := da - fa
    let rb := db - fb
    let rest := cap - fa - fb
    let x := allocate cap da db atA atB
    x.1 = fa + rest * ra / (ra + rb) +
        (if rb ≤ ra then rest - rest * ra / (ra + rb) - rest * rb / (ra + rb) else 0) ∧
      x.2 = fb + rest * rb / (ra + rb) +
        (if rb ≤ ra then 0 else rest - rest * ra / (ra + rb) - rest * rb / (ra + rb)) ∧
      rest - rest * ra / (ra + rb) - rest * rb / (ra + rb) ≤ 1 ∧ rest * ra / (ra + rb) ≤ ra ∧
      rest * rb / (ra + rb) ≤ rb ∧ x.1 + x.2 = cap := by
  intro fa fb ra rb rest x
  have parts : x = (fa + (shareOut rest ra rb).1, fb + (shareOut rest ra rb).2) := allocate_floors short floors
  have sum := shareOut_sum rest ra rb
  obtain ⟨within_a, within_b⟩ := share_le (n := rest) (wa := ra) (wb := rb) (by omega)
  rw [parts]
  exact ⟨by rw [shareOut_fst, Nat.add_assoc], by rw [shareOut_snd, Nat.add_assoc], leftover_le rest (by omega),
    within_a, within_b, by dsimp only; omega⟩

/-- What each unit has where the floors do not fit. -/
theorem allocate_scaled_shares (short : cap < min atA da + min atB db) :
    let fa := min atA da
    let fb := min atB db
    let x := allocate cap da db atA atB
    x.1 = cap * fa / (fa + fb) + (if fb ≤ fa then cap - cap * fa / (fa + fb) - cap * fb / (fa + fb) else 0) ∧
      x.2 = cap * fb / (fa + fb) + (if fb ≤ fa then 0 else cap - cap * fa / (fa + fb) - cap * fb / (fa + fb)) ∧
      cap - cap * fa / (fa + fb) - cap * fb / (fa + fb) ≤ 1 ∧ x.1 ≤ fa ∧ x.2 ≤ fb ∧ x.1 + x.2 = cap := by
  intro fa fb x
  have parts : x = shareOut cap fa fb := allocate_scaled short
  obtain ⟨within_a, within_b⟩ := shareOut_le short
  rw [parts]
  exact ⟨shareOut_fst .., shareOut_snd .., leftover_le cap (Nat.zero_lt_of_lt short), within_a, within_b,
    shareOut_sum ..⟩

theorem allocate_sum_le (cap da db atA atB : Nat) :
    (allocate cap da db atA atB).1 + (allocate cap da db atA atB).2 ≤ cap := by
  by_cases fits : da + db ≤ cap
  · rwa [allocate_fits fits]
  · by_cases floors : min atA da + min atB db ≤ cap
    · have := shareOut_sum (cap - min atA da - min atB db) (da - min atA da) (db - min atB db)
      rw [allocate_floors (Nat.not_le.mp fits) floors]
      dsimp only
      omega
    · rw [allocate_scaled (Nat.not_le.mp floors), shareOut_sum]

/-- No unit has more than it demands. -/
theorem allocate_le (cap da db atA atB : Nat) :
    (allocate cap da db atA atB).1 ≤ da ∧ (allocate cap da db atA atB).2 ≤ db := by
  by_cases fits : da + db ≤ cap
  · rw [allocate_fits fits]
    exact ⟨le_rfl, le_rfl⟩
  · by_cases floors : min atA da + min atB db ≤ cap
    · obtain ⟨hx, hy⟩ := shareOut_le (n := cap - min atA da - min atB db) (wa := da - min atA da)
        (wb := db - min atB db) (by omega)
      rw [allocate_floors (Nat.not_le.mp fits) floors]
      dsimp only
      omega
    · obtain ⟨hx, hy⟩ := shareOut_le (Nat.not_le.mp floors)
      rw [allocate_scaled (Nat.not_le.mp floors)]
      omega

/-- The area terms count only as far as the demands reach. -/
theorem allocate_congr {atA' atB' : Nat} (ha : min atA da = min atA' da) (hb : min atB db = min atB' db) :
    allocate cap da db atA atB = allocate cap da db atA' atB' := by
  simp only [allocate, ha, hb]

end

/-! ## The position of a flow (R107) -/

theorem positionFor_low {t : Vector Nat 9} {q : Nat} (h : q ≤ t[0]) : positionFor t q = 0 := if_pos h

theorem positionFor_high {t : Vector Nat 9} {q : Nat} (h : t[0] < q) (top : t[8] ≤ q) : positionFor t q = 1000 := by
  simp only [positionFor, Nat.not_le.mpr h, top, ↓reduceIte]

/-- Within the table the position is interpolated up to the first point above the flow: the branch of that point, each
earlier branch being one whose point the flow has reached. -/
theorem positionFor_between {t : Vector Nat 9} {q : Nat} {k : Fin 8} (h : t[0] < q) (top : q < t[8])
    (above : q < t[k.succ]) (first : ∀ j : Fin 8, j < k → t[j.succ] ≤ q) :
    positionFor t q = interpolate k q t[k.castSucc] t[k.succ] := by
  unfold positionFor
  rw [if_neg (Nat.not_le.mpr h), if_neg (Nat.not_le.mpr top)]
  simp only [← Nat.not_le] at above ⊢
  fin_cases k <;> simp_all [Fin.forall_fin_succ, -not_le, -Nat.not_le]

end Sys2Proof.Machine
end

