-- ==== Sys2Proof/Proofs/AirUpdate.lean ====
section
/-! PROOF. The air update, step by step (R89): the demands it forms with their notices, the allocations, the hand-over to
the cells, and the needs that reach the rail. -/

namespace Sys2Proof.Machine
open Sys2Proof

/-! ## Alarm and demand of one unit (R91 to R97) -/

/-- The alarm flag that a comparator takes (R95). -/
def State.alarmFor (s : State) (id : UnitId) (u : UnitRec) : Bool :=
  alarmAfter u.co2Alarm (s.co2Of id) s.working.settings.alarmThreshold s.working.settings.alarmHysteresis

/-- A unit record once its comparator is evaluated and its demand formed. -/
def State.demanding (s : State) (id : UnitId) (u : UnitRec) : UnitRec :=
  s.demandRecord id { u with co2Alarm := s.alarmFor id u }

/-- The notice of a change of a unit's alarm flag, where there is one. -/
def State.alarmNotices (s : State) (id : UnitId) : List Notice :=
  match s.unit? id with
  | none => []
  | some u =>
    if s.alarmFor id u = u.co2Alarm then []
    else [s.noticeOf (if s.alarmFor id u then .co2High else .co2Normal) (some id.place) none
      ((s.co2Of id).getD noValue) none]

theorem State.modifyUnit_none {s : State} {id : UnitId} (hu : s.unit? id = none) (f : UnitRec → UnitRec) :
    s.modifyUnit id f = s := by
  have units : s.space.units.modify id f = s.space.units := by
    unfold State.unit? at hu
    generalize s.space.units = v at hu ⊢
    cases v <;> cases id <;> first | rfl | cases hu
  simp only [State.modifyUnit, State.updSpace, units]

theorem Units.modify_congr {v : Units} {id : UnitId} {u : UnitRec} (hu : v.get? id = some u) {f g : UnitRec → UnitRec}
    (h : f u = g u) : v.modify id f = v.modify id g := by
  cases v <;> cases id <;> cases hu <;> simp only [Units.modify, h]

theorem Units.modify_modify (v : Units) (id : UnitId) (f g : UnitRec → UnitRec) :
    (v.modify id f).modify id g = v.modify id fun u => g (f u) := by
  cases v <;> cases id <;> rfl

/-- Steps 2 and 3 of an air update for one unit: its record, and the notice of its alarm. -/
theorem State.formDemand_eq (s : State) (id : UnitId) : s.formDemand id = { s with
    space := { s.space with units := s.space.units.modify id (s.demanding id) }
    link := s.link.handed (s.alarmNotices id) } := by
  cases hu : s.unit? id with
  | none =>
    have same := State.modifyUnit_none hu (s.demanding id)
    simp only [State.formDemand, State.judgeAlarm, State.alarmNotices, hu, State.modifyUnit_none hu]
    exact same.symm
  | some u =>
    have units : (s.space.units.modify id fun r => { r with co2Alarm := s.alarmFor id u }).modify id
        (s.demandRecord id) = s.space.units.modify id (s.demanding id) :=
      (Units.modify_modify ..).trans (Units.modify_congr hu rfl)
    simp only [State.formDemand, State.judgeAlarm, State.alarmNotices, hu]
    rw [← units]
    unfold State.alarmFor
    split <;> rfl

/-! ## Every unit -/

/-- The units once the demands are formed. -/
def State.demandUnits (s : State) : Units :=
  match s.space.units with
  | .split a b => .split (s.demanding .a a) (s.demanding .b b)
  | .joined ab => .joined (s.demanding .ab ab)

theorem State.foldl_formDemand (s : State) : s.space.units.ids.foldl State.formDemand s = { s with
    space := { s.space with units := s.demandUnits }
    link := s.link.handed (s.space.units.ids.flatMap s.alarmNotices) } := by
  unfold State.demandUnits
  cases hu : s.space.units with
  | split a b =>
    have notices (l : Link) (a' : UnitRec) : State.alarmNotices { s with
        space := { s.space with units := .split a' b }, link := l } .b = s.alarmNotices .b := by
      simp only [State.alarmNotices, State.unit?, hu]
      rfl
    simp only [Units.ids, List.foldl_cons, List.foldl_nil, State.formDemand_eq, hu, Units.modify, List.flatMap_cons,
      List.flatMap_nil, List.append_nil, Link.handed_append, notices]
    rfl
  | joined ab =>
    simp only [Units.ids, List.foldl_cons, List.foldl_nil, State.formDemand_eq, hu, Units.modify, List.flatMap_cons,
      List.flatMap_nil, List.append_nil]

/-! ## The cap shared (R98, R99) -/

/-- The units once the cap is shared. -/
def State.sharedUnits (s : State) : Units := s.demandUnits.allotAll s.air.requestedCap

/-- The air demand unit once the cap is shared. -/
def State.sharedAir (s : State) : Air :=
  { s.air with
    capInForce := s.air.requestedCap
    timer := 0
    sumDemand := s.sharedUnits.total (·.demand)
    sumAllocation := s.sharedUnits.total (·.allocation) }

/-- The state in which an air update hands its allocations over. -/
def State.shared (s : State) : State :=
  { s with
    space := { s.space with units := s.sharedUnits }
    air := s.sharedAir
    link := s.link.handed (s.space.units.ids.flatMap s.alarmNotices) }

/-- The state in which an air update forms the demands. -/
def State.airBegun (s : State) : State := s.updAir fun a => { a with capInForce := a.requestedCap, timer := 0 }

theorem State.airUpdate_eq (s : State) : s.airUpdate = s.shared.handOver.refreshNeeds := by
  have begun : s.airUpdate =
      (s.airBegun.space.units.ids.foldl State.formDemand s.airBegun).shareCap.handOver.refreshNeeds := rfl
  rw [begun, State.foldl_formDemand]
  rfl

/-- What follows the sharing of the cap keeps all but the drives, the rail and what the rail moves. -/
theorem State.airUpdate_keeps_shared (s : State) :
    Keeps [.notices, .drives, .lighting, .blinds, .rail, .faults] s.shared s.airUpdate := by
  rw [State.airUpdate_eq]
  exact (s.shared.handOver_keeps.mono rfl).trans ((State.refreshNeeds_keeps _).mono rfl)

/-! ## Notices of the rail (R160, R161) -/

/-- The needs hand over a notice only where they raise an OFF rail against a fault level. -/
theorem State.refreshNeeds_link (s : State) : ∃ ns, s.refreshNeeds.link = s.link.handed ns ∧
    (s.rail.state ≠ .off ∨ s.rail.faultLevel = false → ns = []) := by
  have rail : s.writeNeeds.rail.state = s.rail.state := rfl
  by_cases quiet : s.rail.state ≠ .off ∨ s.rail.faultLevel = false
  · refine ⟨[], ?_, fun _ => rfl⟩
    unfold State.refreshNeeds State.raiseRail
    by_cases off : s.rail.state = .off
    · have level : (s.writeNeeds.updRail fun r => { r with state := .rising, settle := some 0 }).rail.faultLevel =
          false := quiet.resolve_left (not_not.mpr off)
      simp only [level, Bool.false_eq_true, ↓reduceIte]
      split <;> rfl
    · simp only [rail, off, false_and, ↓reduceIte]
      rfl
  · obtain ⟨ns, link⟩ := s.refreshNeeds_keeps.same .link rfl
    exact ⟨ns, link, fun h => absurd h quiet⟩

/-- The notices of an air update: those of the alarms, and behind them those of the rail. -/
theorem State.airUpdate_link (s : State) : ∃ ns,
    s.airUpdate.link = s.link.handed (s.space.units.ids.flatMap s.alarmNotices ++ ns) ∧
      (s.rail.state ≠ .off ∨ s.rail.faultLevel = false → ns = []) := by
  have rail : s.shared.handOver.rail = s.rail := s.shared.handOver_keeps.same .rail rfl
  have link : s.shared.handOver.link = s.shared.link := s.shared.handOver_keeps.same .notices rfl
  obtain ⟨ns, needs, quiet⟩ := s.shared.handOver.refreshNeeds_link
  rw [rail] at quiet
  refine ⟨ns, ?_, quiet⟩
  rw [State.airUpdate_eq, needs, link, Link.handed_append]
  rfl

/-! ## The hand-over to the cells (R107 to R109) -/

/-- A drive that has been handed the flow of its cell, before its damper takes its command. -/
def State.handedDrive (s : State) (c : Cell) : Drive :=
  { s.drives.get c with
    flow := some (s.cellFlow c)
    position := some (positionFor (s.working.tables.get c) (s.cellFlow c))
    computed :=
      if s.faults[damperSource c].state = .latched then (s.drives.get c).computed
      else slewToward (s.profileOf c).slew (s.drives.get c).computed
        (positionFor (s.working.tables.get c) (s.cellFlow c)) }

/-- The hand-over to one cell. -/
def State.handedTo (s : State) (c : Cell) : State := s.updDrive c fun _ => s.handedDrive c

theorem State.handOverCell_eq (s : State) (c : Cell) : s.handOverCell c = (s.handedTo c).redrive c := by
  have handed : s.handOverCell c = (s.updDrive c fun d =>
      { d with
        flow := some (s.cellFlow c)
        position := some (positionFor (s.working.tables.get c) (s.cellFlow c))
        computed :=
          if decide (s.faults[damperSource c].state = .latched) = true then d.computed
          else slewToward (s.profileOf c).slew d.computed
            (positionFor (s.working.tables.get c) (s.cellFlow c)) }).redrive c := rfl
  rw [handed]
  simp only [decide_eq_true_eq]
  rfl

theorem State.handOverCell_get_self (s : State) (c : Cell) :
    (s.handOverCell c).drives.get c = (s.handedTo c).withDamper c := by
  rw [State.handOverCell_eq, State.redrive_get_self]

theorem State.handOverCell_get_other (s : State) {c d : Cell} (h : d ≠ c) :
    (s.handOverCell c).drives.get d = s.drives.get d := by
  rw [State.handOverCell_eq, State.redrive_get_other _ h]
  exact s.updDrive_get_other _ h

/-- Each cell is handed its flow as the drives stood. -/
theorem State.handOver_get (s : State) (c : Cell) : s.handOver.drives.get c = (s.handedTo c).withDamper c := by
  unfold State.handOver
  cases c with
  | a => rw [State.handOverCell_get_other _ (by decide), State.handOverCell_get_self]
  | b =>
    have drive : (s.handOverCell .a).drives.get .b = s.drives.get .b := s.handOverCell_get_other (by decide)
    have handed : (s.handOverCell .a).handedDrive .b = s.handedDrive .b := by
      unfold State.handedDrive
      rw [drive]
      rfl
    have standing : ((s.handOverCell .a).handedTo .b).drives.get .b = (s.handedTo .b).drives.get .b := by
      simp only [State.handedTo, State.updDrive_get_self, handed]
    rw [State.handOverCell_get_self]
    unfold State.withDamper
    rw [standing, State.drivenFor_congr (t := (s.handOverCell .a).handedTo .b) (s := s.handedTo .b) standing rfl rfl]
    rfl

/-! ## The flows stay -/

/-- What a drive was handed last: the flow and its position (R107). -/
def Drive.handed (d : Drive) : Option Nat × Option Nat := (d.flow, d.position)

theorem Drive.command_handed (d : Drive) (value tolerance : Nat) : (d.command value tolerance).handed = d.handed := by
  unfold Drive.command
  split <;> rfl

/-- Every drive has what it was handed last. -/
def State.SameFlows (s t : State) : Prop := ∀ c, (t.drives.get c).handed = (s.drives.get c).handed

namespace State.SameFlows
variable {s t u : State}

theorem of_drives (h : t.drives = s.drives) : s.SameFlows t := fun _ => by rw [h]

theorem trans (h : s.SameFlows t) (k : t.SameFlows u) : s.SameFlows u := fun c => (k c).trans (h c)

theorem ite {c : Prop} [Decidable c] (h : s.SameFlows t) (k : s.SameFlows u) : s.SameFlows (if c then t else u) := by
  split
  · exact h
  · exact k

theorem updDrive (s : State) (c : Cell) {f : Drive → Drive} (h : ∀ d, (f d).handed = d.handed) :
    s.SameFlows (s.updDrive c f) := by
  intro d
  by_cases hd : d = c
  · rw [hd, State.updDrive_get_self]
    exact h _
  · rw [s.updDrive_get_other f hd]

theorem redrive (s : State) (c : Cell) : s.SameFlows (s.redrive c) := updDrive s c fun d => d.command_handed _ _

theorem refreshTracking (s : State) (c : Cell) : s.SameFlows (s.refreshTracking c) := by
  refine .ite (updDrive s c fun d => ?_) (updDrive s c fun _ => rfl)
  split <;> rfl

theorem railToTracking (s : State) : s.SameFlows s.railToTracking :=
  (refreshTracking s .a).trans (refreshTracking _ .b)

theorem endDamperCal (s : State) (c : Cell) (r : CalResult) : s.SameFlows (s.endDamperCal c r) := by
  have ended : s.SameFlows (s.updDrive c fun d => { d with cal := none }) := updDrive s c fun _ => rfl
  exact ((ended.trans (redrive _ c)).trans (refreshTracking _ c)).trans (of_drives rfl)

theorem calRailFault (s : State) (c : Cell) : s.SameFlows (s.calRailFault c) := by
  unfold State.calRailFault
  split
  · exact .ite (endDamperCal s c _) (of_drives rfl)
  · exact of_drives rfl

theorem needsWritten (s : State) : s.SameFlows s.handMotion.writeNeeds := of_drives rfl

theorem railFault (s : State) : s.SameFlows s.railFault := by
  let faulted := s.updRail fun r => { r with state := .faulted, settle := none, linger := none }
  let reported := faulted.reportRetry railSource .railFault
  have report : s.SameFlows reported := of_drives (faulted.reportRetry_keeps _ _ |>.same .drives rfl)
  have slots : s.SameFlows (if decide (s.rail.state = .on) then reported.loseSlots else reported) :=
    .ite (report.trans (of_drives (reported.loseSlots_keeps.same .drives rfl))) report
  exact (((slots.trans (calRailFault _ .a)).trans (calRailFault _ .b)).trans (railToTracking _)).trans (needsWritten _)

theorem refreshNeeds (s : State) : s.SameFlows s.refreshNeeds := by
  have rising : s.SameFlows (s.writeNeeds.updRail fun r => { r with state := .rising, settle := some 0 }) :=
    of_drives rfl
  exact .ite (.ite (rising.trans (railFault _)) rising) (of_drives rfl)

end State.SameFlows

/-! ## The drives after an air update -/

theorem State.airUpdate_flow (s : State) (c : Cell) :
    (s.airUpdate.drives.get c).flow = some (s.shared.cellFlow c) ∧
      (s.airUpdate.drives.get c).position =
        some (positionFor (s.working.tables.get c) (s.shared.cellFlow c)) := by
  have handed : (s.airUpdate.drives.get c).handed = (s.shared.handedDrive c).handed := by
    rw [State.airUpdate_eq, State.SameFlows.refreshNeeds _ c, State.handOver_get]
    refine (Drive.command_handed ((s.shared.handedTo c).drives.get c) _ _).trans ?_
    rw [State.handedTo, State.updDrive_get_self]
  exact ⟨congrArg Prod.fst handed, congrArg Prod.snd handed⟩

theorem State.airUpdate_computed (s : State) (c : Cell) :
    (s.airUpdate.drives.get c).computed = (s.shared.handedDrive c).computed := by
  have needs := (State.refreshNeeds_holdsPlant s.shared.handOver).drives c
  obtain ⟨command, -, -⟩ := ((s.shared.handedTo c).drives.get c).command_keeps ((s.shared.handedTo c).drivenFor c).2
    s.working.settings.trackingTolerance
  have handed : (s.airUpdate.drives.get c).computedCommands = (s.shared.handedDrive c).computedCommands := by
    rw [State.airUpdate_eq, needs.computed, State.handOver_get]
    refine Eq.trans command ?_
    rw [State.handedTo, State.updDrive_get_self]
  exact congrArg Prod.fst handed

/-- The command of a damper that is not calibrating (R109). -/
theorem State.drivenFor_uncalibrated {s : State} {c : Cell} (h : (s.drives.get c).cal = none) : (s.drivenFor c).2 =
    if s.space.fire = .inForce then s.working.settings.firePosition.get c
    else (s.space.overrides[damperTarget c].map (·.value)).getD (s.drives.get c).computed := by
  unfold State.drivenFor
  simp only [h]
  split
  · rfl
  · cases s.space.overrides[damperTarget c] <;> rfl

theorem State.airUpdate_driven {s : State} {c : Cell} (h : (s.drives.get c).cal = none) :
    (s.airUpdate.drives.get c).driven =
      if s.space.fire = .inForce then s.working.settings.firePosition.get c
      else (s.space.overrides[damperTarget c].map (·.value)).getD (s.airUpdate.drives.get c).computed := by
  have drive : (s.shared.handedTo c).drives.get c = s.shared.handedDrive c := State.updDrive_get_self ..
  have idle : ((s.shared.handedTo c).drives.get c).cal = none := by
    rw [drive]
    exact h
  obtain ⟨-, cal, -⟩ := ((s.shared.handedTo c).drives.get c).command_keeps ((s.shared.handedTo c).drivenFor c).2
    s.working.settings.trackingTolerance
  have driven := ((s.shared.handedTo c).drives.get c).command_driven ((s.shared.handedTo c).drivenFor c).2
    s.working.settings.trackingTolerance
  have needs := (State.refreshNeeds_holdsPlant s.shared.handOver).drives c
  have commands := needs.commands (by
    rw [State.handOver_get]
    exact cal.trans idle)
  rw [State.airUpdate_computed, ← drive]
  refine Eq.trans ?_ (State.drivenFor_uncalibrated idle)
  rw [← driven, State.airUpdate_eq]
  rw [State.handOver_get] at commands
  exact congrArg DriveCommands.driven commands

/-! ## The records of the units -/

theorem State.demandUnits_get? {s : State} {id : UnitId} {u : UnitRec} (hu : s.unit? id = some u) :
    s.demandUnits.get? id = some (s.demanding id u) := by
  unfold State.unit? at hu
  unfold State.demandUnits
  generalize s.space.units = v at hu ⊢
  cases v <;> cases id <;> cases hu <;> rfl

/-- Each unit is allotted no more than it demands. -/
theorem Units.allotAll_record {v : Units} {id : UnitId} {u : UnitRec} (hu : v.get? id = some u) (cap : Nat) :
    ∃ n, n ≤ u.demand ∧ (v.allotAll cap).get? id = some (u.allot n) := by
  cases v with
  | split a b =>
    obtain ⟨le_a, le_b⟩ := allocate_le cap a.demand b.demand (a.terms.area.getD 0) (b.terms.area.getD 0)
    cases id <;> cases hu
    · exact ⟨_, le_a, rfl⟩
    · exact ⟨_, le_b, rfl⟩
  | joined ab =>
    cases id <;> cases hu
    exact ⟨_, Nat.min_le_left _ _, rfl⟩

theorem State.airUpdate_units (s : State) : s.airUpdate.space.units = s.sharedUnits :=
  s.airUpdate_keeps_shared.same .units rfl

theorem State.airUpdate_record {s : State} {id : UnitId} {u : UnitRec} (hu : s.unit? id = some u) :
    ∃ n, n ≤ (s.demanding id u).demand ∧ s.airUpdate.unit? id = some ((s.demanding id u).allot n) := by
  obtain ⟨n, le, record⟩ := Units.allotAll_record (s.demandUnits_get? hu) s.air.requestedCap
  refine ⟨n, le, ?_⟩
  rw [State.unit?, State.airUpdate_units]
  exact record

/-- What an air update answers: the update, with the alarm notices and those of the rail handed over. -/
theorem exec_airUpdate {s : State} (hs : s.Settled) : ∃ ns,
    exec .airUpdate s = .next { s.airUpdate with
      link := (s.link.handed (s.space.units.ids.flatMap s.alarmNotices ++ ns)).startFrame } ∧
      (s.rail.state ≠ .off ∨ s.rail.faultLevel = false → ns = []) := by
  obtain ⟨ns, link, quiet⟩ := s.airUpdate_link
  exact ⟨ns, finish_handed hs link, quiet⟩

end Sys2Proof.Machine
end

