-- ==== Sys2Proof/Proofs/AirDemand.lean ====
section
/-! PROOF. The demand of a unit at an air update, and its CO2 alarm (R91 to R97, R100). -/

namespace Sys2Proof.Machine
open Sys2Proof

/-! ## The figures (R91 to R97) -/

theorem effectivePersons_eq (m : Mode) (headcount expected fraction : Nat) :
    effectivePersons m headcount expected fraction =
      if m = .occupied then headcount else if m = .await then (expected * fraction + 999) / 1000 else 0 := by
  cases m <;> rfl

theorem trimError_peopled {m : Mode} (h : m = .await ∨ m = .occupied) {co2 : Option Nat} {v : Nat}
    (hv : co2 = some v) (setpoint : Nat) : trimError m co2 setpoint = some (co2Error v setpoint) := by
  rcases h with rfl | rfl <;> rw [hv] <;> rfl

theorem trimError_none {m : Mode} {co2 : Option Nat} (h : ¬ (m = .await ∨ m = .occupied) ∨ co2 = none)
    (setpoint : Nat) : trimError m co2 setpoint = none := by
  rcases h with h | rfl
  · cases m <;> first | rfl | simp at h
  · cases m <;> rfl

theorem demandFor_peopled {m : Mode} (h : m = .await ∨ m = .occupied) (area need qmin qmax upper : Nat) :
    demandFor m area need qmin qmax upper = (clampNat qmin upper need, decide (upper < need)) := by
  rcases h with rfl | rfl <;> rfl

/-! ## The record of a unit -/

section
variable {s : State} {id : UnitId} {u : UnitRec}

/-- An air update leaves the mode, the people and the profile of a unit. -/
theorem State.demanding_frame (s : State) (id : UnitId) (u : UnitRec) :
    (s.demanding id u).co2Alarm = s.alarmFor id u ∧ (s.demanding id u).mode = u.mode ∧
      (s.demanding id u).headcount = u.headcount ∧ (s.demanding id u).occupancy = u.occupancy ∧
      (s.demanding id u).profile = u.profile := by
  unfold State.demanding State.demandRecord
  split <;> exact ⟨rfl, rfl, rfl, rfl, rfl⟩

/-- A unit in FIRE computes nothing (R100). -/
theorem State.demanding_fire (h : u.mode = .fire) : s.demanding id u =
    { u with
      co2Alarm := s.alarmFor id u, demand := 0, atUpper := false, budgetLimited := false
      terms := AirTerms.absent } := if_pos h

/-- The people that R91 reckons with. -/
def State.personsFor (s : State) (u : UnitRec) : Nat :=
  effectivePersons u.mode u.headcount (((s.governingBooking u).map (·.entry.expected)).getD 0)
    s.working.profiles[u.profile].awaitFraction

/-- The bound that R96 sets a unit's demand. -/
def State.upperFor (s : State) (id : UnitId) (u : UnitRec) : Nat :=
  upperBound u.mode (s.alarmFor id u) (id.sum s.working.settings.qmin) (id.sum s.working.settings.qmax)
    s.working.profiles[u.profile].qcap

/-- The CO2 error of the update, where it computes the trim (R92). -/
def State.errorFor (s : State) (id : UnitId) (u : UnitRec) : Option Int :=
  trimError u.mode (s.co2Of id) s.working.profiles[u.profile].co2Setpoint

theorem State.demanding_terms (h : u.mode ≠ .fire) :
    let r := s.demanding id u
    r.terms.area = some (areaTerm (id.sum s.working.settings.area) s.working.settings.ra) ∧
      r.terms.persons = some (s.personsFor u) ∧
      r.terms.person = some (s.working.profiles[u.profile].rp * s.personsFor u) ∧
      r.terms.upper = some (s.upperFor id u) ∧ r.terms.co2 = s.co2Of id := by
  unfold State.demanding State.demandRecord
  rw [if_neg h]
  exact ⟨rfl, rfl, rfl, rfl, rfl⟩

theorem State.demanding_trim (h : u.mode ≠ .fire) {e : Int} (he : s.errorFor id u = some e) :
    let p := s.working.profiles[u.profile]
    let r := s.demanding id u
    r.terms.proportional = some (proportionalPart p.kp e) ∧
      r.integral = integralAfter u.integral p.imax p.ki e (u.atUpper || u.budgetLimited) ∧
      r.terms.trim = some (trimOf (proportionalPart p.kp e) r.integral) := by
  unfold State.errorFor at he
  unfold State.demanding State.demandRecord
  rw [if_neg h]
  dsimp only
  rw [he]
  exact ⟨rfl, rfl, rfl⟩

theorem State.demanding_untrimmed (h : u.mode ≠ .fire) (he : s.errorFor id u = none) :
    let r := s.demanding id u
    r.terms.proportional = none ∧ r.terms.trim = some 0 ∧
      r.integral = min u.integral s.working.profiles[u.profile].imax := by
  unfold State.errorFor at he
  unfold State.demanding State.demandRecord
  rw [if_neg h]
  dsimp only
  rw [he]
  exact ⟨rfl, rfl, rfl⟩

/-- The demand by mode, from the terms of the update (R97). -/
theorem State.demanding_demand (h : u.mode ≠ .fire) :
    let w := s.working.settings
    let r := s.demanding id u
    let area := areaTerm (id.sum w.area) w.ra
    (r.demand, r.atUpper) = demandFor u.mode area
      (area + s.working.profiles[u.profile].rp * s.personsFor u + r.terms.trim.getD 0)
      (id.sum w.qmin) (id.sum w.qmax) (s.upperFor id u) := by
  dsimp only
  rw [Nat.add_comm (areaTerm _ _) (_ * _)]
  simp only [State.demanding, State.demandRecord, h, ↓reduceIte]
  rfl

end

/-- Settles O53: the record that steps 2 and 3 form is read off term by term, and sharing the cap adds the allocation
alone; the notices are those of the comparators, in the order of the units. -/
theorem airUpdateFormsTheDemand : Obligations.AirUpdateFormsTheDemand := by
  intro id u s hs hu w alarm told
  have alarms (j : UnitId) (r : UnitRec) : s.alarmFor j r = alarm j r.co2Alarm := by
    simp only [alarm, State.alarmFor, alarmAfter]
    cases s.co2Of j with
    | none => rfl
    | some v => simp only [w, ← Nat.not_le, decide_not]
  have notices : s.alarmNotices = told := by
    funext j
    simp only [State.alarmNotices, told, alarms]
    cases s.unit? j with
    | none => rfl
    | some r =>
      dsimp only
      split
      · rfl
      · next changed =>
        rw [Bool.eq_not.mpr changed]
        cases r.co2Alarm <;> rfl
  obtain ⟨ns, answer, quiet⟩ := exec_airUpdate hs
  obtain ⟨n, allotted, record⟩ := State.airUpdate_record hu
  obtain ⟨alarmed, mode, headcount, occupancy, profile⟩ := s.demanding_frame id u
  refine ⟨_, _, ns, answer, record, by rw [notices], quiet, alarmed.trans (alarms id u), mode, headcount, occupancy,
    profile, fun fire => ?_, fun nofire => ?_⟩
  · rw [State.demanding_fire fire] at allotted ⊢
    obtain rfl := Nat.le_zero.mp allotted
    exact ⟨rfl, rfl, rfl, rfl, rfl, rfl⟩
  · obtain ⟨area, persons, person, upper, co2⟩ := s.demanding_terms (id := id) nofire
    have demand := s.demanding_demand (id := id) nofire
    intro p area' expected persons' qmin qmax upper' peopled need
    have counted : s.personsFor u = persons' := effectivePersons_eq ..
    have bound : s.upperFor id u = upper' := by
      have flag : ((s.demanding id u).allot n).co2Alarm = s.alarmFor id u := alarmed
      simp only [upper', flag]
      rfl
    rw [counted] at persons person demand
    rw [bound] at upper demand
    have formed {m : Mode} (hm : u.mode = m) : ((s.demanding id u).demand, (s.demanding id u).atUpper) =
        demandFor m area' need qmin qmax upper' := hm ▸ demand
    refine ⟨area, persons, person, upper, co2, fun v hp hv => ?_,
      fun h => s.demanding_untrimmed nofire (trimError_none h _), fun hm => Prod.mk.inj (formed hm),
      fun hm => Prod.mk.inj (formed hm), fun hm => Prod.mk.inj (formed hm), fun hp => ?_⟩
    · obtain ⟨proportional, integral, trim⟩ := s.demanding_trim nofire (trimError_peopled hp hv _)
      refine ⟨proportional, integral.trans ?_, trim⟩
      simp only [integralAfter, Bool.or_eq_true]
      rfl
    · obtain ⟨amount, cut⟩ := Prod.mk.inj ((formed rfl).trans (demandFor_peopled hp ..))
      exact ⟨amount, (iff_of_eq (congrArg (· = true) cut)).trans decide_eq_true_iff⟩

end Sys2Proof.Machine
end

