-- ==== Sys2Proof/Proofs/AirSharing.lean ====
section
/-! PROOF. How an air update shares the supply cap, and what each cell is handed (R98, R99, R107 to R109). -/

namespace Sys2Proof.Machine
open Sys2Proof

section
variable {s : State}

/-! ## The units -/

/-- The floor of a unit is its area term as far as its demand reaches, in FIRE too, where both are absent (R99, R100). -/
theorem State.demanding_floor (s : State) (id : UnitId) (u : UnitRec) :
    min ((s.demanding id u).terms.area.getD 0) (s.demanding id u).demand =
      min (id.sum s.working.settings.area * s.working.settings.ra / 10) (s.demanding id u).demand := by
  by_cases fire : u.mode = .fire
  · rw [State.demanding_fire fire]
    simp only [Nat.min_zero]
  · obtain ⟨area, -⟩ := s.demanding_terms (id := id) fire
    rw [area]
    rfl

theorem State.sharedUnits_joined {ab : UnitRec} (hu : s.space.units = .joined ab) :
    s.sharedUnits = .joined ((s.demanding .ab ab).allot (min (s.demanding .ab ab).demand s.air.requestedCap)) := by
  unfold State.sharedUnits State.demandUnits
  rw [hu]
  rfl

/-- The allocations of A and B, from the area terms as the settings give them. -/
def State.allocations (s : State) (a b : UnitRec) : Nat × Nat :=
  allocate s.air.requestedCap (s.demanding .a a).demand (s.demanding .b b).demand
    (s.working.settings.area.a * s.working.settings.ra / 10) (s.working.settings.area.b * s.working.settings.ra / 10)

theorem State.sharedUnits_split {a b : UnitRec} (hu : s.space.units = .split a b) :
    s.sharedUnits = .split ((s.demanding .a a).allot (s.allocations a b).1)
      ((s.demanding .b b).allot (s.allocations a b).2) := by
  have floors : s.allocations a b = allocate s.air.requestedCap (s.demanding .a a).demand (s.demanding .b b).demand
      ((s.demanding .a a).terms.area.getD 0) ((s.demanding .b b).terms.area.getD 0) :=
    allocate_congr (s.demanding_floor .a a).symm (s.demanding_floor .b b).symm
  unfold State.sharedUnits State.demandUnits
  rw [hu, floors]
  rfl

/-- The sum of the allocations never exceeds the cap (R98). -/
theorem Units.allotAll_total_le (v : Units) (cap : Nat) : (v.allotAll cap).total (·.allocation) ≤ cap := by
  cases v with
  | split a b => exact allocate_sum_le ..
  | joined ab => exact Nat.min_le_right ..

theorem State.shared_profileOf (s : State) (c : Cell) : s.shared.profileOf c = s.profileOf c := by
  have frame (id : UnitId) (u : UnitRec) : (s.demanding id u).profile = u.profile := by
    obtain ⟨-, -, -, -, profile⟩ := s.demanding_frame id u
    exact profile
  have same : (s.sharedUnits.ofCell c).profile = (s.space.units.ofCell c).profile := by
    cases hu : s.space.units with
    | split a b =>
      rw [State.sharedUnits_split hu]
      cases c
      · exact frame .a a
      · exact frame .b b
    | joined ab =>
      rw [State.sharedUnits_joined hu]
      exact frame .ab ab
  exact congrArg (fun i : Fin 8 => s.working.profiles[i]) same

/-! ## The flows of the cells (R107) -/

theorem State.cellFlow_split {a b : UnitRec} (hu : s.space.units = .split a b) :
    s.cellFlow .a = a.allocation ∧ s.cellFlow .b = b.allocation := by
  unfold State.cellFlow
  rw [hu]
  exact ⟨rfl, rfl⟩

/-- The part of the allocation of AB that flows to cell A. -/
def State.shareOfA (s : State) (ab : UnitRec) : Nat :=
  ab.allocation * s.working.settings.qmax.a / (s.working.settings.qmax.a + s.working.settings.qmax.b)

theorem State.cellFlow_joined {ab : UnitRec} (hu : s.space.units = .joined ab) :
    s.cellFlow .a = s.shareOfA ab ∧ s.cellFlow .b = ab.allocation - s.shareOfA ab := by
  unfold State.cellFlow
  rw [hu]
  exact ⟨rfl, rfl⟩

/-- The command moves toward the position of the flow unless the damper's record is LATCHED (R108). -/
theorem State.airUpdate_slews (s : State) (c : Cell) : (s.airUpdate.drives.get c).computed =
    if s.faults[damperSource c].state = .latched then (s.drives.get c).computed
    else slewToward (s.profileOf c).slew (s.drives.get c).computed
      (positionFor (s.working.tables.get c) (s.shared.cellFlow c)) := by
  rw [State.airUpdate_computed, ← State.shared_profileOf]
  rfl

end

/-- Settles O52: the allocations are those of allocate with the area terms as the settings give them, each cell's flow
is its share of them, and what reaches the rail afterwards leaves the dampers that are not calibrating. -/
theorem airUpdateSharesTheCap : Obligations.AirUpdateSharesTheCap := by
  intro s hs
  obtain ⟨ns, answer, -⟩ := exec_airUpdate hs
  have kept := s.airUpdate_keeps
  have air : s.airUpdate.air = s.sharedAir := s.airUpdate_keeps_shared.same .air rfl
  have units := s.airUpdate_units
  refine ⟨_, _, answer, rfl, congrArg Air.capInForce air, (congrArg Air.requestedCap air :), congrArg Air.timer air,
    kept.same .walker rfl, kept.working rfl rfl rfl rfl, kept.same .presence rfl, kept.same .drift rfl,
    fun ab hu => ?_, ?_, fun c => ?_, fun a b hu => ?_⟩
  · have joined := State.sharedUnits_joined hu
    refine ⟨_, units.trans joined, rfl, ?_, ?_⟩
    · simp only [UnitRec.allot, decide_eq_true_eq]
      omega
    · rw [air, State.sharedAir, joined]
      exact ⟨rfl, rfl⟩
  · rw [air]
    exact s.demandUnits.allotAll_total_le s.air.requestedCap
  · obtain ⟨flow, position⟩ := s.airUpdate_flow c
    refine ⟨_, _, flow, position, fun ab hu => ?_, positionFor_low, positionFor_high,
      fun k low high above first => positionFor_between low high above first, s.airUpdate_slews c, fun cal => ?_⟩
    · obtain ⟨flowA, flowB⟩ := State.cellFlow_joined (s := s.shared) (units.symm.trans hu)
      cases c
      · exact flowA
      · exact flowB
    · refine (State.airUpdate_driven cal).trans ?_
      cases s.space.overrides[damperTarget c] <;> rfl
  · have split := State.sharedUnits_split hu
    obtain ⟨flowA, flowB⟩ := State.cellFlow_split (s := s.shared) split
    obtain ⟨handedA, -⟩ := s.airUpdate_flow .a
    obtain ⟨handedB, -⟩ := s.airUpdate_flow .b
    have bounded : (s.allocations a b).1 ≤ (s.demanding .a a).demand ∧
        (s.allocations a b).2 ≤ (s.demanding .b b).demand := allocate_le ..
    obtain ⟨leA, leB⟩ := bounded
    have sums : s.sharedAir.sumDemand = (s.demanding .a a).demand + (s.demanding .b b).demand ∧
        s.sharedAir.sumAllocation = (s.allocations a b).1 + (s.allocations a b).2 := by
      rw [State.sharedAir, split]
      exact ⟨rfl, rfl⟩
    obtain ⟨sumDemand, sumAllocation⟩ := sums
    exact ⟨_, _, units.trans split,
      ⟨fun fits => Prod.mk.inj (allocate_fits fits), allocate_floors_shares, allocate_scaled_shares, allocate_sum_le ..⟩,
      leA, leB, decide_eq_true_iff, decide_eq_true_iff, (congrArg Air.sumDemand air).trans sumDemand,
      (congrArg Air.sumAllocation air).trans sumAllocation, handedA.trans (congrArg some flowA),
      handedB.trans (congrArg some flowB)⟩

end Sys2Proof.Machine
end

