-- ==== Sys2Proof/Proofs/DamperMoves.lean ====
section
/-! PROOF. What moves a damper beside its computed command: a report under the retry policy (R172), tracking (R112),
the phases and the end of a calibration (R117 to R120), and the rail's answer to the needs (R160, R161). -/

namespace Sys2Proof.Machine
open Sys2Proof

/-! ## Frames read off -/

/-- The space coordinator is the same where its parts are. -/
theorem Keeps.space {xs : List Block} {s t : State} (k : Keeps xs s t)
    (h : ∀ b ∈ [Block.partition, .contact, .fire, .fireInput, .overrides, .units], xs.contains b = false) :
    t.space = s.space := by
  have partition : t.space.partition = s.space.partition := k.same .partition (h _ (by simp))
  have contact : t.space.contact = s.space.contact ∧ t.space.partitionTimer = s.space.partitionTimer :=
    k.same .contact (h _ (by simp))
  have fire : t.space.fire = s.space.fire := k.same .fire (h _ (by simp))
  have input : t.space.firePin = s.space.firePin ∧ t.space.fireTimer = s.space.fireTimer :=
    k.same .fireInput (h _ (by simp))
  have overrides : t.space.overrides = s.space.overrides := k.same .overrides (h _ (by simp))
  have units : t.space.units = s.space.units := k.same .units (h _ (by simp))
  cases ht : t.space
  cases hs : s.space
  simp_all

/-! ## A report under the retry policy (R172) -/

/-- A record after a report of a source that is tried again. -/
def State.retried (s : State) (kind : FaultKind) (r : FaultRec) : FaultRec :=
  if r.state = .clear then (r.report kind s.clock.minute).policy s.working.settings.retryLimit
  else r.report kind s.clock.minute

theorem State.reportRetry_faults (s : State) (i : Fin 21) (kind : FaultKind) :
    (s.reportRetry i kind).faults = updAt s.faults i (s.retried kind) := by
  unfold State.reportRetry
  by_cases h : s.faults[i].state = .clear
  · have policed : updAt s.faults i (s.retried kind) =
        updAt s.faults i fun r => (r.report kind s.clock.minute).policy s.working.settings.retryLimit := by
      simp only [updAt, State.retried, h, ↓reduceIte]
    rw [policed]
    simp only [h, ↓reduceIte]
    repeat' split
    all_goals rfl
  · have counted : updAt s.faults i (s.retried kind) = updAt s.faults i fun r => r.report kind s.clock.minute := by
      simp only [updAt, State.retried, h, ↓reduceIte]
    rw [counted]
    simp only [h, ↓reduceIte]
    rfl

theorem State.reportRetry_record (s : State) (i : Fin 21) (kind : FaultKind) :
    (s.reportRetry i kind).faults[i] = s.retried kind s.faults[i] := by
  rw [State.reportRetry_faults, updAt_self]

theorem FaultRec.policy_waits {r : FaultRec} {limit : Nat} (h : min 10 (r.retry + 1) < limit) :
    r.policy limit =
      { r with retry := min 10 (r.retry + 1), normal := 0, state := .retryWait, retryTimer := some 0 } := if_pos h

theorem FaultRec.policy_latches {r : FaultRec} {limit : Nat} (h : ¬ min 10 (r.retry + 1) < limit) :
    r.policy limit =
      { r with retry := min 10 (r.retry + 1), normal := 0, state := .latched, retryTimer := none } := if_neg h

theorem FaultRec.policy_state (r : FaultRec) (limit : Nat) :
    (r.policy limit).state = .retryWait ∨ (r.policy limit).state = .latched := by
  by_cases h : min 10 (r.retry + 1) < limit
  · exact .inl (congrArg FaultRec.state (policy_waits h))
  · exact .inr (congrArg FaultRec.state (policy_latches h))

theorem FaultRec.policy_kind (r : FaultRec) (limit : Nat) : (r.policy limit).kind = r.kind := by
  unfold FaultRec.policy
  dsimp only
  split <;> rfl

/-- No report leaves a record CLEAR. -/
theorem State.retried_standing (s : State) (kind : FaultKind) (r : FaultRec) : (s.retried kind r).state ≠ .clear := by
  unfold State.retried
  split
  · rcases FaultRec.policy_state (r.report kind s.clock.minute) s.working.settings.retryLimit with h | h <;>
      rw [h] <;> decide
  · next h => exact h

/-- The notice of a report that reaches a CLEAR record, but for the rail's. -/
theorem State.reportRetry_link {s : State} {i : Fin 21} (h : s.faults[i].state = .clear) (hi : i ≠ railSource)
    (kind : FaultKind) :
    (s.reportRetry i kind).link = s.link.place (s.noticeOf
      (if (s.reportRetry i kind).faults[i].state = .latched then .faultLatched else .faultRaised) none (some i.val)
      ((s.reportRetry i kind).faults[i].state.code + 256 * kind.code) none) := by
  have record : (s.reportRetry i kind).faults[i] =
      (s.faults[i].report kind s.clock.minute).policy s.working.settings.retryLimit := by
    rw [State.reportRetry_record, State.retried, if_pos h]
  have named : ((s.faults[i].report kind s.clock.minute).policy s.working.settings.retryLimit).kind = kind :=
    FaultRec.policy_kind ..
  rw [record]
  unfold State.reportRetry
  simp only [h, hi, ↓reduceIte, State.updFault_faults, updAt_self]
  split <;> simp only [State.notifyFault, State.notify_link, State.updFault_faults, updAt_self, named] <;> rfl

/-! ## Tracking (R112) -/

/-- A drive once tracking has been started or stopped as its conditions call for. -/
def Drive.tracked (d : Drive) (may : Bool) : Drive :=
  if may then if d.tracking then d else { d with tracking := true, reference := some d.driven, trackTimer := none }
  else { d with tracking := false, trackTimer := none }

theorem State.refreshTracking_get_self (s : State) (c : Cell) :
    (s.refreshTracking c).drives.get c = (s.drives.get c).tracked (s.mayTrack c) := by
  unfold State.refreshTracking Drive.tracked
  split <;> exact s.updDrive_get_self c _

theorem State.refreshTracking_get_other (s : State) {c d : Cell} (h : d ≠ c) :
    (s.refreshTracking c).drives.get d = s.drives.get d := by
  unfold State.refreshTracking
  split <;> exact s.updDrive_get_other _ h

theorem Drive.tracked_commands (d : Drive) (may : Bool) : (d.tracked may).commands = d.commands := by
  unfold Drive.tracked
  repeat' split
  all_goals rfl

theorem State.mayTrack_of_rail {s : State} (h : s.rail.state ≠ .on) (c : Cell) : s.mayTrack c = false := by
  simp [State.mayTrack, h]

theorem State.mayTrack_of_cal {s : State} {c : Cell} (h : (s.drives.get c).cal.isSome = true) :
    s.mayTrack c = false := by
  simp [State.mayTrack, Option.isNone_eq_false_iff.mpr h]

theorem State.mayTrack_of_fault {s : State} {c : Cell}
    (h : s.faults[damperSource c].state = .retryWait ∨ s.faults[damperSource c].state = .latched) :
    s.mayTrack c = false := by
  unfold State.mayTrack
  rcases h with h | h <;> simp only [h] <;> simp

/-! ## The phases of a calibration (R117, R118) -/

/-- A damper given its command keeps its calibration (R109). -/
theorem State.withDamper_commands (s : State) (c : Cell) : (s.withDamper c).commands =
    { cal := (s.drives.get c).cal, source := (s.drivenFor c).1, driven := (s.drivenFor c).2 } := by
  obtain ⟨-, cal, -⟩ := (s.drives.get c).command_keeps (s.drivenFor c).2 s.working.settings.trackingTolerance
  have driven := (s.drives.get c).command_driven (s.drivenFor c).2 s.working.settings.trackingTolerance
  rw [← cal]
  simp only [Drive.commands, State.withDamper, driven]

/-- A drive whose damper has entered a phase. -/
def State.phasedDrive (s : State) (c : Cell) (k : DamperCal) : Drive :=
  (s.updDrive c fun d => { d with cal := some k }).withDamper c

/-- A phase drives the damper, whose source is then the calibration (R109). -/
theorem State.phasedDrive_commands (s : State) (c : Cell) (k : DamperCal) : (s.phasedDrive c k).commands =
    { cal := some k, source := .calibration, driven := k.driveValue (s.drives.get c).driven } := by
  rw [State.phasedDrive, State.withDamper_commands]
  simp only [State.drivenFor, State.updDrive_get_self]

/-- A damper that calibrates does not track (R112). -/
theorem State.calPhase_get_self (s : State) (c : Cell) (k : DamperCal) :
    (s.calPhase c k).drives.get c = (s.phasedDrive c k).tracked false := by
  let begun := s.updDrive c fun d => { d with cal := some k }
  have given : (begun.redrive c).drives.get c = s.phasedDrive c k := begun.redrive_get_self c
  have calibrates : ((begun.redrive c).drives.get c).cal = some k := by
    rw [given]
    exact congrArg DriveCommands.cal (s.phasedDrive_commands c k)
  have phase : s.calPhase c k = (begun.redrive c).refreshTracking c := rfl
  rw [phase, State.refreshTracking_get_self, State.mayTrack_of_cal (by rw [calibrates]; rfl), given]

theorem State.calPhase_commands (s : State) (c : Cell) (k : DamperCal) : ((s.calPhase c k).drives.get c).commands =
    { cal := some k, source := .calibration, driven := k.driveValue (s.drives.get c).driven } := by
  rw [State.calPhase_get_self, Drive.tracked_commands, State.phasedDrive_commands]

theorem State.calPhase_tracking (s : State) (c : Cell) (k : DamperCal) :
    ((s.calPhase c k).drives.get c).tracking = false := by
  rw [State.calPhase_get_self]
  rfl

theorem State.calPhase_get_other (s : State) {c d : Cell} (h : d ≠ c) (k : DamperCal) :
    (s.calPhase c k).drives.get d = s.drives.get d :=
  (State.refreshTracking_get_other _ h).trans ((State.redrive_get_other _ h).trans (s.updDrive_get_other _ h))

/-! ## The end of a calibration (R119) -/

/-- A drive whose calibration has ended, its damper driven by its own source again. -/
def State.endedDrive (s : State) (c : Cell) : Drive := (s.updDrive c fun d => { d with cal := none }).withDamper c

theorem State.endDamperCal_get_self (s : State) (c : Cell) (r : CalResult) :
    (s.endDamperCal c r).drives.get c = (s.endedDrive c).tracked
      (((s.updDrive c fun d => { d with cal := none }).redrive c).mayTrack c) := by
  rw [State.endedDrive, ← State.redrive_get_self, ← State.refreshTracking_get_self]
  rfl

theorem State.endDamperCal_get_other (s : State) {c d : Cell} (h : d ≠ c) (r : CalResult) :
    (s.endDamperCal c r).drives.get d = s.drives.get d :=
  (State.refreshTracking_get_other _ h).trans ((State.redrive_get_other _ h).trans (s.updDrive_get_other _ h))

theorem State.endDamperCal_link (s : State) (c : Cell) (r : CalResult) :
    (s.endDamperCal c r).link = s.link.place
      (s.noticeOf .calibrationDone (some c.place) (some (damperSource c).val) r.value none) := by
  have k := (((s.updDrive_keeps c fun d => { d with cal := none }).trans (State.redrive_keeps _ c)).trans
    (State.refreshTracking_keeps _ c))
  unfold State.endDamperCal
  rw [State.notify_link, k.same .notices rfl, State.noticeOf_congr (k.same .clock rfl)]

/-- The command of a damper whose calibration has ended, while fire is clear. -/
theorem State.endDamperCal_commands {s : State} {c : Cell} (r : CalResult) (hf : s.space.fire = .clear) :
    ((s.endDamperCal c r).drives.get c).commands =
      match s.space.overrides[damperTarget c] with
      | some o => { cal := none, source := .override, driven := o.value }
      | none => { cal := none, source := .computed, driven := (s.drives.get c).computed } := by
  rw [State.endDamperCal_get_self, Drive.tracked_commands, State.endedDrive, State.withDamper_commands]
  simp only [State.drivenFor, State.updDrive_get_self, State.updDrive_space, hf, reduceCtorEq, ↓reduceIte]
  cases s.space.overrides[damperTarget c] <;> rfl

/-! ## A fault of the rail (R112, R120, R161) -/

/-- The rail's fault ends the calibration of a drive: one that has left WAIT_RAIL, and any once the rail's record is
LATCHED (R120). -/
def Drive.calFails (d : Drive) (latched : Bool) : Bool := d.cal.any fun k => decide (k.phase ≠ .waitRail) || latched

theorem State.calRailFault_eq (s : State) (c : Cell) : s.calRailFault c =
    if (s.drives.get c).calFails (decide (s.faults[railSource].state = .latched)) then
      s.endDamperCal c (.aborted .rail)
    else s := by
  unfold State.calRailFault Drive.calFails
  cases (s.drives.get c).cal with
  | none => rfl
  | some k => simp only [Option.any_some, Bool.or_eq_true, decide_eq_true_eq]

/-- A drive after a fault of the rail: its calibration ended where the fault ends it, and without tracking. -/
def State.railFaultDrive (s : State) (c : Cell) (latched : Bool) : Drive :=
  (if (s.drives.get c).calFails latched then s.endedDrive c else s.drives.get c).tracked false

theorem State.railFaultDrive_cal (s : State) (c : Cell) (latched : Bool) : (s.railFaultDrive c latched).cal =
    if (s.drives.get c).calFails latched then none else (s.drives.get c).cal := by
  have ended : (s.endedDrive c).cal = none :=
    (congrArg DriveCommands.cal (State.withDamper_commands _ c)).trans (congrArg Drive.cal (s.updDrive_get_self c _))
  unfold State.railFaultDrive
  split
  · exact ended
  · rfl

theorem State.calRailFault_get_other (s : State) {c d : Cell} (h : d ≠ c) :
    (s.calRailFault c).drives.get d = s.drives.get d := by
  rw [State.calRailFault_eq]
  split
  · exact s.endDamperCal_get_other h _
  · rfl

/-- What a fault of the rail leaves of a drive, once tracking has taken the rail's state. -/
theorem State.calRailFault_get_self {s : State} (h : s.rail.state ≠ .on) (c : Cell) :
    ((s.calRailFault c).drives.get c).tracked false =
      s.railFaultDrive c (decide (s.faults[railSource].state = .latched)) := by
  have idle : ((s.updDrive c fun d => { d with cal := none }).redrive c).mayTrack c = false :=
    State.mayTrack_of_rail (s := (s.updDrive c fun d => { d with cal := none }).redrive c) h c
  rw [State.calRailFault_eq, State.railFaultDrive]
  split
  · rw [State.endDamperCal_get_self, idle]
    rfl
  · rfl

theorem State.railToTracking_get {s : State} (h : s.rail.state ≠ .on) (c : Cell) :
    s.railToTracking.drives.get c = (s.drives.get c).tracked false := by
  have rail : (s.refreshTracking .a).rail.state ≠ .on := by
    rwa [(s.refreshTracking_keeps .a).same .rail rfl]
  unfold State.railToTracking
  cases c with
  | a =>
    rw [State.refreshTracking_get_other _ (by decide), State.refreshTracking_get_self, State.mayTrack_of_rail h]
  | b =>
    rw [State.refreshTracking_get_self, State.refreshTracking_get_other _ (by decide), State.mayTrack_of_rail rail]

theorem State.railFaultDrive_congr {s t : State} {c : Cell} (hd : t.drives.get c = s.drives.get c)
    (hp : t.space = s.space) (hw : t.working = s.working) (latched : Bool) :
    t.railFaultDrive c latched = s.railFaultDrive c latched := by
  have ended : t.endedDrive c = s.endedDrive c := by
    have drive : (t.updDrive c fun d => { d with cal := none }).drives.get c =
        (s.updDrive c fun d => { d with cal := none }).drives.get c := by
      rw [State.updDrive_get_self, State.updDrive_get_self, hd]
    unfold State.endedDrive State.withDamper
    rw [drive, State.drivenFor_congr (t := t.updDrive c _) (s := s.updDrive c _) drive hp hw]
    simp only [State.updDrive_working, hw]
  rw [State.railFaultDrive, hd, ended]
  rfl

/-- The state in which a fault of the rail reaches the calibrations of the dampers. -/
def State.railFaulted (s : State) : State :=
  let reported := (s.updRail fun r => { r with state := .faulted, settle := none, linger := none }).reportRetry
    railSource .railFault
  if decide (s.rail.state = .on) then reported.loseSlots else reported

theorem State.railFault_eq (s : State) : s.railFault =
    ((s.railFaulted.calRailFault .a).calRailFault .b).railToTracking.handMotion.writeNeeds := rfl

theorem State.railFaulted_keeps (s : State) : Keeps [.notices, .blinds, .rail, .faults] s s.railFaulted := by
  have reported := ((s.updRail_keeps fun r => { r with state := .faulted, settle := none, linger := none }).mono
    (ys := [.notices, .blinds, .rail, .faults]) rfl).trans ((State.reportRetry_keeps _ railSource .railFault).mono rfl)
  exact .ite (reported.trans ((State.loseSlots_keeps _).mono rfl)) reported

theorem State.railFaulted_rail (s : State) : s.railFaulted.rail.state = .faulted := by
  let faulted := s.updRail fun r => { r with state := .faulted, settle := none, linger := none }
  have reported : (faulted.reportRetry railSource .railFault).rail = faulted.rail :=
    (State.reportRetry_keeps ..).same .rail rfl
  unfold State.railFaulted
  dsimp only
  split
  · rw [(State.loseSlots_keeps _).same .rail rfl, reported]
    rfl
  · rw [reported]
    rfl

theorem State.railFaulted_faults (s : State) :
    s.railFaulted.faults = updAt s.faults railSource (s.retried .railFault) := by
  let faulted := s.updRail fun r => { r with state := .faulted, settle := none, linger := none }
  have reported : (faulted.reportRetry railSource .railFault).faults =
      updAt s.faults railSource (s.retried .railFault) :=
    faulted.reportRetry_faults ..
  unfold State.railFaulted
  dsimp only
  split
  · rw [(State.loseSlots_keeps _).same .faults rfl, reported]
  · exact reported

theorem State.railFault_rail (s : State) : s.railFault.rail.state = .faulted := by
  have rail : ((s.railFaulted.calRailFault .a).calRailFault .b).railToTracking.rail = s.railFaulted.rail := by
    rw [(State.railToTracking_keeps _).same .rail rfl, (State.calRailFault_keeps ..).same .rail rfl,
      (State.calRailFault_keeps ..).same .rail rfl]
  rw [State.railFault_eq]
  exact (congrArg Rail.state rail).trans s.railFaulted_rail

theorem State.railFault_faults (s : State) :
    s.railFault.faults = updAt s.faults railSource (s.retried .railFault) := by
  rw [State.railFault_eq, (State.writeNeeds_keeps _).same .faults rfl, (State.handMotion_keeps _).same .faults rfl,
    (State.railToTracking_keeps _).same .faults rfl, (State.calRailFault_keeps ..).same .faults rfl,
    (State.calRailFault_keeps ..).same .faults rfl, State.railFaulted_faults]

/-- The drives as a fault of the rail leaves them, by the rail's record after its report. -/
theorem State.railFault_get (s : State) (c : Cell) :
    s.railFault.drives.get c = s.railFaultDrive c (decide (s.railFault.faults[railSource].state = .latched)) := by
  let x := s.railFaulted
  let y := x.calRailFault .a
  have off : x.rail.state ≠ .on := by rw [s.railFaulted_rail]; decide
  have keptY : Keeps [.notices, .drives] x y := x.calRailFault_keeps .a
  have railY : y.rail = x.rail := keptY.same .rail rfl
  have railZ : (y.calRailFault .b).rail = x.rail := ((y.calRailFault_keeps .b).same .rail rfl).trans railY
  have faultsY : y.faults = x.faults := keptY.same .faults rfl
  have standing (latched : Bool) : x.railFaultDrive c latched = s.railFaultDrive c latched :=
    State.railFaultDrive_congr (congrArg (PerCell.get · c) (s.railFaulted_keeps.same .drives rfl))
      (s.railFaulted_keeps.space (by decide)) (s.railFaulted_keeps.working rfl rfl rfl rfl) latched
  have tracked : s.railFault.drives.get c = ((y.calRailFault .b).drives.get c).tracked false := by
    rw [State.railFault_eq, (State.writeNeeds_keeps _).same .drives rfl, (State.handMotion_keeps _).same .drives rfl]
    exact State.railToTracking_get (by rwa [railZ]) c
  rw [tracked, State.railFault_faults, ← State.railFaulted_faults, ← standing]
  cases c with
  | a => rw [y.calRailFault_get_other (by decide), State.calRailFault_get_self off]
  | b =>
    rw [State.calRailFault_get_self (by rwa [railY]), faultsY]
    exact State.railFaultDrive_congr (x.calRailFault_get_other (by decide)) (keptY.space (by decide))
      (keptY.working rfl rfl rfl rfl) _

/-! ## The needs (R116, R160) -/

/-- The rail as a raised need turns it on. -/
def State.railRaised (s : State) : State := s.writeNeeds.updRail fun r => { r with state := .rising, settle := some 0 }

theorem State.driveNeed_of_cal {s : State} {c : Cell} (h : (s.drives.get c).cal.isSome = true) :
    s.driveNeed = true := by
  have needs : (s.drives.get c).needsRail = true := by simp [Drive.needsRail, h]
  cases c
  · exact Bool.or_eq_true_iff.mpr (.inl needs)
  · exact Bool.or_eq_true_iff.mpr (.inr needs)

/-- A rail that is not OFF takes the needs, and nothing follows. -/
theorem State.refreshNeeds_standing {s : State} (h : s.rail.state ≠ .off) : s.refreshNeeds = s.writeNeeds := by
  have state : s.writeNeeds.rail.state = s.rail.state := rfl
  simp only [State.refreshNeeds, State.raiseRail, state, h, false_and, ↓reduceIte]

/-- An OFF rail that is needed is raised, or found at its fault level. -/
theorem State.refreshNeeds_raises {s : State} (h : s.rail.state = .off) (need : (s.driveNeed || s.blindNeed) = true) :
    s.refreshNeeds = if s.rail.faultLevel then s.railRaised.railFault else s.railRaised := by
  have raises : s.writeNeeds.rail.state = .off ∧ (s.writeNeeds.rail.driveNeed || s.writeNeeds.rail.blindNeed) = true :=
    ⟨h, need⟩
  exact if_pos raises

/-- The needs of a rail that is needed, but for one that is found at its fault level as it is raised. -/
theorem State.refreshNeeds_quiet {s : State} (need : s.driveNeed = true)
    (quiet : s.rail.state ≠ .off ∨ s.rail.faultLevel = false) :
    s.refreshNeeds = if s.rail.state = .off then s.railRaised else s.writeNeeds := by
  split
  · next off =>
    have level : s.rail.faultLevel = false := quiet.resolve_left (not_not.mpr off)
    rw [State.refreshNeeds_raises off (by rw [need]; rfl), level]
    rfl
  · next off => exact State.refreshNeeds_standing off

/-- The needs move no drive but where a fault of the rail is found. -/
theorem State.refreshNeeds_drives (s : State) :
    s.refreshNeeds.drives = s.drives ∨ s.refreshNeeds = s.railRaised.railFault := by
  by_cases off : s.rail.state = .off
  · by_cases need : (s.driveNeed || s.blindNeed) = true
    · rw [State.refreshNeeds_raises off need]
      split
      · exact .inr rfl
      · exact .inl rfl
    · have idle : ¬ (s.writeNeeds.rail.state = .off ∧
          (s.writeNeeds.rail.driveNeed || s.writeNeeds.rail.blindNeed) = true) := fun h => need h.2
      have stays : s.refreshNeeds = s.writeNeeds := if_neg idle
      exact .inl (by rw [stays]; rfl)
  · exact .inl (by rw [State.refreshNeeds_standing off]; rfl)

end Sys2Proof.Machine
end

