-- ==== Sys2Proof/Proofs/CalibrationRequests.lean ====
section
/-! PROOF. CALIBRATE_DAMPER and CALIBRATE_BLIND (R117, R118, R157, R158): how a calibration begins, and when each is
refused. -/

namespace Sys2Proof.Machine
open Sys2Proof

/-! ## A damper (R117, R118) -/

/-- A calibration at the begin of a phase, before any voltage is recorded. -/
def DamperCal.begun (phase : DamperPhase) : DamperCal := { phase := phase, elapsed := 0, fbLow := 0 }

/-- The phase in which a calibration begins, by the rail (R117, R118). -/
def State.firstPhase (s : State) : DamperPhase := if s.rail.state = .on then .closing else .waitRail

/-- The state a calibration that begins hands its need to the rail from. -/
def State.damperCalled (s : State) (c : Cell) : State :=
  let waiting := s.calPhase c (.begun .waitRail)
  if s.rail.state = .on then waiting.calPhase c (.begun .closing) else waiting

section
variable (s : State) (c : Cell)

theorem State.damperCalled_keeps : Keeps [.drives] s (s.damperCalled c) :=
  .ite ((s.calPhase_keeps c _).trans (State.calPhase_keeps _ c _)) (s.calPhase_keeps c _)

theorem State.beginDamperCal_eq : s.beginDamperCal c = (s.damperCalled c).refreshNeeds := by
  have rail : (s.calPhase c (.begun .waitRail)).rail = s.rail := (s.calPhase_keeps c _).same .rail rfl
  have cal : ((s.calPhase c (.begun .waitRail)).drives.get c).cal = some (.begun .waitRail) :=
    congrArg DriveCommands.cal (s.calPhase_commands c _)
  have begins : (s.calPhase c (.begun .waitRail)).calRailOn c =
      (s.calPhase c (.begun .waitRail)).calPhase c (.begun .closing) := by
    unfold State.calRailOn
    rw [cal]
    rfl
  unfold State.beginDamperCal State.damperCalled
  dsimp only
  rw [← DamperCal.begun, rail, begins]

theorem State.damperCalled_commands : ((s.damperCalled c).drives.get c).commands =
    { cal := some (.begun s.firstPhase), source := .calibration
      driven := if s.rail.state = .on then 0 else (s.drives.get c).driven } := by
  unfold State.damperCalled State.firstPhase
  by_cases on : s.rail.state = .on
  · simp only [on, ↓reduceIte, State.calPhase_commands]
    rfl
  · simp only [on, ↓reduceIte, State.calPhase_commands]
    rfl

theorem State.damperCalled_tracking : ((s.damperCalled c).drives.get c).tracking = false := by
  unfold State.damperCalled
  dsimp only
  split <;> exact State.calPhase_tracking ..

theorem State.damperCalled_need : (s.damperCalled c).driveNeed = true := by
  refine State.driveNeed_of_cal (c := c) ?_
  have cal := congrArg DriveCommands.cal (s.damperCalled_commands c)
  exact Option.isSome_iff_exists.mpr ⟨_, cal⟩

theorem State.damperCalled_rail : (s.damperCalled c).rail = s.rail := (s.damperCalled_keeps c).same .rail rfl

theorem State.beginDamperCal_link : ∃ ns, (s.beginDamperCal c).link = s.link.handed ns ∧
    (s.rail.state ≠ .off ∨ s.rail.faultLevel = false → ns = []) := by
  obtain ⟨ns, link, quiet⟩ := (s.damperCalled c).refreshNeeds_link
  rw [(s.damperCalled_keeps c).same .notices rfl] at link
  rw [s.damperCalled_rail c] at quiet
  exact ⟨ns, (congrArg State.link (s.beginDamperCal_eq c)).trans link, quiet⟩

theorem State.beginDamperCal_tracking : ((s.beginDamperCal c).drives.get c).tracking = false := by
  rw [State.beginDamperCal_eq]
  rcases (s.damperCalled c).refreshNeeds_drives with same | fault
  · rw [same, State.damperCalled_tracking]
  · rw [fault, State.railFault_get]
    rfl

end

/-- A calibration begins beside a rail that stands, or that its need raises. -/
theorem State.beginDamperCal_quiet {s : State} (c : Cell) (quiet : s.rail.state ≠ .off ∨ s.rail.faultLevel = false) :
    s.beginDamperCal c =
      if s.rail.state = .off then (s.damperCalled c).railRaised else (s.damperCalled c).writeNeeds := by
  rw [State.beginDamperCal_eq, State.refreshNeeds_quiet (s.damperCalled_need c) (by rwa [s.damperCalled_rail c]),
    s.damperCalled_rail c]

/-- What a calibration that begins leaves, but for a rail that is found at its fault level. -/
theorem State.beginDamperCal_begun {s : State} (c : Cell) (quiet : s.rail.state ≠ .off ∨ s.rail.faultLevel = false) :
    ((s.beginDamperCal c).drives.get c).commands =
        { cal := some (.begun s.firstPhase), source := .calibration
          driven := if s.rail.state = .on then 0 else (s.drives.get c).driven } ∧
      (s.beginDamperCal c).rail.driveNeed = true ∧ (s.beginDamperCal c).faults = s.faults ∧
      (s.beginDamperCal c).rail.state = (if s.rail.state = .off then .rising else s.rail.state) ∧
      (s.rail.state = .off → (s.beginDamperCal c).rail.settle = some 0) := by
  have faults : (s.damperCalled c).faults = s.faults := (s.damperCalled_keeps c).same .faults rfl
  have rail := s.damperCalled_rail c
  rw [State.beginDamperCal_quiet c quiet]
  split
  · exact ⟨s.damperCalled_commands c, s.damperCalled_need c, faults, rfl, fun _ => rfl⟩
  · next off => exact ⟨s.damperCalled_commands c, s.damperCalled_need c, faults, (congrArg Rail.state rail :),
      fun h => absurd h off⟩

/-- A calibration whose need finds the rail at its fault level waits for the rail to be tried again, or ends with its
record LATCHED (R120, R161). -/
theorem State.beginDamperCal_fails {s : State} (c : Cell) (off : s.rail.state = .off)
    (level : s.rail.faultLevel = true) :
    (s.beginDamperCal c).rail.state = .faulted ∧ (s.beginDamperCal c).faults[railSource].state ≠ .clear ∧
      ((s.beginDamperCal c).drives.get c).cal =
        (if (s.beginDamperCal c).faults[railSource].state = .latched then none
        else some { phase := .waitRail, elapsed := 0, fbLow := 0 }) := by
  let x := s.damperCalled c
  have rail : x.rail = s.rail := s.damperCalled_rail c
  have fails : s.beginDamperCal c = x.railRaised.railFault := by
    rw [State.beginDamperCal_eq, State.refreshNeeds_raises (by rw [rail, off]) (by rw [s.damperCalled_need c]; rfl),
      rail, level]
    rfl
  have cal : (x.railRaised.drives.get c).cal = some (.begun .waitRail) := by
    have first : s.firstPhase = .waitRail := by simp [State.firstPhase, off]
    rw [← first]
    exact congrArg DriveCommands.cal (s.damperCalled_commands c)
  rw [fails]
  refine ⟨State.railFault_rail _, ?_, ?_⟩
  · rw [State.railFault_faults, updAt_self]
    exact State.retried_standing _ _ _
  · rw [State.railFault_get, State.railFaultDrive_cal, Drive.calFails, cal]
    by_cases h : x.railRaised.railFault.faults[railSource].state = .latched <;> simp only [h] <;> rfl

section
variable {s : State} {x : Byte} {c : Cell}

theorem State.answerCalibrateDamper_badValue (hx : 2 ≤ x.toNat) :
    s.answerCalibrateDamper x = refuse .badValue s := by
  simp only [State.answerCalibrateDamper, cellOperand_of_le hx]

theorem State.answerCalibrateDamper_locked (hx : x.toNat = cellCode c) (hf : s.space.fire = .inForce) :
    s.answerCalibrateDamper x = refuse .fireLock s := by
  simp only [State.answerCalibrateDamper, cellOperand_of_code hx, hf, ↓reduceIte]

theorem State.answerCalibrateDamper_clear (hx : x.toNat = cellCode c) (hf : s.space.fire = .clear) :
    s.answerCalibrateDamper x =
      if (s.drives.get c).cal.isSome then refuse .busy s
      else if s.faults[railSource].state = .latched then refuse .wrongState s
      else accept [] (s.beginDamperCal c) := by
  simp only [State.answerCalibrateDamper, cellOperand_of_code hx, hf, reduceCtorEq, ↓reduceIte]

end

/-! ## Grants seen from one group (R149) -/

/-- What every grant keeps, all the grants that can be made keep. -/
theorem State.grantUpTo_induction {P : State → Prop}
    (step : ∀ (x : State) e rest, x.blinds.queue = e :: rest → P x → P (x.grantEntry e)) (n : Nat) {s : State}
    (h : P s) : P (State.grantUpTo n s) := by
  induction n generalizing s with
  | zero => exact h
  | succ n ih =>
    unfold State.grantUpTo
    split
    · split
      · exact h
      · next e rest hq => exact ih (step s e rest hq h)
    · exact h

/-- Without the rail no grant is made. -/
theorem State.grants_of_rail {s : State} (h : s.rail.state ≠ .on) : s.grants = s := by
  unfold State.grants
  cases s.blinds.queue.length with
  | zero => rfl
  | succ n => exact if_neg fun on => h on.1

theorem State.afterBlinds_blinds (s : State) : s.afterBlinds.blinds = s.grants.blinds :=
  State.refreshNeeds_blinds s.grants.handMotion

theorem State.grantEntry_other (s : State) (e : QueueEntry) {g : Fin 4} (h : g ≠ e.group) :
    (s.grantEntry e).blinds.groups[g] = s.blinds.groups[g] := State.updGroup_get_other _ _ h

/-- The calibration of a group that runs leg 1, or waits to run it (R158). -/
def BlindCal.first : BlindCal := { leg := 1, travelDown := 0 }

/-- A calibration entry that is granted begins leg 1 (R158). -/
theorem State.grantEntry_calibration (s : State) {e : QueueEntry} (h : e.calibration = true) :
    (s.grantEntry e).blinds.groups[e.group] =
      { s.blinds.groups[e.group] with
        cal := s.blinds.groups[e.group].cal.map fun _ => .first }.energiseFromBottom := by
  refine (State.updGroup_get_self _ _ _).trans ?_
  rw [if_pos h]
  rfl

theorem State.autoMove_cal (s : State) (g : Fin 4) (r : Group) : (s.autoMove g r).cal = r.cal := by
  unfold State.autoMove
  split <;> rfl

/-- A grant leaves a calibration at leg 1, or begins it. -/
theorem State.grantEntry_cal {s : State} {g : Fin 4} (h : s.blinds.groups[g].cal = some .first) (e : QueueEntry) :
    (s.grantEntry e).blinds.groups[g].cal = some .first := by
  by_cases hg : g = e.group
  · subst hg
    refine (congrArg Group.cal (State.updGroup_get_self _ _ _)).trans ?_
    split
    · exact congrArg (Option.map fun _ => BlindCal.first) h
    · split
      · exact (State.autoMove_cal ..).trans h
      · exact (State.autoMove_cal ..).trans h
  · rwa [s.grantEntry_other e hg]

/-- A group that waits for its calibration, or runs its first leg: no other move stands in the queue for it. -/
structure State.CalibratesNext (s : State) (g : Fin 4) : Prop where
  entries : ∀ e ∈ s.blinds.queue, e.group = g → e.calibration = true
  state : s.blinds.groups[g].state = .queued ∨ s.blinds.groups[g].state = .movingUp

theorem State.CalibratesNext.grantEntry {s : State} {g : Fin 4} (h : s.CalibratesNext g) {e : QueueEntry}
    (he : e ∈ s.blinds.queue) : (s.grantEntry e).CalibratesNext g where
  entries x hx := h.entries x (List.mem_of_mem_filter hx)
  state := by
    by_cases hg : g = e.group
    · subst hg
      rw [State.grantEntry_calibration s (h.entries e he rfl)]
      exact .inr rfl
    · rw [s.grantEntry_other e hg]
      exact h.state

section
variable {s : State} {g : Fin 4}

theorem State.afterBlinds_cal (h : s.blinds.groups[g].cal = some .first) :
    s.afterBlinds.blinds.groups[g].cal = some .first := by
  rw [State.afterBlinds_blinds]
  exact State.grantUpTo_induction (P := fun x => x.blinds.groups[g].cal = some .first)
    (fun x e _ _ hx => State.grantEntry_cal hx e) _ h

theorem State.CalibratesNext.afterBlinds (h : s.CalibratesNext g) :
    s.afterBlinds.blinds.groups[g].state = .queued ∨ s.afterBlinds.blinds.groups[g].state = .movingUp := by
  rw [State.afterBlinds_blinds]
  exact (State.grantUpTo_induction (P := fun x => x.CalibratesNext g)
    (fun x e _ hq hx => hx.grantEntry (by rw [hq]; exact List.mem_cons_self)) _ h).state

/-- A group without an entry in the queue is not moved by the grants. -/
theorem State.afterBlinds_absent (h : ∀ e ∈ s.blinds.queue, e.group ≠ g) :
    s.afterBlinds.blinds.groups[g] = s.blinds.groups[g] := by
  let absent (x : State) : Prop := (∀ e ∈ x.blinds.queue, e.group ≠ g) ∧ x.blinds.groups[g] = s.blinds.groups[g]
  have granted : absent s.grants := by
    refine State.grantUpTo_induction (P := absent) (fun x e rest hq hx => ?_) _ ⟨h, rfl⟩
    obtain ⟨none, same⟩ := hx
    have other : g ≠ e.group := (none e (by rw [hq]; exact List.mem_cons_self)).symm
    exact ⟨fun f hf => none f (List.mem_of_mem_filter hf), (x.grantEntry_other e other).trans same⟩
  rw [State.afterBlinds_blinds]
  exact granted.2

theorem State.afterBlinds_slots (h : g ∈ s.blinds.slots) : g ∈ s.afterBlinds.blinds.slots := by
  rw [State.afterBlinds_blinds]
  exact State.grantUpTo_induction (P := fun x => g ∈ x.blinds.slots)
    (fun x e _ _ hx => List.mem_append_left _ hx) _ h

theorem State.afterBlinds_queue (h : s.rail.state ≠ .on) : s.afterBlinds.blinds.queue = s.blinds.queue := by
  rw [State.afterBlinds_blinds, State.grants_of_rail h]

end

/-! ## A blind group (R157, R158) -/

/-- The queue entry of a calibration, while fire is clear (R149). -/
def calibrationEntry (g : Fin 4) : QueueEntry :=
  { group := g, target := 0, reference := false, calibration := true, fire := false }

/-- The queue with the entry of a group made a calibration entry in place (R157). -/
def calibrationQueue (q : List QueueEntry) (g : Fin 4) : List QueueEntry :=
  q.map fun e => if e.group = g then { e with target := 0, reference := false, calibration := true } else e

/-- What an accepted CALIBRATE_BLIND makes of the group and of the queue, by the state of the group (R157). -/
def State.GroupCalled (s : State) (g : Fin 4) (x : State) : Prop :=
  let r := s.blinds.groups[g]
  let r' := x.blinds.groups[g]
  match r.state with
  | .stopped | .fault => r'.state = .queued ∧ x.blinds.queue = fireFirst (s.blinds.queue ++ [calibrationEntry g])
  | .queued => r'.state = .queued ∧ x.blinds.queue = calibrationQueue s.blinds.queue g
  | .movingUp => x.blinds.queue = s.blinds.queue ∧
      r' = { r with
        cal := some .first, refMove := false, estimate := 1000, segStart := 1000, segMs := 0, overrun := none }
  | .movingDown => x.blinds.queue = s.blinds.queue ∧ r' = { r.reverse with cal := some .first }
  | .reversing => x.blinds.queue = s.blinds.queue ∧ r' = { r with cal := some .first }

/-- What an accepted CALIBRATE_BLIND makes of the blind unit before the grants (R157). -/
structure State.BlindCalled (s : State) (g : Fin 4) (x : State) : Prop where
  begins : s.beginBlindCal g = x.afterBlinds
  rail : x.rail = s.rail
  slots : x.blinds.slots = s.blinds.slots
  cal : x.blinds.groups[g].cal = some .first
  group : s.GroupCalled g x

theorem State.request_queue {s : State} (hf : s.space.fire = .clear) (g : Fin 4) (target : Nat)
    (reference calibration : Bool) :
    (s.request g target reference calibration).blinds.queue = fireFirst (s.blinds.queue ++
      [{ group := g, target := target, reference := reference, calibration := calibration, fire := false }]) := by
  have clear : decide (s.space.fire = .inForce) = false := by rw [hf]; rfl
  simp only [State.request, clear]
  rfl

theorem State.beginBlindCal_called {s : State} (hf : s.space.fire = .clear) (g : Fin 4) : ∃ x, s.BlindCalled g x := by
  have joins (begins : s.beginBlindCal g =
        ((s.request g 0 false true).updGroup g fun r => { r with cal := some .first }).afterBlinds)
      (h : s.blinds.groups[g].state = .stopped ∨ s.blinds.groups[g].state = .fault) : ∃ x, s.BlindCalled g x := by
    refine ⟨_, begins, rfl, rfl, congrArg Group.cal (State.updGroup_get_self _ _ _), ?_⟩
    have waits : ((s.request g 0 false true).updGroup g fun r =>
        { r with cal := some .first }).blinds.groups[g].state = .queued := by
      rw [State.updGroup_get_self, State.request, State.updGroup_get_self]
    rcases h with h | h <;> simp only [State.GroupCalled, h] <;> exact ⟨waits, State.request_queue hf ..⟩
  have moves (f : Group → Group) (begins : s.beginBlindCal g = (s.updGroup g f).afterBlinds)
      (cal : (f s.blinds.groups[g]).cal = some .first) (group : s.GroupCalled g (s.updGroup g f)) :
      ∃ x, s.BlindCalled g x :=
    ⟨_, begins, rfl, rfl, (congrArg Group.cal (s.updGroup_get_self g f)).trans cal, group⟩
  cases h : s.blinds.groups[g].state with
  | stopped => exact joins (by simp only [State.beginBlindCal, h]; rfl) (.inl h)
  | fault => exact joins (by simp only [State.beginBlindCal, h]; rfl) (.inr h)
  | queued =>
    refine ⟨(s.updBlinds fun b => b.editEntry g fun e =>
      { e with target := 0, reference := false, calibration := true }).updGroup g fun r =>
      { r with cal := some .first }, by simp only [State.beginBlindCal, h]; rfl, rfl, rfl,
      congrArg Group.cal (State.updGroup_get_self _ _ _), ?_⟩
    simp only [State.GroupCalled, h, State.updGroup_get_self]
    exact ⟨h, rfl⟩
  | movingUp =>
    refine moves (fun r => { r with
      cal := some .first, refMove := false, estimate := 1000, segStart := 1000, segMs := 0, overrun := none })
      (by simp only [State.beginBlindCal, h]; rfl) rfl ?_
    simp only [State.GroupCalled, h, State.updGroup_get_self]
    exact ⟨rfl, trivial⟩
  | movingDown =>
    refine moves (fun r => { r.reverse with cal := some .first }) (by simp only [State.beginBlindCal, h]; rfl) rfl ?_
    simp only [State.GroupCalled, h, State.updGroup_get_self]
    exact ⟨rfl, trivial⟩
  | reversing =>
    refine moves (fun r => { r with cal := some .first }) (by simp only [State.beginBlindCal, h]; rfl) rfl ?_
    simp only [State.GroupCalled, h, State.updGroup_get_self]
    exact ⟨rfl, trivial⟩

/-! ### The group once the grants have been made -/

theorem fireFirst_mem {q : List QueueEntry} {e : QueueEntry} : e ∈ fireFirst q ↔ e ∈ q := by
  cases h : e.fire <;> simp [fireFirst, h]

section
variable {s x : State} {g : Fin 4} (k : s.BlindCalled g x)
include k

/-- A group that waits runs leg 1 as soon as a slot is granted to it. -/
theorem State.BlindCalled.waits (h : s.blinds.groups[g].state = .queued ∨
      s.blinds.groups[g].state = .stopped ∧ ∀ e ∈ s.blinds.queue, e.group ≠ g) :
    x.afterBlinds.blinds.groups[g].state = .queued ∨ x.afterBlinds.blinds.groups[g].state = .movingUp := by
  have group := k.group
  refine State.CalibratesNext.afterBlinds ⟨fun e he hg => ?_, ?_⟩
  · rcases h with h | ⟨h, alone⟩ <;> simp only [State.GroupCalled, h] at group
    · rw [group.2] at he
      obtain ⟨e', -, rfl⟩ := List.mem_map.mp he
      split
      · rfl
      · next other =>
        rw [if_neg other] at hg
        exact absurd hg other
    · rw [group.2, fireFirst_mem, List.mem_append, List.mem_singleton] at he
      rcases he with he | rfl
      · exact absurd hg (alone e he)
      · rfl
  · rcases h with h | ⟨h, -⟩ <;> simp only [State.GroupCalled, h] at group <;> exact .inl group.1

theorem State.BlindCalled.queue (off : s.rail.state ≠ .on) : x.afterBlinds.blinds.queue = x.blinds.queue :=
  State.afterBlinds_queue (by rwa [k.rail])

end

section
variable {s : State} {x : Byte} {g : Fin 4}

theorem State.answerCalibrateBlind_badValue (hx : 4 ≤ x.toNat) : s.answerCalibrateBlind x = refuse .badValue s := by
  simp only [State.answerCalibrateBlind, indexOperand_of_le hx]

theorem State.answerCalibrateBlind_locked (hx : x.toNat = g) (hf : s.space.fire = .inForce) :
    s.answerCalibrateBlind x = refuse .fireLock s := by
  simp only [State.answerCalibrateBlind, indexOperand_of_lt hx, hf, ↓reduceIte]

theorem State.answerCalibrateBlind_clear (hx : x.toNat = g) (hf : s.space.fire = .clear) :
    s.answerCalibrateBlind x =
      if s.groupCell g = none ∨ s.faults[blindSource g].state ≠ .clear ∨ s.faults[railSource].state = .latched then
        refuse .wrongState s
      else if s.blinds.groups[g].cal.isSome then refuse .busy s
      else accept [] (s.beginBlindCal g) := by
  simp only [State.answerCalibrateBlind, indexOperand_of_lt hx, hf, reduceCtorEq, ↓reduceIte, Option.isNone_iff_eq_none]

end

/-! ## The requests -/

/-- An accepted CALIBRATE_DAMPER, with the state it leaves. -/
theorem exec_calibrateDamper {s : State} (hs : s.Takes) (tag : Byte) {x : Byte} {c : Cell} (hx : x.toNat = cellCode c)
    (hf : s.space.fire = .clear) (hc : (s.drives.get c).cal = none) (hr : s.faults[railSource].state ≠ .latched) :
    ∃ ns, exec (.calibrateDamper tag x) s = .next { s.beginDamperCal c with
        link := (s.link.handed ns).answered 0x29 tag .ok [] } ∧
      (s.rail.state ≠ .off ∨ s.rail.faultLevel = false → ns = []) := by
  obtain ⟨ns, link, quiet⟩ := s.beginDamperCal_link c
  have accepted : s.answerCalibrateDamper x = accept [] (s.beginDamperCal c) := by
    simp only [State.answerCalibrateDamper_clear hx hf, hc, hr, Option.isSome_none, Bool.false_eq_true, ↓reduceIte]
  refine ⟨ns, (exec_answered hs rfl rfl accepted (by rw [link, Link.handed_requests])).trans ?_, quiet⟩
  rw [link]

/-- An accepted CALIBRATE_BLIND, with the state it leaves. -/
theorem exec_calibrateBlind {s : State} (hs : s.Takes) (tag : Byte) {x : Byte} {g : Fin 4} (hx : x.toNat = g)
    (hf : s.space.fire = .clear) (hg : s.groupCell g ≠ none) (hb : s.faults[blindSource g].state = .clear)
    (hr : s.faults[railSource].state ≠ .latched) (hc : s.blinds.groups[g].cal = none) :
    ∃ ns, exec (.calibrateBlind tag x) s = .next { s.beginBlindCal g with
      link := (s.link.handed ns).answered 0x2D tag .ok [] } := by
  obtain ⟨ns, link⟩ := (s.beginBlindCal_keeps g).same .link rfl
  have accepted : s.answerCalibrateBlind x = accept [] (s.beginBlindCal g) := by
    simp only [State.answerCalibrateBlind_clear hx hf, hg, hb, hr, hc, ne_eq, not_true_eq_false, or_self,
      Option.isSome_none, Bool.false_eq_true, ↓reduceIte]
  refine ⟨ns, (exec_answered hs rfl rfl accepted (by rw [link, Link.handed_requests])).trans ?_⟩
  rw [link]

/-- Settles O41: the refusals in the order of the rules, and what each calibration begins with. -/
theorem calibrationsBegin : Obligations.CalibrationsBegin := by
  intro tag x c g s hs
  refine ⟨fun hx => exec_refused hs rfl rfl (State.answerCalibrateDamper_badValue hx),
    fun hx hf => exec_refused hs rfl rfl (State.answerCalibrateDamper_locked hx hf), fun hx hf hc => ?_,
    fun hx hf hc hr => ?_, fun hx hf hc hr => ?_,
    fun hx => exec_refused hs rfl rfl (State.answerCalibrateBlind_badValue hx),
    fun hx hf => exec_refused hs rfl rfl (State.answerCalibrateBlind_locked hx hf), fun hx hf hw => ?_,
    fun hx hf hg hb hr => ⟨fun hc => ?_, fun hc => ?_⟩⟩
  · refine exec_refused hs rfl rfl ((State.answerCalibrateDamper_clear hx hf).trans ?_)
    exact if_pos (Option.isSome_iff_ne_none.mpr hc)
  · refine exec_refused hs rfl rfl ((State.answerCalibrateDamper_clear hx hf).trans ?_)
    simp only [hc, hr, Option.isSome_none, Bool.false_eq_true, ↓reduceIte]
  · obtain ⟨ns, run, quiet⟩ := exec_calibrateDamper hs tag hx hf hc hr
    refine ⟨_, ns, run, (s.beginDamperCal_keeps c).working rfl rfl rfl rfl, rfl, s.beginDamperCal_tracking c,
      fun on => ?_, fun off level => ?_, State.beginDamperCal_fails c⟩
    · have stands : s.rail.state ≠ .off ∨ s.rail.faultLevel = false := .inl (by rw [on]; decide)
      obtain ⟨commands, need, faults, state, -⟩ := State.beginDamperCal_begun c stands
      simp only [State.firstPhase, on, ↓reduceIte, reduceCtorEq] at commands state
      exact ⟨congrArg DriveCommands.cal commands, congrArg DriveCommands.driven commands,
        congrArg DriveCommands.source commands, state, need, faults, quiet stands⟩
    · obtain ⟨commands, need, faults, state, settle⟩ := State.beginDamperCal_begun c level
      simp only [State.firstPhase, off, ↓reduceIte] at commands
      exact ⟨congrArg DriveCommands.cal commands, congrArg DriveCommands.driven commands,
        congrArg DriveCommands.source commands, need, state, settle, faults, quiet level⟩
  · exact exec_refused hs rfl rfl ((State.answerCalibrateBlind_clear hx hf).trans (if_pos hw))
  · refine exec_refused hs rfl rfl ((State.answerCalibrateBlind_clear hx hf).trans ?_)
    simp only [hg, hb, hr, Option.isSome_iff_ne_none.mpr hc, ne_eq, not_true_eq_false, or_self, ↓reduceIte]
  · obtain ⟨ns, run⟩ := exec_calibrateBlind hs tag hx hf hg hb hr hc
    obtain ⟨y, k⟩ := s.beginBlindCal_called hf g
    have group := k.group
    refine ⟨_, ns, run, (s.beginBlindCal_keeps g).working rfl rfl rfl rfl, rfl, ?_⟩
    simp only [k.begins]
    refine ⟨State.afterBlinds_cal k.cal, fun h => k.waits (.inl h), fun h off => ?_, fun h off => ?_,
      fun alone => ⟨fun slot => ?_, fun h => k.waits (.inr ⟨h, alone⟩), fun h => ?_, fun h => ?_, fun h => ?_⟩⟩
    · simp only [State.GroupCalled, h] at group
      exact (k.queue off).trans group.2
    · simp only [State.GroupCalled, h] at group
      exact (k.queue off).trans group.2
    · exact State.afterBlinds_slots (by rwa [k.slots])
    all_goals
      simp only [State.GroupCalled, h] at group
      obtain ⟨queue, record⟩ := group
      rw [State.afterBlinds_absent (by rwa [queue]), record]
    · exact ⟨rfl, rfl, rfl, rfl, rfl⟩
    · exact ⟨rfl, rfl, rfl⟩
    · exact ⟨rfl, rfl⟩

end Sys2Proof.Machine
end

