-- ==== Sys2Proof/Proofs/DamperTimers.lean ====
section
/-! PROOF. The stall of a damper (R113), the timeout and the samples of a calibration (R118, R119), and the reheat loop
(R121 to R123). -/

namespace Sys2Proof.Machine
open Sys2Proof

/-- The answer of a command that hands over notices alone, from the state it leaves. -/
theorem finish_kept {xs : List Block} {s t : State} (hs : s.Settled) (k : Keeps xs s t)
    (h : xs.contains .link = false) : finish t = .next { t with link := t.link.startFrame } := by
  obtain ⟨ns, link⟩ := k.same .link h
  rw [finish_handed hs link, link]

/-! ## A stall (R113) -/

theorem damperSource_ne_rail (c : Cell) : damperSource c ≠ railSource := by cases c <;> decide

/-- A stall is reported, and the damper ceases to track with its command as it stands. -/
theorem State.reportStall_eq {s : State} {c : Cell} (hc : s.faults[damperSource c].state = .clear)
    (ht : (s.drives.get c).tracking = true) (hm : (s.drives.get c).trackTimer.isSome = true) :
    s.reportStall c = (s.reportRetry (damperSource c) .damperStall).updDrive c fun d =>
      { d with tracking := false, trackTimer := none } := by
  have record := s.reportRetry_record (damperSource c) .damperStall
  rw [State.retried, if_pos hc] at record
  have stops : (s.reportRetry (damperSource c) .damperStall).mayTrack c = false := by
    refine State.mayTrack_of_fault ?_
    rw [record]
    exact FaultRec.policy_state _ _
  simp only [State.reportStall, ht, hm, Bool.and_self, ↓reduceIte, State.refreshTracking, stops, Bool.false_eq_true]

theorem exec_damperStall {s : State} (hs : s.Settled) {c : Cell} (hc : s.faults[damperSource c].state = .clear)
    (ht : (s.drives.get c).tracking = true) (hm : (s.drives.get c).trackTimer.isSome = true) :
    ∃ t n, exec (.damperStall c) s = .next t ∧
      t.faults[damperSource c] =
        (s.faults[damperSource c].report .damperStall s.clock.minute).policy s.working.settings.retryLimit ∧
      n = s.noticeOf (if t.faults[damperSource c].state = .latched then .faultLatched else .faultRaised) none
        (some (damperSource c).val) (t.faults[damperSource c].state.code + 256 * FaultKind.damperStall.code) none ∧
      t.link = (s.link.place n).startFrame ∧
      t.drives = s.drives.set c { s.drives.get c with tracking := false, trackTimer := none } ∧
      t.working = s.working ∧ t.space = s.space ∧ t.rail = s.rail := by
  have kept := s.reportRetry_keeps (damperSource c) .damperStall
  have drives : (s.reportRetry (damperSource c) .damperStall).drives = s.drives := kept.same .drives rfl
  have record := s.reportRetry_record (damperSource c) .damperStall
  have link := State.reportRetry_link hc (damperSource_ne_rail c) .damperStall
  rw [State.retried, if_pos hc] at record
  have run : exec (.damperStall c) s = finish (s.reportStall c) := rfl
  rw [State.reportStall_eq hc ht hm, finish_handed hs (ns := [_]) (by rw [State.updDrive_link, link]; rfl)] at run
  refine ⟨_, _, run, record, rfl, rfl, ?_, kept.working rfl rfl rfl rfl, kept.space (by decide), kept.same .rail rfl⟩
  simp only [State.updDrive_drives, drives]
  rfl

/-! ## The end of a calibration (R119) -/

/-- A damper that no calibration holds any longer: its command is that of its own source (R109, R119). -/
structure State.DamperFreed (s : State) (c : Cell) (d : Drive) : Prop where
  cal : d.cal = none
  computed : s.space.fire = .clear → s.space.overrides[damperTarget c] = none →
    d.driven = (s.drives.get c).computed ∧ d.source = .computed
  override : ∀ v, s.space.fire = .clear → s.space.overrides[damperTarget c] = some v →
    d.driven = v.value ∧ d.source = .override

theorem State.DamperFreed.congr {s : State} {c : Cell} {d e : Drive} (h : s.DamperFreed c d)
    (k : e.commands = d.commands) : s.DamperFreed c e where
  cal := (congrArg DriveCommands.cal k).trans h.cal
  computed hf ho := by
    obtain ⟨driven, source⟩ := h.computed hf ho
    exact ⟨(congrArg DriveCommands.driven k).trans driven, (congrArg DriveCommands.source k).trans source⟩
  override v hf ho := by
    obtain ⟨driven, source⟩ := h.override v hf ho
    exact ⟨(congrArg DriveCommands.driven k).trans driven, (congrArg DriveCommands.source k).trans source⟩

theorem State.endDamperCal_freed (s : State) (c : Cell) (r : CalResult) :
    s.DamperFreed c ((s.endDamperCal c r).drives.get c) where
  cal := s.endDamperCal_cal c r
  computed hf ho := by
    have commands := State.endDamperCal_commands (s := s) (c := c) r hf
    rw [ho] at commands
    exact ⟨congrArg DriveCommands.driven commands, congrArg DriveCommands.source commands⟩
  override v hf ho := by
    have commands := State.endDamperCal_commands (s := s) (c := c) r hf
    rw [ho] at commands
    exact ⟨congrArg DriveCommands.driven commands, congrArg DriveCommands.source commands⟩

/-- A phase that outlasts its limit ends the calibration (R118). -/
theorem exec_calibrationPhaseTimeout {s : State} (hs : s.Settled) {c : Cell} {k : DamperCal}
    (hk : (s.drives.get c).cal = some k) (hp : k.phase ≠ .waitRail) :
    ∃ t ns, exec (.calibrationPhaseTimeout c) s = .next t ∧ s.DamperFreed c (t.drives.get c) ∧
      t.link = ((s.link.place (s.noticeOf .calibrationDone (some c.place) (some (damperSource c).val)
        (0 + 16777216) none)).handed ns).startFrame ∧
      t.working = s.working ∧ t.space = s.space := by
  let ended := s.endDamperCal c (.failed .notStable)
  have expires : s.calPhaseExpiry c = ended.refreshNeeds := by
    simp only [State.calPhaseExpiry, hk, hp, ↓reduceIte]
    rfl
  have kept : Keeps [.notices, .drives, .lighting, .blinds, .rail, .faults] s ended.refreshNeeds :=
    ((s.endDamperCal_keeps c _).mono rfl).trans ended.refreshNeeds_keeps
  obtain ⟨ns, link, -⟩ := ended.refreshNeeds_link
  have freed := s.endDamperCal_freed c (.failed .notStable)
  have run : exec (.calibrationPhaseTimeout c) s = finish (s.calPhaseExpiry c) := rfl
  rw [expires, finish_kept hs kept rfl] at run
  refine ⟨_, ns, run, freed.congr ((ended.refreshNeeds_holdsPlant.drives c).commands freed.cal), ?_,
    kept.working rfl rfl rfl rfl, kept.space (by decide)⟩
  simp only [link, ended, State.endDamperCal_link]
  rfl

/-! ## The reheat loop (R121, R122) -/

/-- A drive after its reheat loop, before its valve takes the command. -/
def State.loopedDrive (s : State) (c : Cell) : Drive :=
  let sp := valveSetpoint (s.unitOf c).mode (s.profileOf c) s.working.settings.setbackExtra
  let d1 : Drive := { s.drives.get c with tempTimer := 0, setpoint := sp }
  match sp, s.scanner.channels[tempChannel c].usable with
  | some p, some t =>
    let r := reheat s.working.settings.kpT s.working.settings.kiT p t (s.drives.get c).integral
    { d1 with valveComputed := r.1, integral := r.2 }
  | _, _ => d1

/-- The state in which a temperature update drives the valve. -/
def State.looped (s : State) (c : Cell) : State := s.updDrive c fun _ => s.loopedDrive c

/-- The memory of the reheat loop: its timer, its setpoint and its integral. -/
def Drive.loop (d : Drive) : Nat × Option Nat × Nat := (d.tempTimer, d.setpoint, d.integral)

theorem Drive.command_loop (d : Drive) (value tolerance : Nat) : (d.command value tolerance).loop = d.loop := by
  unfold Drive.command
  split <;> rfl

theorem State.endedDrive_loop (s : State) (c : Cell) : (s.endedDrive c).loop = (s.drives.get c).loop := by
  refine (Drive.command_loop ((s.updDrive c fun d => { d with cal := none }).drives.get c) _ _).trans ?_
  rw [State.updDrive_get_self]
  rfl

/-- The rail moves no reheat loop. -/
theorem State.refreshNeeds_loop (s : State) (c : Cell) :
    (s.refreshNeeds.drives.get c).loop = (s.drives.get c).loop := by
  rcases s.refreshNeeds_drives with same | fault
  · rw [same]
  · rw [fault, State.railFault_get, State.railFaultDrive]
    split
    · exact s.railRaised.endedDrive_loop c
    · rfl

section
variable (s : State) (c : Cell)

theorem State.loopedDrive_setpoint : (s.loopedDrive c).setpoint =
    valveSetpoint (s.unitOf c).mode (s.profileOf c) s.working.settings.setbackExtra := by
  unfold State.loopedDrive
  dsimp only
  split <;> rfl

theorem State.loopedDrive_tempTimer : (s.loopedDrive c).tempTimer = 0 := by
  unfold State.loopedDrive
  dsimp only
  split <;> rfl

theorem State.loopedDrive_commands : (s.loopedDrive c).commands = (s.drives.get c).commands := by
  unfold State.loopedDrive
  dsimp only
  split <;> rfl

end

/-- The command of the valve after its loop has run (R123). -/
theorem State.looped_valveFor (s : State) (c : Cell) : (s.looped c).valveFor c =
    if s.space.fire = .inForce then 0
    else match s.space.overrides[valveTarget c] with
      | some v => v.value
      | none => if s.scanner.channels[tempChannel c].lost then s.working.settings.valveFallback.get c
        else (s.loopedDrive c).valveComputed := by
  have drive : (s.looped c).drives.get c = s.loopedDrive c := s.updDrive_get_self c _
  unfold State.valveFor
  rw [drive]
  rfl

theorem State.loopedDrive_loops {s : State} {c : Cell} {sp temp : Nat} (hp : (s.loopedDrive c).setpoint = some sp)
    (ht : s.scanner.channels[tempChannel c].usable = some temp) :
    ((s.loopedDrive c).valveComputed, (s.loopedDrive c).integral) =
      reheat s.working.settings.kpT s.working.settings.kiT sp temp (s.drives.get c).integral := by
  rw [State.loopedDrive_setpoint] at hp
  simp only [State.loopedDrive, hp, ht]

theorem State.loopedDrive_rests {s : State} {c : Cell}
    (h : (s.loopedDrive c).setpoint = none ∨ s.scanner.channels[tempChannel c].usable = none) :
    (s.loopedDrive c).valveComputed = (s.drives.get c).valveComputed ∧
      (s.loopedDrive c).integral = (s.drives.get c).integral := by
  rw [State.loopedDrive_setpoint] at h
  unfold State.loopedDrive
  dsimp only
  split
  · next hp ht => rcases h with h | h <;> simp_all
  · exact ⟨rfl, rfl⟩

/-- What a temperature update leaves of its drive: the loop as it has run, and the valve with its command (R123). -/
theorem exec_temperatureUpdate {s : State} (hs : s.Settled) (c : Cell) :
    ∃ t ns, exec (.temperatureUpdate c) s = .next t ∧ t.link = (s.link.handed ns).startFrame ∧
      t.working = s.working ∧ t.space = s.space ∧ t.scanner = s.scanner ∧
      (t.drives.get c).loop = (s.loopedDrive c).loop ∧
      (t.drives.get c).valveComputed = (s.loopedDrive c).valveComputed ∧
      (t.drives.get c).valve = ((s.looped c).valveFor c, 10 * (s.looped c).valveFor c) ∧
      ((s.drives.get c).cal = none → (t.drives.get c).driven = (s.drives.get c).driven) := by
  let x := (s.looped c).redriveValve c
  have kept : Keeps [.notices, .drives, .lighting, .blinds, .rail, .faults] s x.refreshNeeds :=
    ((s.temperatureStep_keeps c).mono rfl).trans x.refreshNeeds_keeps
  have looped : (s.looped c).drives.get c = s.loopedDrive c := s.updDrive_get_self c _
  have drive : x.drives.get c = { s.loopedDrive c with
      valveDriven := (s.looped c).valveFor c, valveOutput := 10 * (s.looped c).valveFor c } := by
    rw [State.redriveValve_get_self, looped]
  have holds := x.refreshNeeds_holdsPlant.drives c
  have loop := x.refreshNeeds_loop c
  rw [drive] at holds loop
  obtain ⟨ns, link⟩ := kept.same .link rfl
  refine ⟨_, ns, finish_handed hs link, rfl, kept.working rfl rfl rfl rfl, kept.space (by decide),
    kept.same .scanner rfl, loop, congrArg Prod.snd holds.computed, holds.valve, fun idle => ?_⟩
  have commands := s.loopedDrive_commands c
  have cal : (s.loopedDrive c).cal = none := (congrArg DriveCommands.cal commands).trans idle
  exact (congrArg DriveCommands.driven (holds.commands cal)).trans (congrArg DriveCommands.driven commands)

end Sys2Proof.Machine
end

