-- ==== Sys2Proof/Proofs/CalibrationSamples.lean ====
section
/-! PROOF. A sample of all channels as a calibrating damper sees it (R118, R119, R165): its own feedback decides, and
the samples of the other channels and of the other cell leave it alone. -/

namespace Sys2Proof.Machine
open Sys2Proof

/-! ## What leaves a damper alone -/

/-- The parts of the state that a sample can move before the needs reach the rail. -/
def sampleMoves : List Block := [.notices, .units, .modes, .lighting, .drives, .scanner, .faults, .calibrations]

/-- Samples and what follows from them have left the damper of a cell, and its calibration record, alone. -/
structure State.SparesDamper (s : State) (c : Cell) (t : State) : Prop where
  kept : Keeps sampleMoves s t
  commands : (t.drives.get c).commands = (s.drives.get c).commands
  computed : (t.drives.get c).computed = (s.drives.get c).computed
  record : t.working.calibrations.get c = s.working.calibrations.get c

namespace State.SparesDamper
variable {s t u : State} {c : Cell}

theorem refl (s : State) (c : Cell) : s.SparesDamper c s := ⟨.refl _ _, rfl, rfl, rfl⟩

theorem trans (h : s.SparesDamper c t) (k : t.SparesDamper c u) : s.SparesDamper c u :=
  ⟨h.kept.trans k.kept, k.commands.trans h.commands, k.computed.trans h.computed, k.record.trans h.record⟩

theorem ite {p : Prop} [Decidable p] (h : s.SparesDamper c t) (k : s.SparesDamper c u) :
    s.SparesDamper c (if p then t else u) := by
  split
  · exact h
  · exact k

theorem foldl {α : Type} {f : State → α → State} (l : List α) (step : ∀ (x : State) a, x.SparesDamper c (f x a))
    (s : State) : s.SparesDamper c (l.foldl f s) := by
  induction l generalizing s with
  | nil => exact refl s c
  | cons a l ih => exact (step s a).trans (ih (f s a))

/-- An operation on other parts than the drives and the calibration records. -/
theorem of_keeps {xs : List Block} (k : Keeps xs s t) (w : within xs sampleMoves = true)
    (hd : xs.contains .drives = false) (hc : xs.contains .calibrations = false) : s.SparesDamper c t where
  kept := k.mono w
  commands := congrArg (fun d => (PerCell.get d c).commands) (k.same .drives hd)
  computed := congrArg (fun d => (PerCell.get d c).computed) (k.same .drives hd)
  record := congrArg (PerCell.get · c) (k.same .calibrations hc)

/-- An operation on the drives that keeps the commands of the damper. -/
theorem of_drive (k : Keeps [.drives] s t) (commands : (t.drives.get c).commands = (s.drives.get c).commands)
    (computed : (t.drives.get c).computed = (s.drives.get c).computed) : s.SparesDamper c t :=
  ⟨k.mono rfl, commands, computed, congrArg (PerCell.get · c) (k.same .calibrations rfl)⟩

theorem updDrive (s : State) (d : Cell) (f : Drive → Drive)
    (h : (f (s.drives.get d)).commands = (s.drives.get d).commands ∧
      (f (s.drives.get d)).computed = (s.drives.get d).computed) :
    s.SparesDamper c (s.updDrive d f) := by
  by_cases hd : c = d
  · subst hd
    exact of_drive (s.updDrive_keeps c f) (by rw [State.updDrive_get_self, h.1]) (by rw [State.updDrive_get_self, h.2])
  · exact of_drive (s.updDrive_keeps d f) (by rw [s.updDrive_get_other f hd]) (by rw [s.updDrive_get_other f hd])

theorem fire (h : s.SparesDamper c t) : t.space.fire = s.space.fire := h.kept.same .fire rfl

theorem overrides (h : s.SparesDamper c t) : t.space.overrides = s.space.overrides := h.kept.same .overrides rfl

theorem rail (h : s.SparesDamper c t) : t.rail = s.rail := h.kept.same .rail rfl

/-- A damper freed from where it was spared is freed from where it stood. -/
theorem freed (h : s.SparesDamper c t) {d : Drive} (k : t.DamperFreed c d) : s.DamperFreed c d where
  cal := k.cal
  computed hf ho := by
    rw [← h.computed]
    exact k.computed (by rw [h.fire, hf]) (by rw [h.overrides, ho])
  override v hf ho := k.override v (by rw [h.fire, hf]) (by rw [h.overrides, ho])

end State.SparesDamper

theorem State.redriveValve_spares (s : State) (d c : Cell) : s.SparesDamper c (s.redriveValve d) :=
  .updDrive s d _ ⟨rfl, rfl⟩

theorem State.refreshTracking_spares (s : State) (d c : Cell) : s.SparesDamper c (s.refreshTracking d) := by
  refine .ite (.updDrive s d _ ?_) (.updDrive s d _ ⟨rfl, rfl⟩)
  split <;> exact ⟨rfl, rfl⟩

theorem Drive.compare_keeps (d : Drive) (tolerance : Nat) :
    (d.compare tolerance).commands = d.commands ∧ (d.compare tolerance).computed = d.computed := by
  unfold Drive.compare
  repeat' split
  all_goals exact ⟨rfl, rfl⟩

/-! ## The calibration's test (R118, R119) -/

theorem goodSample_iff (mv : Nat) : goodSample mv = true ↔ 1600 ≤ mv ∧ mv ≤ 10400 := by simp [goodSample]

theorem stableNow_iff (elapsed mean : Nat) (means : List Nat) :
    stableNow elapsed mean means = true ↔ 5000 ≤ elapsed ∧ ∃ v, means[4]? = some v ∧ distance mean v < 40 := by
  unfold stableNow
  cases means[4]? <;> simp

section
variable {s : State} {c : Cell} {k : DamperCal} (hk : (s.drives.get c).cal = some k) (hp : k.phase ≠ .waitRail)
include hk hp

theorem State.calSample_lost {mv : Nat} (hg : goodSample mv = false) (mean : Option Nat) (means : List Nat) :
    s.calSample c mv mean means = s.endDamperCal c (.failed .feedbackLost) := by
  simp only [State.calSample, hk, hp, hg, ↓reduceIte]

theorem State.calSample_good {mv : Nat} (hg : goodSample mv = true) (mean : Nat) (means : List Nat) :
    s.calSample c mv (some mean) means =
      if stableNow k.elapsed mean means then
        if k.phase = .closing then s.calPhase c { phase := .opening, elapsed := 0, fbLow := mean }
        else s.finishCal c k.fbLow mean k.elapsed
      else s := by
  simp only [State.calSample, hk, hp, hg, Bool.true_eq_false, ↓reduceIte]

end

theorem State.finishCal_failed {fbLow fbHigh : Nat} (h : fbHigh < fbLow + 4800) (s : State) (c : Cell) (elapsed : Nat) :
    s.finishCal c fbLow fbHigh elapsed = s.endDamperCal c (.failed .span) := by
  have short : (fbHigh : Int) - fbLow < Config.minSpan := by unfold Config.minSpan; omega
  exact if_pos short

/-- The stroke time measured, in s (R119, log entry 54). -/
def strokeOf (elapsed : Nat) : Nat := max 30 (min 300 ((elapsed - 5000) / 1000))

/-- A calibration that ends OK writes its record first. -/
def State.recorded (s : State) (c : Cell) (fbLow fbHigh elapsed : Nat) : State :=
  s.withCalibrations (s.working.calibrations.set c
    { calibrated := true, fbLow := fbLow, fbHigh := fbHigh, stroke := strokeOf elapsed })

theorem State.finishCal_ok {fbLow fbHigh : Nat} (h : fbLow + 4800 ≤ fbHigh) (s : State) (c : Cell) (elapsed : Nat) :
    s.finishCal c fbLow fbHigh elapsed =
      (s.recorded c fbLow fbHigh elapsed).endDamperCal c (.ok (strokeOf elapsed)) := by
  have wide : ¬ (fbHigh : Int) - fbLow < Config.minSpan := by unfold Config.minSpan; omega
  have stroke : clampNat 30 300 ((elapsed - 5000) / 1000) = strokeOf elapsed := clampNat_eq_max (by decide) _
  unfold State.finishCal
  rw [if_neg wide, stroke]
  rfl

theorem State.recorded_get (s : State) (c : Cell) (fbLow fbHigh elapsed : Nat) :
    (s.recorded c fbLow fbHigh elapsed).working.calibrations.get c =
      { calibrated := true, fbLow := fbLow, fbHigh := fbHigh, stroke := strokeOf elapsed } := PerCell.get_set_self ..

theorem State.endDamperCal_records (s : State) (c : Cell) (r : CalResult) :
    (s.endDamperCal c r).working.calibrations = s.working.calibrations :=
  (s.endDamperCal_keeps c r).same .calibrations rfl

theorem State.calPhase_records (s : State) (c : Cell) (k : DamperCal) :
    (s.calPhase c k).working.calibrations = s.working.calibrations :=
  (s.calPhase_keeps c k).same .calibrations rfl

section
variable (s : State) {c d : Cell} (h : c ≠ d)
include h

theorem State.endDamperCal_other (r : CalResult) : (s.endDamperCal d r).drives.get c = s.drives.get c ∧
    (s.endDamperCal d r).working.calibrations.get c = s.working.calibrations.get c :=
  ⟨s.endDamperCal_get_other h r, by rw [State.endDamperCal_records]⟩

theorem State.finishCal_other (fbLow fbHigh elapsed : Nat) :
    (s.finishCal d fbLow fbHigh elapsed).drives.get c = s.drives.get c ∧
      (s.finishCal d fbLow fbHigh elapsed).working.calibrations.get c = s.working.calibrations.get c := by
  by_cases short : fbHigh < fbLow + 4800
  · rw [State.finishCal_failed short]
    exact s.endDamperCal_other h _
  · obtain ⟨drive, record⟩ := (s.recorded d fbLow fbHigh elapsed).endDamperCal_other h (.ok (strokeOf elapsed))
    rw [State.finishCal_ok (Nat.le_of_not_lt short)]
    exact ⟨drive, record.trans (PerCell.get_set_other _ _ h)⟩

/-- The test of one cell leaves the other's drive and record. -/
theorem State.calSample_other (mv : Nat) (mean : Option Nat) (means : List Nat) :
    (s.calSample d mv mean means).drives.get c = s.drives.get c ∧
      (s.calSample d mv mean means).working.calibrations.get c = s.working.calibrations.get c := by
  cases hk : (s.drives.get d).cal with
  | none =>
    simp only [State.calSample, hk, and_self]
  | some k =>
    by_cases hp : k.phase = .waitRail
    · simp only [State.calSample, hk, hp, ↓reduceIte, and_self]
    cases hg : goodSample mv with
    | false =>
      rw [State.calSample_lost hk hp hg]
      exact s.endDamperCal_other h _
    | true =>
      cases mean with
      | none =>
        simp only [State.calSample, hk, hp, hg, Bool.true_eq_false, ↓reduceIte, and_self]
      | some m =>
        rw [State.calSample_good hk hp hg]
        split
        · split
          · exact ⟨s.calPhase_get_other h _, by rw [State.calPhase_records]⟩
          · exact s.finishCal_other h ..
        · exact ⟨rfl, rfl⟩

end

/-! ## The feedback of a cell (R111, R112, R114) -/

/-- The state in which a feedback sample has been read: the position is formed and its health judged. -/
def State.feedbackRead (s : State) (c : Cell) (mv : Nat) (mean : Option Nat) : State :=
  let good := if decide (s.rail.state = .on) then goodSample mv else (s.drives.get c).feedbackGood
  s.updDrive c fun d =>
    { d with
      feedback := match mean with
        | some m => some ((s.working.calibrations.get c).feedback m)
        | none => d.feedback
      feedbackGood := good
      means := match mean with
        | some m => (m :: d.means).take 5
        | none => d.means }

/-- The state in which a feedback sample reaches the calibration's test: a loss has been reported. -/
def State.judgedFeedback (s : State) (c : Cell) (mv : Nat) (mean : Option Nat) : State :=
  let on := decide (s.rail.state = .on)
  let good := if on then goodSample mv else (s.drives.get c).feedbackGood
  if (s.drives.get c).tracking && on && !good then
    (s.feedbackRead c mv mean).reportRetry (damperSource c) .feedbackLost
  else s.feedbackRead c mv mean

section
variable (s : State) (c d : Cell) (mv : Nat) (mean : Option Nat)

theorem State.judgedFeedback_spares : s.SparesDamper c (s.judgedFeedback d mv mean) := by
  have read : s.SparesDamper c (s.feedbackRead d mv mean) := .updDrive s d _ ⟨rfl, rfl⟩
  exact .ite (read.trans (.of_keeps (State.reportRetry_keeps ..) rfl rfl rfl)) read

theorem State.judgedFeedback_drives : (s.judgedFeedback d mv mean).drives = (s.feedbackRead d mv mean).drives := by
  have reported : Keeps [.notices, .faults] (s.feedbackRead d mv mean) (s.judgedFeedback d mv mean) :=
    .ite (State.reportRetry_keeps ..) (.refl _ _)
  exact reported.same .drives rfl

/-- The tracking tests follow the calibration's test (log entry 78). -/
theorem State.feedbackSample_tested : State.SparesDamper
    ((s.judgedFeedback d mv mean).calSample d mv mean (s.drives.get d).means) c (s.feedbackSample d mv mean) :=
  (State.refreshTracking_spares _ d c).trans (.updDrive _ d _ (Drive.compare_keeps _ _))

end

theorem State.feedbackSample_spares (s : State) {c d : Cell} (h : c ≠ d) (mv : Nat) (mean : Option Nat) :
    s.SparesDamper c (s.feedbackSample d mv mean) := by
  obtain ⟨drive, record⟩ := (s.judgedFeedback d mv mean).calSample_other h mv mean (s.drives.get d).means
  have tested : (s.judgedFeedback d mv mean).SparesDamper c
      ((s.judgedFeedback d mv mean).calSample d mv mean (s.drives.get d).means) :=
    ⟨(State.calSample_keeps ..).mono rfl, by rw [drive], by rw [drive], record⟩
  exact ((s.judgedFeedback_spares c d mv mean).trans tested).trans (s.feedbackSample_tested c d mv mean)

/-- The feedback of one cell leaves the means of the other. -/
theorem State.feedbackSample_means (s : State) {c d : Cell} (h : c ≠ d) (mv : Nat) (mean : Option Nat) :
    ((s.feedbackSample d mv mean).drives.get c).means = (s.drives.get c).means := by
  have judged : (s.judgedFeedback d mv mean).drives.get c = s.drives.get c := by
    rw [State.judgedFeedback_drives]
    exact s.updDrive_get_other _ h
  have tested := ((s.judgedFeedback d mv mean).calSample_other h mv mean (s.drives.get d).means).1
  have drive : (s.feedbackSample d mv mean).drives.get c = s.drives.get c :=
    ((State.updDrive_get_other _ _ h).trans (State.refreshTracking_get_other _ h)).trans (tested.trans judged)
  rw [drive]

/-! ## The channels (R165) -/

/-- A value once formed is never lost, and a good judged sample forms one. -/
theorem Sensor.sample_value {x : Sensor} {mv : Nat} {judged : Bool}
    (h : x.value.isSome = true ∨ judged = true ∧ goodSample mv = true) (top : Option Nat) :
    (x.sample mv judged top).value.isSome = true := by
  by_cases good : judged = true ∧ goodSample mv = true
  · obtain ⟨rfl, good⟩ := good
    simp only [Sensor.sample, good, Bool.true_eq_false, ↓reduceIte]
    split <;> rfl
  · have stood : x.value.isSome = true := h.resolve_right good
    unfold Sensor.sample
    dsimp only
    split
    · split
      · rfl
      · exact stood
    · next judges =>
      rw [if_neg fun accepts => good ⟨by simpa using judges, accepts⟩]
      split <;> exact stood

theorem State.sampleChannel_scanner (s : State) (i : Fin 8) (mv : Nat) : (s.sampleChannel i mv).scanner =
    (s.updSensor i fun c => c.sample mv (!isFeedback i || decide (s.rail.state = .on))
      (engineeringTop i s.working.settings.co2Span)).scanner := by
  unfold State.sampleChannel
  dsimp only
  split
  · exact (State.sensorFault_keeps ..).same .scanner rfl
  · rfl

/-- A channel has a value once a good sample of it has been judged among those of a pass. -/
theorem State.foldl_sampleChannel_value (levels : Vector Half 8) {i : Fin 8} (is : List (Fin 8)) {s : State}
    (on : s.rail.state = .on)
    (h : s.scanner.channels[i].value.isSome = true ∨ i ∈ is ∧ goodSample levels[i].toNat = true) :
    (is.foldl (fun s i => s.sampleChannel i levels[i].toNat) s).scanner.channels[i].value.isSome = true := by
  induction is generalizing s with
  | nil => exact h.resolve_right fun ⟨mem, _⟩ => List.not_mem_nil mem
  | cons j is ih =>
    have rail : (s.sampleChannel j levels[j].toNat).rail = s.rail := (s.sampleChannel_keeps j _).same .rail rfl
    refine ih (by rwa [rail]) ?_
    rw [State.sampleChannel_scanner]
    by_cases hj : i = j
    · subst hj
      have taken := updAt_self s.scanner.channels i fun c => c.sample levels[i].toNat
        (!isFeedback i || decide (s.rail.state = .on)) (engineeringTop i s.working.settings.co2Span)
      refine .inl ((congrArg (fun c => c.value.isSome) taken).trans (Sensor.sample_value ?_ _))
      exact h.imp_right fun ⟨_, good⟩ => ⟨by simp [on], good⟩
    · have left := updAt_other s.scanner.channels (fun c => c.sample levels[j].toNat
        (!isFeedback j || decide (s.rail.state = .on)) (engineeringTop j s.working.settings.co2Span)) hj
      refine h.imp (fun stood => (congrArg (fun c => c.value.isSome) left).trans stood) fun ⟨mem, good⟩ => ⟨?_, good⟩
      exact (List.mem_cons.mp mem).resolve_left hj

/-! ## A sample of all channels (R164 to R169) -/

/-- The state in which the channels are sampled: the sample timer starts again, and each calibration is credited the
time since the last sample (log entry 34). -/
def State.credited (s : State) : State :=
  ((s.updScanner fun x => { x with timer := 0 }).creditCal .a (1000 - s.scanner.timer)).creditCal .b
    (1000 - s.scanner.timer)

/-- The state in which the channels have been sampled. -/
def State.channelsSampled (s : State) (levels : Vector Half 8) : State :=
  allChannels.foldl (fun s i => s.sampleChannel i levels[i].toNat) s.credited

/-- The state in which the CO2 samples have reached the purges. -/
def State.purgesTested (s : State) (levels : Vector Half 8) : State :=
  (s.channelsSampled levels).space.units.ids.foldl State.purgeEndTest (s.channelsSampled levels)

/-- The state in which the feedback of the two cells is handed over: the valves have taken the temperature samples. -/
def State.feedbackDue (s : State) (levels : Vector Half 8) : State :=
  ((s.purgesTested levels).temperatureHealth .a s.credited.scanner.channels[tempChannel .a].lost).temperatureHealth .b
    s.credited.scanner.channels[tempChannel .b].lost

section
variable (s : State) (levels : Vector Half 8) (c : Cell)

theorem State.sensorSample_eq : s.sensorSample levels =
    (((s.feedbackDue levels).handFeedback .a levels[feedbackChannel .a].toNat).handFeedback .b
      levels[feedbackChannel .b].toNat).refreshNeeds := rfl

theorem State.credited_get : s.credited.drives.get c = { s.drives.get c with
    cal := (s.drives.get c).cal.map fun k => { k with elapsed := k.elapsed + (1000 - s.scanner.timer) } } := by
  cases c <;> rfl

theorem State.temperatureHealth_spares (d : Cell) (before : Bool) : s.SparesDamper c (s.temperatureHealth d before) :=
  .ite (.refl s c) (s.redriveValve_spares d c)

/-- The feedback handed over reaches the calibration's test with the value of its channel. -/
theorem State.handFeedback_tested (mv : Nat) : State.SparesDamper
    ((s.judgedFeedback c mv s.scanner.channels[feedbackChannel c].value).calSample c mv
      s.scanner.channels[feedbackChannel c].value (s.drives.get c).means) c (s.handFeedback c mv) :=
  s.feedbackSample_tested c c mv _

variable {c} in
theorem State.handFeedback_spares {d : Cell} (h : c ≠ d) (mv : Nat) : s.SparesDamper c (s.handFeedback d mv) :=
  s.feedbackSample_spares h mv _

variable {c} in
theorem State.handFeedback_means {d : Cell} (h : c ≠ d) (mv : Nat) :
    ((s.handFeedback d mv).drives.get c).means = (s.drives.get c).means := s.feedbackSample_means h mv _

theorem State.temperatureHealth_means (d : Cell) (before : Bool) :
    ((s.temperatureHealth d before).drives.get c).means = (s.drives.get c).means := by
  unfold State.temperatureHealth
  split
  · rfl
  · by_cases h : c = d
    · rw [h, State.redriveValve_get_self]
    · rw [State.redriveValve_get_other _ h]

theorem State.channelsSampled_keeps : Keeps [.notices, .scanner, .faults] s.credited (s.channelsSampled levels) :=
  .foldl _ allChannels (.refl _ _) fun x i => x.sampleChannel_keeps i _

theorem State.purgesTested_keeps :
    Keeps [.units, .modes, .lighting] (s.channelsSampled levels) (s.purgesTested levels) :=
  .foldl _ _ (.refl _ _) fun x id => x.purgeEndTest_keeps id

theorem State.feedbackDue_keeps : Keeps [.drives] (s.purgesTested levels) (s.feedbackDue levels) :=
  (State.temperatureHealth_keeps ..).trans (State.temperatureHealth_keeps ..)

theorem State.feedbackDue_spares : s.credited.SparesDamper c (s.feedbackDue levels) := by
  have sampled := State.SparesDamper.of_keeps (c := c) (s.channelsSampled_keeps levels) rfl rfl rfl
  have purged := State.SparesDamper.of_keeps (c := c) (s.purgesTested_keeps levels) rfl rfl rfl
  exact ((sampled.trans purged).trans (State.temperatureHealth_spares _ c .a _)).trans
    (State.temperatureHealth_spares _ c .b _)

theorem State.feedbackDue_means : ((s.feedbackDue levels).drives.get c).means = (s.drives.get c).means := by
  unfold State.feedbackDue
  rw [State.temperatureHealth_means, State.temperatureHealth_means, (s.purgesTested_keeps levels).same .drives rfl,
    (s.channelsSampled_keeps levels).same .drives rfl, State.credited_get]

/-- The value that the channel has taken is the one handed over. -/
theorem State.feedbackDue_scanner : (s.feedbackDue levels).scanner = (s.channelsSampled levels).scanner := by
  rw [(s.feedbackDue_keeps levels).same .scanner rfl, (s.purgesTested_keeps levels).same .scanner rfl]

/-- A sample of all channels, seen from one damper: what precedes its feedback and what follows it leave it alone. -/
structure State.SampledAround (x z : State) : Prop where
  before : s.credited.SparesDamper c x
  means : (x.drives.get c).means = (s.drives.get c).means
  scanner : x.scanner = (s.channelsSampled levels).scanner
  after : (x.handFeedback c levels[feedbackChannel c].toNat).SparesDamper c z
  channels : z.scanner = x.scanner
  ends : s.sensorSample levels = z.refreshNeeds

theorem State.sensorSample_around : ∃ x z, s.SampledAround levels c x z := by
  let due := s.feedbackDue levels
  have spared := s.feedbackDue_spares levels c
  have means := s.feedbackDue_means levels c
  have scanner := s.feedbackDue_scanner levels
  have channels (x : State) (d : Cell) (mv : Nat) : (x.handFeedback d mv).scanner = x.scanner :=
    (x.handFeedback_keeps d mv).same .scanner rfl
  cases c with
  | a =>
    let x := due.handFeedback .a levels[feedbackChannel .a].toNat
    exact ⟨due, x.handFeedback .b levels[feedbackChannel .b].toNat, spared, means, scanner,
      x.handFeedback_spares (by decide) _, (channels ..).trans (channels ..), s.sensorSample_eq levels⟩
  | b =>
    let x := due.handFeedback .a levels[feedbackChannel .a].toNat
    exact ⟨x, x.handFeedback .b levels[feedbackChannel .b].toNat, spared.trans (due.handFeedback_spares (by decide) _),
      (due.handFeedback_means (by decide) _).trans means, (channels ..).trans scanner, .refl _ _, channels ..,
      s.sensorSample_eq levels⟩

end

/-- What SENSOR_SAMPLE answers, seen from one damper while the rail is ON: the state in which its calibration is
tested, and the state left. -/
theorem exec_sensorSample_damper {s : State} (hs : s.Settled) (levels : Vector Half 8) (c : Cell)
    (on : s.rail.state = .on) : ∃ x y t ns ns', exec (.sensorSample levels) s = .next t ∧
      t.working.settings = s.working.settings ∧ s.credited.SparesDamper c x ∧ x.link = s.link.handed ns ∧
      (goodSample levels[feedbackChannel c].toNat = true →
        t.scanner.channels[feedbackChannel c].value.isSome = true) ∧
      y = x.calSample c levels[feedbackChannel c].toNat t.scanner.channels[feedbackChannel c].value
        (s.drives.get c).means ∧
      (t.drives.get c).commands = (y.drives.get c).commands ∧
      t.working.calibrations.get c = y.working.calibrations.get c ∧ t.link = (y.link.handed ns').startFrame := by
  obtain ⟨x, z, around⟩ := s.sensorSample_around levels c
  have kept := s.sensorSample_keeps levels
  have needs := around.ends
  have run : exec (.sensorSample levels) s = finish (s.sensorSample levels) := rfl
  generalize s.sensorSample levels = w at kept needs run
  rw [finish_kept hs kept rfl] at run
  have seen := around.before.trans (x.judgedFeedback_spares c c levels[feedbackChannel c].toNat
    x.scanner.channels[feedbackChannel c].value)
  have after := (x.handFeedback_tested c levels[feedbackChannel c].toNat).trans around.after
  rw [around.means] at after
  have railOn : z.rail.state = .on := by
    rw [around.after.rail, (x.handFeedback_keeps c _).same .rail rfl, around.before.rail]
    exact on
  have ends : Keeps [.rail] z w := by
    rw [needs, State.refreshNeeds_standing (by rw [railOn]; decide)]
    exact z.writeNeeds_keeps
  have scanner : w.scanner = x.scanner := (ends.same .scanner rfl).trans around.channels
  have link : w.link = z.link := ends.same .notices rfl
  have drives : w.drives = z.drives := ends.same .drives rfl
  have records : w.working.calibrations = z.working.calibrations := ends.same .calibrations rfl
  obtain ⟨ns, handed⟩ := seen.kept.same .link rfl
  obtain ⟨ns', handed'⟩ := after.kept.same .link rfl
  refine ⟨_, _, _, ns, ns', run, kept.same .settings rfl, seen, handed, fun good => ?_, by rw [scanner], ?_⟩
  · simp only [scanner, around.scanner]
    exact State.foldl_sampleChannel_value levels allChannels on (.inr ⟨mem_allChannels _, good⟩)
  · simp only [drives, records, link]
    exact ⟨after.commands, after.record, congrArg Link.startFrame handed'⟩

/-- A sample that ends the calibration of a damper, as the state left shows it. -/
theorem State.SparesDamper.ended {s x w t : State} {c : Cell} {r : CalResult} {ns ns' : List Notice}
    (seen : s.credited.SparesDamper c x) (handed : x.link = s.link.handed ns)
    (same : w.link = x.link ∧ w.clock = x.clock) (freed : x.DamperFreed c ((w.endDamperCal c r).drives.get c))
    (commands : (t.drives.get c).commands = ((w.endDamperCal c r).drives.get c).commands)
    (sent : t.link = ((w.endDamperCal c r).link.handed ns').startFrame) :
    (t.drives.get c).cal = none ∧
      t.link = (((s.link.handed ns).place (s.noticeOf .calibrationDone (some c.place)
        (some (damperSource c).val) r.value none)).handed ns').startFrame ∧
      (s.space.fire = .clear → s.space.overrides[damperTarget c] = none →
        (t.drives.get c).driven = (s.drives.get c).computed ∧ (t.drives.get c).source = .computed) := by
  obtain ⟨link, clock⟩ := same
  have clock' : w.clock = s.clock := clock.trans (seen.kept.same .clock rfl)
  obtain ⟨cal, computed, -⟩ := (seen.freed freed).congr commands
  rw [State.credited_get] at computed
  exact ⟨cal, by rw [sent, State.endDamperCal_link, link, handed, State.noticeOf_congr clock'], computed⟩

/-- Settles O55: the stall, the timeout, the sample by the branches of the calibration's test, and the update of the
reheat loop by its mode. -/
theorem damperTimersAct : Obligations.DamperTimersAct := by
  intro c s hs
  refine ⟨fun hc ht hm => ?_, fun k hk hp => ?_, fun levels k hk hp on => ?_, ?_⟩
  · obtain ⟨t, n, run, record, told, link, drives, working, space, rail⟩ := exec_damperStall hs hc ht hm
    refine ⟨t, n, run, ?_⟩
    by_cases h : min 10 (s.faults[damperSource c].retry + 1) < s.working.settings.retryLimit
    · have waits := record.trans (FaultRec.policy_waits (r := s.faults[damperSource c].report _ _) h)
      rw [waits] at told ⊢
      rw [if_pos h]
      exact ⟨rfl, rfl, rfl, ⟨rfl, rfl, told⟩, link, drives, working, space, rail⟩
    · have latches := record.trans (FaultRec.policy_latches (r := s.faults[damperSource c].report _ _) h)
      rw [latches] at told ⊢
      rw [if_neg h]
      exact ⟨rfl, rfl, rfl, ⟨rfl, rfl, told⟩, link, drives, working, space, rail⟩
  · obtain ⟨t, ns, run, freed, link, working, space⟩ := exec_calibrationPhaseTimeout hs hk hp
    exact ⟨t, ns, run, freed.cal, freed.computed, freed.override, link, working, space⟩
  · obtain ⟨x, y, t, ns, ns', run, settings, seen, handed, formed, test, commands, record, sent⟩ :=
      exec_sensorSample_damper hs levels c on
    refine ⟨t, ns, ns', run, settings, ?_⟩
    intro m good mean elapsed stable ends kept
    have cal : (x.drives.get c).cal = some { k with elapsed := elapsed } := by
      refine (congrArg DriveCommands.cal seen.commands).trans ?_
      simp only [Drive.commands, State.credited_get, hk]
      rfl
    have judged : goodSample m = true ↔ good := goodSample_iff m
    have settled : stableNow elapsed mean (s.drives.get c).means = true ↔ stable := stableNow_iff ..
    have tests (hg : good) : y = if stableNow elapsed mean (s.drives.get c).means then
          if k.phase = .closing then x.calPhase c { phase := .opening, elapsed := 0, fbLow := mean }
          else x.finishCal c k.fbLow mean elapsed
        else x := by
      obtain ⟨v, hv⟩ := Option.isSome_iff_exists.mp (formed (judged.mpr hg))
      have value : mean = v := congrArg (Option.getD · 0) hv
      rw [test, hv, value]
      exact State.calSample_good cal hp (judged.mpr hg) v _
    have spared : x.working.calibrations.get c = s.working.calibrations.get c := seen.record
    have ended (r : CalResult) (hy : y = x.endDamperCal c r) : ends r.value ∧ kept := by
      rw [hy] at commands record sent
      rw [State.endDamperCal_records] at record
      exact ⟨seen.ended handed ⟨rfl, rfl⟩ (x.endDamperCal_freed c r) commands sent, record.trans spared⟩
    refine ⟨fun bad => ?_, fun hg unstable => ?_, fun hg hst closing => ?_, fun hg hst opening short => ?_,
      fun hg hst opening wide => ?_⟩
    · have lost : goodSample m = false := Bool.eq_false_iff.mpr fun h => bad (judged.mp h)
      exact ended (.failed .feedbackLost) (test.trans (State.calSample_lost cal hp lost _ _))
    · have same : y = x := (tests hg).trans (if_neg fun h => unstable (settled.mp h))
      rw [same] at commands record
      exact ⟨(congrArg DriveCommands.cal commands).trans cal, record.trans spared⟩
    · have opens : y = x.calPhase c { phase := .opening, elapsed := 0, fbLow := mean } := by
        rw [tests hg, if_pos (settled.mpr hst), if_pos closing]
      rw [opens, State.calPhase_records] at record
      rw [opens, State.calPhase_commands] at commands
      exact ⟨congrArg DriveCommands.cal commands, congrArg DriveCommands.driven commands,
        congrArg DriveCommands.source commands, record.trans spared⟩
    · refine ended (.failed .span) ?_
      rw [tests hg, if_pos (settled.mpr hst), if_neg (by rw [opening]; decide), State.finishCal_failed short]
    · have ok : y = (x.recorded c k.fbLow mean elapsed).endDamperCal c (.ok (strokeOf elapsed)) := by
        rw [tests hg, if_pos (settled.mpr hst), if_neg (by rw [opening]; decide), State.finishCal_ok wide]
      rw [ok] at commands record sent
      rw [State.endDamperCal_records, State.recorded_get] at record
      obtain ⟨freed, computed, override⟩ :=
        (x.recorded c k.fbLow mean elapsed).endDamperCal_freed c (.ok (strokeOf elapsed))
      have concluded : ends (CalResult.ok (strokeOf elapsed)).value :=
        seen.ended (w := x.recorded c k.fbLow mean elapsed) handed ⟨rfl, rfl⟩ ⟨freed, computed, override⟩ commands sent
      exact ⟨concluded, record⟩
  · obtain ⟨t, ns, run, link, working, space, scanner, loop, computed, valve, driven⟩ := exec_temperatureUpdate hs c
    refine ⟨t, ns, run, link, working, space, scanner, ?_⟩
    intro d d' p mode
    obtain ⟨timer, setpoint, integral⟩ : d'.tempTimer = (s.loopedDrive c).tempTimer ∧
        d'.setpoint = (s.loopedDrive c).setpoint ∧ d'.integral = (s.loopedDrive c).integral := by
      simpa only [Drive.loop, Prod.mk.injEq] using loop
    obtain ⟨valveDriven, valveOutput⟩ : d'.valveDriven = (s.looped c).valveFor c ∧
        d'.valveOutput = 10 * (s.looped c).valveFor c := Prod.mk.inj valve
    have formed : d'.setpoint = valveSetpoint mode p s.working.settings.setbackExtra :=
      setpoint.trans (s.loopedDrive_setpoint c)
    refine ⟨timer.trans (s.loopedDrive_tempTimer c), driven, ?_, ?_, fun fire => by rw [formed, fire]; rfl,
      fun sp temp hp ht => ?_, fun rests => ?_, ?_, ?_⟩
    · rintro (h | h | h) <;> rw [formed, h] <;> rfl
    · rintro (h | h) <;> rw [formed, h] <;> rfl
    · have loops := State.loopedDrive_loops (setpoint.symm.trans hp) ht
      rw [← computed, ← integral] at loops
      obtain ⟨command, rest⟩ := Prod.mk.inj loops
      refine ⟨command, rest.trans ?_⟩
      rw [command]
    · rw [setpoint] at rests
      obtain ⟨command, rest⟩ := State.loopedDrive_rests rests
      exact ⟨computed.trans command, integral.trans rest⟩
    · rw [State.looped_valveFor, ← computed] at valveDriven
      exact valveDriven
    · exact valveOutput.trans (congrArg (10 * ·) valveDriven.symm)

end Sys2Proof.Machine
end

