-- ==== Sys2Proof/Proofs/Lighting.lean ====
section
/-! PROOF. The lighting unit's own events: the lighting step (R127 to R132, R136), the start of a PWM period (R133), the
daylight update (R134) and the end of a freeze (R137). -/

namespace Sys2Proof.Machine
open Sys2Proof

/-! ## Every channel in its turn -/

section
variable {α : Type} {n : Nat} (f : Fin n → α → α)

theorem foldl_updAt_not_mem (v : Vector α n) {is : List (Fin n)} {i : Fin n} (h : i ∉ is) :
    (is.foldl (fun v j => updAt v j (f j)) v)[i] = v[i] := by
  induction is generalizing v with
  | nil => rfl
  | cons j is ih =>
    obtain ⟨hj, rest⟩ := (List.mem_cons.not.trans not_or).mp h
    exact (ih _ rest).trans (updAt_other v (f j) hj)

theorem foldl_updAt_mem (v : Vector α n) {is : List (Fin n)} (once : is.Nodup) {i : Fin n} (h : i ∈ is) :
    (is.foldl (fun v j => updAt v j (f j)) v)[i] = f i v[i] := by
  induction is generalizing v with
  | nil => cases h
  | cons j is ih =>
    obtain ⟨first, rest⟩ := List.nodup_cons.mp once
    rcases List.mem_cons.mp h with rfl | later
    · exact (foldl_updAt_not_mem f _ first).trans (updAt_self v i (f i))
    · refine (ih _ rest later).trans (congrArg (f i) (updAt_other v (f j) ?_))
      rintro rfl
      exact first later

end

/-- The channels after each has been changed in its turn. -/
def changedChannels (f : Fin 8 → LightChannel → LightChannel) (v : Vector LightChannel 8) : Vector LightChannel 8 :=
  allChannels.foldl (fun v i => updAt v i (f i)) v

theorem changedChannels_get (f : Fin 8 → LightChannel → LightChannel) (v : Vector LightChannel 8) (i : Fin 8) :
    (changedChannels f v)[i] = f i v[i] :=
  foldl_updAt_mem f v (by decide) (mem_allChannels i)

theorem State.foldl_updChannel (f : Fin 8 → LightChannel → LightChannel) (is : List (Fin 8)) (s : State) :
    is.foldl (fun t i => t.updChannel i (f i)) s = { s with lighting := { s.lighting with
      channels := is.foldl (fun v i => updAt v i (f i)) s.lighting.channels } } := by
  induction is generalizing s with
  | nil => rfl
  | cons i is ih => exact ih _

/-! ## A fade (R130 to R132) -/

section
variable (r : LightChannel) (up down : Nat)

theorem LightChannel.fadeTo_keeps :
    (r.fadeTo up down).computed = r.computed ∧ (r.fadeTo up down).target = r.target ∧
      (r.fadeTo up down).applied = r.applied ∧ (r.fadeTo up down).pendingDuty = r.pendingDuty ∧
      (r.fadeTo up down).appliedDuty = r.appliedDuty := by
  unfold LightChannel.fadeTo
  split
  · exact ⟨rfl, rfl, rfl, rfl, rfl⟩
  · split <;> exact ⟨rfl, rfl, rfl, rfl, rfl⟩

/-- A fade goes toward the target by its step size at most (R130). -/
theorem LightChannel.fadeTo_output : (r.fadeTo up down).output =
    if r.output < r.target then min r.target (r.output + fadeStep up) else max r.target (r.output - fadeStep down) := by
  unfold LightChannel.fadeTo
  by_cases rises : r.output < r.target
  · simp only [rises, ↓reduceIte]
    split <;> omega
  · by_cases falls : r.target < r.output
    · simp only [rises, falls, ↓reduceIte]
      split <;> omega
    · simp only [rises, falls, ↓reduceIte]
      omega

end

/-- A channel's record after a lighting step, by its new computed target and target (R127). -/
def LightChannel.lit (r : LightChannel) (computed target up down driverMin : Nat) : LightChannel :=
  let moved := LightChannel.fadeTo { r with computed := computed, target := target } up down
  if moved.output = r.output then moved else moved.apply driverMin

section
variable {r r' : LightChannel} {computed target up down driverMin : Nat}
  (lit : r.lit computed target up down driverMin = r')
include lit

theorem LightChannel.lit_keeps : r'.computed = computed ∧ r'.target = target ∧ r'.appliedDuty = r.appliedDuty := by
  subst lit
  obtain ⟨formed, aimed, -, -, loaded⟩ :=
    LightChannel.fadeTo_keeps { r with computed := computed, target := target } up down
  unfold LightChannel.lit
  dsimp only
  split
  · exact ⟨formed, aimed, loaded⟩
  · exact ⟨formed, aimed, loaded⟩

theorem LightChannel.lit_output_eq_fadeTo : r'.output =
    (LightChannel.fadeTo { r with computed := computed, target := target } up down).output := by
  subst lit
  unfold LightChannel.lit
  dsimp only
  split <;> rfl

theorem LightChannel.lit_output : r'.output =
    if r.output < target then min target (r.output + fadeStep up) else max target (r.output - fadeStep down) :=
  (LightChannel.lit_output_eq_fadeTo lit).trans (LightChannel.fadeTo_output ..)

/-- A step that leaves the output level forms neither the applied level nor the duty again. -/
theorem LightChannel.lit_still (still : r'.output = r.output) :
    r'.applied = r.applied ∧ r'.pendingDuty = r.pendingDuty := by
  rw [LightChannel.lit_output_eq_fadeTo lit] at still
  obtain ⟨-, -, applied, duty, -⟩ :=
    LightChannel.fadeTo_keeps { r with computed := computed, target := target } up down
  rw [← lit, LightChannel.lit, if_pos still]
  exact ⟨applied, duty⟩

/-- A step that changes the output level forms the applied level and the duty again (R131, R132). -/
theorem LightChannel.lit_moves (moves : r'.output ≠ r.output) :
    r'.applied = appliedLevel r'.output driverMin ∧ r'.pendingDuty = dutyFor r'.applied := by
  rw [LightChannel.lit_output_eq_fadeTo lit] at moves
  rw [← lit, LightChannel.lit, if_neg moves]
  exact ⟨rfl, rfl⟩

end

/-! ## The lighting step (R127, R128) -/

/-- The target level of a channel of cell `c`: its override, or its computed target. -/
def State.lightWanted (s : State) (i : Fin 8) (c : Cell) : Nat :=
  match s.space.overrides[lightTarget i] with
  | some o => o.value
  | none => s.lightComputed i c

/-- What a lighting step makes of the record of channel `i`. -/
def State.litChannel (s : State) (i : Fin 8) (r : LightChannel) : LightChannel :=
  match s.channelCell i with
  | none => r
  | some c =>
    r.lit (s.lightComputed i c) (s.lightWanted i c) (s.profileOf c).fadeUp (s.profileOf c).fadeDown
      s.working.settings.driverMin[i]

theorem State.litChannel_unused {s : State} {i : Fin 8} (h : s.channelCell i = none) (r : LightChannel) :
    s.litChannel i r = r := by
  simp only [State.litChannel, h]

theorem State.litChannel_used {s : State} {i : Fin 8} {c : Cell} (h : s.channelCell i = some c) (r : LightChannel) :
    s.litChannel i r = r.lit (s.lightComputed i c) (s.lightWanted i c) (s.profileOf c).fadeUp
      (s.profileOf c).fadeDown s.working.settings.driverMin[i] := by
  simp only [State.litChannel, h]

theorem State.channelStep_eq (s : State) (i : Fin 8) : s.channelStep i = s.updChannel i (s.litChannel i) := by
  unfold State.channelStep
  split
  · next unused =>
    have same : updAt s.lighting.channels i (s.litChannel i) = s.lighting.channels :=
      updAt_id _ _ _ (State.litChannel_unused unused _)
    rw [State.updChannel, State.updLighting, same]
  · next c used =>
    rw [funext (State.litChannel_used used)]
    rfl

/-- The steps of the channels do not meet: each is formed from what no other has changed. -/
theorem State.foldl_channelStep (is : List (Fin 8)) {s t : State} (h : t.litChannel = s.litChannel) :
    is.foldl State.channelStep t = is.foldl (fun t i => t.updChannel i (s.litChannel i)) t := by
  induction is generalizing t with
  | nil => rfl
  | cons i is ih =>
    rw [List.foldl_cons, List.foldl_cons, t.channelStep_eq, h]
    exact ih h

theorem State.lightingStep_eq (s : State) : s.lightingStep = { s with lighting := { s.lighting with
    channels := changedChannels s.litChannel s.lighting.channels, stepTimer := 0 } } := by
  rw [State.lightingStep, State.foldl_channelStep (s := s) allChannels ?_, State.foldl_updChannel]
  · rfl
  · rfl

theorem exec_lightingStep {s : State} (hs : s.Settled) : exec .lightingStep s =
    .next { s with lighting := { s.lighting with
      channels := changedChannels s.litChannel s.lighting.channels, stepTimer := 0 } } := by
  have executed : exec .lightingStep s = finish s.lightingStep := rfl
  rw [executed, s.lightingStep_eq]
  exact finish_same hs rfl

/-! ## Computed targets (R128, R136) -/

theorem ChannelRole.boardSide_iff (role : ChannelRole) : role.boardSide = true ↔ role = .board ∨ role = .front := by
  cases role <;> decide

theorem Sensor.lost_iff (c : Sensor) :
    c.lost = true ↔ c.state = .faulted ∨ (c.state = .holding ∧ c.value = none) := by
  simp [Sensor.lost]

theorem State.effectiveFactor_eq (s : State) (c : Cell) :
    let lux := s.scanner.channels[luxChannel c]
    s.effectiveFactor c =
      if (s.profileOf c).harvest = true ∧ ¬ (lux.state = .faulted ∨ (lux.state = .holding ∧ lux.value = none))
      then (s.lighting.cells.get c).factor else 1000 := by
  simp only [State.effectiveFactor, ← Sensor.lost_iff, Bool.and_eq_true, Bool.not_eq_true', Bool.not_eq_true]

section
variable {s : State} {i : Fin 8} {c : Cell}

theorem State.lightComputed_occupied (mode : (s.unitOf c).mode = .occupied)
    (occupied : (s.unitOf c).occupancy = .occupied) : s.lightComputed i c =
      daylightTarget s.working.settings.channelRole[i] ((s.profileOf c).scene s.working.settings.channelRole[i])
        (s.effectiveFactor c) s.working.settings.innerBoost := by
  simp [State.lightComputed, lightTargetFor, mode, occupied]

theorem State.lightComputed_clearing (mode : (s.unitOf c).mode = .occupied)
    (clearing : (s.unitOf c).occupancy = .clearing) : s.lightComputed i c =
      if s.working.settings.channelRole[i] = .board ∨ s.working.settings.channelRole[i] = .front then 0
      else min ((s.profileOf c).scene s.working.settings.channelRole[i]) s.working.settings.clearingLevel := by
  simp only [State.lightComputed, lightTargetFor, mode, clearing, ChannelRole.boardSide_iff, ↓reduceIte]

theorem State.lightComputed_await (mode : (s.unitOf c).mode = .await) : s.lightComputed i c =
    if s.working.settings.channelRole[i] = .board ∨ s.working.settings.channelRole[i] = .front then 0
    else (s.profileOf c).awaitLevel := by
  simp only [State.lightComputed, lightTargetFor, mode, ChannelRole.boardSide_iff]

theorem State.lightComputed_fire (mode : (s.unitOf c).mode = .fire) : s.lightComputed i c = 1000 := by
  simp only [State.lightComputed, lightTargetFor, mode]

theorem State.lightComputed_dark (mode : (s.unitOf c).mode = .setback ∨ (s.unitOf c).mode = .precondition ∨
    (s.unitOf c).mode = .purge) : s.lightComputed i c = 0 := by
  rcases mode with mode | mode | mode <;> simp only [State.lightComputed, lightTargetFor, mode]

end

/-! ## The start of a PWM period (R133) -/

/-- An output loads its pending duty. -/
def LightChannel.load (r : LightChannel) : LightChannel := { r with appliedDuty := r.pendingDuty }

theorem State.loadDuties_eq (s : State) : s.loadDuties = { s with lighting := { s.lighting with
    channels := changedChannels (fun _ => LightChannel.load) s.lighting.channels } } :=
  s.foldl_updChannel (fun _ => LightChannel.load) allChannels

theorem exec_pwmPeriodStart {s : State} (hs : s.Settled) : exec .pwmPeriodStart s =
    .next { s with lighting := { s.lighting with
      channels := changedChannels (fun _ => LightChannel.load) s.lighting.channels } } := by
  have executed : exec .pwmPeriodStart s = finish s.loadDuties := rfl
  rw [executed, s.loadDuties_eq]
  exact finish_same hs rfl

/-! ## Daylight (R134, R137) -/

/-- The daylight factor of a cell moves: its unit is OCCUPIED with harvest on, and no freeze holds it (R134). -/
abbrev State.Harvests (s : State) (c : Cell) (d : Daylight) : Prop :=
  (s.unitOf c).mode = .occupied ∧ (s.profileOf c).harvest = true ∧ d.frozen = false

/-- What a daylight update makes of the record of cell `c`. -/
def State.daylit (s : State) (c : Cell) (d : Daylight) : Daylight :=
  match s.scanner.channels[luxChannel c].usable with
  | some lux =>
    if s.Harvests c d then
      { d with factor := daylightAfter d.factor (s.profileOf c).lux lux s.working.settings.kd, updated := true }
    else { d with updated := false }
  | none => { d with updated := false }

section
variable {s : State} {c : Cell} {d : Daylight}

theorem State.daylit_moves {lux : Nat} (on : s.Harvests c d)
    (reading : s.scanner.channels[luxChannel c].usable = some lux) : s.daylit c d =
      { d with factor := daylightAfter d.factor (s.profileOf c).lux lux s.working.settings.kd, updated := true } := by
  simp only [State.daylit, reading]
  exact if_pos on

theorem State.daylit_rests (rests : ¬ s.Harvests c d ∨ s.scanner.channels[luxChannel c].usable = none) :
    s.daylit c d = { d with updated := false } := by
  unfold State.daylit
  split
  · next reading =>
    refine if_neg (rests.resolve_right fun absent => ?_)
    cases reading.symm.trans absent
  · rfl

end

theorem State.daylightCell_eq (s : State) (c : Cell) : s.daylightCell c = s.updDaylight c (s.daylit c) := by
  let d := s.lighting.cells.get c
  have formed (f : Daylight → Daylight) (h : f d = s.daylit c d) : s.updDaylight c f = s.updDaylight c (s.daylit c) :=
    congrArg (fun d => s.updLighting fun l => { l with cells := l.cells.set c d }) h
  unfold State.daylightCell
  dsimp only
  split
  · next lux reading =>
    split
    · next on => exact formed _ (State.daylit_moves on reading).symm
    · next off => exact formed _ (State.daylit_rests (.inl off)).symm
  · next absent => exact formed _ (State.daylit_rests (.inr absent)).symm

theorem exec_daylightUpdate {s : State} (hs : s.Settled) : exec .daylightUpdate s =
    .next { s with lighting := { s.lighting with
      cells := ⟨s.daylit .a s.lighting.cells.a, s.daylit .b s.lighting.cells.b⟩, daylightTimer := 0 } } := by
  have executed : exec .daylightUpdate s = finish s.daylightUpdate := rfl
  rw [executed, State.daylightUpdate, State.daylightCell_eq, State.daylightCell_eq]
  exact finish_same hs rfl

theorem exec_freezeTimerExpiry {s : State} (hs : s.Settled) {c : Cell}
    (frozen : (s.lighting.cells.get c).freeze.isSome = true) : exec (.freezeTimerExpiry c) s =
      .next (s.updDaylight c fun d => { d with frozen := false, freeze := none }) := by
  have executed : exec (.freezeTimerExpiry c) s = finish (s.unfreeze c) := rfl
  rw [executed, State.unfreeze, if_pos frozen]
  exact finish_same hs rfl

/-- Settles O56: the steps of the channels do not meet, and neither do the updates of the two cells, so that each record
moves by its own rule alone. -/
theorem lightsFollowTheirTargets : Obligations.LightsFollowTheirTargets := by
  intro s hs
  refine ⟨⟨_, exec_lightingStep hs, rfl, fun i => ?_⟩, ⟨_, exec_pwmPeriodStart hs, rfl, fun i => ?_⟩,
    ⟨_, exec_daylightUpdate hs, rfl, fun c => ?_⟩, fun c frozen => exec_freezeTimerExpiry hs frozen⟩
  · have record := changedChannels_get s.litChannel s.lighting.channels i
    refine ⟨fun unused => record.trans (State.litChannel_unused unused _), fun c used => ?_⟩
    intro r r' p up down w role dark scene lux lost factor
    have lit : r.lit (s.lightComputed i c) (s.lightWanted i c) p.fadeUp p.fadeDown w.driverMin[i] = r' :=
      (record.trans (State.litChannel_used used _)).symm
    obtain ⟨computed, target, loaded⟩ := LightChannel.lit_keeps lit
    have output := LightChannel.lit_output lit
    rw [← target] at output
    have effective : s.effectiveFactor c = factor := s.effectiveFactor_eq c
    refine ⟨fun mode occupied => ?_, fun mode clearing => computed.trans (State.lightComputed_clearing mode clearing),
      fun mode => computed.trans (State.lightComputed_await mode), ?_, output, LightChannel.lit_still lit,
      LightChannel.lit_moves lit, loaded, fun mode => computed.trans (State.lightComputed_fire mode),
      fun mode => computed.trans (State.lightComputed_dark mode)⟩
    · rw [computed, State.lightComputed_occupied mode occupied, effective]
      change daylightTarget role scene factor w.innerBoost = _
      cases role <;> rfl
    · rw [target, computed]
      rfl
  · exact changedChannels_get (fun _ => LightChannel.load) _ i
  · have record : (PerCell.mk (s.daylit .a s.lighting.cells.a) (s.daylit .b s.lighting.cells.b)).get c =
        s.daylit c (s.lighting.cells.get c) := by
      cases c <;> rfl
    exact ⟨fun lux on reading => record.trans (State.daylit_moves on reading),
      fun rests => record.trans (State.daylit_rests rests)⟩

end Sys2Proof.Machine
end

