-- ==== Sys2Proof/Proofs/RailMoves.lean ====
section
/-! PROOF. The rail's own events: it settles, lingers to OFF, and is found at a fault level (R160, R161). -/

namespace Sys2Proof.Machine
open Sys2Proof

/-! ## Grants (R149) -/

/-- No grant is left to make: no entry waits, or every slot is taken. -/
def State.AllGranted (s : State) : Prop :=
  s.blinds.queue = [] ∨ s.working.settings.driveSlots ≤ s.blinds.slots.length

/-- A grant takes its entry out of the queue. -/
theorem State.grantEntry_queue_length {s : State} {e : QueueEntry} {rest : List QueueEntry}
    (h : s.blinds.queue = e :: rest) : (s.grantEntry e).blinds.queue.length ≤ rest.length := by
  have queue : (s.grantEntry e).blinds.queue = rest.filter fun x => decide (x.group ≠ e.group) := by
    have filtered : (s.grantEntry e).blinds.queue = s.blinds.queue.filter fun x => decide (x.group ≠ e.group) := rfl
    rw [filtered, h, List.filter_cons_of_neg (by simp)]
  rw [queue]
  exact List.length_filter_le ..

theorem State.grantUpTo_allGranted (n : Nat) {s : State} (on : s.rail.state = .on) (h : s.blinds.queue.length ≤ n) :
    (State.grantUpTo n s).AllGranted := by
  induction n generalizing s with
  | zero => exact .inl (List.length_eq_zero_iff.mp (Nat.le_zero.mp h))
  | succ n ih =>
    unfold State.grantUpTo
    split
    · split
      · next empty => exact .inl empty
      · next e rest queue =>
        have shorter := State.grantEntry_queue_length queue
        rw [queue, List.length_cons] at h
        exact ih on (by omega)
    · next full => exact .inr (Nat.not_lt.mp fun free => full ⟨on, free⟩)

/-- On a rail that is ON, a change of the blinds is followed by grants, and the needs reach the rail without more. -/
theorem State.afterBlinds_on {s : State} (on : s.rail.state = .on) :
    s.afterBlinds = s.grants.handMotion.writeNeeds := by
  have rail : s.grants.handMotion.rail = s.rail := s.grants_keeps.same .rail rfl
  exact State.refreshNeeds_standing (by rw [rail, on]; decide)

/-! ## The rail settles (R160) -/

/-- The linger timer of a rail that is ON runs from the moment at which no need is raised. -/
def Rail.LingersUnneeded (r : Rail) : Prop := r.linger = if r.driveNeed || r.blindNeed then none else some 0

theorem State.writeNeeds_lingersUnneeded {s : State} (on : s.rail.state = .on) (h : s.rail.LingersUnneeded) :
    s.writeNeeds.rail.LingersUnneeded := by
  unfold Rail.LingersUnneeded at h ⊢
  simp only [State.writeNeeds, State.updRail_rail, on, ↓reduceIte, h]
  split
  · rfl
  · split <;> rfl

theorem State.writeNeeds_state (s : State) : s.writeNeeds.rail.state = s.rail.state := rfl

theorem State.handMotion_writeNeeds_working (s : State) : s.handMotion.writeNeeds.working = s.working := rfl

theorem State.writeNeeds_settle (s : State) : s.writeNeeds.rail.settle = s.rail.settle := rfl

/-- The rail as it comes ON. -/
def State.railOn (s : State) : State := s.updRail fun r =>
  { r with state := .on, settle := none, linger := if r.driveNeed || r.blindNeed then none else some 0 }

/-- The state in which a rail that has come ON grants slots: the dampers have taken its state. -/
def State.railSettled (s : State) : State := ((s.railOn.calRailOn .a).calRailOn .b).railToTracking

theorem State.settleRail_eq (s : State) : s.settleRail = s.railSettled.afterBlinds := rfl

theorem State.railSettled_keeps (s : State) : Keeps [.drives] s.railOn s.railSettled :=
  ((State.calRailOn_keeps _ .a).trans (State.calRailOn_keeps _ .b)).trans (State.railToTracking_keeps _)

theorem State.railToTracking_commands (s : State) (c : Cell) :
    (s.railToTracking.drives.get c).commands = (s.drives.get c).commands := by
  unfold State.railToTracking
  cases c with
  | a =>
    rw [State.refreshTracking_get_other _ (by decide), State.refreshTracking_get_self, Drive.tracked_commands]
  | b =>
    rw [State.refreshTracking_get_self, Drive.tracked_commands, State.refreshTracking_get_other _ (by decide)]

theorem State.calRailOn_get_other (s : State) {c d : Cell} (h : d ≠ c) :
    (s.calRailOn c).drives.get d = s.drives.get d := by
  unfold State.calRailOn
  split
  · split
    · exact State.calPhase_get_other _ h _
    · rfl
  · rfl

/-- A calibration in WAIT_RAIL begins CLOSING with the rail (R118). -/
theorem State.calRailOn_commands {s : State} {c : Cell} {k : DamperCal} (cal : (s.drives.get c).cal = some k)
    (waits : k.phase = .waitRail) : ((s.calRailOn c).drives.get c).commands =
      { cal := some { k with phase := .closing, elapsed := 0 }, source := .calibration, driven := 0 } := by
  have begins : s.calRailOn c = s.calPhase c { k with phase := .closing, elapsed := 0 } := by
    simp only [State.calRailOn, cal, waits, ↓reduceIte]
  rw [begins, State.calPhase_commands]
  rfl

theorem State.railSettled_commands {s : State} {c : Cell} {k : DamperCal} (cal : (s.drives.get c).cal = some k)
    (waits : k.phase = .waitRail) : (s.railSettled.drives.get c).commands =
      { cal := some { k with phase := .closing, elapsed := 0 }, source := .calibration, driven := 0 } := by
  unfold State.railSettled
  rw [State.railToTracking_commands]
  cases c with
  | a => rw [State.calRailOn_get_other _ (by decide), State.calRailOn_commands (s := s.railOn) cal waits]
  | b =>
    have other : (s.railOn.calRailOn .a).drives.get .b = s.drives.get .b := State.calRailOn_get_other _ (by decide)
    exact State.calRailOn_commands (by rw [other, cal]) waits

/-- The state that a rail that has settled leaves. -/
def State.railServing (s : State) : State := s.railSettled.grants.handMotion.writeNeeds

theorem State.railServing_keeps_settled (s : State) : Keeps [.lighting, .blinds, .rail] s.railSettled s.railServing :=
  (((State.grants_keeps _).mono rfl).trans ((State.handMotion_keeps _).mono rfl)).trans
    ((State.writeNeeds_keeps _).mono rfl)

theorem State.railServing_keeps (s : State) : Keeps [.drives, .lighting, .blinds, .rail] s s.railServing :=
  (((s.updRail_keeps _).mono rfl).trans (s.railSettled_keeps.mono rfl)).trans (s.railServing_keeps_settled.mono rfl)

theorem exec_railSettleEnd {s : State} (hs : s.Settled) (rising : s.rail.state = .rising)
    (timed : s.rail.settle.isSome = true) : exec .railSettleEnd s = .next s.railServing := by
  have run : exec .railSettleEnd s =
    finish (if s.rail.state = .rising ∧ s.rail.settle.isSome then s.settleRail else s) := rfl
  have on : s.railSettled.rail.state = .on := by rw [s.railSettled_keeps.same .rail rfl]; rfl
  rw [run, if_pos ⟨rising, timed⟩, State.settleRail_eq, State.afterBlinds_on on]
  exact finish_same hs (s.railServing_keeps.same .notices rfl)

/-- A rail that has settled is ON, and lingers where no need is raised. -/
theorem State.railServing_rail (s : State) :
    s.railServing.rail.state = .on ∧ s.railServing.rail.settle = none ∧ s.railServing.rail.LingersUnneeded := by
  let x := s.railSettled.grants.handMotion
  have granted : Keeps [.lighting, .blinds] s.railSettled x :=
    ((State.grants_keeps _).mono rfl).trans ((State.handMotion_keeps _).mono rfl)
  have rail : x.rail = s.railOn.rail := (granted.same .rail rfl).trans (s.railSettled_keeps.same .rail rfl)
  refine ⟨x.writeNeeds_state.trans (congrArg Rail.state rail), x.writeNeeds_settle.trans (congrArg Rail.settle rail),
    State.writeNeeds_lingersUnneeded (congrArg Rail.state rail) ?_⟩
  rw [rail]
  rfl

theorem State.railServing_allGranted (s : State) : s.railServing.AllGranted := by
  have on : s.railSettled.rail.state = .on := by rw [s.railSettled_keeps.same .rail rfl]; rfl
  have granted : s.railSettled.grants.AllGranted := State.grantUpTo_allGranted _ on le_rfl
  rw [State.AllGranted, State.railServing, State.handMotion_writeNeeds_blinds, State.handMotion_writeNeeds_working]
  exact granted

theorem State.railServing_commands {s : State} {c : Cell} {k : DamperCal} (cal : (s.drives.get c).cal = some k)
    (waits : k.phase = .waitRail) : (s.railServing.drives.get c).commands =
      { cal := some { k with phase := .closing, elapsed := 0 }, source := .calibration, driven := 0 } := by
  have drives : s.railServing.drives = s.railSettled.drives := s.railServing_keeps_settled.same .drives rfl
  rw [drives, State.railSettled_commands cal waits]

/-! ## The rail lingers to OFF (R160) -/

theorem exec_railLingerExpiry {s : State} (hs : s.Settled) (on : s.rail.state = .on)
    (timed : s.rail.linger.isSome = true) : exec .railLingerExpiry s = .next s.dropRail := by
  have run : exec .railLingerExpiry s = finish (if s.rail.state = .on ∧ s.rail.linger.isSome then s.dropRail else s) :=
    rfl
  rw [run, if_pos ⟨on, timed⟩]
  exact finish_same hs (s.dropRail_keeps.same .notices rfl)

/-- Off the rail tracking has ended, and nothing else of the drives has moved (R112). -/
theorem State.dropRail_get (s : State) (c : Cell) : s.dropRail.drives.get c = (s.drives.get c).tracked false := by
  unfold State.dropRail
  exact State.railToTracking_get (by simp) c

theorem State.dropRail_eq (s : State) : s.dropRail =
    { s with rail := { s.rail with state := .off, linger := none }, drives := s.dropRail.drives } := by
  unfold State.dropRail State.railToTracking State.refreshTracking
  split <;> split <;> rfl

/-! ## A fault level (R161) -/

/-- The notice of the rail's fault, behind FAULT_LATCHED where the report latches the record (log entry 44). -/
def State.railNotices (s : State) : List Notice :=
  if min 10 (s.faults[railSource].retry + 1) < s.working.settings.retryLimit then
    [s.noticeOf .railDown none (some railSource.val) (1 + 256 * FaultKind.railFault.code) none]
  else [s.noticeOf .faultLatched none (some railSource.val) (2 + 256 * FaultKind.railFault.code) none,
    s.noticeOf .railDown none (some railSource.val) (2 + 256 * FaultKind.railFault.code) none]

theorem State.reportRetry_rail_link {s : State} (h : s.faults[railSource].state = .clear) :
    (s.reportRetry railSource .railFault).link = s.link.handed s.railNotices := by
  let reported := s.faults[railSource].report .railFault s.clock.minute
  have named (limit : Nat) : (reported.policy limit).kind = .railFault := FaultRec.policy_kind ..
  unfold State.reportRetry State.railNotices
  by_cases waits : min 10 (s.faults[railSource].retry + 1) < s.working.settings.retryLimit
  · have state : (reported.policy s.working.settings.retryLimit).state = .retryWait :=
      congrArg FaultRec.state (FaultRec.policy_waits (r := reported) waits)
    simp only [h, waits, ↓reduceIte, State.updFault_faults, updAt_self, state, reduceCtorEq, State.notifyFault,
      State.notify_link, named, reported]
    rfl
  · have state : (reported.policy s.working.settings.retryLimit).state = .latched :=
      congrArg FaultRec.state (FaultRec.policy_latches (r := reported) waits)
    simp only [h, waits, ↓reduceIte, State.updFault_faults, updAt_self, state, State.notifyFault,
      State.notify_link, State.notify_faults, named, reported]
    rfl

theorem State.foldl_updGroup_slots (f : State → Fin 4 → Group → Group) (gs : List (Fin 4)) (s : State) :
    (gs.foldl (fun s g => s.updGroup g (f s g)) s).blinds.slots = s.blinds.slots := by
  induction gs generalizing s with
  | nil => rfl
  | cons g gs ih => exact ih _

/-- A rail that leaves ON takes every slot (R151). -/
theorem State.loseSlots_slots (s : State) : s.loseSlots.blinds.slots = [] := by
  unfold State.loseSlots State.returnToQueue
  dsimp only
  rw [State.foldl_updGroup_slots]
  simp

/-- The rail as a fault level leaves it, before its report. -/
def State.railDropped (s : State) : State :=
  s.updRail fun r => { r with state := .faulted, settle := none, linger := none }

theorem State.railFaulted_eq (s : State) : s.railFaulted =
    if s.rail.state = .on then (s.railDropped.reportRetry railSource .railFault).loseSlots
    else s.railDropped.reportRetry railSource .railFault := by
  simp only [State.railFaulted, decide_eq_true_eq]
  rfl

theorem State.railFaulted_keeps_reported (s : State) :
    Keeps [.notices, .blinds] (s.railDropped.reportRetry railSource .railFault) s.railFaulted := by
  rw [State.railFaulted_eq]
  exact .ite (State.loseSlots_keeps _) (.refl _ _)

theorem State.railFault_keeps_faulted (s : State) :
    Keeps [.notices, .drives, .lighting, .rail] s.railFaulted s.railFault := by
  rw [State.railFault_eq]
  exact ((((State.calRailFault_keeps _ .a).trans (State.calRailFault_keeps _ .b)).mono rfl).trans
    ((State.railToTracking_keeps _).mono rfl)).trans
    (((State.handMotion_keeps _).mono rfl).trans ((State.writeNeeds_keeps _).mono rfl))

/-- The notices of a fault of the rail: those of its report, and behind them those of the calibrations it ends. -/
theorem State.railFault_link {s : State} (clear : s.faults[railSource].state = .clear) :
    ∃ ns, s.railFault.link = (s.link.handed s.railNotices).handed ns := by
  have kept : Keeps [.notices, .drives, .lighting, .blinds, .rail] (s.railDropped.reportRetry railSource .railFault)
      s.railFault := (s.railFaulted_keeps_reported.mono rfl).trans (s.railFault_keeps_faulted.mono rfl)
  obtain ⟨ns, link⟩ := kept.same .link rfl
  rw [State.reportRetry_rail_link (s := s.railDropped) clear] at link
  exact ⟨ns, link⟩

theorem State.railFault_slots {s : State} (on : s.rail.state = .on) : s.railFault.blinds.slots = [] := by
  have blinds : s.railFault.blinds = s.railFaulted.blinds := s.railFault_keeps_faulted.same .blinds rfl
  rw [blinds, State.railFaulted_eq, if_pos on, State.loseSlots_slots]

/-- The timers of a rail that has become FAULTED stand still. -/
theorem State.railFault_timers (s : State) : s.railFault.rail.settle = none ∧ s.railFault.rail.linger = none := by
  let x := ((s.railFaulted.calRailFault .a).calRailFault .b).railToTracking
  have rail : x.handMotion.rail = s.railDropped.rail := by
    have tracked : x.rail = s.railFaulted.rail := by
      rw [(State.railToTracking_keeps _).same .rail rfl, (State.calRailFault_keeps ..).same .rail rfl,
        (State.calRailFault_keeps ..).same .rail rfl]
    have reported : s.railFaulted.rail = s.railDropped.rail :=
      (s.railFaulted_keeps_reported.same .rail rfl).trans ((State.reportRetry_keeps ..).same .rail rfl)
    exact tracked.trans reported
  rw [State.railFault_eq]
  simp only [State.writeNeeds, State.updRail_rail]
  rw [rail]
  exact ⟨rfl, rfl⟩

/-- The rail with its low level counted as held. -/
def State.railLow (s : State) (k : Nat) : State :=
  s.updRail fun r => { r with lowTimer := some (max k Config.filterMs) }

/-- A fault level of a rail that is switched on. -/
theorem exec_railDown_faults {s : State} (hs : s.Settled) {k : Nat} (low : s.rail.lowTimer = some k)
    (switched : s.rail.state = .rising ∨ s.rail.state = .on) :
    exec .railDown s = .next { (s.railLow k).railFault with link := (s.railLow k).railFault.link.startFrame } := by
  have judged : (s.railLow k).rail.state.switchedOn = true := by
    rcases switched with h | h <;> simp [State.railLow, h, RailState.switchedOn]
  have faults : s.railDown = (s.railLow k).railFault := by
    simp only [State.railDown, low]
    exact if_pos judged
  have run : exec .railDown s = finish s.railDown := rfl
  rw [run, faults]
  exact finish_kept hs (((s.updRail_keeps _).mono rfl).trans (State.railFault_keeps _)) rfl

/-- A fault level of a rail that is not switched on is not judged. -/
theorem exec_railDown_waits {s : State} (hs : s.Settled) {k : Nat} (low : s.rail.lowTimer = some k)
    (unswitched : s.rail.state = .off ∨ s.rail.state = .faulted) : exec .railDown s = .next (s.railLow k) := by
  have judged : ¬ (s.railLow k).rail.state.switchedOn = true := by
    rcases unswitched with h | h <;> simp [State.railLow, h, RailState.switchedOn]
  have waits : s.railDown = s.railLow k := by
    simp only [State.railDown, low]
    exact if_neg judged
  have run : exec .railDown s = finish s.railDown := rfl
  rw [run, waits]
  exact finish_same hs rfl

theorem FaultRec.policy_counts (r : FaultRec) (limit : Nat) :
    (r.policy limit).retry = min 10 (r.retry + 1) ∧ (r.policy limit).normal = 0 := by
  unfold FaultRec.policy
  dsimp only
  split <;> exact ⟨rfl, rfl⟩

/-- The rail's record after the report of a fault that finds it CLEAR (R172). -/
theorem State.railFault_record {s : State} (clear : s.faults[railSource].state = .clear) :
    s.railFault.faults[railSource] =
      (s.faults[railSource].report .railFault s.clock.minute).policy s.working.settings.retryLimit := by
  rw [State.railFault_faults, updAt_self]
  exact if_pos clear

/-- A fault of the rail ends tracking, and every calibration that had left WAIT_RAIL. -/
theorem State.railFault_drive (s : State) (c : Cell) : (s.railFault.drives.get c).tracking = false ∧
    ∀ k, (s.drives.get c).cal = some k → k.phase ≠ .waitRail → (s.railFault.drives.get c).cal = none := by
  rw [State.railFault_get]
  refine ⟨rfl, fun k cal begun => ?_⟩
  rw [State.railFaultDrive_cal, if_pos]
  simp [Drive.calFails, cal, begun]

/-- Settles O59: the rail that settles by its grants and its dampers' phases, the one that lingers by tracking alone,
and the fault by the report that comes before what it takes from the blinds and the dampers. -/
theorem railEventsMoveTheRail : Obligations.RailEventsMoveTheRail := by
  intro s hs
  refine ⟨fun rising timed => ?_, fun on timed => ⟨_, exec_railLingerExpiry hs on timed, s.dropRail_eq, s.dropRail_get⟩,
    fun switched timed clear => ?_, fun k unswitched low => exec_railDown_waits hs low unswitched⟩
  · have kept := s.railServing_keeps
    have working := kept.working rfl rfl rfl rfl
    have granted := s.railServing_allGranted
    rw [State.AllGranted, working] at granted
    obtain ⟨state, settle, linger⟩ := s.railServing_rail
    refine ⟨_, exec_railSettleEnd hs rising timed, state, settle, linger, granted, fun c k cal waits => ?_,
      kept.same .notices rfl, working, kept.space (by decide), kept.same .faults rfl⟩
    have commands := State.railServing_commands cal waits
    exact ⟨congrArg DriveCommands.cal commands, congrArg DriveCommands.driven commands⟩
  · obtain ⟨k, low⟩ := Option.isSome_iff_exists.mp timed
    have run := exec_railDown_faults hs low switched
    have kept : Keeps [.notices, .drives, .lighting, .blinds, .rail, .faults] s (s.railLow k).railFault :=
      ((s.updRail_keeps _).mono rfl).trans (State.railFault_keeps _)
    have state := (s.railLow k).railFault_rail
    let reported := s.faults[railSource].report .railFault s.clock.minute
    have record : (s.railLow k).railFault.faults[railSource] = reported.policy s.working.settings.retryLimit :=
      State.railFault_record (s := s.railLow k) clear
    have slots := State.railFault_slots (s := s.railLow k)
    have drives := (s.railLow k).railFault_drive
    have notices : (s.railLow k).railNotices = s.railNotices := rfl
    obtain ⟨settle, linger⟩ := (s.railLow k).railFault_timers
    obtain ⟨ns, link⟩ := State.railFault_link (s := s.railLow k) clear
    generalize (s.railLow k).railFault = t at *
    obtain ⟨retry, normal⟩ := reported.policy_counts s.working.settings.retryLimit
    refine ⟨_, ns, run, state, settle, linger, (congrArg FaultRec.kind record).trans (FaultRec.policy_kind ..),
      (congrArg FaultRec.retry record).trans retry, (congrArg FaultRec.normal record).trans normal, ?_, slots, drives,
      kept.working rfl rfl rfl rfl, kept.space (by decide)⟩
    dsimp only
    rw [record, link, notices, State.railNotices]
    by_cases waits : min 10 (s.faults[railSource].retry + 1) < s.working.settings.retryLimit
    · rw [if_pos waits, if_pos waits, FaultRec.policy_waits (r := reported) waits]
      exact ⟨rfl, rfl, rfl⟩
    · rw [if_neg waits, if_neg waits, FaultRec.policy_latches (r := reported) waits]
      exact ⟨rfl, rfl, rfl⟩

end Sys2Proof.Machine
end

