-- ==== Sys2Proof/Proofs/GroupMoves.lean ====
section
/-! PROOF. One blind group among the others: what the grants leave of a group that no entry of the queue names, and what
the operations that stop a group leave of it (R149 to R155, R158). -/

namespace Sys2Proof.Machine
open Sys2Proof

/-! ## Out of the queue (R149) -/

/-- No entry of the drive queue is of the group. -/
def Blinds.Absent (b : Blinds) (g : Fin 4) : Prop := ∀ e ∈ b.queue, e.group ≠ g

/-- The group neither waits for a slot nor holds one. -/
structure Blinds.Without (b : Blinds) (g : Fin 4) : Prop where
  absent : b.Absent g
  unslotted : g ∉ b.slots

theorem Blinds.release_without (b : Blinds) (g : Fin 4) : (b.release g).Without g where
  absent e he := by simpa using (List.mem_filter.mp he).2
  unslotted hg := by simpa using (List.mem_filter.mp hg).2

/-- A group stands as it stood, without a slot that it did not hold. -/
structure State.LeavesGroup (s : State) (g : Fin 4) (t : State) : Prop where
  group : t.blinds.groups[g] = s.blinds.groups[g]
  absent : t.blinds.Absent g
  slots : g ∈ t.blinds.slots ↔ g ∈ s.blinds.slots

theorem State.LeavesGroup.grantEntry {s x : State} {g : Fin 4} {e : QueueEntry} {rest : List QueueEntry}
    (queue : x.blinds.queue = e :: rest) (h : s.LeavesGroup g x) : s.LeavesGroup g (x.grantEntry e) := by
  have other : g ≠ e.group := (h.absent e (by rw [queue]; exact List.mem_cons_self)).symm
  refine ⟨(x.grantEntry_other e other).trans h.group, fun f hf => h.absent f (List.mem_of_mem_filter hf), ?_⟩
  have slots : (x.grantEntry e).blinds.slots = x.blinds.slots ++ [e.group] := rfl
  rw [slots, List.mem_append, List.mem_singleton, or_iff_left other, h.slots]

/-- What follows a change of the blinds leaves a group alone that is not in the queue. -/
theorem State.afterBlinds_leaves {s : State} {g : Fin 4} (h : s.blinds.Absent g) : s.LeavesGroup g s.afterBlinds := by
  have granted : s.LeavesGroup g s.grants :=
    State.grantUpTo_induction (P := s.LeavesGroup g) (fun _ _ _ queue h => h.grantEntry queue) _ ⟨rfl, h, Iff.rfl⟩
  have blinds := s.afterBlinds_blinds
  exact ⟨blinds ▸ granted.group, blinds ▸ granted.absent, blinds ▸ granted.slots⟩

/-! ## Fault records as the needs reach the rail -/

/-- The needs write no fault record but the rail's. -/
theorem State.refreshNeeds_fault (s : State) {i : Fin 21} (h : i ≠ railSource) :
    s.refreshNeeds.faults[i] = s.faults[i] := by
  have faulted (x : State) : x.railFault.faults[i] = x.faults[i] := by
    rw [State.railFault_faults, updAt_other _ _ h]
  unfold State.refreshNeeds State.raiseRail
  split
  · dsimp only
    split
    · exact faulted _
    · rfl
  · rfl

theorem State.afterBlinds_fault (s : State) {i : Fin 21} (h : i ≠ railSource) :
    s.afterBlinds.faults[i] = s.faults[i] := by
  have granted : s.grants.handMotion.faults = s.faults := s.grants_keeps.same .faults rfl
  exact (State.refreshNeeds_fault _ h).trans (by rw [granted])

theorem blindSource_ne_rail : ∀ g : Fin 4, blindSource g ≠ railSource := by decide

/-! ## The end of a command that moves the blinds -/

/-- The parts of the state that a command may have moved before the grants. -/
def blindCommandMoves : List Block := [.notices, .drives, .lighting, .blinds, .rail, .faults, .settings]

/-- The state after a command that has moved the blinds as in `y`: what follows from there. -/
structure State.Follows (y t : State) : Prop where
  link : ∃ ns, t.link = (y.link.handed ns).startFrame
  working : t.working = y.working
  space : t.space = y.space
  leaves : ∀ g, y.blinds.Absent g → y.LeavesGroup g t
  fault : ∀ g, t.faults[blindSource g] = y.faults[blindSource g]

theorem finish_afterBlinds {xs : List Block} {s y : State} (hs : s.Settled) (k : Keeps xs s y)
    (w : within xs blindCommandMoves = true) : ∃ t, finish y.afterBlinds = .next t ∧ y.Follows t := by
  have after := y.afterBlinds_keeps
  have kept : Keeps blindCommandMoves s y.afterBlinds := (k.mono w).trans (after.mono rfl)
  have leaves (g : Fin 4) := State.afterBlinds_leaves (s := y) (g := g)
  have faults (g : Fin 4) := y.afterBlinds_fault (blindSource_ne_rail g)
  have run := finish_kept hs kept rfl
  obtain ⟨ns, link⟩ := after.same .link rfl
  generalize y.afterBlinds = t at *
  exact ⟨_, run, ⟨ns, congrArg Link.startFrame link⟩, after.working rfl rfl rfl rfl, after.space (by decide),
    fun g absent => ⟨(leaves g absent).group, (leaves g absent).absent, (leaves g absent).slots⟩, faults⟩

/-- What such a command leaves of a group that neither waits nor holds a slot. -/
theorem State.Follows.without {y t : State} (h : y.Follows t) {g : Fin 4} (w : y.blinds.Without g) :
    t.blinds.groups[g] = y.blinds.groups[g] ∧ g ∉ t.blinds.slots :=
  ⟨(h.leaves g w.absent).group, fun slot => w.unslotted ((h.leaves g w.absent).slots.mp slot)⟩

/-! ## A group that stops -/

section
variable (s : State) (g : Fin 4)

theorem State.stopGroup_group (state : GroupState) :
    (s.stopGroup g state).blinds.groups[g] = s.blinds.groups[g].halt state := State.updGroup_get_self ..

theorem State.stopGroup_without (state : GroupState) : (s.stopGroup g state).blinds.Without g :=
  ⟨(s.blinds.release_without g).absent, (s.blinds.release_without g).unslotted⟩

/-- A group at the end that it was to reach. -/
theorem State.reachEnd_group : (s.reachEnd g).blinds.groups[g] =
    { s.blinds.groups[g].halt .stopped with
      estimate := s.blinds.groups[g].state.endAhead, referenced := true } := by
  unfold State.reachEnd
  rw [State.updGroup_get_self, State.stopGroup_group]

theorem State.reachEnd_without : (s.reachEnd g).blinds.Without g :=
  ⟨(s.blinds.release_without g).absent, (s.blinds.release_without g).unslotted⟩

theorem State.reachEnd_link : (s.reachEnd g).link = s.link := rfl

/-! ## The end of a calibration (R158, R159) -/

/-- A calibration has ended OK. -/
def CalResult.isOk : CalResult → Bool
  | .ok _ => true
  | _ => false

theorem State.endBlindCal_group (state : GroupState) (r : CalResult) : (s.endBlindCal g state r).blinds.groups[g] =
    { s.blinds.groups[g].halt state with
      cal := none, referenced := r.isOk
      estimate := if r.isOk then 0 else s.blinds.groups[g].estimate } := by
  unfold State.endBlindCal
  simp only [State.notify_blinds]
  rw [State.updGroup_get_self, State.stopGroup_group]
  cases r <;> rfl

theorem State.endBlindCal_without (state : GroupState) (r : CalResult) :
    (s.endBlindCal g state r).blinds.Without g :=
  ⟨(s.blinds.release_without g).absent, (s.blinds.release_without g).unslotted⟩

theorem State.endBlindCal_link (state : GroupState) (r : CalResult) : (s.endBlindCal g state r).link =
    s.link.place (s.noticeOf .calibrationDone none (some (blindSource g).val) r.value none) := rfl

end

/-! ## The fault of a group (R155) -/

theorem State.retried_kind (s : State) (kind : FaultKind) (r : FaultRec) : (s.retried kind r).kind = kind := by
  unfold State.retried
  split
  · exact FaultRec.policy_kind ..
  · rfl

/-- What the report of a fault makes of its group and of the group's record. -/
structure State.GroupFaulted (s : State) (g : Fin 4) (kind : FaultKind) (y : State) : Prop where
  state : y.blinds.groups[g].state = .fault
  cal : y.blinds.groups[g].cal = none
  estimate : y.blinds.groups[g].estimate = s.blinds.groups[g].estimate
  referenced : s.blinds.groups[g].cal = none →
    y.blinds.groups[g].referenced = if kind = .motorCutout then false else s.blinds.groups[g].referenced
  without : y.blinds.Without g
  kind : y.faults[blindSource g].kind = kind
  standing : y.faults[blindSource g].state ≠ .clear

/-- A group in FAULT, its fault reported, before its calibration ends. -/
def State.faultReported (s : State) (g : Fin 4) (kind : FaultKind) : State :=
  ((s.stopGroup g .fault).updGroup g fun r =>
    { r with referenced := if kind = .motorCutout then false else r.referenced }).reportRetry (blindSource g) kind

section
variable (s : State) (g : Fin 4) (kind : FaultKind)

theorem State.blindFault_eq : s.blindFault g kind =
    if s.blinds.groups[g].cal.isSome then (s.faultReported g kind).endBlindCal g .fault (.aborted .fault)
    else s.faultReported g kind := rfl

theorem State.faultReported_blinds : (s.faultReported g kind).blinds =
    ((s.stopGroup g .fault).updGroup g fun r =>
      { r with referenced := if kind = .motorCutout then false else r.referenced }).blinds :=
  (State.reportRetry_keeps ..).same .blinds rfl

theorem State.faultReported_group : (s.faultReported g kind).blinds.groups[g] =
    { s.blinds.groups[g].halt .fault with
      referenced := if kind = .motorCutout then false else s.blinds.groups[g].referenced } := by
  rw [State.faultReported_blinds, State.updGroup_get_self, State.stopGroup_group]
  rfl

theorem State.faultReported_without : (s.faultReported g kind).blinds.Without g := by
  rw [State.faultReported_blinds]
  exact ⟨(s.stopGroup_without g .fault).absent, (s.stopGroup_without g .fault).unslotted⟩

theorem State.faultReported_record :
    (s.faultReported g kind).faults[blindSource g] = s.retried kind s.faults[blindSource g] :=
  State.reportRetry_record ..

theorem State.blindFault_faulted : s.GroupFaulted g kind (s.blindFault g kind) := by
  have group := s.faultReported_group g kind
  have without := s.faultReported_without g kind
  have record := s.faultReported_record g kind
  rw [State.blindFault_eq]
  generalize s.faultReported g kind = x at *
  have standing : x.faults[blindSource g].state ≠ .clear := by rw [record]; exact s.retried_standing _ _
  have named : x.faults[blindSource g].kind = kind := by rw [record, State.retried_kind]
  split
  · next calibrating =>
    have ended := x.endBlindCal_group g .fault (.aborted .fault)
    have without := x.endBlindCal_without g .fault (.aborted .fault)
    have faults : (x.endBlindCal g .fault (.aborted .fault)).faults = x.faults := rfl
    rw [group] at ended
    rw [← faults] at named standing
    generalize x.endBlindCal g .fault (.aborted .fault) = y at *
    refine ⟨by rw [ended]; rfl, by rw [ended], by rw [ended]; rfl, fun idle => ?_, without, named, standing⟩
    rw [idle] at calibrating
    exact absurd calibrating (by decide)
  · next idle =>
    exact ⟨by rw [group]; rfl, by rw [group]; exact Option.not_isSome_iff_eq_none.mp idle,
      by rw [group]; rfl, fun _ => by rw [group], without, named, standing⟩

end

end Sys2Proof.Machine
end

