-- ==== Sys2Proof/Proofs/BlindMovesEnd.lean ====
section
/-! PROOF. The ends of a blind's move and of its calibration legs: the tests of a current sample (R152 to R154, R158),
the overrun, the leg timeout and the pause (R150, R152, R158). -/

namespace Sys2Proof.Machine
open Sys2Proof

/-! ## A sample is taken (R144, R152) -/

theorem GroupState.energised_iff (x : GroupState) : x.energised = true ↔ x = .movingUp ∨ x = .movingDown := by
  cases x <;> decide

theorem GroupState.endAhead_eq (x : GroupState) : x.endAhead = if x = .movingDown then 1000 else 0 := by
  cases x <;> rfl

theorem clampNat_zero (hi v : Nat) : clampNat 0 hi v = min hi v := by
  rw [clampNat, if_neg (Nat.not_lt_zero v)]
  split <;> omega

theorem State.travelOf_eq (s : State) (g : Fin 4) : s.travelOf g =
    if s.blinds.groups[g].state = .movingDown then s.working.settings.travelDown[g]
    else s.working.settings.travelUp[g] := by
  unfold State.travelOf
  cases s.blinds.groups[g].state <;> rfl

theorem Group.segmentEstimate_eq (r : Group) (travel : Nat) : r.segmentEstimate travel =
    if r.state = .movingDown then min 1000 (r.segStart + r.segMs * 1000 / travel)
    else min 1000 (r.segStart - r.segMs * 1000 / travel) := by
  simp only [Group.segmentEstimate, clampNat_zero]
  cases r.state <;> rfl

theorem Group.atGoal_iff (r : Group) : r.atGoal = true ↔
    (r.state = .movingDown ∧ r.goal ≤ r.estimate) ∨ (¬ r.state = .movingDown ∧ r.estimate ≤ r.goal) := by
  unfold Group.atGoal
  cases r.state <;> simp

/-- The record of a group once a sample has been taken, before it is judged. -/
def State.sampledGroup (s : State) (g : Fin 4) (current : Nat) : Group :=
  Group.sampled { s.blinds.groups[g] with sensePin := current } current (s.travelOf g) s.working.settings.stallThreshold

/-- The state in which a sample is judged. -/
def State.sampled (s : State) (g : Fin 4) (current : Nat) : State := s.updGroup g fun _ => s.sampledGroup g current

section
variable (s : State) (g : Fin 4) (current : Nat)

theorem State.sampled_group : (s.sampled g current).blinds.groups[g] = s.sampledGroup g current :=
  State.updGroup_get_self ..

theorem State.sampledGroup_estimate : (s.sampledGroup g current).estimate =
    let r := s.blinds.groups[g]
    let travel := if r.state = .movingDown then s.working.settings.travelDown[g] else s.working.settings.travelUp[g]
    let moved := (r.segMs + (50 - r.sampleMs)) * 1000 / travel
    if r.state = .movingDown then min 1000 (r.segStart + moved) else min 1000 (r.segStart - moved) := by
  dsimp only
  rw [← s.travelOf_eq g]
  exact Group.segmentEstimate_eq _ _

/-- A current within the stall threshold counts toward no stall (R153). -/
theorem State.sampledGroup_stallCount (h : current ≤ s.working.settings.stallThreshold) :
    (s.sampledGroup g current).stallCount = 0 := if_neg (Nat.not_lt.mpr h)

theorem State.sampledGroup_stalls (h : s.working.settings.stallThreshold < current) :
    (s.sampledGroup g current).stallCount = s.blinds.groups[g].stallCount + 1 := if_pos h

end

/-- A current sample of a group whose relay is energised, and what follows from it. -/
theorem exec_currentSample {s : State} (hs : s.Settled) {g : Fin 4} (current : Half)
    (energised : s.blinds.groups[g].state.energised = true) :
    ∃ t, exec (.currentSample g current) s = .next t ∧
      ((s.sampled g current.toNat).judgeSample g current.toNat).Follows t := by
  let sensed := s.updGroup g fun r => { r with sensePin := current.toNat }
  have group : sensed.blinds.groups[g] = { s.blinds.groups[g] with sensePin := current.toNat } :=
    s.updGroup_get_self g _
  have travel : sensed.travelOf g = s.travelOf g := by
    rw [State.travelOf_eq, State.travelOf_eq, group]
    rfl
  have taken : (sensed.updGroup g fun r =>
      r.sampled current.toNat (s.travelOf g) sensed.working.settings.stallThreshold) = s.sampled g current.toNat := by
    simp only [sensed, State.updGroup, State.updBlinds, updAt_updAt]
    rfl
  have sampled : sensed.currentSample g current.toNat =
      ((s.sampled g current.toNat).judgeSample g current.toNat).afterBlinds := by
    have runs : sensed.blinds.groups[g].state.energised = true := by rw [group]; exact energised
    rw [← taken, ← travel]
    exact if_pos runs
  have run : exec (.currentSample g current) s = finish (sensed.currentSample g current.toNat) := rfl
  rw [run, sampled]
  exact finish_afterBlinds hs (((s.updGroup_keeps g _).mono rfl).trans (State.judgeSample_keeps _ g _)) rfl

/-! ## The order of the tests (log entry 18) -/

/-- The 800 ms test has been made. -/
def State.runTestMade (s : State) (g : Fin 4) : State := s.updGroup g fun r => { r with runTested := true }

section
variable {x : State} {g : Fin 4} {current : Nat}

theorem State.judgeSample_stall (h : 20 ≤ x.blinds.groups[g].stallCount) :
    x.judgeSample g current = x.blindFault g .stall := if_pos h

/-- A group whose stall count stands at 0 is not found to stall. -/
theorem State.judgeSample_calm (calm : x.blinds.groups[g].stallCount = 0) : x.judgeSample g current =
    if x.blinds.groups[g].runTested = false ∧ 800 ≤ x.blinds.groups[g].runMs then
      if current < x.working.settings.runThreshold then (x.runTestMade g).motorSilent g
      else (x.runTestMade g).targetTest g
    else if x.blinds.groups[g].runTested = true ∧ current < x.working.settings.runThreshold then x.endSwitch g
    else x.targetTest g := by
  have free : ¬ Config.stallSamples ≤ x.blinds.groups[g].stallCount := by rw [calm]; decide
  refine (if_neg free).trans ?_
  simp only [decide_eq_true_eq]
  rfl

theorem State.judgeSample_endSwitch (calm : x.blinds.groups[g].stallCount = 0)
    (tested : x.blinds.groups[g].runTested = true) (silent : current < x.working.settings.runThreshold) :
    x.judgeSample g current = x.endSwitch g := by
  rw [State.judgeSample_calm calm, if_neg (by rw [tested]; simp), if_pos ⟨tested, silent⟩]

theorem State.judgeSample_silent (calm : x.blinds.groups[g].stallCount = 0)
    (untested : x.blinds.groups[g].runTested = false) (due : 800 ≤ x.blinds.groups[g].runMs)
    (silent : current < x.working.settings.runThreshold) :
    x.judgeSample g current = (x.runTestMade g).motorSilent g := by
  rw [State.judgeSample_calm calm, if_pos ⟨untested, due⟩, if_pos silent]

theorem State.updGroup_id {f : Group → Group} (h : f x.blinds.groups[g] = x.blinds.groups[g]) :
    x.updGroup g f = x := by
  simp only [State.updGroup, State.updBlinds, updAt_id _ _ _ h]

/-- A motor that runs is tested for its target, the 800 ms test made or not. -/
theorem State.judgeSample_runs (calm : x.blinds.groups[g].stallCount = 0)
    (runs : x.working.settings.runThreshold ≤ current) :
    ∃ tested, x.judgeSample g current = (x.updGroup g fun r => { r with runTested := tested }).targetTest g := by
  have loud : ¬ current < x.working.settings.runThreshold := Nat.not_lt.mpr runs
  simp only [State.judgeSample_calm calm, loud, and_false, ↓reduceIte]
  split
  · exact ⟨true, rfl⟩
  · exact ⟨x.blinds.groups[g].runTested, by rw [State.updGroup_id rfl]⟩

end

/-! ## The target test (R152) -/

/-- What the target test makes of a group that is not calibrating. -/
structure State.TargetTested (x : State) (g : Fin 4) (y : State) : Prop where
  estimate : y.blinds.groups[g].estimate = x.blinds.groups[g].estimate
  current : y.blinds.groups[g].current = x.blinds.groups[g].current
  absent : x.blinds.Absent g → y.blinds.Absent g
  stops : x.blinds.groups[g].atGoal = true → x.blinds.groups[g].goal ≠ x.blinds.groups[g].state.endAhead →
    y.blinds.groups[g].state = .stopped ∧ g ∉ y.blinds.slots
  overruns : x.blinds.groups[g].atGoal = true → x.blinds.groups[g].goal = x.blinds.groups[g].state.endAhead →
    y.blinds.groups[g].state = x.blinds.groups[g].state ∧ y.blinds.groups[g].overrun.isSome = true
  goesOn : ¬ x.blinds.groups[g].atGoal = true →
    y.blinds.groups[g].state = x.blinds.groups[g].state ∧ y.blinds.groups[g].goal = x.blinds.groups[g].goal

theorem State.targetTest_tested {x : State} {g : Fin 4} (idle : x.blinds.groups[g].cal = none) :
    x.TargetTested g (x.targetTest g) := by
  unfold State.targetTest
  simp only [idle, Option.isSome_none, Bool.false_eq_true, ↓reduceIte]
  split
  · next there =>
    split
    · next ends =>
      have group := x.updGroup_get_self g fun r => { r with overrun := some (r.overrun.getD 0) }
      exact ⟨by rw [group], by rw [group], id, fun _ inner => absurd ends inner,
        fun _ _ => by rw [group]; exact ⟨rfl, rfl⟩, fun short => absurd there short⟩
    · next inner =>
      have group := x.stopGroup_group g .stopped
      have without := x.stopGroup_without g .stopped
      exact ⟨by rw [group]; rfl, by rw [group]; rfl, fun _ => without.absent,
        fun _ _ => ⟨by rw [group]; rfl, without.unslotted⟩, fun _ ends => absurd ends inner,
        fun short => absurd there short⟩
  · next short =>
    exact ⟨rfl, rfl, id, fun there => absurd there short, fun there => absurd there short, fun _ => ⟨rfl, rfl⟩⟩

/-! ## The end switch and the silent motor (R153, R154) -/

/-- An end switch is believed near the end ahead, and on a reference move of an unreferenced group anywhere (R154). -/
def Group.BelievesEnd (r : Group) : Prop :=
  distance r.state.endAhead r.estimate ≤ 200 ∨ (r.referenced = false ∧ r.refMove = true)

section
variable {x : State} {g : Fin 4}

theorem State.endSwitch_seen (idle : x.blinds.groups[g].cal = none) (near : x.blinds.groups[g].BelievesEnd) :
    x.endSwitch g = x.reachEnd g := by
  simp only [State.endSwitch, idle]
  exact if_pos near

theorem State.endSwitch_cutout (idle : x.blinds.groups[g].cal = none) (far : ¬ x.blinds.groups[g].BelievesEnd) :
    x.endSwitch g = x.blindFault g .motorCutout := by
  simp only [State.endSwitch, idle]
  exact if_neg far

theorem State.endSwitch_leg {k : BlindCal} (cal : x.blinds.groups[g].cal = some k) :
    x.endSwitch g = x.finishLeg g k := by
  simp only [State.endSwitch, cal]

/-- A silent motor stands at the end that it was to reach (R153). -/
def Group.StandsAtEnd (r : Group) : Prop :=
  r.goal = r.state.endAhead ∧ (r.referenced = false ∨ distance r.state.endAhead r.estimate ≤ 200)

theorem State.motorSilent_atEnd (idle : x.blinds.groups[g].cal = none) (atEnd : x.blinds.groups[g].StandsAtEnd) :
    x.motorSilent g = x.reachEnd g := by
  simp only [State.motorSilent, idle]
  exact if_pos atEnd

theorem State.motorSilent_fault (idle : x.blinds.groups[g].cal = none) (away : ¬ x.blinds.groups[g].StandsAtEnd) :
    x.motorSilent g = x.blindFault g .noMotor := by
  simp only [State.motorSilent, idle]
  exact if_neg away

/-- In a calibration the test is of the leg alone (log entry 69). -/
theorem State.motorSilent_leg {k : BlindCal} (cal : x.blinds.groups[g].cal = some k) :
    x.motorSilent g = if k.leg = 1 then x.finishLeg g k else x.blindFault g .noMotor := by
  simp only [State.motorSilent, cal]

/-! ## The end of a leg (R158) -/

/-- A group in the pause before a leg. -/
def Group.paused (r : Group) (next : BlindCal) : Group := { r.reverse with cal := some next }

theorem State.finishLeg_first {k : BlindCal} (first : k.leg = 1) : x.finishLeg g k =
    x.updGroup g fun r => { r.paused { k with leg := 2 } with estimate := 0, referenced := true } := if_pos first

theorem State.finishLeg_short {k : BlindCal} (later : k.leg ≠ 1) (short : x.blinds.groups[g].legMs < 5000) :
    x.finishLeg g k = x.endBlindCal g .stopped (.failed .shortTravel) := (if_neg later).trans (if_pos short)

theorem State.finishLeg_second {k : BlindCal} (second : k.leg = 2) (long : 5000 ≤ x.blinds.groups[g].legMs) :
    x.finishLeg g k = x.updGroup g fun r => r.paused { leg := 3, travelDown := r.legMs } := by
  have run : ¬ x.blinds.groups[g].legMs < Config.minTravelMs := Nat.not_lt.mpr long
  simp only [State.finishLeg, second, run, OfNat.ofNat_ne_one, ↓reduceIte]
  rfl

theorem State.finishLeg_third {k : BlindCal} (third : k.leg = 3) (long : 5000 ≤ x.blinds.groups[g].legMs) :
    x.finishLeg g k = x.finishBlindCal g k.travelDown x.blinds.groups[g].legMs := by
  have run : ¬ x.blinds.groups[g].legMs < Config.minTravelMs := Nat.not_lt.mpr long
  simp only [State.finishLeg, third, run, OfNat.ofNat_ne_one, Nat.reduceEqDiff, ↓reduceIte]

end

/-! ## What follows the end of a move -/

namespace State.Follows
variable {x t : State} {g : Fin 4}

theorem reachEnd (h : (x.reachEnd g).Follows t) :
    t.blinds.groups[g].estimate = x.blinds.groups[g].state.endAhead ∧ t.blinds.groups[g].referenced = true ∧
      t.blinds.groups[g].state = .stopped ∧ g ∉ t.blinds.slots := by
  obtain ⟨group, slots⟩ := h.without (x.reachEnd_without g)
  rw [State.reachEnd_group] at group
  rw [group]
  exact ⟨rfl, rfl, rfl, slots⟩

theorem endBlindCal {r : CalResult} (h : (x.endBlindCal g .stopped r).Follows t) :
    t.blinds.groups[g] = { x.blinds.groups[g].halt .stopped with
        cal := none, referenced := r.isOk, estimate := if r.isOk then 0 else x.blinds.groups[g].estimate } ∧
      g ∉ t.blinds.slots := by
  rw [← State.endBlindCal_group]
  exact h.without (x.endBlindCal_without g .stopped r)

theorem updGroup {f : Group → Group} (h : (x.updGroup g f).Follows t) (absent : x.blinds.Absent g) :
    t.blinds.groups[g] = f x.blinds.groups[g] ∧ (g ∈ t.blinds.slots ↔ g ∈ x.blinds.slots) := by
  have leaves := h.leaves g absent
  exact ⟨leaves.group.trans (x.updGroup_get_self g f), leaves.slots⟩

/-- A fault of the group, as it stands after what follows it. -/
theorem blindFault {kind : FaultKind} (h : (x.blindFault g kind).Follows t) :
    x.GroupFaulted g kind t := by
  have faulted := x.blindFault_faulted g kind
  have leaves := h.leaves g faulted.without.absent
  have record := h.fault g
  exact ⟨by rw [leaves.group, faulted.state], by rw [leaves.group, faulted.cal],
    by rw [leaves.group, faulted.estimate], fun idle => by rw [leaves.group, faulted.referenced idle],
    ⟨leaves.absent, fun slot => faulted.without.unslotted (leaves.slots.mp slot)⟩, by rw [record, faulted.kind],
    by rw [record]; exact faulted.standing⟩

end State.Follows

/-! ## The current samples (R152 to R154) -/

section
variable {s : State} (hs : s.Settled) {g : Fin 4} (current : Half)
  (energised : s.blinds.groups[g].state.energised = true)
include hs energised

/-- A sample that finds no fault and no end (R152). -/
theorem currentSample_runs (idle : s.blinds.groups[g].cal = none)
    (runs : s.working.settings.runThreshold ≤ current.toNat)
    (low : current.toNat ≤ s.working.settings.stallThreshold) (absent : s.blinds.Absent g) :
    ∃ t ns, exec (.currentSample g current) s = .next t ∧ t.link = (s.link.handed ns).startFrame ∧
      t.blinds.groups[g].estimate = (s.sampledGroup g current.toNat).estimate ∧
      t.blinds.groups[g].current = some current.toNat ∧ t.working = s.working ∧ t.space = s.space ∧
      ((s.sampledGroup g current.toNat).atGoal = true →
        s.blinds.groups[g].goal ≠ s.blinds.groups[g].state.endAhead →
          t.blinds.groups[g].state = .stopped ∧ g ∉ t.blinds.slots) ∧
      ((s.sampledGroup g current.toNat).atGoal = true →
        s.blinds.groups[g].goal = s.blinds.groups[g].state.endAhead →
          t.blinds.groups[g].state = s.blinds.groups[g].state ∧ t.blinds.groups[g].overrun.isSome = true) ∧
      (¬ (s.sampledGroup g current.toNat).atGoal = true →
        t.blinds.groups[g].state = s.blinds.groups[g].state ∧
          t.blinds.groups[g].goal = s.blinds.groups[g].goal) := by
  let x := s.sampled g current.toNat
  have calm : x.blinds.groups[g].stallCount = 0 := by rw [s.sampled_group]; exact s.sampledGroup_stallCount g _ low
  obtain ⟨t, run, follows⟩ := exec_currentSample hs current energised
  obtain ⟨tested, judged⟩ := State.judgeSample_runs (x := x) (current := current.toNat) calm runs
  rw [judged] at follows
  let y := x.updGroup g fun r => { r with runTested := tested }
  have group : y.blinds.groups[g] = { s.sampledGroup g current.toNat with runTested := tested } := by
    rw [State.updGroup_get_self, s.sampled_group]
  have result := State.targetTest_tested (x := y) (g := g) (by rw [group]; exact idle)
  have kept : Keeps [.blinds] y (y.targetTest g) := y.targetTest_keeps g
  have working := follows.working.trans (kept.working rfl rfl rfl rfl)
  have space := follows.space.trans (kept.space (by decide))
  obtain ⟨ns, link⟩ := follows.link
  rw [kept.same .notices rfl] at link
  have leaves := follows.leaves g (result.absent absent)
  obtain ⟨estimate, sensed, -, stops, overruns, goesOn⟩ := result
  rw [group] at estimate sensed stops overruns goesOn
  refine ⟨t, ns, run, link, ?_, ?_, working, space, fun there inner => ?_, fun there ends => ?_, fun short => ?_⟩
  · rw [leaves.group, estimate]
  · rw [leaves.group, sensed]; rfl
  · rw [leaves.group, leaves.slots]; exact stops there inner
  · rw [leaves.group]; exact overruns there ends
  · rw [leaves.group]; exact goesOn short

/-- A current above the stall threshold for the last of the 20 samples (R153). -/
theorem currentSample_stalls (high : s.working.settings.stallThreshold < current.toNat)
    (count : 19 ≤ s.blinds.groups[g].stallCount) :
    ∃ t, exec (.currentSample g current) s = .next t ∧ (s.sampled g current.toNat).GroupFaulted g .stall t := by
  obtain ⟨t, run, follows⟩ := exec_currentSample hs current energised
  rw [State.judgeSample_stall (by rw [s.sampled_group, s.sampledGroup_stalls g _ high]; omega)] at follows
  exact ⟨t, run, follows.blindFault⟩

/-- A silent motor after the 800 ms test (R154). -/
theorem currentSample_ends (idle : s.blinds.groups[g].cal = none) (tested : s.blinds.groups[g].runTested = true)
    (silent : current.toNat < s.working.settings.runThreshold)
    (low : current.toNat ≤ s.working.settings.stallThreshold) :
    ∃ t ns, exec (.currentSample g current) s = .next t ∧
      ((s.sampledGroup g current.toNat).BelievesEnd → t.link = (s.link.handed ns).startFrame ∧
        t.blinds.groups[g].estimate = s.blinds.groups[g].state.endAhead ∧
        t.blinds.groups[g].referenced = true ∧ t.blinds.groups[g].state = .stopped ∧ g ∉ t.blinds.slots) ∧
      (¬ (s.sampledGroup g current.toNat).BelievesEnd →
        (s.sampled g current.toNat).GroupFaulted g .motorCutout t) := by
  have group := s.sampled_group g current.toNat
  obtain ⟨t, run, follows⟩ := exec_currentSample hs current energised
  rw [State.judgeSample_endSwitch (x := s.sampled g current.toNat)
    (by rw [group]; exact s.sampledGroup_stallCount g _ low) (by rw [group]; exact tested) silent] at follows
  obtain ⟨ns, link⟩ := follows.link
  refine ⟨t, ns, run, fun near => ?_, fun far => ?_⟩
  · rw [State.endSwitch_seen (by rw [group]; exact idle) (by rw [group]; exact near)] at follows link
    have ended := follows.reachEnd
    rw [group] at ended
    rw [State.reachEnd_link, State.sampled, State.updGroup_link] at link
    exact ⟨link, ended⟩
  · rw [State.endSwitch_cutout (by rw [group]; exact idle) (by rw [group]; exact far)] at follows
    exact follows.blindFault

/-- A silent motor at the 800 ms test (R153). -/
theorem currentSample_silent (idle : s.blinds.groups[g].cal = none) (untested : s.blinds.groups[g].runTested = false)
    (due : 800 ≤ s.blinds.groups[g].runMs + (50 - s.blinds.groups[g].sampleMs))
    (silent : current.toNat < s.working.settings.runThreshold)
    (low : current.toNat ≤ s.working.settings.stallThreshold) :
    ∃ t ns, exec (.currentSample g current) s = .next t ∧
      ((s.sampledGroup g current.toNat).StandsAtEnd → t.link = (s.link.handed ns).startFrame ∧
        t.blinds.groups[g].estimate = s.blinds.groups[g].state.endAhead ∧
        t.blinds.groups[g].referenced = true ∧ t.blinds.groups[g].state = .stopped ∧ g ∉ t.blinds.slots) ∧
      (¬ (s.sampledGroup g current.toNat).StandsAtEnd →
        ((s.sampled g current.toNat).runTestMade g).GroupFaulted g .noMotor t ∧
          t.blinds.groups[g].estimate = (s.sampledGroup g current.toNat).estimate ∧
          t.blinds.groups[g].referenced = s.blinds.groups[g].referenced) := by
  have sampled := s.sampled_group g current.toNat
  have group : ((s.sampled g current.toNat).runTestMade g).blinds.groups[g] =
      { s.sampledGroup g current.toNat with runTested := true } := by
    rw [State.runTestMade, State.updGroup_get_self, sampled]
  obtain ⟨t, run, follows⟩ := exec_currentSample hs current energised
  rw [State.judgeSample_silent (x := s.sampled g current.toNat)
    (by rw [sampled]; exact s.sampledGroup_stallCount g _ low) (by rw [sampled]; exact untested)
    (by rw [sampled]; exact due) silent] at follows
  obtain ⟨ns, link⟩ := follows.link
  refine ⟨t, ns, run, fun atEnd => ?_, fun away => ?_⟩
  · rw [State.motorSilent_atEnd (by rw [group]; exact idle) (by rw [group]; exact atEnd)] at follows link
    have ended := follows.reachEnd
    rw [group] at ended
    rw [State.reachEnd_link, State.runTestMade, State.updGroup_link, State.sampled, State.updGroup_link] at link
    exact ⟨link, ended⟩
  · rw [State.motorSilent_fault (by rw [group]; exact idle) (by rw [group]; exact away)] at follows
    have fault := follows.blindFault
    have referenced := fault.referenced (by rw [group]; exact idle)
    have estimate := fault.estimate
    rw [group] at referenced estimate
    exact ⟨fault, estimate, referenced⟩

end

/-! ## The samples of a calibration leg (R158, log entry 69) -/

/-- A group of a calibration in the pause before its next leg, its slot kept. -/
def State.LegPauses (s : State) (g : Fin 4) (next : BlindCal) (t : State) : Prop :=
  t.blinds.groups[g].state = .reversing ∧ t.blinds.groups[g].cal = some next ∧ t.blinds.groups[g].reverseMs = 0 ∧
    (g ∈ s.blinds.slots → g ∈ t.blinds.slots) ∧ t.working = s.working

/-- A group whose calibration has ended, with CALIBRATION_DONE ahead of the notices of what follows. -/
def State.CalEnds (s : State) (g : Fin 4) (value : Nat) (ns : List Notice) (t : State) : Prop :=
  t.blinds.groups[g].state = .stopped ∧ t.blinds.groups[g].cal = none ∧ g ∉ t.blinds.slots ∧
    t.link = ((s.link.place (s.noticeOf .calibrationDone none (some (blindSource g).val) value none)).handed
      ns).startFrame

theorem State.Follows.legPauses {x t : State} {g : Fin 4} {f : Group → Group} {next : BlindCal}
    (h : (x.updGroup g f).Follows t) (absent : x.blinds.Absent g) (state : (f x.blinds.groups[g]).state = .reversing)
    (cal : (f x.blinds.groups[g]).cal = some next) (pause : (f x.blinds.groups[g]).reverseMs = 0) :
    x.LegPauses g next t := by
  obtain ⟨group, slots⟩ := h.updGroup absent
  unfold State.LegPauses
  rw [group]
  exact ⟨state, cal, pause, slots.mpr, h.working⟩

theorem State.Follows.calEnds {x t : State} {g : Fin 4} {r : CalResult} (h : (x.endBlindCal g .stopped r).Follows t)
    {ns : List Notice} (link : t.link = ((x.endBlindCal g .stopped r).link.handed ns).startFrame) :
    x.CalEnds g r.value ns t := by
  obtain ⟨group, slots⟩ := h.endBlindCal
  rw [State.endBlindCal_link] at link
  unfold State.CalEnds
  rw [group]
  exact ⟨rfl, rfl, slots, link⟩

section
variable {s : State} (hs : s.Settled) {g : Fin 4} (current : Half)
  (energised : s.blinds.groups[g].state.energised = true) {k : BlindCal} (cal : s.blinds.groups[g].cal = some k)
  (silent : current.toNat < s.working.settings.runThreshold)
  (low : current.toNat ≤ s.working.settings.stallThreshold)

section
include cal silent low

/-- A leg that has passed its 800 ms test ends at its end switch. -/
theorem State.judgeSample_leg (tested : s.blinds.groups[g].runTested = true) :
    (s.sampled g current.toNat).judgeSample g current.toNat = (s.sampled g current.toNat).finishLeg g k := by
  have group := s.sampled_group g current.toNat
  rw [State.judgeSample_endSwitch (x := s.sampled g current.toNat)
    (by rw [group]; exact s.sampledGroup_stallCount g _ low) (by rw [group]; exact tested) silent]
  exact State.endSwitch_leg (by rw [group]; exact cal)

/-- The 800 ms test of a leg. -/
theorem State.judgeSample_leg_silent (untested : s.blinds.groups[g].runTested = false)
    (due : 800 ≤ s.blinds.groups[g].runMs + (50 - s.blinds.groups[g].sampleMs)) :
    (s.sampled g current.toNat).judgeSample g current.toNat =
      if k.leg = 1 then ((s.sampled g current.toNat).runTestMade g).finishLeg g k
      else ((s.sampled g current.toNat).runTestMade g).blindFault g .noMotor := by
  have sampled := s.sampled_group g current.toNat
  rw [State.judgeSample_silent (x := s.sampled g current.toNat)
    (by rw [sampled]; exact s.sampledGroup_stallCount g _ low) (by rw [sampled]; exact untested)
    (by rw [sampled]; exact due) silent]
  refine State.motorSilent_leg ?_
  rw [State.runTestMade, State.updGroup_get_self, sampled]
  exact cal

end

include hs energised cal silent low

/-- A silent motor in a calibration: the leg ends by its number and its time, or the motor did not run. -/
theorem currentSample_leg (absent : s.blinds.Absent g) :
    ∃ t ns, exec (.currentSample g current) s = .next t ∧ t.space = s.space ∧
      (s.blinds.groups[g].runTested = true → k.leg ≠ 1 → (s.sampledGroup g current.toNat).legMs < 5000 →
        s.CalEnds g (6 + 16777216) ns t ∧ t.blinds.groups[g].referenced = false ∧ t.working = s.working) ∧
      (s.blinds.groups[g].runTested = true → k.leg = 2 → 5000 ≤ (s.sampledGroup g current.toNat).legMs →
        s.LegPauses g { leg := 3, travelDown := (s.sampledGroup g current.toNat).legMs } t) ∧
      (s.blinds.groups[g].runTested = true → k.leg = 3 → 5000 ≤ (s.sampledGroup g current.toNat).legMs →
        s.CalEnds g k.travelDown ns t ∧ t.blinds.groups[g].referenced = true ∧ t.blinds.groups[g].estimate = 0 ∧
        t.working = { s.working with settings := { s.working.settings with
          travelDown := s.working.settings.travelDown.set g k.travelDown
          travelUp := s.working.settings.travelUp.set g (s.sampledGroup g current.toNat).legMs } }) ∧
      (s.blinds.groups[g].runTested = true ∨
          800 ≤ s.blinds.groups[g].runMs + (50 - s.blinds.groups[g].sampleMs) → k.leg = 1 →
        s.LegPauses g { k with leg := 2 } t ∧ t.blinds.groups[g].estimate = 0 ∧
          t.blinds.groups[g].referenced = true) ∧
      (s.blinds.groups[g].runTested = false →
          800 ≤ s.blinds.groups[g].runMs + (50 - s.blinds.groups[g].sampleMs) → k.leg ≠ 1 →
        (∃ x : State, x.GroupFaulted g .noMotor t) ∧ t.working = s.working) := by
  let x := s.sampled g current.toNat
  have group : x.blinds.groups[g] = s.sampledGroup g current.toNat := s.sampled_group g current.toNat
  have ends := State.judgeSample_leg current cal silent low
  have test := State.judgeSample_leg_silent current cal silent low
  obtain ⟨t, run, follows⟩ := exec_currentSample hs current energised
  obtain ⟨ns, link⟩ := follows.link
  have kept : Keeps [.notices, .blinds, .faults, .settings] s (x.judgeSample g current.toNat) :=
    ((s.updGroup_keeps g _).mono rfl).trans (State.judgeSample_keeps x g _)
  refine ⟨t, ns, run, follows.space.trans (kept.space (by decide)), fun tested later short => ?_,
    fun tested second long => ?_, fun tested third long => ?_, fun seen first => ?_, fun untested due later => ?_⟩
  · rw [ends tested, State.finishLeg_short later (by rw [group]; exact short)] at follows link
    exact ⟨follows.calEnds link, by rw [follows.endBlindCal.1]; rfl, follows.working⟩
  · rw [ends tested, State.finishLeg_second second (by rw [group]; exact long)] at follows
    exact follows.legPauses absent rfl (by rw [group]; rfl) rfl
  · rw [ends tested, State.finishLeg_third third (by rw [group]; exact long), group] at follows link
    exact ⟨State.Follows.calEnds follows link, by rw [(State.Follows.endBlindCal follows).1]; rfl,
      by rw [(State.Follows.endBlindCal follows).1]; rfl, follows.working⟩
  · have paused {y : State} (h : (y.finishLeg g k).Follows t) (queue : y.blinds.Absent g)
        (same : y.blinds.slots = s.blinds.slots ∧ y.working = s.working) :
        s.LegPauses g { k with leg := 2 } t ∧ t.blinds.groups[g].estimate = 0 ∧
          t.blinds.groups[g].referenced = true := by
      rw [State.finishLeg_first first] at h
      have pauses := h.legPauses (next := { k with leg := 2 }) queue rfl rfl rfl
      rw [State.LegPauses, same.1, same.2] at pauses
      exact ⟨pauses, by rw [(h.updGroup queue).1], by rw [(h.updGroup queue).1]⟩
    cases tested : s.blinds.groups[g].runTested with
    | true =>
      rw [ends tested] at follows
      exact paused follows absent ⟨rfl, rfl⟩
    | false =>
      have due := seen.resolve_left (by rw [tested]; decide)
      rw [test tested due, if_pos first] at follows
      exact paused follows absent ⟨rfl, rfl⟩
  · rw [test untested due, if_neg later] at follows
    have fault : Keeps [.notices, .blinds, .faults] s ((x.runTestMade g).blindFault g .noMotor) :=
      (((s.updGroup_keeps g _).trans (x.updGroup_keeps g _)).mono rfl).trans (State.blindFault_keeps _ g _)
    exact ⟨⟨_, follows.blindFault⟩, follows.working.trans (fault.working rfl rfl rfl rfl)⟩

end

/-! ## The overrun, the leg timeout and the pause (R150, R152, R158) -/

/-- From beyond the deadband a group goes toward its goal. -/
theorem Group.goesDown_of_beyond {r : Group} (h : 30 < distance r.goal r.estimate) :
    r.goesDown = decide (r.estimate < r.goal) := by
  have apart : r.estimate ≠ r.goal := fun same => by simp [distance, same] at h
  simp [Group.goesDown, apart]

/-- The state in which the group leaves its pause, before the grants. -/
def State.pauseOver (s : State) (g : Fin 4) : State :=
  match s.blinds.groups[g].cal with
  | some k => s.updGroup g fun r => if k.leg = 1 then r.energiseFromBottom else r.energise (decide (k.leg = 2))
  | none =>
    if 30 < distance s.blinds.groups[g].goal s.blinds.groups[g].estimate then
      s.updGroup g fun r => (s.autoMove g r).energise r.goesDown
    else s.stopGroup g .stopped

section
variable {s : State} {g : Fin 4}

theorem State.endReversing_eq (reversing : s.blinds.groups[g].state = .reversing) :
    s.endReversing g = (s.pauseOver g).afterBlinds := by
  refine (if_pos reversing).trans (congrArg State.afterBlinds ?_)
  unfold State.pauseOver beyondDeadband
  simp only [decide_eq_true_eq]
  rfl

theorem State.pauseOver_keeps : Keeps [.blinds] s (s.pauseOver g) := by
  unfold State.pauseOver
  split
  · exact s.updGroup_keeps g _
  · exact .ite (s.updGroup_keeps g _) (s.stopGroup_keeps g _)

end

section
variable {s : State} (hs : s.Settled) {g : Fin 4}
include hs

theorem exec_blindLimitUnseen (energised : s.blinds.groups[g].state.energised = true)
    (overruns : s.blinds.groups[g].overrun.isSome = true) :
    ∃ t ns, exec (.blindLimitUnseen g) s = .next t ∧
      t.blinds.groups[g].estimate = s.blinds.groups[g].state.endAhead ∧ t.blinds.groups[g].referenced = true ∧
      t.blinds.groups[g].state = .stopped ∧ g ∉ t.blinds.slots ∧
      t.link = ((s.link.place (s.noticeOf .blindLimitUnseen none (some g.val) s.blinds.groups[g].state.endAhead
        none)).handed ns).startFrame ∧ t.working = s.working ∧ t.space = s.space := by
  let y := (s.reachEnd g).notify .blindLimitUnseen none (some g.val) s.blinds.groups[g].state.endAhead none
  have ended : s.endOverrun g = y.afterBlinds := if_pos ⟨overruns, energised⟩
  have run : exec (.blindLimitUnseen g) s = finish (s.endOverrun g) := rfl
  have kept : Keeps [.notices, .blinds] s y := ((s.reachEnd_keeps g).mono rfl).trans ((State.notify_keeps ..).mono rfl)
  obtain ⟨t, next, follows⟩ := finish_afterBlinds hs kept rfl
  obtain ⟨ns, link⟩ := follows.link
  obtain ⟨group, slots⟩ := follows.without (g := g) ⟨(s.reachEnd_without g).absent, (s.reachEnd_without g).unslotted⟩
  have reached : y.blinds.groups[g] = _ := s.reachEnd_group g
  rw [reached] at group
  refine ⟨t, ns, by rw [run, ended, next], by rw [group], by rw [group], by rw [group]; rfl, slots, link,
    follows.working.trans (kept.working rfl rfl rfl rfl), follows.space.trans (kept.space (by decide))⟩

theorem exec_calibrationLegTimeout (energised : s.blinds.groups[g].state.energised = true)
    (calibrates : s.blinds.groups[g].cal.isSome = true) :
    ∃ t ns, exec (.calibrationLegTimeout g) s = .next t ∧ s.CalEnds g (5 + 16777216) ns t ∧
      t.blinds.groups[g].referenced = false ∧ t.working = s.working ∧ t.space = s.space := by
  have failed : s.failLeg g = (s.endBlindCal g .stopped (.failed .noLimit)).afterBlinds :=
    if_pos ⟨calibrates, energised⟩
  have run : exec (.calibrationLegTimeout g) s = finish (s.failLeg g) := rfl
  have kept := s.endBlindCal_keeps g .stopped (.failed .noLimit)
  obtain ⟨t, next, follows⟩ := finish_afterBlinds hs kept rfl
  obtain ⟨ns, link⟩ := follows.link
  exact ⟨t, ns, by rw [run, failed, next], follows.calEnds link, by rw [follows.endBlindCal.1]; rfl,
    follows.working.trans (kept.working rfl rfl rfl rfl), follows.space.trans (kept.space (by decide))⟩

theorem exec_reversingEnd (reversing : s.blinds.groups[g].state = .reversing) :
    ∃ t ns, exec (.reversingEnd g) s = .next t ∧ t.link = (s.link.handed ns).startFrame ∧
      t.working = s.working ∧ t.space = s.space ∧ (s.pauseOver g).Follows t := by
  have kept := State.pauseOver_keeps (s := s) (g := g)
  obtain ⟨t, run, follows⟩ := finish_afterBlinds hs kept rfl
  rw [← State.endReversing_eq reversing] at run
  obtain ⟨ns, link⟩ := follows.link
  rw [kept.same .notices rfl] at link
  exact ⟨t, ns, run, link, follows.working.trans (kept.working rfl rfl rfl rfl),
    follows.space.trans (kept.space (by decide)), follows⟩

end

section
variable {s t : State} {g : Fin 4} (follows : (s.pauseOver g).Follows t)
include follows

theorem State.Follows.pauseOver_stops (idle : s.blinds.groups[g].cal = none)
    (near : distance s.blinds.groups[g].goal s.blinds.groups[g].estimate ≤ 30) :
    t.blinds.groups[g].state = .stopped := by
  simp only [State.pauseOver, idle, if_neg (Nat.not_lt.mpr near)] at follows
  rw [(follows.without (s.stopGroup_without g .stopped)).1, State.stopGroup_group]
  rfl

theorem State.Follows.pauseOver_goes (absent : s.blinds.Absent g) (idle : s.blinds.groups[g].cal = none)
    (far : 30 < distance s.blinds.groups[g].goal s.blinds.groups[g].estimate) :
    t.blinds.groups[g].state =
        (if s.blinds.groups[g].estimate < s.blinds.groups[g].goal then .movingDown else .movingUp) ∧
      t.blinds.groups[g].segStart = s.blinds.groups[g].estimate ∧ t.blinds.groups[g].segMs = 0 := by
  simp only [State.pauseOver, idle, if_pos far] at follows
  have estimate (r : Group) : (s.autoMove g r).estimate = r.estimate := by
    unfold State.autoMove
    split <;> rfl
  rw [(follows.updGroup absent).1, Group.goesDown_of_beyond far]
  refine ⟨?_, estimate _, rfl⟩
  by_cases down : s.blinds.groups[g].estimate < s.blinds.groups[g].goal <;> simp only [down] <;> rfl

theorem State.Follows.pauseOver_leg (absent : s.blinds.Absent g) {k : BlindCal}
    (cal : s.blinds.groups[g].cal = some k) :
    t.blinds.groups[g].cal = some k ∧
      t.blinds.groups[g].state = if k.leg = 2 then .movingDown else .movingUp := by
  simp only [State.pauseOver, cal] at follows
  rw [(follows.updGroup absent).1]
  by_cases first : k.leg = 1
  · simp only [first, ↓reduceIte, OfNat.one_ne_ofNat]
    exact ⟨cal, rfl⟩
  · rw [if_neg first]
    by_cases second : k.leg = 2 <;> simp only [second] <;> exact ⟨cal, rfl⟩

end

/-- Settles O58: each end by the test of the sample that finds it, or by its own event, and what follows it; the grants
leave a group alone that has left the queue. -/
theorem blindMovesEnd : Obligations.BlindMovesEnd := by
  intro g current s hs r down endAhead travel moved est energised
  have on (h : energised) : r.state.energised = true := r.state.energised_iff.mpr h
  have ahead : r.state.endAhead = endAhead := r.state.endAhead_eq
  have estimate : (s.sampledGroup g current.toNat).estimate = est := s.sampledGroup_estimate g current.toNat
  refine ⟨fun moving idle runs low absent => ?_, fun moving high count => ?_, fun moving idle tested silent low => ?_,
    fun moving idle untested due silent low => ?_, fun k moving cal silent low absent => ?_,
    fun moving overruns => ?_, fun moving calibrates => ?_, fun reversing absent => ?_⟩
  · obtain ⟨t, ns, run, link, reached, sensed, working, space, stops, overruns, goesOn⟩ :=
      currentSample_runs hs current (on moving) idle runs low absent
    rw [Group.atGoal_iff, estimate] at stops overruns goesOn
    rw [ahead] at stops overruns
    exact ⟨t, ns, run, link, reached.trans estimate, sensed, working, space, stops, overruns, goesOn⟩
  · obtain ⟨t, run, fault⟩ := currentSample_stalls hs current (on moving) high count
    exact ⟨t, run, fault.state, fault.cal, fault.without.unslotted, fault.kind, fault.standing⟩
  · obtain ⟨t, ns, run, seen, cutout⟩ := currentSample_ends hs current (on moving) idle tested silent low
    have believes : (s.sampledGroup g current.toNat).BelievesEnd ↔
        distance endAhead est ≤ 200 ∨ (r.referenced = false ∧ r.refMove = true) := by
      rw [← ahead, ← estimate]; rfl
    rw [believes, ahead] at seen
    refine ⟨fun near => ⟨t, ns, run, seen near⟩, fun far disbelieved => ?_⟩
    have fault := cutout fun h => (believes.mp h).elim (Nat.not_le.mpr far) fun h => by simp [h] at disbelieved
    exact ⟨t, run, (fault.referenced ((congrArg Group.cal (s.sampled_group g _)).trans idle)).trans rfl, fault.state,
      fault.without.unslotted, fault.kind, fault.standing⟩
  · obtain ⟨t, ns, run, stands, silentFault⟩ := currentSample_silent hs current (on moving) idle untested due silent low
    have standsAtEnd : (s.sampledGroup g current.toNat).StandsAtEnd ↔
        r.goal = endAhead ∧ (r.referenced = false ∨ distance endAhead est ≤ 200) := by
      rw [← ahead, ← estimate]; rfl
    rw [standsAtEnd] at stands silentFault
    rw [ahead] at stands
    refine ⟨fun atEnd => ⟨t, ns, run, stands atEnd⟩, fun away => ?_⟩
    obtain ⟨fault, stood, referenced⟩ := silentFault away
    exact ⟨t, run, fault.state, stood.trans estimate, referenced, fault.without.unslotted, fault.kind, fault.standing⟩
  · obtain ⟨t, ns, run, space, short, second, third, first, silentFault⟩ :=
      currentSample_leg hs current (on moving) cal silent low absent
    refine ⟨t, ns, run, space, short, second, third, first, fun untested due later => ?_⟩
    obtain ⟨⟨x, fault⟩, working⟩ := silentFault untested due later
    exact ⟨fault.state, fault.cal, fault.without.unslotted, fault.kind, fault.standing, working⟩
  · obtain ⟨t, ns, run, ended⟩ := exec_blindLimitUnseen hs (on moving) overruns
    rw [ahead] at ended
    exact ⟨t, ns, run, ended⟩
  · obtain ⟨t, ns, run, ⟨state, idle, unslotted, link⟩, referenced, working, space⟩ :=
      exec_calibrationLegTimeout hs (on moving) calibrates
    exact ⟨t, ns, run, idle, state, referenced, unslotted, link, working, space⟩
  · obtain ⟨t, ns, run, link, working, space, follows⟩ := exec_reversingEnd hs reversing
    exact ⟨t, ns, run, link, working, space, follows.pauseOver_stops, follows.pauseOver_goes absent,
      fun k cal => follows.pauseOver_leg absent cal⟩

end Sys2Proof.Machine
end

