-- ==== Sys2Proof/Proofs/BlindEvaluation.lean ====
section
/-! PROOF. The evaluation of the blinds (R146 to R150): the target of a group is formed and acted on in the group's own
turn; the turns of the other groups, and the grants after each turn, leave the group all that its turn reads. -/

namespace Sys2Proof.Machine
open Sys2Proof

/-! ## What an evaluation forms of a group -/

/-- The figures of a group that its evaluation forms, and nothing else writes. -/
structure GroupAim where
  computedTarget : Nat
  target : Nat
  sunUsed : Bool

def Group.aim (r : Group) : GroupAim where
  computedTarget := r.computedTarget
  target := r.target
  sunUsed := r.sunUsed

theorem State.request_group (s : State) (g : Fin 4) (target : Nat) (reference calibration : Bool) :
    (s.request g target reference calibration).blinds.groups[g] = { s.blinds.groups[g] with state := .queued } :=
  State.updGroup_get_self ..

/-- What acts on the targets, and what follows, moves these parts alone. -/
def evaluationParts : List Block := [.notices, .drives, .lighting, .blinds, .rail, .faults]

/-- What a group's target was formed from, and the target, stand. -/
structure State.KeepsAim (s : State) (g : Fin 4) (t : State) : Prop where
  kept : Keeps evaluationParts s t
  aim : t.blinds.groups[g].aim = s.blinds.groups[g].aim
  sun : t.blinds.sun = s.blinds.sun
  evalTimer : t.blinds.evalTimer = s.blinds.evalTimer

namespace State.KeepsAim
variable {s t u : State} {g : Fin 4}

theorem refl (s : State) (g : Fin 4) : s.KeepsAim g s := ⟨.refl _ _, rfl, rfl, rfl⟩

theorem trans (h : s.KeepsAim g t) (k : t.KeepsAim g u) : s.KeepsAim g u :=
  ⟨h.kept.trans k.kept, k.aim.trans h.aim, k.sun.trans h.sun, k.evalTimer.trans h.evalTimer⟩

theorem ite {c : Prop} [Decidable c] (h : s.KeepsAim g t) (k : s.KeepsAim g u) :
    s.KeepsAim g (if c then t else u) := by
  split
  · exact h
  · exact k

theorem updGroup (s : State) (g : Fin 4) {f : Group → Group} (h : (f s.blinds.groups[g]).aim = s.blinds.groups[g].aim) :
    s.KeepsAim g (s.updGroup g f) :=
  ⟨(s.updGroup_keeps g f).mono rfl, by rw [State.updGroup_get_self, h], rfl, rfl⟩

theorem editEntry (s : State) (g : Fin 4) (f : QueueEntry → QueueEntry) :
    s.KeepsAim g (s.updBlinds fun b => b.editEntry g f) := ⟨(s.updBlinds_keeps _).mono rfl, rfl, rfl, rfl⟩

theorem stopGroup (s : State) (g : Fin 4) (state : GroupState) : s.KeepsAim g (s.stopGroup g state) :=
  ⟨(s.stopGroup_keeps g state).mono rfl, by rw [State.stopGroup_group]; rfl, rfl, rfl⟩

theorem request (s : State) (g : Fin 4) (target : Nat) (reference calibration : Bool) :
    s.KeepsAim g (s.request g target reference calibration) :=
  ⟨(s.request_keeps g target reference calibration).mono rfl,
    by rw [State.request_group]; rfl, rfl, rfl⟩

/-- A group that acts on its target leaves it as it was formed. -/
theorem actOnTarget (s : State) (g : Fin 4) : s.KeepsAim g (s.actOnTarget g) := by
  have requests : s.KeepsAim g (s.requestMove g) :=
    .ite (.refl s g) (.ite (.request ..) (.ite (.request ..) (.refl s g)))
  have retargets : s.KeepsAim g (s.retargetQueued g) := .ite (.ite (.editEntry s g _) (.stopGroup ..)) (.refl s g)
  have moves : s.KeepsAim g (s.retargetMoving g) :=
    .ite (.refl s g) (.ite (.updGroup s g rfl) (.ite (.stopGroup ..) (.ite (.updGroup s g rfl) (.updGroup s g rfl))))
  unfold State.actOnTarget
  split
  · exact requests
  · exact retargets
  · exact moves
  · exact moves
  · exact .updGroup s g rfl
  · exact .refl s g

end State.KeepsAim

/-! ## What the grants and the other groups leave of a group -/

/-- A group that has requested its move: it waits for a slot, or moves. -/
def GroupState.Requested (x : GroupState) : Prop := x = .queued ∨ x = .movingUp ∨ x = .movingDown

/-- What grants may make of a group's record, its own grant among them. -/
structure Group.Granted (r r' : Group) : Prop where
  aim : r'.aim = r.aim
  cal : r'.cal.isSome = r.cal.isSome
  sinceMove : r'.sinceMove = r.sinceMove ∨ r'.sinceMove = some 0
  requested : r.state.Requested → r'.state.Requested

theorem Group.Granted.refl (r : Group) : r.Granted r := ⟨rfl, rfl, .inl rfl, id⟩

theorem Group.Granted.trans {r r' r'' : Group} (h : r.Granted r') (k : r'.Granted r'') : r.Granted r'' where
  aim := k.aim.trans h.aim
  cal := k.cal.trans h.cal
  sinceMove := k.sinceMove.elim (fun same => same ▸ h.sinceMove) .inr
  requested := k.requested ∘ h.requested

/-- A group is left as grants may leave it, and as it stood while the queue has no entry of it. -/
structure State.SparesGroup (s : State) (g : Fin 4) (t : State) : Prop where
  keepsAim : s.KeepsAim g t
  record : s.blinds.groups[g].Granted t.blinds.groups[g]
  fault : t.faults[blindSource g] = s.faults[blindSource g]
  alone : s.blinds.Absent g → s.LeavesGroup g t

namespace State.SparesGroup
variable {s t u : State} {g : Fin 4}

theorem refl (s : State) (g : Fin 4) : s.SparesGroup g s :=
  ⟨.refl s g, .refl _, rfl, fun absent => ⟨rfl, absent, Iff.rfl⟩⟩

theorem trans (h : s.SparesGroup g t) (k : t.SparesGroup g u) : s.SparesGroup g u where
  keepsAim := h.keepsAim.trans k.keepsAim
  record := h.record.trans k.record
  fault := k.fault.trans h.fault
  alone absent := by
    have first := h.alone absent
    have second := k.alone first.absent
    exact ⟨second.group.trans first.group, second.absent, second.slots.trans first.slots⟩

theorem ite {c : Prop} [Decidable c] (h : s.SparesGroup g t) (k : s.SparesGroup g u) :
    s.SparesGroup g (if c then t else u) := by
  split
  · exact h
  · exact k

theorem foldl {f : State → Fin 4 → State} {gs : List (Fin 4)} (s : State)
    (step : ∀ (x : State), ∀ j ∈ gs, x.SparesGroup g (f x j)) : s.SparesGroup g (gs.foldl f s) := by
  induction gs generalizing s with
  | nil => exact refl s g
  | cons j gs ih =>
    exact (step s j List.mem_cons_self).trans (ih (f s j) fun x k hk => step x k (List.mem_cons_of_mem j hk))

/-! ### Other groups -/

/-- An operation on another group. -/
theorem of_other (kept : Keeps [.blinds] s t) (group : t.blinds.groups[g] = s.blinds.groups[g])
    (sun : t.blinds.sun = s.blinds.sun) (evalTimer : t.blinds.evalTimer = s.blinds.evalTimer)
    (absent : s.blinds.Absent g → t.blinds.Absent g) (slots : g ∈ t.blinds.slots ↔ g ∈ s.blinds.slots) :
    s.SparesGroup g t where
  keepsAim := ⟨kept.mono rfl, by rw [group], sun, evalTimer⟩
  record := by rw [group]; exact .refl _
  fault := by rw [kept.same .faults rfl]
  alone h := ⟨group, absent h, slots⟩

theorem editEntry (s : State) (j : Fin 4) {f : QueueEntry → QueueEntry} (same : ∀ e, (f e).group = e.group) :
    s.SparesGroup g (s.updBlinds fun b => b.editEntry j f) := by
  refine of_other (s.updBlinds_keeps _) rfl rfl rfl (fun absent e he => ?_) Iff.rfl
  obtain ⟨old, hold, rfl⟩ := List.mem_map.mp he
  split
  · rw [same]; exact absent old hold
  · exact absent old hold

section
variable (s) {j : Fin 4} (h : g ≠ j)
include h

theorem updGroup (f : Group → Group) : s.SparesGroup g (s.updGroup j f) :=
  of_other (s.updGroup_keeps j f) (s.updGroup_get_other f h) rfl rfl id Iff.rfl

theorem stopGroup (state : GroupState) : s.SparesGroup g (s.stopGroup j state) := by
  refine of_other (s.stopGroup_keeps j state) (State.updGroup_get_other _ _ h) rfl rfl
    (fun absent e he => absent e (List.mem_of_mem_filter he)) ?_
  have slots : (s.stopGroup j state).blinds.slots = s.blinds.slots.filter fun x => decide (x ≠ j) := rfl
  rw [slots, List.mem_filter]
  simp [h]

theorem request (target : Nat) (reference calibration : Bool) :
    s.SparesGroup g (s.request j target reference calibration) := by
  refine of_other (s.request_keeps j target reference calibration) (State.updGroup_get_other _ _ h) rfl rfl
    (fun absent e he => ?_) Iff.rfl
  have joined : e ∈ s.blinds.queue ++ [⟨j, target, reference, calibration, decide (s.space.fire = .inForce)⟩] :=
    fireFirst_mem.mp he
  rcases List.mem_append.mp joined with old | new
  · exact absent e old
  · rw [List.mem_singleton.mp new]
    exact h.symm

theorem actOnTarget : s.SparesGroup g (s.actOnTarget j) := by
  have requests : s.SparesGroup g (s.requestMove j) :=
    .ite (refl s g) (.ite (request s h ..) (.ite (request s h ..) (refl s g)))
  have retargets : s.SparesGroup g (s.retargetQueued j) :=
    .ite (.ite (editEntry s j fun _ => rfl) (stopGroup s h _)) (refl s g)
  have moves : s.SparesGroup g (s.retargetMoving j) :=
    .ite (refl s g) (.ite (updGroup s h _) (.ite (stopGroup s h _) (.ite (updGroup s h _) (updGroup s h _))))
  unfold State.actOnTarget
  split
  · exact requests
  · exact retargets
  · exact moves
  · exact moves
  · exact updGroup s h _
  · exact refl s g

end

end State.SparesGroup

/-! ### Grants -/

theorem State.autoMove_cases (s : State) (g : Fin 4) (r : Group) :
    s.autoMove g r = r ∨ s.autoMove g r = { r with sinceMove := some 0 } := by
  unfold State.autoMove
  split
  · exact .inr rfl
  · exact .inl rfl

theorem Group.energise_granted (r : Group) (down : Bool) : r.Granted (r.energise down) where
  aim := rfl
  cal := rfl
  sinceMove := .inl rfl
  requested _ := by cases down <;> simp [Group.energise, GroupState.Requested]

theorem State.autoMove_granted (s : State) (g : Fin 4) (r : Group) : r.Granted (s.autoMove g r) := by
  rcases s.autoMove_cases g r with same | begun
  · rw [same]; exact .refl r
  · rw [begun]; exact ⟨rfl, rfl, .inr rfl, id⟩

theorem Group.energiseFromBottom_granted (r : Group) : r.Granted r.energiseFromBottom :=
  ⟨rfl, rfl, .inl rfl, fun _ => .inr (.inl rfl)⟩

/-- A group's record as the grant of its entry leaves it (R148, R149). -/
def State.grantedRecord (s : State) (e : QueueEntry) (r : Group) : Group :=
  if e.calibration then { r with cal := r.cal.map fun _ => .first }.energiseFromBottom
  else if e.reference then (s.autoMove e.group { r with goal := 0, refMove := true }).energiseFromBottom
  else
    let r1 : Group := s.autoMove e.group { r with goal := e.target, refMove := false }
    r1.energise r1.goesDown

theorem State.grantEntry_self (s : State) (e : QueueEntry) :
    (s.grantEntry e).blinds.groups[e.group] = s.grantedRecord e s.blinds.groups[e.group] :=
  State.updGroup_get_self ..

theorem State.grantedRecord_granted (s : State) (e : QueueEntry) (r : Group) : r.Granted (s.grantedRecord e r) := by
  have aimed (goal : Nat) (reference : Bool) : r.Granted { r with goal := goal, refMove := reference } :=
    ⟨rfl, rfl, .inl rfl, id⟩
  have begun : r.Granted { r with cal := r.cal.map fun _ => .first } := ⟨rfl, Option.isSome_map, .inl rfl, id⟩
  unfold State.grantedRecord
  split
  · exact begun.trans (Group.energiseFromBottom_granted _)
  · split
    · exact ((aimed 0 true).trans (s.autoMove_granted _ _)).trans (Group.energiseFromBottom_granted _)
    · exact ((aimed e.target false).trans (s.autoMove_granted _ _)).trans (Group.energise_granted _ _)

theorem State.grantEntry_granted (s : State) (e : QueueEntry) (g : Fin 4) :
    s.blinds.groups[g].Granted (s.grantEntry e).blinds.groups[g] := by
  by_cases own : g = e.group
  · rw [own, State.grantEntry_self]
    exact s.grantedRecord_granted e _
  · rw [s.grantEntry_other e own]
    exact .refl _

theorem State.grantEntry_spares {s : State} {e : QueueEntry} {rest : List QueueEntry}
    (queue : s.blinds.queue = e :: rest) (g : Fin 4) : s.SparesGroup g (s.grantEntry e) where
  keepsAim := ⟨(s.grantEntry_keeps e).mono rfl, (s.grantEntry_granted e g).aim, rfl, rfl⟩
  record := s.grantEntry_granted e g
  fault := by rw [(s.grantEntry_keeps e).same .faults rfl]
  alone absent := State.LeavesGroup.grantEntry queue ⟨rfl, absent, Iff.rfl⟩

/-- What follows a change of the blinds leaves every group as grants may leave it. -/
theorem State.afterBlinds_spares (s : State) (g : Fin 4) : s.SparesGroup g s.afterBlinds := by
  have granted : s.SparesGroup g s.grants :=
    State.grantUpTo_induction (P := s.SparesGroup g) (fun x e rest queue h => h.trans (x.grantEntry_spares queue g)) _
      (.refl s g)
  have blinds := s.afterBlinds_blinds
  have aim := granted.keepsAim
  exact ⟨⟨s.afterBlinds_keeps, by rw [blinds, aim.aim], by rw [blinds, aim.sun], by rw [blinds, aim.evalTimer]⟩,
    by rw [blinds]; exact granted.record, s.afterBlinds_fault (blindSource_ne_rail g), State.afterBlinds_leaves⟩

/-! ## The target that is formed (R146, R147) -/

/-- The computed target of a group of cell `c` under a sun value. -/
def State.formedTarget (s : State) (g : Fin 4) (c : Cell) (sun : Bool) : Nat :=
  blindTargetFor (s.unitOf c).mode (s.profileOf c).policy s.working.settings.blindSide[g]
    s.working.settings.sunPosition sun

/-- A change of the sun flag waits for the sun move interval. -/
def State.SunWaits (s : State) (g : Fin 4) (c : Cell) : Prop :=
  s.formedTarget g c s.blinds.sun ≠ s.formedTarget g c s.blinds.groups[g].sunUsed ∧
    s.blinds.groups[g].sunMayMove s.working.settings.sunInterval = false

theorem State.formTarget_waits {s : State} {g : Fin 4} {c : Cell} (h : s.SunWaits g c) : s.formTarget g c =
    (s.formedTarget g c s.blinds.groups[g].sunUsed, s.blinds.groups[g].sunUsed) := by
  obtain ⟨changes, soon⟩ := h
  refine (if_neg changes).trans (if_neg ?_)
  rw [soon]
  decide

theorem State.formTarget_follows {s : State} {g : Fin 4} {c : Cell} (h : ¬ s.SunWaits g c) :
    s.formTarget g c = (s.formedTarget g c s.blinds.sun, s.blinds.sun) := by
  by_cases same : s.formedTarget g c s.blinds.sun = s.formedTarget g c s.blinds.groups[g].sunUsed
  · exact if_pos same
  · have may : s.blinds.groups[g].sunMayMove s.working.settings.sunInterval = true :=
      eq_true_of_ne_false fun soon => h ⟨same, soon⟩
    exact (if_neg same).trans (if_pos may)

/-- The target of a group: its override, but not under calibration, or its computed target (log entry 68). -/
def State.wantedTarget (s : State) (g : Fin 4) (c : Cell) : Nat :=
  match s.space.overrides[blindTarget g] with
  | some o => if s.blinds.groups[g].cal.isSome then s.blinds.groups[g].target else o.value
  | none => (s.formTarget g c).1

theorem State.writeTarget_group (s : State) (g : Fin 4) (c : Cell) : (s.writeTarget g c).blinds.groups[g] =
    { s.blinds.groups[g] with
      computedTarget := (s.formTarget g c).1, target := s.wantedTarget g c, sunUsed := (s.formTarget g c).2 } :=
  State.updGroup_get_self ..

/-! ## The turns (R146) -/

/-- The turn of another group. -/
theorem State.evaluateGroup_spares (s : State) {g j : Fin 4} (h : g ≠ j) : s.SparesGroup g (s.evaluateGroup j) := by
  unfold State.evaluateGroup
  split
  · exact .refl s g
  · next c _ =>
    have written : s.SparesGroup g (s.writeTarget j c) := .updGroup s h _
    exact .ite written ((written.trans (.actOnTarget _ h)).trans (State.afterBlinds_spares _ g))

/-- The turn of a group within an evaluation from `s` to `t`: `x` is the state that the turn finds. -/
structure State.EvaluationTurn (s : State) (g : Fin 4) (c : Cell) (x t : State) : Prop where
  before : s.SparesGroup g x
  calibrating : x.blinds.groups[g].cal.isSome = true → (x.writeTarget g c).SparesGroup g t
  free : x.blinds.groups[g].cal = none → ((x.writeTarget g c).actOnTarget g).SparesGroup g t

theorem State.groupCell_congr {s t : State} (h : t.working.settings = s.working.settings) (g : Fin 4) :
    t.groupCell g = s.groupCell g := by
  unfold State.groupCell
  rw [h]

/-- Every group in use has its turn. -/
theorem State.evaluateBlinds_turn {s : State} {g : Fin 4} {c : Cell} (used : s.groupCell g = some c) :
    ∃ x, s.EvaluationTurn g c x s.evaluateBlinds := by
  have member : ∀ g, g ∈ allGroups := by decide
  obtain ⟨before, after, order⟩ := List.append_of_mem (member g)
  have once : (before ++ g :: after).Nodup := by rw [← order]; decide
  obtain ⟨-, tail, apart⟩ := List.nodup_append.mp once
  have later : ∀ j ∈ after, g ≠ j := fun j hj same => (List.nodup_cons.mp tail).1 (same ▸ hj)
  have earlier : ∀ j ∈ before, g ≠ j := fun j hj same => apart j hj g List.mem_cons_self same.symm
  let x := before.foldl State.evaluateGroup s
  have found : s.SparesGroup g x := .foldl s fun y j hj => y.evaluateGroup_spares (earlier j hj)
  have rest : (x.evaluateGroup g).SparesGroup g s.evaluateBlinds := by
    have turns : s.evaluateBlinds = after.foldl State.evaluateGroup (x.evaluateGroup g) := by
      rw [State.evaluateBlinds, order, List.foldl_append, List.foldl_cons]
    rw [turns]
    exact .foldl _ fun y j hj => y.evaluateGroup_spares (later j hj)
  have cell : x.groupCell g = some c := (State.groupCell_congr (found.keepsAim.kept.same .settings rfl) g).trans used
  have cal : (x.writeTarget g c).blinds.groups[g].cal = x.blinds.groups[g].cal := by
    rw [State.writeTarget_group]
  have turn : x.evaluateGroup g = if x.blinds.groups[g].cal.isSome then x.writeTarget g c
      else ((x.writeTarget g c).actOnTarget g).afterBlinds := by
    simp only [State.evaluateGroup, cell, cal]
  rw [turn] at rest
  refine ⟨x, found, fun calibrates => ?_, fun idle => ?_⟩
  · rwa [if_pos calibrates] at rest
  · rw [idle] at rest
    exact (State.afterBlinds_spares _ g).trans rest

namespace State.EvaluationTurn
variable {s x t : State} {g : Fin 4} {c : Cell}

/-- Once its target is formed, a group's turn and the turns after it leave the target. -/
theorem keepsAim (h : s.EvaluationTurn g c x t) : (x.writeTarget g c).KeepsAim g t := by
  by_cases idle : x.blinds.groups[g].cal = none
  · exact (State.KeepsAim.actOnTarget _ g).trans (h.free idle).keepsAim
  · exact (h.calibrating (Option.isSome_iff_ne_none.mpr idle)).keepsAim

theorem aim (h : s.EvaluationTurn g c x t) : t.blinds.groups[g].computedTarget = (x.formTarget g c).1 ∧
    t.blinds.groups[g].target = x.wantedTarget g c ∧ t.blinds.groups[g].sunUsed = (x.formTarget g c).2 := by
  have aim := h.keepsAim.aim
  rw [State.writeTarget_group] at aim
  exact ⟨congrArg GroupAim.computedTarget aim, congrArg GroupAim.target aim, congrArg GroupAim.sunUsed aim⟩

/-- What an evaluation leaves of the rest of the state. -/
theorem frame (h : s.EvaluationTurn g c x t) :
    Keeps evaluationParts s t ∧ t.blinds.sun = s.blinds.sun ∧ t.blinds.evalTimer = s.blinds.evalTimer := by
  have before := h.before.keepsAim
  have written := (x.writeTarget_keeps g c).mono (ys := evaluationParts) rfl
  have after := h.keepsAim
  exact ⟨(before.kept.trans written).trans after.kept, after.sun.trans before.sun,
    after.evalTimer.trans before.evalTimer⟩

theorem sunUsed_before (h : s.EvaluationTurn g c x t) :
    x.blinds.groups[g].sunUsed = s.blinds.groups[g].sunUsed := congrArg GroupAim.sunUsed h.before.keepsAim.aim

theorem formedTarget (h : s.EvaluationTurn g c x t) : x.formedTarget g c = s.formedTarget g c := by
  have kept := h.before.keepsAim.kept
  have space : x.space = s.space := kept.space (by decide)
  have working : x.working = s.working := kept.working rfl rfl rfl rfl
  funext sun
  simp only [State.formedTarget, State.profileOf, State.unitOf, space, working]

/-- The computed target is that of the sun value used after. -/
theorem computedTarget (h : s.EvaluationTurn g c x t) :
    t.blinds.groups[g].computedTarget = s.formedTarget g c t.blinds.groups[g].sunUsed := by
  obtain ⟨computed, -, sun⟩ := h.aim
  rw [computed, sun, ← h.formedTarget]
  by_cases waits : x.SunWaits g c
  · rw [State.formTarget_waits waits]
  · rw [State.formTarget_follows waits]

/-- While the change waits the value used stays. -/
theorem sun_waits (h : s.EvaluationTurn g c x t) (waits : x.SunWaits g c) :
    t.blinds.groups[g].sunUsed = s.blinds.groups[g].sunUsed := by
  rw [h.aim.2.2, State.formTarget_waits waits, h.sunUsed_before]

/-- A sun value that need not wait becomes the value used. -/
theorem sun_follows (h : s.EvaluationTurn g c x t) (follows : ¬ x.SunWaits g c) :
    t.blinds.groups[g].sunUsed = s.blinds.sun := by
  rw [h.aim.2.2, State.formTarget_follows follows, h.before.keepsAim.sun]

/-- The target that a turn writes, from what the evaluation found. -/
theorem target (h : s.EvaluationTurn g c x t) : t.blinds.groups[g].target =
    match s.space.overrides[blindTarget g] with
    | some v => if s.blinds.groups[g].cal = none then v.value else s.blinds.groups[g].target
    | none => t.blinds.groups[g].computedTarget := by
  obtain ⟨computed, target, -⟩ := h.aim
  have before := h.before
  have overrides : x.space.overrides = s.space.overrides := before.keepsAim.kept.same .overrides rfl
  have kept : x.blinds.groups[g].target = s.blinds.groups[g].target := congrArg GroupAim.target before.keepsAim.aim
  rw [target, computed, State.wantedTarget, overrides, kept, before.record.cal]
  cases s.space.overrides[blindTarget g] with
  | none => rfl
  | some v => cases s.blinds.groups[g].cal <;> rfl

end State.EvaluationTurn

/-! ## When a change of the sun waits (R147) -/

theorem Group.sunMayMove_eq_false (r : Group) (interval : Nat) :
    r.sunMayMove interval = false ↔ ∃ since, r.sinceMove = some since ∧ since < interval * 60000 := by
  unfold Group.sunMayMove
  cases r.sinceMove <;> simp

/-- A group as the second that ends is counted (log entry 34). -/
def Group.credited (r : Group) (rest : Nat) : Group := { r with sinceMove := r.sinceMove.map (· + rest) }

/-- The state in which the evaluation begins. -/
def State.secondEnded (s : State) : State := s.updBlinds Blinds.startSecond

theorem State.secondEnded_group (s : State) (g : Fin 4) :
    s.secondEnded.blinds.groups[g] = s.blinds.groups[g].credited (1000 - s.blinds.evalTimer) := by
  fin_cases g <;> rfl

section
variable {s x t : State} {g : Fin 4} {c : Cell} (turn : s.secondEnded.EvaluationTurn g c x t)
include turn

/-- A change that waits as the evaluation begins waits in the group's turn: a grant until then starts the time again. -/
theorem State.EvaluationTurn.waits
    (changes : s.formedTarget g c s.blinds.sun ≠ s.formedTarget g c s.blinds.groups[g].sunUsed) {since : Nat}
    (moved : s.blinds.groups[g].sinceMove = some since)
    (soon : since + (1000 - s.blinds.evalTimer) < s.working.settings.sunInterval * 60000) : x.SunWaits g c := by
  have before := turn.before
  have settings : x.working.settings = s.working.settings := before.keepsAim.kept.same .settings rfl
  have sun : x.blinds.sun = s.blinds.sun := before.keepsAim.sun
  have used := turn.sunUsed_before
  have since := before.record.sinceMove
  rw [s.secondEnded_group] at used since
  rw [State.SunWaits, turn.formedTarget, sun, used, settings, Group.sunMayMove_eq_false]
  refine ⟨changes, ?_⟩
  rcases since with same | again
  · exact ⟨_, same.trans (congrArg (Option.map _) moved), soon⟩
  · exact ⟨0, again, by omega⟩

/-- A group that no grant has reached waits in its turn only where it did as the evaluation began. -/
theorem State.EvaluationTurn.waited (absent : s.blinds.Absent g) (h : x.SunWaits g c) :
    s.formedTarget g c s.blinds.sun ≠ s.formedTarget g c s.blinds.groups[g].sunUsed ∧
      ∃ since, s.blinds.groups[g].sinceMove = some since ∧
        since + (1000 - s.blinds.evalTimer) < s.working.settings.sunInterval * 60000 := by
  have before := turn.before
  have group := (before.alone absent).group
  have settings : x.working.settings = s.working.settings := before.keepsAim.kept.same .settings rfl
  have sun : x.blinds.sun = s.blinds.sun := before.keepsAim.sun
  rw [State.SunWaits, turn.formedTarget, sun, settings, group, s.secondEnded_group, Group.sunMayMove_eq_false] at h
  obtain ⟨changes, since', moved, soon⟩ := h
  obtain ⟨since, found, rfl⟩ := Option.map_eq_some_iff.mp moved
  exact ⟨changes, since, found, soon⟩

end

/-! ## A group that stands (R148) -/

section
variable {s x t : State} {g : Fin 4} {c : Cell}

/-- A STOPPED group that may request a move. -/
theorem State.requestMove_clear (clear : s.faults[blindSource g].state = .clear) : s.requestMove g =
    if s.blinds.groups[g].referenced = false then s.request g 0 true false
    else if 30 < distance s.blinds.groups[g].target s.blinds.groups[g].estimate then
      s.request g s.blinds.groups[g].target false false
    else s := by
  refine (if_neg (not_not.mpr clear)).trans ?_
  simp only [beyondDeadband, decide_eq_true_eq]
  rfl

theorem State.requestMove_requests (clear : s.faults[blindSource g].state = .clear)
    (needed : s.blinds.groups[g].referenced = false ∨
      30 < distance s.blinds.groups[g].target s.blinds.groups[g].estimate) :
    (s.requestMove g).blinds.groups[g].state = .queued := by
  rw [State.requestMove_clear clear]
  split
  · rw [State.request_group]
  · next referenced => rw [if_pos (needed.resolve_left referenced), State.request_group]

theorem State.requestMove_rests (clear : s.faults[blindSource g].state = .clear)
    (rests : ¬ (s.blinds.groups[g].referenced = false ∨
      30 < distance s.blinds.groups[g].target s.blinds.groups[g].estimate)) : s.requestMove g = s := by
  rw [State.requestMove_clear clear, if_neg fun h => rests (.inl h), if_neg fun h => rests (.inr h)]

/-- The turn of a STOPPED group. -/
theorem State.EvaluationTurn.stopped (turn : s.EvaluationTurn g c x t) (state : s.blinds.groups[g].state = .stopped)
    (idle : s.blinds.groups[g].cal = none) (clear : s.faults[blindSource g].state = .clear)
    (absent : s.blinds.Absent g) :
    if s.blinds.groups[g].referenced = false ∨
        30 < distance t.blinds.groups[g].target s.blinds.groups[g].estimate then
      t.blinds.groups[g].state.Requested
    else t.blinds.groups[g].state = .stopped ∧ t.blinds.groups[g].estimate = s.blinds.groups[g].estimate := by
  let w := x.writeTarget g c
  have found := turn.before.alone absent
  have group : w.blinds.groups[g] = _ := x.writeTarget_group g c
  rw [found.group] at group
  have after := turn.free (by rw [found.group, idle])
  have acts : w.actOnTarget g = w.requestMove g := by simp only [State.actOnTarget, group, state]
  have clearNow : w.faults[blindSource g].state = .clear := (congrArg FaultRec.state turn.before.fault).trans clear
  have target : t.blinds.groups[g].target = w.blinds.groups[g].target := by rw [turn.aim.2.1, group]
  have judged : (s.blinds.groups[g].referenced = false ∨
      30 < distance t.blinds.groups[g].target s.blinds.groups[g].estimate) ↔
      (w.blinds.groups[g].referenced = false ∨
        30 < distance w.blinds.groups[g].target w.blinds.groups[g].estimate) := by rw [target, group]
  rw [acts] at after
  split
  · next needed =>
    exact after.record.requested (.inl (State.requestMove_requests clearNow (judged.mp needed)))
  · next rests =>
    rw [State.requestMove_rests clearNow fun h => rests (judged.mpr h)] at after
    rw [(after.alone found.absent).group, group]
    exact ⟨state, rfl⟩

end

/-! ## A group that moves (R150, log entry 56) -/

/-- What a target makes of a moving group: it goes on, stops within the deadband, or reverses. -/
def Group.Retargets (r r' : Group) (keepsSlot : Prop) : Prop :=
  if r'.target = r.goal ∨ r'.target = r.state.endAhead then r'.state = r.state ∧ r'.goal = r'.target
  else if distance r'.target r.estimate ≤ 30 then r'.state = .stopped ∧ ¬ keepsSlot
  else if (r.state = .movingDown ↔ r.estimate < r'.target) then r'.state = r.state ∧ r'.goal = r'.target
  else r'.state = .reversing ∧ r'.goal = r'.target

section
variable {r r' : Group} {keepsSlot : Prop}

theorem Group.Retargets.goesOn (toward : r'.target = r.goal ∨ r'.target = r.state.endAhead)
    (moves : r'.state = r.state ∧ r'.goal = r'.target) : r.Retargets r' keepsSlot := by
  rw [Group.Retargets, if_pos toward]
  exact moves

variable (away : ¬ (r'.target = r.goal ∨ r'.target = r.state.endAhead))
include away

theorem Group.Retargets.stops (near : distance r'.target r.estimate ≤ 30)
    (stopped : r'.state = .stopped ∧ ¬ keepsSlot) : r.Retargets r' keepsSlot := by
  rw [Group.Retargets, if_neg away, if_pos near]
  exact stopped

theorem Group.Retargets.follows (far : ¬ distance r'.target r.estimate ≤ 30)
    (ahead : r.state = .movingDown ↔ r.estimate < r'.target) (moves : r'.state = r.state ∧ r'.goal = r'.target) :
    r.Retargets r' keepsSlot := by
  rw [Group.Retargets, if_neg away, if_neg far, if_pos ahead]
  exact moves

theorem Group.Retargets.reverses (far : ¬ distance r'.target r.estimate ≤ 30)
    (behind : ¬ (r.state = .movingDown ↔ r.estimate < r'.target))
    (turns : r'.state = .reversing ∧ r'.goal = r'.target) : r.Retargets r' keepsSlot := by
  rw [Group.Retargets, if_neg away, if_neg far, if_neg behind]
  exact turns

end

/-- Beyond the deadband a target lies ahead of a group that moves down exactly when it lies below the estimate. -/
theorem Group.ahead_iff {r : Group} (far : ¬ distance r.target r.estimate ≤ 30) :
    r.ahead = true ↔ (r.state = .movingDown ↔ r.estimate < r.target) := by
  have apart : r.target ≠ r.estimate := fun same => far (by simp [distance, same])
  have below : r.target < r.estimate ↔ ¬ r.estimate < r.target := by omega
  unfold Group.ahead
  cases r.state <;> simp [below]

section
variable {s x t : State} {g : Fin 4} {c : Cell}

theorem State.retargetMoving_free (free : s.blinds.groups[g].refMove = false) : s.retargetMoving g =
    if s.blinds.groups[g].target = s.blinds.groups[g].goal then s
    else if s.blinds.groups[g].target = s.blinds.groups[g].state.endAhead then
      s.updGroup g fun r => { r with goal := r.target }
    else if distance s.blinds.groups[g].target s.blinds.groups[g].estimate ≤ 30 then s.stopGroup g .stopped
    else if s.blinds.groups[g].ahead = true then s.updGroup g fun r => { r with goal := r.target }
    else s.updGroup g fun r => { r with goal := r.target }.reverse := by
  simp only [State.retargetMoving, free, Bool.false_or, decide_eq_true_eq, beyondDeadband, decide_eq_false_iff_not,
    Nat.not_lt]
  rfl

/-- A state in which a moving group has taken its target. -/
structure State.Retargeted (s : State) (g : Fin 4) (y : State) : Prop where
  absent : y.blinds.Absent g
  target : y.blinds.groups[g].target = s.blinds.groups[g].target
  estimate : y.blinds.groups[g].estimate = s.blinds.groups[g].estimate
  retargets : s.blinds.groups[g].Retargets y.blinds.groups[g] (g ∈ y.blinds.slots)

theorem State.retargetMoving_retargeted (free : s.blinds.groups[g].refMove = false) (absent : s.blinds.Absent g) :
    s.Retargeted g (s.retargetMoving g) := by
  have goal := s.updGroup_get_self g fun r => { r with goal := r.target }
  have reverse := s.updGroup_get_self g fun r => { r with goal := r.target }.reverse
  have stop := s.stopGroup_group g .stopped
  have without := s.stopGroup_without g .stopped
  rw [State.retargetMoving_free free]
  split
  · next same => exact ⟨absent, rfl, rfl, .goesOn (.inl same) ⟨rfl, same.symm⟩⟩
  · next other =>
    split
    · next ends => exact ⟨absent, by rw [goal], by rw [goal], by rw [goal]; exact .goesOn (.inr ends) ⟨rfl, rfl⟩⟩
    · next inner =>
      have away := not_or.mpr ⟨other, inner⟩
      split
      · next near =>
        exact ⟨without.absent, by rw [stop]; rfl, by rw [stop]; rfl,
          by rw [stop]; exact .stops away near ⟨rfl, without.unslotted⟩⟩
      · next far =>
        have ahead := Group.ahead_iff far
        split
        · next forward =>
          exact ⟨absent, by rw [goal], by rw [goal],
            by rw [goal]; exact .follows away far (ahead.mp forward) ⟨rfl, rfl⟩⟩
        · next back =>
          exact ⟨absent, by rw [reverse]; rfl, by rw [reverse]; rfl,
            by rw [reverse]; exact .reverses away far (fun h => back (ahead.mpr h)) ⟨rfl, rfl⟩⟩

/-- The turn of a moving group. -/
theorem State.EvaluationTurn.moving (turn : s.EvaluationTurn g c x t)
    (state : s.blinds.groups[g].state = .movingUp ∨ s.blinds.groups[g].state = .movingDown)
    (idle : s.blinds.groups[g].cal = none) (free : s.blinds.groups[g].refMove = false)
    (absent : s.blinds.Absent g) :
    t.blinds.groups[g].estimate = s.blinds.groups[g].estimate ∧
      s.blinds.groups[g].Retargets t.blinds.groups[g] (g ∈ t.blinds.slots) := by
  let w := x.writeTarget g c
  have found := turn.before.alone absent
  have group : w.blinds.groups[g] = _ := x.writeTarget_group g c
  rw [found.group] at group
  have after := turn.free (by rw [found.group, idle])
  have acts : w.actOnTarget g = w.retargetMoving g := by
    rcases state with state | state <;> simp only [State.actOnTarget, group, state]
  rw [acts] at after
  have retargeted := State.retargetMoving_retargeted (s := w) (g := g) (by rw [group]; exact free) found.absent
  have leaves := after.alone retargeted.absent
  have estimate := retargeted.estimate
  have retargets := retargeted.retargets
  rw [group] at estimate retargets
  rw [leaves.group, leaves.slots]
  exact ⟨estimate, retargets⟩

end

/-- The computed target table of R146, read by mode, policy and side together. -/
theorem blindTargetFor_eq (mode : Mode) (policy : BlindPolicy) (side : BlindSide) (sunPosition : Nat) (sun : Bool) :
    blindTargetFor mode policy side sunPosition sun =
      match mode, policy, side with
      | .fire, _, _ => 0
      | .setback, _, _ | .precondition, _, _ | .purge, _, _ => if sun then sunPosition else 0
      | .await, .daylight, _ | .occupied, .daylight, _ => if sun then sunPosition else 0
      | .await, .present, .windowSide | .occupied, .present, .windowSide => if sun then sunPosition else 0
      | .await, .present, .boardSide | .occupied, .present, .boardSide => 1000
      | .await, .dark, _ | .occupied, .dark, _ => 1000 := by
  cases mode <;> cases policy <;> cases side <;> rfl

/-- Settles O57: the turn of the group forms its target and acts on it; what comes before and after leaves what the turn
reads and writes, but for the grant of an entry of the group that waits. -/
theorem blindEvaluationFormsTheTargets : Obligations.BlindEvaluationFormsTheTargets := by
  intro g c s hs used w shade formed flag sunUsed waits
  have table : s.formedTarget g c = formed := funext fun sun => blindTargetFor_eq ..
  clear_value formed
  subst table
  have run : exec .blindEvaluation s = finish s.secondEnded.evaluateBlinds := rfl
  obtain ⟨x, turn⟩ := State.evaluateBlinds_turn (s := s.secondEnded) used
  have kept : Keeps evaluationParts s s.secondEnded.evaluateBlinds :=
    ((s.updBlinds_keeps _).mono rfl).trans s.secondEnded.evaluateBlinds_keeps
  rw [finish_kept hs kept rfl] at run
  obtain ⟨ns, link⟩ := kept.same .link rfl
  rw [link] at run
  generalize s.secondEnded.evaluateBlinds = t at *
  obtain ⟨-, sun, evalTimer⟩ := turn.frame
  have group := s.secondEnded_group g
  have target := turn.target
  have moving := turn.moving
  have stopped := turn.stopped
  have sunWaits := turn.sun_waits
  rw [group] at target moving stopped sunWaits
  have follows (h : ¬ x.SunWaits g c) : t.blinds.groups[g].sunUsed = s.blinds.sun := turn.sun_follows h
  refine ⟨_, ns, run, rfl, evalTimer, sun, kept.working rfl rfl rfl rfl, kept.space (by decide),
    turn.computedTarget, fun same => follows fun wait => wait.1 ?_, fun ⟨changes, _, moved, soon⟩ =>
      sunWaits (turn.waits changes moved soon), fun ready absent => follows fun wait => ready (turn.waited absent wait),
    ?_, target, stopped, fun state idle free absent => ?_⟩
  · rw [turn.formedTarget, turn.sunUsed_before, turn.before.keepsAim.sun, group]
    exact same
  · by_cases wait : x.SunWaits g c
    · exact .inr (sunWaits wait)
    · exact .inl (follows wait)
  · obtain ⟨estimate, retargets⟩ := moving state idle free absent
    rw [Group.Retargets, GroupState.endAhead_eq] at retargets
    exact ⟨estimate, retargets⟩

end Sys2Proof.Machine
end

