-- ==== Sys2Proof/Proofs/Supervision.lean ====
section
/-! PROOF. Host supervision (R176 to R178): the KEEPALIVE that starts a period, and what a lapse ends and tells. -/

namespace Sys2Proof.Machine
open Sys2Proof

/-! ## A new period (R177) -/

/-- A new period has started. -/
def State.periodBegun (s : State) : State :=
  s.updSupervision fun _ => { state := .supervised, reason := none, period := some 0 }

section
variable {s : State}

theorem State.answerKeepalive_unsupervised (h : s.supervision.state = .unsupervised) :
    s.answerKeepalive = accept (s.keepaliveBytes 0) s := by
  simp only [State.answerKeepalive, h]

theorem State.answerKeepalive_awaited (h : s.supervision.state = .awaitingFirst) :
    s.answerKeepalive = accept (s.periodBegun.keepaliveBytes 1) s.periodBegun := by
  simp only [State.answerKeepalive, h]
  rfl

theorem State.answerKeepalive_lapsed (h : s.supervision.state = .lapsed) :
    s.answerKeepalive = accept (s.periodBegun.keepaliveBytes 4) s.periodBegun := by
  simp only [State.answerKeepalive, h]
  rfl

variable (h : s.supervision.state = .supervised)
include h

theorem State.answerKeepalive_inWindow
    (opened : openingPoint s.working.settings.supervisionPeriod s.working.settings.windowFraction * 1000 ≤
      s.supervision.period.getD 0) :
    s.answerKeepalive = accept (s.periodBegun.keepaliveBytes 2) s.periodBegun := by
  simp only [State.answerKeepalive, h, opened, ↓reduceIte]
  rfl

theorem State.answerKeepalive_early
    (early : s.supervision.period.getD 0 <
      openingPoint s.working.settings.supervisionPeriod s.working.settings.windowFraction * 1000) :
    s.answerKeepalive = accept ((s.lapse .early).keepaliveBytes 3) (s.lapse .early) := by
  simp only [State.answerKeepalive, h, Nat.not_le.mpr early, ↓reduceIte]

end

/-- Settles O17, by the state of supervision. -/
theorem keepaliveStartsThePeriod : Obligations.KeepaliveStartsThePeriod := by
  intro tag s hs
  refine ⟨fun free => ⟨_, exec_answered hs rfl rfl (State.answerKeepalive_unsupervised free) rfl⟩, ?_⟩
  rintro (awaited | lapsed | ⟨supervised, opened⟩)
  · exact ⟨_, exec_answered hs rfl rfl (State.answerKeepalive_awaited awaited) rfl⟩
  · exact ⟨_, exec_answered hs rfl rfl (State.answerKeepalive_lapsed lapsed) rfl⟩
  · exact ⟨_, exec_answered hs rfl rfl (State.answerKeepalive_inWindow supervised opened) rfl⟩

/-! ## Notices that end no override -/

/-- The notices handed over from one state to the other tell of no override's end. -/
def State.EndsNone (s t : State) : Prop :=
  ∃ ns, t.link = s.link.handed ns ∧ ∀ n ∈ ns, n.kind ≠ .overrideEnded

namespace State.EndsNone
variable {s t u : State}

theorem of_link (h : t.link = s.link) : s.EndsNone t := ⟨[], h, fun _ mem => absurd mem List.not_mem_nil⟩

theorem of_keeps {xs : List Block} (k : Keeps xs s t) (h : xs.contains .notices = false) : s.EndsNone t :=
  of_link (k.same .notices h)

theorem trans (h : s.EndsNone t) (k : t.EndsNone u) : s.EndsNone u := by
  obtain ⟨ns, first, none⟩ := h
  obtain ⟨ms, second, none'⟩ := k
  exact ⟨ns ++ ms, by rw [second, first, Link.handed_append],
    fun n mem => (List.mem_append.mp mem).elim (none n) (none' n)⟩

theorem ite {c : Prop} [Decidable c] (h : s.EndsNone t) (k : s.EndsNone u) : s.EndsNone (if c then t else u) := by
  split
  · exact h
  · exact k

theorem notify (s : State) {kind : NoticeKind} (other : kind ≠ .overrideEnded) (place : Option Place)
    (source : Option Nat) (value : Nat) (tag : Option Half) : s.EndsNone (s.notify kind place source value tag) :=
  ⟨[s.noticeOf kind place source value tag], rfl, fun n mem => by rw [List.mem_singleton.mp mem]; exact other⟩

theorem notifyFault (s : State) {kind : NoticeKind} (other : kind ≠ .overrideEnded) (i : Fin 21) :
    s.EndsNone (s.notifyFault kind i) := notify s other ..

theorem reportRetry (s : State) (i : Fin 21) (kind : FaultKind) : s.EndsNone (s.reportRetry i kind) := by
  have counted (f) : s.EndsNone (s.updFault i f) := of_link rfl
  have told (f) {k : NoticeKind} (other : k ≠ .overrideEnded) : s.EndsNone ((s.updFault i f).notifyFault k i) :=
    (counted f).trans (notifyFault _ other i)
  unfold State.reportRetry
  refine ite (ite (ite ((told _ ?_).trans (notifyFault _ ?_ i)) (told _ ?_)) (ite (told _ ?_) (told _ ?_))) (counted _)
  all_goals decide

theorem calRailFault (s : State) (c : Cell) : s.EndsNone (s.calRailFault c) := by
  rw [State.calRailFault_eq]
  refine ite ⟨[_], s.endDamperCal_link c (.aborted .rail), fun n mem => ?_⟩ (of_link rfl)
  rw [List.mem_singleton.mp mem]
  exact (by decide : NoticeKind.calibrationDone ≠ .overrideEnded)

/-- A fault level found as the rail rises. -/
theorem railFault (h : s.rail.state ≠ .on) : s.EndsNone s.railFault := by
  have reported : s.EndsNone s.railFaulted := by
    rw [State.railFaulted_eq, if_neg h]
    exact reportRetry s.railDropped railSource .railFault
  have moved (x : State) : x.EndsNone x.railToTracking.handMotion.writeNeeds :=
    ((of_keeps x.railToTracking_keeps rfl).trans (of_keeps (State.handMotion_keeps _) rfl)).trans
      (of_keeps (State.writeNeeds_keeps _) rfl)
  exact ((reported.trans (calRailFault _ .a)).trans (calRailFault _ .b)).trans (moved _)

theorem refreshNeeds (s : State) : s.EndsNone s.refreshNeeds := by
  have written : s.EndsNone s.writeNeeds := of_keeps s.writeNeeds_keeps rfl
  have raised : s.EndsNone s.railRaised := of_link rfl
  unfold State.refreshNeeds State.raiseRail
  exact ite (ite (raised.trans (railFault (by simp [State.railRaised]))) raised) written

end State.EndsNone

/-! ## A rail that its needs do not find at a fault level -/

/-- The rail is not raised against a fault level. -/
def State.RailQuiet (s : State) : Prop := s.rail.state ≠ .off ∨ s.rail.faultLevel = false

theorem State.RailQuiet.congr {s t : State} (h : s.RailQuiet) (k : t.rail = s.rail) : t.RailQuiet := by
  rw [State.RailQuiet, k]
  exact h

theorem State.RailQuiet.refreshNeeds {s : State} (h : s.RailQuiet) : s.refreshNeeds.RailQuiet := by
  by_cases off : s.rail.state = .off
  · have level : s.rail.faultLevel = false := h.resolve_left (not_not.mpr off)
    by_cases need : (s.driveNeed || s.blindNeed) = true
    · rw [State.refreshNeeds_raises off need, level]
      exact .inr level
    · have idle : ¬ (s.writeNeeds.rail.state = .off ∧
          (s.writeNeeds.rail.driveNeed || s.writeNeeds.rail.blindNeed) = true) := fun h => need h.2
      have stays : s.refreshNeeds = s.writeNeeds := if_neg idle
      rw [stays]
      exact .inr level
  · rw [State.refreshNeeds_standing off]
    exact .inl off

/-! ## The end of the overrides (R17) -/

/-- The notices handed over from one state to the other are the ends given, among those of a rail that is raised
against a fault level. -/
structure State.Ends (s : State) (ended : List Notice) (t : State) : Prop where
  told : ∃ ns, t.link = s.link.handed ns ∧ ns.filter (fun n => decide (n.kind = .overrideEnded)) = ended ∧
    (s.RailQuiet → ns = ended)
  quiet : s.RailQuiet → t.RailQuiet

namespace State.Ends
variable {s t u : State} {ended more : List Notice}

theorem of_rail (link : t.link = s.link) (rail : t.rail = s.rail) : s.Ends [] t :=
  ⟨⟨[], link, rfl, fun _ => rfl⟩, fun quiet => quiet.congr rail⟩

theorem trans (h : s.Ends ended t) (k : t.Ends more u) : s.Ends (ended ++ more) u := by
  obtain ⟨⟨ns, first, ends, alone⟩, quiet⟩ := h
  obtain ⟨⟨ms, second, ends', alone'⟩, quiet'⟩ := k
  have link : u.link = s.link.handed (ns ++ ms) := by rw [second, first, Link.handed_append]
  exact ⟨⟨ns ++ ms, link, by rw [List.filter_append, ends, ends'],
    fun calm => by rw [alone calm, alone' (quiet calm)]⟩, quiet' ∘ quiet⟩

theorem refreshNeeds (s : State) : s.Ends [] s.refreshNeeds := by
  refine ⟨?_, .refreshNeeds⟩
  by_cases calm : s.RailQuiet
  · obtain ⟨ns, link, alone⟩ := s.refreshNeeds_link
    obtain rfl := alone calm
    exact ⟨[], link, rfl, fun _ => rfl⟩
  · obtain ⟨ns, link, none⟩ := State.EndsNone.refreshNeeds s
    exact ⟨ns, link, List.filter_eq_nil_iff.mpr fun n mem => by simpa using none n mem, fun h => absurd h calm⟩

end State.Ends

/-- The start or the end of an override moves a drive at once, or nothing (R18). -/
theorem State.overrideMoved_cases (s : State) (t : Fin 16) :
    s.overrideMoved t = s ∨ ∃ x, Keeps [.drives] s x ∧ s.overrideMoved t = x.refreshNeeds := by
  unfold State.overrideMoved
  split
  · exact .inr ⟨_, s.redrive_keeps .a, rfl⟩
  · exact .inr ⟨_, s.redrive_keeps .b, rfl⟩
  · exact .inr ⟨_, s.redriveValve_keeps .a, rfl⟩
  · exact .inr ⟨_, s.redriveValve_keeps .b, rfl⟩
  · exact .inl rfl

theorem State.overrideMoved_ends (s : State) (t : Fin 16) : s.Ends [] (s.overrideMoved t) := by
  rcases s.overrideMoved_cases t with same | ⟨x, kept, moved⟩
  · rw [same]
    exact .of_rail rfl rfl
  · rw [moved]
    exact (State.Ends.of_rail (kept.same .notices rfl) (kept.same .rail rfl)).trans (.refreshNeeds x)

theorem State.overrideMoved_blinds (s : State) (t : Fin 16) : (s.overrideMoved t).blinds = s.blinds := by
  rcases s.overrideMoved_cases t with same | ⟨x, kept, moved⟩
  · rw [same]
  · rw [moved, State.refreshNeeds_blinds, kept.same .blinds rfl]

/-- The notice of the end of the override on a target, if one is in force (R17). -/
def State.endNotice (s : State) (cause : OverrideCause) (t : Fin 16) : Option Notice :=
  s.space.overrides[t].map fun _ => s.noticeOf .overrideEnded none (some t.val) cause.code none

section
variable (s : State) (cause : OverrideCause)

theorem State.endOverride_ends (t : Fin 16) : s.Ends (s.endNotice cause t).toList (s.endOverride t cause) := by
  cases h : s.space.overrides[t] with
  | none =>
    rw [State.endOverride_none h, State.endNotice, h]
    exact .of_rail rfl rfl
  | some v =>
    let x := s.updSpace fun p => { p with overrides := p.overrides.set t none }
    have moved : s.Ends [] (x.overrideMoved t) :=
      (State.Ends.of_rail (s := s) (t := x) rfl rfl).trans (x.overrideMoved_ends t)
    have clock : (x.overrideMoved t).clock = s.clock := (x.overrideMoved_keeps t).same .clock rfl
    have notice : (s.endNotice cause t).toList = [s.noticeOf .overrideEnded none (some t.val) cause.code none] := by
      simp only [State.endNotice, h, Option.map_some, Option.toList_some]
    have ends : s.endOverride t cause =
        (x.overrideMoved t).notify .overrideEnded none (some t.val) cause.code none := by
      simp only [State.endOverride, h, Option.isSome_some, ↓reduceIte]
      rfl
    rw [notice, ends]
    refine moved.trans (ended := []) ⟨⟨[_], ?_, rfl, fun _ => rfl⟩, fun quiet => quiet⟩
    rw [State.notify_link, State.noticeOf_congr clock]
    rfl

theorem State.endOverride_blinds (t : Fin 16) : (s.endOverride t cause).blinds = s.blinds := by
  unfold State.endOverride
  split
  · exact State.overrideMoved_blinds ..
  · rfl

/-- The end of another override leaves the notice of this one to be told as it was. -/
theorem State.endNotice_endOverride {x t : Fin 16} (other : x ≠ t) :
    (s.endOverride t cause).endNotice cause x = s.endNotice cause x := by
  have clock : (s.endOverride t cause).clock = s.clock := (s.endOverride_keeps t cause).same .clock rfl
  have apart : (t : Nat) ≠ x := fun same => other (Fin.ext same.symm)
  have stands : (s.endOverride t cause).space.overrides[x] = s.space.overrides[x] := by
    rw [State.endOverride_overrides]
    simp [apart]
  simp only [State.endNotice, stands, State.noticeOf_congr clock]

variable {s} in
theorem State.foldl_endOverride_ends {ts : List (Fin 16)} (once : ts.Nodup) :
    s.Ends (ts.filterMap (s.endNotice cause)) (ts.foldl (fun s t => s.endOverride t cause) s) := by
  induction ts generalizing s with
  | nil => exact .of_rail rfl rfl
  | cons t ts ih =>
    obtain ⟨apart, once⟩ := List.nodup_cons.mp once
    have first := s.endOverride_ends cause t
    have rest := ih (s := s.endOverride t cause) once
    have told : ts.filterMap ((s.endOverride t cause).endNotice cause) = ts.filterMap (s.endNotice cause) :=
      List.filterMap_congr fun x mem => s.endNotice_endOverride cause fun same => apart (same ▸ mem)
    have order : (t :: ts).filterMap (s.endNotice cause) =
        (s.endNotice cause t).toList ++ ts.filterMap (s.endNotice cause) := by
      cases h : s.endNotice cause t <;> simp [h]
    rw [told] at rest
    rw [order]
    exact first.trans rest

theorem State.foldl_endOverride_blinds (ts : List (Fin 16)) :
    (ts.foldl (fun s t => s.endOverride t cause) s).blinds = s.blinds := by
  induction ts generalizing s with
  | nil => rfl
  | cons t ts ih => exact (ih _).trans (s.endOverride_blinds cause t)

end

/-! ## A lapse (R178) -/

/-- Supervision has lapsed and says so; nothing else has moved. -/
def State.lapseTold (s : State) (reason : LapseReason) : State :=
  (s.updSupervision fun _ => { state := .lapsed, reason := some reason, period := none }).notify .supervisionLapsed
    none none reason.code none

theorem State.lapse_eq (s : State) (reason : LapseReason) : s.lapse reason =
    ((s.lapseTold reason).endOverrides .lapse).defaultCap.updBlinds fun b => { b with sunHold := some 0 } := rfl

/-- The notices of a lapse: its own first, and behind it the ends of the overrides (log entry 44). -/
theorem State.lapse_link (s : State) (reason : LapseReason) : ∃ ns,
    (s.lapse reason).link =
      s.link.handed (s.noticeOf .supervisionLapsed none none reason.code none :: ns) ∧
      ns.filter (fun n => decide (n.kind = .overrideEnded)) = (List.finRange 16).filterMap (s.endNotice .lapse) ∧
      (s.RailQuiet → ns = (List.finRange 16).filterMap (s.endNotice .lapse)) := by
  have targets : allTargets = List.finRange 16 := by decide
  have ended := State.foldl_endOverride_ends (s := s.lapseTold reason) .lapse (List.nodup_finRange 16)
  have notices : (s.lapseTold reason).endNotice .lapse = s.endNotice .lapse := rfl
  rw [notices, ← targets] at ended
  obtain ⟨ns, link, ends, alone⟩ := ended.told
  have told : (s.lapseTold reason).link = s.link.place (s.noticeOf .supervisionLapsed none none reason.code none) := rfl
  rw [told] at link
  refine ⟨ns, ?_, by rw [← targets, ends], fun quiet => by rw [← targets, alone quiet]⟩
  rw [State.lapse_eq, State.updBlinds_link, State.defaultCap, State.updAir_link]
  exact link

/-- What a lapse leaves, before what the link interface does at once. -/
structure State.Lapsed (s : State) (reason : LapseReason) (t : State) : Prop where
  supervision : t.supervision = { state := .lapsed, reason := some reason, period := none }
  overrides : ∀ x : Fin 16, t.space.overrides[x] = none
  air : t.air = { s.air with requestedCap := s.working.settings.defaultCap, capSource := .default }
  blinds : t.blinds = { s.blinds with sunHold := some 0 }
  walker : t.walker = s.walker
  working : t.working = s.working

theorem State.lapse_lapsed (s : State) (reason : LapseReason) : s.Lapsed reason (s.lapse reason) := by
  have kept := (s.lapseTold reason).endOverrides_keeps .lapse
  have blinds : ((s.lapseTold reason).endOverrides .lapse).blinds = s.blinds :=
    State.foldl_endOverride_blinds _ .lapse allTargets
  have ended := (s.lapseTold reason).endOverrides_overrides .lapse
  rw [State.lapse_eq]
  generalize (s.lapseTold reason).endOverrides .lapse = x at *
  have air : x.air = s.air := kept.same .air rfl
  have working : x.working = s.working := kept.working rfl rfl rfl rfl
  refine ⟨kept.same .supervision rfl, ended, ?_, ?_, kept.same .walker rfl, working⟩
  · rw [State.updBlinds_air, State.defaultCap, State.updAir_air, air, working]
  · rw [State.updBlinds_blinds, State.defaultCap, State.updAir_blinds, blinds]

/-- The reply to an early KEEPALIVE carries no times. -/
theorem State.keepaliveBytes_lapsed {t : State} (state : t.supervision.state = .lapsed)
    (period : t.supervision.period = none) : t.keepaliveBytes 3 =
      free1 .keepaliveOutcome 3 ++ free1 .supervisionState 3 ++ [0xFF, 0xFF, 0xFF, 0xFF] := by
  simp only [State.keepaliveBytes, state, period]
  rfl

/-- Settles O18: an early KEEPALIVE and the end of the period come to the same lapse. -/
theorem lapseEndsOverridesAndTheCap : Obligations.LapseEndsOverridesAndTheCap := by
  intro tag s supervised told ended lapses
  have leaves (reason : LapseReason) : ∃ ns,
      (∀ l, lapses { s.lapse reason with link := l } reason ns) ∧
        (s.lapse reason).link = s.link.handed (told reason.code :: ns) := by
    obtain ⟨ns, link, ends, alone⟩ := s.lapse_link reason
    have lapsed := s.lapse_lapsed reason
    generalize s.lapse reason = t at *
    exact ⟨ns, fun l => ⟨lapsed.supervision, lapsed.overrides, congrArg Air.requestedCap lapsed.air,
      congrArg Air.capSource lapsed.air, (congrArg Air.capInForce lapsed.air :), (congrArg Blinds.sun lapsed.blinds :),
      congrArg Blinds.sunHold lapsed.blinds, lapsed.walker, lapsed.working, ends, alone⟩, link⟩
  refine ⟨fun hs early => ?_, fun hs timed => ?_⟩
  · obtain ⟨ns, lapse, link⟩ := leaves .early
    have run := exec_answered (i := .keepalive tag) hs rfl rfl (State.answerKeepalive_early supervised early)
      (by rw [link, Link.handed_requests])
    refine ⟨_, ns, run, lapse _, ?_⟩
    have reply := State.keepaliveBytes_lapsed (t := s.lapse .early)
      (congrArg Supervision.state (s.lapse_lapsed .early).supervision)
      (congrArg Supervision.period (s.lapse_lapsed .early).supervision)
    rw [reply, link]
    rfl
  · obtain ⟨ns, lapse, link⟩ := leaves .late
    have ends : s.periodEnd = s.lapse .late := if_pos ⟨supervised, timed⟩
    have run : exec .periodEnd s = finish s.periodEnd := rfl
    rw [ends, finish_handed hs link] at run
    exact ⟨_, ns, run, lapse _, rfl⟩

end Sys2Proof.Machine
end

