-- ==== Sys2Proof/Proofs/FaultRecords.lean ====
section
/-! PROOF. Fault records that return to CLEAR: by CLEAR_FAULT (R174), by the end of a retry interval and by the end of a
normal timer (R173), and the source that each re-drives (R115, R155, R161). -/

namespace Sys2Proof.Machine
open Sys2Proof

/-! ## Sources -/

theorem retriedSource_damper (c : Cell) : retriedSource (damperSource c) = some (.damper c) := by cases c <;> rfl

theorem retriedSource_blind : ∀ g : Fin 4, retriedSource (blindSource g) = some (.blind g) := by decide

theorem retriedSource_rail : retriedSource railSource = some .rail := rfl

theorem doorOfSource_door : ∀ d : Fin 4, doorOfSource (doorSource d) = some d := by decide

theorem damperSource_inj {c d : Cell} (h : damperSource c = damperSource d) : c = d := by
  have same := congrArg retriedSource h
  simpa only [retriedSource_damper, Option.some.injEq, Retried.damper.injEq] using same

theorem blindSource_inj {g j : Fin 4} (h : blindSource g = blindSource j) : g = j := by
  have same := congrArg retriedSource h
  simpa only [retriedSource_blind, Option.some.injEq, Retried.blind.injEq] using same

theorem blindSource_ne_damper (g : Fin 4) (c : Cell) : blindSource g ≠ damperSource c := fun h => by
  have same := congrArg retriedSource h
  simp only [retriedSource_blind, retriedSource_damper, Option.some.injEq, reduceCtorEq] at same

/-! ## A record withdrawn with FAULT_CLEARED -/

/-- A record has been changed, with FAULT_CLEARED; nothing else has moved. -/
def State.withdrawn (s : State) (i : Fin 21) (f : FaultRec → FaultRec) : State :=
  (s.updFault i f).notifyFault .faultCleared i

section
variable (s : State) (i : Fin 21) (f : FaultRec → FaultRec)

theorem State.withdrawn_keeps : Keeps [.notices, .faults] s (s.withdrawn i f) :=
  ((s.updFault_keeps i f).mono rfl).trans ((State.notifyFault_keeps ..).mono rfl)

theorem State.withdrawn_record : (s.withdrawn i f).faults[i] = f s.faults[i] := updAt_self ..

variable {f} in
/-- The notice carries the state CLEAR and the kind of the record. -/
theorem State.withdrawn_link (state : (f s.faults[i]).state = .clear) (kind : (f s.faults[i]).kind = s.faults[i].kind) :
    (s.withdrawn i f).link =
      s.link.place (s.noticeOf .faultCleared none (some i.val) (256 * s.faults[i].kind.code) none) := by
  simp only [State.withdrawn, State.notifyFault, State.notify_link, State.updFault_faults, updAt_self, state, kind,
    FaultState.code, Nat.zero_add]
  rfl

end

/-! ## A damper re-driven (R115) -/

/-- The feedback of a damper is good, or its rail is not ON to judge it. -/
def State.FeedbackStands (s : State) (c : Cell) : Prop :=
  s.rail.state ≠ .on ∨ (s.drives.get c).feedbackGood = true

theorem Drive.tracked_tracking (d : Drive) (may : Bool) : (d.tracked may).tracking = may := by
  unfold Drive.tracked
  cases may with
  | false => rfl
  | true =>
    cases tracks : d.tracking
    · rfl
    · exact tracks

section
variable {s : State} {c : Cell} (stands : s.FeedbackStands c)
include stands

theorem State.rearmDamper_stands : s.rearmDamper c = s.refreshTracking c := by
  have found : (decide (s.rail.state = .on) && !(s.drives.get c).feedbackGood) = false := by
    rcases stands with off | good
    · simp [off]
    · simp [good]
  simp only [State.rearmDamper, found, Bool.false_eq_true, ↓reduceIte]

theorem State.mayTrack_stands (clear : s.faults[damperSource c].state = .clear) :
    s.mayTrack c = true ↔ s.rail.state = .on ∧ (s.drives.get c).cal = none := by
  have good : s.rail.state = .on → (s.drives.get c).feedbackGood = true := stands.resolve_left ∘ not_not.mpr
  simp only [State.mayTrack, clear, Bool.and_eq_true, decide_eq_true_eq, Option.isNone_iff_eq_none]
  constructor
  · rintro ⟨⟨⟨⟨on, -⟩, idle⟩, -⟩, -⟩
    exact ⟨on, idle⟩
  · rintro ⟨on, idle⟩
    exact ⟨⟨⟨⟨on, good on⟩, idle⟩, nofun⟩, nofun⟩

end

/-- What the re-driving of a damper leaves of its drive. -/
structure State.DamperRearmed (s : State) (c : Cell) (t : State) : Prop where
  kept : Keeps [.drives] s t
  driven : (t.drives.get c).driven = (s.drives.get c).driven
  tracking : (t.drives.get c).tracking = true ↔ s.rail.state = .on ∧ (s.drives.get c).cal = none

theorem State.rearmDamper_rearmed {s : State} {c : Cell} (stands : s.FeedbackStands c)
    (clear : s.faults[damperSource c].state = .clear) : s.DamperRearmed c (s.rearmDamper c) := by
  rw [State.rearmDamper_stands stands]
  refine ⟨s.refreshTracking_keeps c, ?_, ?_⟩
  · rw [State.refreshTracking_get_self]
    exact congrArg DriveCommands.driven (Drive.tracked_commands ..)
  · rw [State.refreshTracking_get_self, Drive.tracked_tracking, State.mayTrack_stands stands clear]

/-! ## A blind group re-driven (R155) -/

theorem State.grantedRecord_moves (s : State) (e : QueueEntry) (r : Group) :
    (s.grantedRecord e r).state = .movingUp ∨ (s.grantedRecord e r).state = .movingDown := by
  have energised (x : Group) (down : Bool) :
      (x.energise down).state = .movingUp ∨ (x.energise down).state = .movingDown := by
    cases down
    · exact .inl rfl
    · exact .inr rfl
  unfold State.grantedRecord
  split
  · exact energised _ false
  · split
    · exact energised _ false
    · exact energised _ _

/-- No grant puts a group in FAULT. -/
theorem State.afterBlinds_not_fault {s : State} {g : Fin 4} (h : s.blinds.groups[g].state ≠ .fault) :
    s.afterBlinds.blinds.groups[g].state ≠ .fault := by
  rw [State.afterBlinds_blinds]
  refine State.grantUpTo_induction (P := fun x => x.blinds.groups[g].state ≠ .fault) (fun x e _ _ stands => ?_) _ h
  by_cases own : g = e.group
  · rw [own, State.grantEntry_self]
    rcases x.grantedRecord_moves e x.blinds.groups[e.group] with moves | moves <;> rw [moves] <;> decide
  · rwa [x.grantEntry_other e own]

/-- The estimate of a group calls for a move: it is not referenced, or its target lies beyond the deadband (R148). -/
def Group.NeedsMove (r : Group) : Prop := r.referenced = false ∨ 30 < distance r.target r.estimate

/-- What the re-driving of a group leaves, its record being CLEAR. -/
structure State.BlindRearmed (s : State) (g : Fin 4) (t : State) : Prop where
  kept : Keeps evaluationParts s t
  record : t.faults[blindSource g] = s.faults[blindSource g]
  recovers : t.blinds.groups[g].state ≠ .fault
  unused : s.groupCell g = none → t.blinds.groups[g].state = .stopped
  moves : s.groupCell g ≠ none → s.blinds.Absent g → s.blinds.groups[g].NeedsMove →
    t.blinds.groups[g].state.Requested
  rests : s.groupCell g ≠ none → s.blinds.Absent g → ¬ s.blinds.groups[g].NeedsMove →
    t.blinds.groups[g].state = .stopped

/-- A group that has left FAULT, before it asks for its move. -/
def State.groupStopped (s : State) (g : Fin 4) : State := s.updGroup g fun r => { r with state := .stopped }

theorem State.groupStopped_group (s : State) (g : Fin 4) :
    (s.groupStopped g).blinds.groups[g] = { s.blinds.groups[g] with state := .stopped } := s.updGroup_get_self g _

section
variable {s : State} {g : Fin 4}

theorem State.rearmBlind_eq (stands : s.blinds.groups[g].state = .fault ∨ s.blinds.groups[g].state = .stopped) :
    s.rearmBlind g =
      if (s.groupCell g).isSome then ((s.groupStopped g).requestMove g).afterBlinds else s.groupStopped g :=
  if_pos stands

theorem State.rearmBlind_other (fault : s.blinds.groups[g].state ≠ .fault)
    (stopped : s.blinds.groups[g].state ≠ .stopped) : s.rearmBlind g = s :=
  if_neg fun stands => stands.elim fault stopped

theorem State.rearmBlind_record (s : State) (g : Fin 4) :
    (s.rearmBlind g).faults[blindSource g] = s.faults[blindSource g] := by
  have asked : ((s.groupStopped g).requestMove g).faults = s.faults :=
    (State.requestMove_keeps ..).same .faults rfl
  unfold State.rearmBlind
  split
  · dsimp only
    split
    · refine (State.afterBlinds_fault _ (blindSource_ne_rail g)).trans ?_
      exact congrArg (fun v : Vector FaultRec 21 => v[blindSource g]) asked
    · rfl
  · rfl

theorem State.rearmBlind_rearmed (clear : s.faults[blindSource g].state = .clear)
    (stands : s.blinds.groups[g].state = .fault ∨ s.blinds.groups[g].state = .stopped) :
    s.BlindRearmed g (s.rearmBlind g) := by
  let x := s.groupStopped g
  have group : x.blinds.groups[g] = _ := s.groupStopped_group g
  have need : x.blinds.groups[g].NeedsMove ↔ s.blinds.groups[g].NeedsMove := by rw [group]; exact Iff.rfl
  have kept := s.rearmBlind_keeps g
  have record := s.rearmBlind_record g
  rw [State.rearmBlind_eq stands] at kept record ⊢
  by_cases used : (s.groupCell g).isSome = true
  · have inUse : s.groupCell g ≠ none := Option.isSome_iff_ne_none.mp used
    rw [if_pos used] at kept record ⊢
    refine ⟨kept, record, ?_, fun none => absurd none inUse, fun _ _ moves => ?_, fun _ absent rests => ?_⟩
    · refine State.afterBlinds_not_fault ?_
      by_cases moves : x.blinds.groups[g].NeedsMove
      · rw [State.requestMove_requests (s := x) clear moves]
        decide
      · rw [State.requestMove_rests (s := x) clear moves, group]
        exact (by decide : GroupState.stopped ≠ .fault)
    · have asked := State.requestMove_requests (s := x) clear (need.mpr moves)
      exact (State.afterBlinds_spares _ g).record.requested (.inl asked)
    · rw [State.requestMove_rests (s := x) clear (mt need.mp rests), (State.afterBlinds_leaves (s := x) absent).group,
        group]
  · rw [if_neg used] at kept record ⊢
    have unused : s.groupCell g = none := Option.not_isSome_iff_eq_none.mp used
    have stopped : (s.groupStopped g).blinds.groups[g].state = .stopped := by rw [group]
    exact ⟨kept, record, by rw [stopped]; decide, fun _ => stopped, fun inUse => absurd unused inUse,
      fun inUse => absurd unused inUse⟩

end

/-! ## The rail re-driven (R161) -/

/-- An OFF rail without a fault level: its needs raise it, or leave it OFF. -/
theorem State.refreshNeeds_off {s : State} (off : s.rail.state = .off) (level : s.rail.faultLevel = false) :
    s.refreshNeeds = if (s.driveNeed || s.blindNeed) = true then s.railRaised else s.writeNeeds := by
  split
  · next need =>
    rw [State.refreshNeeds_raises off need, level]
    rfl
  · next idle =>
    have stays : ¬ (s.writeNeeds.rail.state = .off ∧
        (s.writeNeeds.rail.driveNeed || s.writeNeeds.rail.blindNeed) = true) := fun h => idle h.2
    exact if_neg stays

/-- What the re-driving of the rail leaves. -/
structure State.RailRearmed (s t : State) : Prop where
  kept : Keeps [.rail] s t
  stands : s.rail.state ≠ .faulted → t.rail.state = s.rail.state
  recovers : s.rail.state = .faulted →
    t.rail.state = if t.rail.driveNeed || t.rail.blindNeed then .rising else .off

theorem State.rearmRail_rearmed {s : State} (level : s.rail.faultLevel = false) : s.RailRearmed s.rearmRail := by
  unfold State.rearmRail
  by_cases faulted : s.rail.state = .faulted
  · let x := s.updRail fun r => { r with state := .off }
    have needs : x.refreshNeeds = if (x.driveNeed || x.blindNeed) = true then x.railRaised else x.writeNeeds :=
      State.refreshNeeds_off rfl level
    rw [if_pos faulted, needs]
    have off : Keeps [.rail] s x := s.updRail_keeps _
    have written := off.trans x.writeNeeds_keeps
    refine ⟨.ite (written.trans (State.updRail_keeps ..)) written, fun h => absurd faulted h, fun _ => ?_⟩
    split
    · next need => exact (if_pos need).symm
    · next idle => exact (if_neg idle).symm
  · rw [if_neg faulted]
    exact ⟨.refl _ _, fun _ => rfl, fun h => absurd h faulted⟩

/-! ## CLEAR_FAULT by the state of the record (R174) -/

section
variable {s : State} {i : Fin 21} {keep : Bool}

theorem State.clearRecord_clear (state : s.faults[i].state = .clear) :
    s.clearRecord i keep = some (s.updFault i fun r => r.cleared keep) := by
  simp only [State.clearRecord, state]

theorem State.clearRecord_active (state : s.faults[i].state = .active) (other : i ≠ clockSource) :
    s.clearRecord i keep = some ((s.withdrawn i fun r => { r with state := .clear }).restartStuck i) := by
  simp only [State.clearRecord, state, other, ↓reduceIte]
  rfl

theorem State.clearRecord_retried {x : Retried} (source : retriedSource i = some x)
    (state : s.faults[i].state = .retryWait ∨ s.faults[i].state = .latched) :
    s.clearRecord i keep = some ((s.withdrawn i fun r => r.cleared keep).redriveSource x) := by
  rcases state with state | state
  · simp only [State.clearRecord, state, source]
    rfl
  · simp only [State.clearRecord, state, source]
    rfl

theorem State.clearRecord_refused (state : s.faults[i].state = .active ∧ i = clockSource ∨
    s.faults[i].state = .holding ∨ s.faults[i].state = .faulted) : s.clearRecord i keep = none := by
  rcases state with ⟨state, clock⟩ | state | state
  · subst clock
    simp only [State.clearRecord, state, ↓reduceIte]
  · simp only [State.clearRecord, state]
  · simp only [State.clearRecord, state]

/-- The doorway counter restarts its stuck timer where it runs (R60). -/
theorem State.restartStuck_door (s : State) (d : Fin 4) :
    (s.restartStuck (doorSource d)).doors[d].stuck = s.doors[d].stuck.map fun _ => 0 := by
  simp only [State.restartStuck, doorOfSource_door]
  exact congrArg Door.stuck (updAt_self ..)

variable {x y : Byte} (hs : s.Takes) (tag : Byte) (hx : x.toNat = i) (hy : y.toNat = if keep then 1 else 0)
include hs hx hy

theorem exec_clearFault {t : State} (h : s.clearRecord i keep = some t) :
    exec (.clearFault tag x y) s = .next { t with link := t.link.answered 0x30 tag .ok [] } := by
  have accepts : s.answerClearFault x y = accept [] t := by
    simp only [State.answerClearFault, indexOperand_of_lt hx, bitOperand_of_code hy, h]
  obtain ⟨ns, link⟩ := (State.clearRecord_keeps h).same .link rfl
  exact exec_answered hs rfl rfl accepts (by rw [link, Link.handed_requests])

theorem exec_clearFault_refused (h : s.clearRecord i keep = none) : exec (.clearFault tag x y) s =
    .next { s with link := s.link.answered 0x30 tag .wrongState [0, 0] } :=
  exec_refused hs rfl rfl (by
    simp only [State.answerClearFault, indexOperand_of_lt hx, bitOperand_of_code hy, h])

end

theorem State.answerClearFault_badValue {x y : Byte} (h : 20 < x.toNat ∨ 1 < y.toNat) (s : State) :
    s.answerClearFault x y = refuse .badValue s := by
  rcases h with hx | hy
  · simp only [State.answerClearFault, indexOperand_of_le (n := 21) hx]
  · cases hi : indexOperand 21 x <;> simp only [State.answerClearFault, hi, bitOperand_of_le hy]

/-- Settles O42, by the state of the record and by its source. -/
theorem clearFaultClearsTheRecord : Obligations.ClearFaultClearsTheRecord := by
  refine ⟨fun tag x y i keep s hs hx hy => ?_, fun tag x y s hs h =>
    exec_refused hs rfl rfl (State.answerClearFault_badValue h s)⟩
  have run {t : State} (h : s.clearRecord i keep = some t) := exec_clearFault hs tag hx hy h
  let z := s.withdrawn i fun r => r.cleared keep
  have kept : Keeps [.notices, .faults] s z := s.withdrawn_keeps i _
  have link : z.link =
      s.link.place (s.noticeOf .faultCleared none (some i.val) (256 * s.faults[i].kind.code) none) :=
    s.withdrawn_link i rfl rfl
  have record : z.faults[i] = s.faults[i].cleared keep := s.withdrawn_record i _
  have space : z.space = s.space := kept.space (by decide)
  have working : z.working = s.working := kept.working rfl rfl rfl rfl
  refine ⟨fun clear => ?_, fun active other => ?_, ?_, ?_, ?_, fun refused =>
    exec_clearFault_refused hs tag hx hy (State.clearRecord_refused refused)⟩
  · have same : s.faults[i].cleared keep = { s.faults[i] with
        retryTimer := none
        retry := if keep then s.faults[i].retry else 0
        normal := if keep then s.faults[i].normal else 0 } := by
      rw [FaultRec.cleared, ← clear]
    rw [run (State.clearRecord_clear clear), ← same]
    rfl
  · have stuck := (s.withdrawn i fun r => { r with state := .clear }).restartStuck_keeps i
    refine ⟨_, run (State.clearRecord_active active other), stuck.same .faults rfl, ?_, ?_, stuck.same .walker rfl,
      stuck.space (by decide), stuck.working rfl rfl rfl rfl⟩
    · have placed := s.withdrawn_link i (f := fun r => { r with state := .clear }) rfl rfl
      rw [← placed, ← stuck.same .notices rfl]
    · rintro d rfl
      exact State.restartStuck_door _ d
  · rintro c rfl state stands
    have rearmed := State.rearmDamper_rearmed (s := z) (c := c) stands (by rw [record]; rfl)
    have clears : s.clearRecord (damperSource c) keep = some (z.rearmDamper c) :=
      State.clearRecord_retried (retriedSource_damper c) state
    have answers := run clears
    generalize z.rearmDamper c = t at *
    refine ⟨_, answers, rearmed.kept.same .faults rfl, ?_, rearmed.driven, rearmed.kept.working rfl rfl rfl rfl⟩
    rw [← link, ← rearmed.kept.same .notices rfl]
  · rintro g rfl state
    have clears : s.clearRecord (blindSource g) keep = some (z.rearmBlind g) :=
      State.clearRecord_retried (retriedSource_blind g) state
    have answers := run clears
    have moved := z.rearmBlind_keeps g
    have recovers := State.rearmBlind_rearmed (s := z) (g := g) (by rw [record]; rfl)
    have other := State.rearmBlind_other (s := z) (g := g)
    have settled := z.rearmBlind_record g
    obtain ⟨ns, told⟩ := moved.same .link rfl
    rw [link] at told
    generalize z.rearmBlind g = t at *
    refine ⟨_, ns, answers, settled.trans record, by rw [← told], (moved.working rfl rfl rfl rfl).trans working,
      (moved.space (by decide)).trans space, fun stands => ?_, fun fault stopped => ?_⟩
    · have rearmed := recovers stands
      refine ⟨rearmed.recovers, rearmed.unused, fun used absent => ?_⟩
      split
      · next needed => exact rearmed.moves used absent needed
      · next rests => exact rearmed.rests used absent rests
    · exact (congrArg State.blinds (other fault stopped) :)
  · rintro rfl state level
    have clears : s.clearRecord railSource keep = some z.rearmRail :=
      State.clearRecord_retried retriedSource_rail state
    have answers := run clears
    have rearmed := State.rearmRail_rearmed (s := z) level
    generalize z.rearmRail = t at *
    refine ⟨_, answers, rearmed.kept.same .faults rfl, ?_, ?_, (rearmed.kept.working rfl rfl rfl rfl).trans working,
      (rearmed.kept.space (by decide)).trans space, rearmed.kept.same .blinds rfl, rearmed.kept.same .drives rfl⟩
    · rw [← link, ← rearmed.kept.same .notices rfl]
    · split
      · next stands => exact rearmed.stands stands
      · next faulted => exact rearmed.recovers (not_not.mp faulted)

/-! ## The timers of a record (R173) -/

section
variable {s : State} {i : Fin 21}

/-- A record whose retry interval has ended: CLEAR, with its count kept. -/
def State.retryEnded (s : State) (i : Fin 21) : State :=
  s.updFault i fun r => { r with state := .clear, retryTimer := none }

theorem State.retryEnded_record (s : State) (i : Fin 21) :
    (s.retryEnded i).faults[i] = { s.faults[i] with state := .clear, retryTimer := none } := updAt_self ..

theorem State.retryExpiry_redrives {x : Retried} (source : retriedSource i = some x)
    (waits : s.faults[i].state = .retryWait) : s.retryExpiry i = (s.retryEnded i).redriveSource x := by
  simp only [State.retryExpiry, source, waits, ↓reduceIte]
  rfl

theorem State.runsNormal_of {x : Retried} (source : retriedSource i = some x) (clear : s.faults[i].state = .clear)
    (counts : 0 < s.faults[i].retry) (behaves : s.behaves x = true) : s.runsNormal i = true := by
  simp only [State.runsNormal, source, clear, counts, behaves, decide_true, Bool.and_self]

/-- A normal timer that ends (R173). -/
theorem exec_normalTimerExpiry (hs : s.Settled) (clear : s.faults[i].state = .clear) (runs : s.runsNormal i = true) :
    exec (.normalTimerExpiry i) s = .next { s with
      faults := s.faults.set i { s.faults[i] with retry := 0, normal := 0 }
      link := (s.link.place (s.noticeOf .faultCleared none (some i.val)
        (256 * s.faults[i].kind.code) none)).startFrame } := by
  let f : FaultRec → FaultRec := fun r => { r with retry := 0, normal := 0 }
  have ends : s.normalExpiry i = s.withdrawn i f := if_pos runs
  have run : exec (.normalTimerExpiry i) s = finish (s.normalExpiry i) := rfl
  rw [run, ends, finish_handed hs (ns := [_]) (s.withdrawn_link i (f := f) clear rfl)]
  rfl

end

/-- Where nothing is handed over the link interface stands as after no notice. -/
theorem State.Settled.silent {s t : State} (hs : s.Settled) (h : t.link = s.link) :
    t.link = (s.link.handed []).startFrame := by
  rw [Link.handed_nil, Link.startFrame_idle _ hs.1, h]

/-- Settles O60, by the source of the record. -/
theorem retriesAndNormalTimersEnd : Obligations.RetriesAndNormalTimersEnd := by
  intro i s hs
  refine ⟨fun waits source => ?_, fun clear counts source => ?_⟩
  · have run : exec (.retryExpiry i) s = finish (s.retryExpiry i) := rfl
    have record := s.retryEnded_record i
    let z := s.retryEnded i
    have kept : Keeps [.faults] s z := s.updFault_keeps i _
    have space : z.space = s.space := kept.space (by decide)
    have working : z.working = s.working := kept.working rfl rfl rfl rfl
    have clear : z.faults[i].state = .clear := by rw [record]
    rcases source with ⟨g, rfl⟩ | ⟨rfl, level⟩ | ⟨c, rfl, stands⟩
    · have redrives : s.retryExpiry (blindSource g) = z.rearmBlind g :=
        State.retryExpiry_redrives (retriedSource_blind g) waits
      have moved := (kept.mono (ys := evaluationParts) rfl).trans (z.rearmBlind_keeps g)
      have recovers := State.rearmBlind_rearmed (s := z) (g := g) clear
      have settled := z.rearmBlind_record g
      rw [redrives, finish_kept hs moved rfl] at run
      obtain ⟨ns, link⟩ := moved.same .link rfl
      rw [link] at run
      generalize z.rearmBlind g = t at *
      refine ⟨_, ns, run, rfl, settled.trans record, moved.working rfl rfl rfl rfl, moved.space (by decide),
        fun j same stopped => ?_, fun rail => absurd rail (blindSource_ne_rail g),
        fun c damper => absurd damper (blindSource_ne_damper g c)⟩
      obtain rfl := blindSource_inj same
      have rearmed := recovers stopped
      exact ⟨rearmed.recovers, rearmed.unused, rearmed.moves⟩
    · have redrives : s.retryExpiry railSource = z.rearmRail := State.retryExpiry_redrives retriedSource_rail waits
      have rearmed := State.rearmRail_rearmed (s := z) level
      rw [redrives] at run
      generalize z.rearmRail = t at *
      have moved : Keeps [.rail, .faults] s t := (kept.mono rfl).trans (rearmed.kept.mono rfl)
      have faults : t.faults = z.faults := rearmed.kept.same .faults rfl
      refine ⟨t, [], run.trans (finish_same hs (moved.same .notices rfl)), hs.silent (moved.same .notices rfl),
        by rw [faults, record],
        moved.working rfl rfl rfl rfl, moved.space (by decide),
        fun g blind => absurd blind.symm (blindSource_ne_rail g), fun _ => rearmed.recovers,
        fun c damper => absurd damper.symm (damperSource_ne_rail c)⟩
    · have redrives : s.retryExpiry (damperSource c) = z.rearmDamper c :=
        State.retryExpiry_redrives (retriedSource_damper c) waits
      have rearmed := State.rearmDamper_rearmed (s := z) (c := c) stands clear
      have moved : Keeps [.drives, .faults] s (z.rearmDamper c) := (kept.mono rfl).trans (rearmed.kept.mono rfl)
      have faults : (z.rearmDamper c).faults = z.faults := rearmed.kept.same .faults rfl
      have alone : z.rearmDamper c =
          { s with faults := (z.rearmDamper c).faults, drives := (z.rearmDamper c).drives } := by
        rw [State.rearmDamper_stands (s := z) stands]
        unfold State.refreshTracking
        split <;> rfl
      rw [redrives] at run
      generalize z.rearmDamper c = t at *
      refine ⟨t, [], run.trans (finish_same hs (moved.same .notices rfl)), hs.silent (moved.same .notices rfl),
        by rw [faults, record],
        moved.working rfl rfl rfl rfl, moved.space (by decide),
        fun g blind => absurd blind.symm (blindSource_ne_damper g c), fun rail => absurd rail (damperSource_ne_rail c),
        fun d same => ?_⟩
      obtain rfl := damperSource_inj same
      exact ⟨alone, rearmed.driven, rearmed.tracking⟩
  · rcases source with rfl | ⟨g, rfl⟩ | ⟨c, rfl, tracking⟩
    · exact exec_normalTimerExpiry hs clear (State.runsNormal_of retriedSource_rail clear counts rfl)
    · exact exec_normalTimerExpiry hs clear (State.runsNormal_of (retriedSource_blind g) clear counts rfl)
    · exact exec_normalTimerExpiry hs clear (State.runsNormal_of (retriedSource_damper c) clear counts tracking)

end Sys2Proof.Machine
end

