-- ==== Sys2Proof/Proofs/SensorSamples.lean ====
section
/-! PROOF. A sample of all channels as one channel sees it (R165 to R168, R171), the judgement of the feedback (R111),
and the end of a hold timer (R166, R168). -/

namespace Sys2Proof.Machine
open Sys2Proof

/-! ## The record of one channel (R165 to R168) -/

/-- A sample of the channel is judged (R168). -/
def State.judges (s : State) (i : Fin 8) : Bool := !isFeedback i || decide (s.rail.state = .on)

theorem State.judges_iff (s : State) (i : Fin 8) : s.judges i = true ↔ i.val < 6 ∨ s.rail.state = .on := by
  simp only [State.judges, isFeedback, Bool.or_eq_true, Bool.not_eq_true', decide_eq_false_iff_not, Nat.not_le,
    decide_eq_true_eq]

/-- The feedback channels alone are not scaled. -/
theorem engineeringTop_feedback : ∀ {i : Fin 8}, 6 ≤ i.val → ∀ spans, engineeringTop i spans = none := by
  intro i feedback spans
  have last : i = 6 ∨ i = 7 := by omega
  rcases last with rfl | rfl <;> rfl

section
variable (c : Sensor) {mv : Nat} {judged : Bool} (top : Option Nat)

theorem Sensor.sample_lastSample (mv : Nat) (judged : Bool) : (c.sample mv judged top).lastSample = some mv := by
  unfold Sensor.sample
  dsimp only
  repeat' split
  all_goals rfl

/-- A sample that is taken: into the window of a NORMAL channel, afresh into all of it after a loss. -/
theorem Sensor.sample_taken (h : judged = true ∧ goodSample mv = true ∨ judged = false ∧ c.state = .normal) :
    c.sample mv judged top = ({ c with pin := mv, lastSample := some mv } : Sensor).accept
      (joinWindow (if c.state = .normal then c.window else none) mv) top := by
  rcases h with ⟨rfl, good⟩ | ⟨rfl, normal⟩
  · simp only [Sensor.sample, good, Bool.true_eq_false, ↓reduceIte]
    cases state : c.state <;> rfl
  · simp only [Sensor.sample, normal, ↓reduceIte]

/-- A lost sample of a NORMAL channel. -/
theorem Sensor.sample_lost (bad : goodSample mv = false) (normal : c.state = .normal) : c.sample mv true top =
    { c with pin := mv, lastSample := some mv, state := .holding, hold := some 0 } := by
  simp only [Sensor.sample, bad, normal, Bool.true_eq_false, Bool.false_eq_true, ↓reduceIte]

/-- A channel that is not NORMAL stands until a good sample of it is judged. -/
theorem Sensor.sample_stands (h : ¬ (judged = true ∧ goodSample mv = true)) (other : c.state ≠ .normal) :
    c.sample mv judged top = { c with pin := mv, lastSample := some mv } := by
  cases judged with
  | false => simp only [Sensor.sample, other, ↓reduceIte]
  | true =>
    have bad : goodSample mv = false := Bool.eq_false_iff.mpr fun good => h ⟨rfl, good⟩
    cases state : c.state with
    | normal => exact absurd state other
    | holding => simp only [Sensor.sample, bad, state, Bool.true_eq_false, Bool.false_eq_true, ↓reduceIte]
    | faulted => simp only [Sensor.sample, bad, state, Bool.true_eq_false, Bool.false_eq_true, ↓reduceIte]

end

/-! ## The fault record of one channel (R171) -/

section
variable (s : State) {i : Fin 8} {before : SensorState} {mv : Nat}

theorem State.sensorFault_regained (good : goodSample mv = true) (lost : before ≠ .normal) :
    (s.sensorFault i before mv).faults[sensorSource i].state = .clear := by
  cases before with
  | normal => exact absurd rfl lost
  | holding =>
    simp only [State.sensorFault, good, ↓reduceIte]
    exact congrArg FaultRec.state (updAt_self ..)
  | faulted =>
    simp only [State.sensorFault, good, ↓reduceIte]
    exact congrArg FaultRec.state (updAt_self ..)

theorem State.sensorFault_lost (bad : goodSample mv = false) :
    (s.sensorFault i .normal mv).faults[sensorSource i].state = .holding ∧
      (s.sensorFault i .normal mv).faults[sensorSource i].kind = lostKind mv := by
  have reported : (s.sensorFault i .normal mv).faults[sensorSource i] =
      { s.faults[sensorSource i].report (lostKind mv) s.clock.minute with state := .holding } := by
    simp only [State.sensorFault, bad, Bool.false_eq_true, ↓reduceIte]
    exact updAt_self ..
  rw [reported]
  exact ⟨rfl, rfl⟩

end

theorem sensorSource_inj : ∀ {i j : Fin 8}, sensorSource i = sensorSource j → i = j := by decide

/-- The samples of a channel touch the fault record of the channel alone. -/
theorem State.sensorFault_other (s : State) {i j : Fin 8} (h : i ≠ j) (before : SensorState) (mv : Nat) :
    (s.sensorFault j before mv).faults[sensorSource i] = s.faults[sensorSource i] := by
  have other : sensorSource i ≠ sensorSource j := h ∘ sensorSource_inj
  have updated (f) : (s.updFault (sensorSource j) f).faults[sensorSource i] = s.faults[sensorSource i] :=
    updAt_other _ _ other
  unfold State.sensorFault
  dsimp only
  split
  · cases before with
    | normal => rfl
    | holding => exact updated _
    | faulted => exact updated _
  · cases before with
    | normal => exact updated _
    | holding => exact updated _
    | faulted => rfl

/-! ## The pass over the channels (R165; the order, log entry 16) -/

/-- A channel, its fault record and the sample timer are the same. -/
structure State.SparesChannel (s : State) (i : Fin 8) (t : State) : Prop where
  kept : Keeps [.notices, .scanner, .faults] s t
  channel : t.scanner.channels[i] = s.scanner.channels[i]
  timer : t.scanner.timer = s.scanner.timer
  record : t.faults[sensorSource i] = s.faults[sensorSource i]

namespace State.SparesChannel
variable {s t u : State} {i : Fin 8}

theorem refl (s : State) (i : Fin 8) : s.SparesChannel i s := ⟨.refl _ _, rfl, rfl, rfl⟩

theorem trans (h : s.SparesChannel i t) (k : t.SparesChannel i u) : s.SparesChannel i u :=
  ⟨h.kept.trans k.kept, k.channel.trans h.channel, k.timer.trans h.timer, k.record.trans h.record⟩

theorem sampleChannel (s : State) {i j : Fin 8} (h : i ≠ j) (mv : Nat) :
    s.SparesChannel i (s.sampleChannel j mv) where
  kept := s.sampleChannel_keeps j mv
  channel := by
    rw [State.sampleChannel_scanner]
    exact updAt_other _ _ h
  timer := by
    rw [State.sampleChannel_scanner]
    rfl
  record := by
    unfold State.sampleChannel
    dsimp only
    split
    · exact State.sensorFault_other _ h ..
    · rfl

theorem foldl {js : List (Fin 8)} (levels : Vector Half 8) (s : State) (apart : i ∉ js) :
    s.SparesChannel i (js.foldl (fun s j => s.sampleChannel j levels[j].toNat) s) := by
  induction js generalizing s with
  | nil => exact refl s i
  | cons j js ih =>
    have other : i ≠ j := fun same => apart (same ▸ List.mem_cons_self)
    exact (sampleChannel s other _).trans (ih _ fun mem => apart (List.mem_cons_of_mem j mem))

end State.SparesChannel

/-- What a sample makes of its own channel and of the channel's fault record. -/
structure State.ChannelSampled (s : State) (i : Fin 8) (mv : Nat) (t : State) : Prop where
  channel : t.scanner.channels[i] =
    s.scanner.channels[i].sample mv (s.judges i) (engineeringTop i s.working.settings.co2Span)
  timer : t.scanner.timer = s.scanner.timer
  regained : s.judges i = true → goodSample mv = true → s.scanner.channels[i].state ≠ .normal →
    t.faults[sensorSource i].state = .clear
  lost : s.judges i = true → goodSample mv = false → s.scanner.channels[i].state = .normal →
    t.faults[sensorSource i].state = .holding ∧ t.faults[sensorSource i].kind = lostKind mv

theorem State.sampleChannel_sampled (s : State) (i : Fin 8) (mv : Nat) :
    s.ChannelSampled i mv (s.sampleChannel i mv) := by
  let x := s.updSensor i fun c => c.sample mv (s.judges i) (engineeringTop i s.working.settings.co2Span)
  have judged (judges : s.judges i = true) :
      s.sampleChannel i mv = x.sensorFault i s.scanner.channels[i].state mv := if_pos judges
  refine ⟨?_, ?_, fun judges good other => ?_, fun judges bad normal => ?_⟩
  · rw [State.sampleChannel_scanner]
    exact updAt_self ..
  · rw [State.sampleChannel_scanner]
    rfl
  · rw [judged judges]
    exact x.sensorFault_regained good other
  · rw [judged judges, normal]
    exact x.sensorFault_lost bad

theorem State.ChannelSampled.around {s x y t : State} {i : Fin 8} {mv : Nat} (before : s.SparesChannel i x)
    (own : x.ChannelSampled i mv y) (after : y.SparesChannel i t) : s.ChannelSampled i mv t := by
  obtain ⟨channel, timer, regained, lost⟩ := own
  have judges : x.judges i = s.judges i := by
    unfold State.judges
    rw [before.kept.same .rail rfl]
  have settings : x.working.settings = s.working.settings := before.kept.same .settings rfl
  rw [before.channel, judges] at channel regained lost
  rw [settings] at channel
  rw [before.timer] at timer
  rw [← after.record] at regained lost
  exact ⟨after.channel.trans channel, after.timer.trans timer, regained, lost⟩

/-- Every channel is sampled once. -/
theorem State.channelsSampled_sampled (s : State) (levels : Vector Half 8) (i : Fin 8) :
    s.credited.ChannelSampled i levels[i].toNat (s.channelsSampled levels) := by
  obtain ⟨before, after, order⟩ := List.append_of_mem (mem_allChannels i)
  have once : (before ++ i :: after).Nodup := by rw [← order]; decide
  obtain ⟨-, tail, apart⟩ := List.nodup_append.mp once
  rw [State.channelsSampled, order, List.foldl_append, List.foldl_cons]
  exact .around (.foldl levels s.credited fun mem => apart i mem i List.mem_cons_self rfl)
    (State.sampleChannel_sampled _ i _) (.foldl levels _ (List.nodup_cons.mp tail).1)

/-! ## What the readings handed on leave of a fault record -/

theorem sensorSource_ne_damper : ∀ (i : Fin 8) (c : Cell), sensorSource i ≠ damperSource c := by
  intro i c
  revert i
  cases c <;> decide

theorem sensorSource_ne_rail : ∀ i : Fin 8, sensorSource i ≠ railSource := by decide

/-- A feedback sample reports on its damper alone. -/
theorem State.handFeedback_fault (s : State) (c : Cell) (mv : Nat) {i : Fin 21} (h : i ≠ damperSource c) :
    (s.handFeedback c mv).faults[i] = s.faults[i] := by
  let mean := s.scanner.channels[feedbackChannel c].value
  have read : (s.feedbackRead c mv mean).faults = s.faults := rfl
  have reported : ((s.feedbackRead c mv mean).reportRetry (damperSource c) .feedbackLost).faults[i] = s.faults[i] := by
    rw [State.reportRetry_faults, updAt_other _ _ h, read]
  have either (lost : Bool) : (if lost then (s.feedbackRead c mv mean).reportRetry (damperSource c) .feedbackLost
      else s.feedbackRead c mv mean).faults[i] = s.faults[i] := by
    cases lost
    · exact congrArg (fun v : Vector FaultRec 21 => v[i]) read
    · exact reported
  have judged : (s.judgedFeedback c mv mean).faults[i] = s.faults[i] := either _
  have tested : Keeps [.notices, .drives, .calibrations] (s.judgedFeedback c mv mean) (s.handFeedback c mv) :=
    ((State.calSample_keeps ..).trans ((State.refreshTracking_keeps _ c).mono rfl)).trans
      ((State.updDrive_keeps _ c _).mono rfl)
  rw [tested.same .faults rfl, judged]

/-- The state in which all readings have been handed on, before the needs reach the rail. -/
def State.readingsHanded (s : State) (levels : Vector Half 8) : State :=
  ((s.feedbackDue levels).handFeedback .a levels[feedbackChannel .a].toNat).handFeedback .b
    levels[feedbackChannel .b].toNat

theorem State.sensorSample_handed (s : State) (levels : Vector Half 8) :
    s.sensorSample levels = (s.readingsHanded levels).refreshNeeds := s.sensorSample_eq levels

/-- The records of the channels stand as their samples have left them. -/
theorem State.sensorSample_fault (s : State) (levels : Vector Half 8) (i : Fin 8) :
    (s.sensorSample levels).faults[sensorSource i] = (s.channelsSampled levels).faults[sensorSource i] := by
  have due : (s.feedbackDue levels).faults = (s.channelsSampled levels).faults :=
    ((s.feedbackDue_keeps levels).same .faults rfl).trans ((s.purgesTested_keeps levels).same .faults rfl)
  rw [State.sensorSample_handed, State.refreshNeeds_fault _ (sensorSource_ne_rail i), State.readingsHanded,
    State.handFeedback_fault _ _ _ (sensorSource_ne_damper i .b),
    State.handFeedback_fault _ _ _ (sensorSource_ne_damper i .a), due]

theorem State.sensorSample_scanner (s : State) (levels : Vector Half 8) :
    (s.sensorSample levels).scanner = (s.channelsSampled levels).scanner := by
  rw [State.sensorSample_handed, (State.refreshNeeds_keeps _).same .scanner rfl, State.readingsHanded,
    (State.handFeedback_keeps ..).same .scanner rfl, (State.handFeedback_keeps ..).same .scanner rfl,
    State.feedbackDue_scanner]

/-! ## The judgement of the feedback (R111) -/

theorem Drive.command_feedbackGood (d : Drive) (value tolerance : Nat) :
    (d.command value tolerance).feedbackGood = d.feedbackGood := by
  unfold Drive.command
  split <;> rfl

theorem Drive.tracked_feedbackGood (d : Drive) (may : Bool) : (d.tracked may).feedbackGood = d.feedbackGood := by
  unfold Drive.tracked
  repeat' split
  all_goals rfl

theorem Drive.compare_feedbackGood (d : Drive) (tolerance : Nat) :
    (d.compare tolerance).feedbackGood = d.feedbackGood := by
  unfold Drive.compare
  repeat' split
  all_goals rfl

section
variable (s : State) (c : Cell)

/-- A change of the calibration and of the command that follows from it leaves the judgement of the feedback. -/
theorem State.withDamper_feedbackGood (k : Option DamperCal) :
    ((s.updDrive c fun d => { d with cal := k }).withDamper c).feedbackGood = (s.drives.get c).feedbackGood := by
  refine (Drive.command_feedbackGood ((s.updDrive c fun d => { d with cal := k }).drives.get c) _ _).trans ?_
  rw [State.updDrive_get_self]

theorem State.endDamperCal_feedbackGood (r : CalResult) :
    ((s.endDamperCal c r).drives.get c).feedbackGood = (s.drives.get c).feedbackGood := by
  rw [State.endDamperCal_get_self, Drive.tracked_feedbackGood]
  exact s.withDamper_feedbackGood c none

theorem State.calPhase_feedbackGood (k : DamperCal) :
    ((s.calPhase c k).drives.get c).feedbackGood = (s.drives.get c).feedbackGood := by
  rw [State.calPhase_get_self, Drive.tracked_feedbackGood]
  exact s.withDamper_feedbackGood c (some k)

theorem State.finishCal_feedbackGood (fbLow fbHigh elapsed : Nat) :
    ((s.finishCal c fbLow fbHigh elapsed).drives.get c).feedbackGood = (s.drives.get c).feedbackGood := by
  unfold State.finishCal
  split
  · exact s.endDamperCal_feedbackGood c _
  · exact State.endDamperCal_feedbackGood _ c _

theorem State.calSample_feedbackGood (mv : Nat) (mean : Option Nat) (means : List Nat) :
    ((s.calSample c mv mean means).drives.get c).feedbackGood = (s.drives.get c).feedbackGood := by
  unfold State.calSample
  split
  · rfl
  · split
    · rfl
    · split
      · exact s.endDamperCal_feedbackGood c _
      · split
        · rfl
        · split
          · split
            · exact s.calPhase_feedbackGood c _
            · exact s.finishCal_feedbackGood c ..
          · rfl

/-- The feedback is judged while the rail is ON. -/
theorem State.handFeedback_judges (mv : Nat) : ((s.handFeedback c mv).drives.get c).feedbackGood =
    if s.rail.state = .on then goodSample mv else (s.drives.get c).feedbackGood := by
  let mean := s.scanner.channels[feedbackChannel c].value
  let y := (s.judgedFeedback c mv mean).calSample c mv mean (s.drives.get c).means
  have sampled : s.handFeedback c mv =
      (y.refreshTracking c).updDrive c fun d => d.compare s.working.settings.trackingTolerance := rfl
  rw [sampled, State.updDrive_get_self, Drive.compare_feedbackGood, State.refreshTracking_get_self,
    Drive.tracked_feedbackGood, State.calSample_feedbackGood, State.judgedFeedback_drives, State.feedbackRead,
    State.updDrive_get_self]
  simp only [decide_eq_true_eq]

/-- The feedback of one cell leaves the drive of the other. -/
theorem State.handFeedback_get_other {d : Cell} (h : c ≠ d) (mv : Nat) :
    (s.handFeedback d mv).drives.get c = s.drives.get c := by
  let mean := s.scanner.channels[feedbackChannel d].value
  have judged : (s.judgedFeedback d mv mean).drives.get c = s.drives.get c := by
    rw [State.judgedFeedback_drives]
    exact s.updDrive_get_other _ h
  have tested := ((s.judgedFeedback d mv mean).calSample_other h mv mean (s.drives.get d).means).1
  exact (State.updDrive_get_other _ _ h).trans ((State.refreshTracking_get_other _ h).trans (tested.trans judged))

theorem State.temperatureHealth_feedbackGood (d : Cell) (before : Bool) :
    ((s.temperatureHealth d before).drives.get c).feedbackGood = (s.drives.get c).feedbackGood := by
  unfold State.temperatureHealth
  split
  · rfl
  · by_cases h : c = d
    · rw [h, State.redriveValve_get_self]
    · rw [State.redriveValve_get_other _ h]

theorem State.refreshNeeds_feedbackGood :
    (s.refreshNeeds.drives.get c).feedbackGood = (s.drives.get c).feedbackGood := by
  rcases s.refreshNeeds_drives with same | fault
  · rw [same]
  · rw [fault, State.railFault_get, State.railFaultDrive, Drive.tracked_feedbackGood]
    split
    · exact s.railRaised.withDamper_feedbackGood c none
    · rfl

theorem State.feedbackDue_feedbackGood (levels : Vector Half 8) :
    ((s.feedbackDue levels).drives.get c).feedbackGood = (s.drives.get c).feedbackGood := by
  unfold State.feedbackDue
  rw [State.temperatureHealth_feedbackGood, State.temperatureHealth_feedbackGood,
    (s.purgesTested_keeps levels).same .drives rfl, (s.channelsSampled_keeps levels).same .drives rfl,
    State.credited_get]

theorem State.sensorSample_feedbackGood (levels : Vector Half 8) :
    ((s.sensorSample levels).drives.get c).feedbackGood =
      if s.rail.state = .on then goodSample levels[feedbackChannel c].toNat else (s.drives.get c).feedbackGood := by
  let due := s.feedbackDue levels
  let first := due.handFeedback .a levels[feedbackChannel .a].toNat
  have rail : due.rail = s.rail := (s.feedbackDue_spares levels c).rail
  have rail' : first.rail = s.rail := ((State.handFeedback_keeps ..).same .rail rfl).trans rail
  have good : (due.drives.get c).feedbackGood = (s.drives.get c).feedbackGood := s.feedbackDue_feedbackGood c levels
  rw [State.sensorSample_handed, State.refreshNeeds_feedbackGood]
  cases c with
  | a =>
    have other : (s.readingsHanded levels).drives.get .a = first.drives.get .a :=
      first.handFeedback_get_other .a (by decide) _
    rw [other, State.handFeedback_judges, rail, good]
  | b =>
    have other : first.drives.get .b = due.drives.get .b := due.handFeedback_get_other .b (by decide) _
    have judged := first.handFeedback_judges .b levels[feedbackChannel .b].toNat
    rw [rail', other, good] at judged
    exact judged

end

/-! ## The end of a hold timer (R166, R168) -/

section
variable {s : State} {i : Fin 8}

/-- A paused hold timer ends nothing. -/
theorem State.holdExpiry_paused (feedback : 6 ≤ i.val) (off : s.rail.state ≠ .on) : s.holdExpiry i = s := by
  have paused : s.holdRuns i = none := by simp [State.holdRuns, isFeedback, feedback, off]
  exact if_neg fun runs => by rw [paused] at runs; exact absurd runs.2 (by decide)

/-- A channel has become FAULTED, with its notice; its users have not yet taken it. -/
def State.holdEnded (s : State) (i : Fin 8) : State :=
  ((s.updSensor i fun c => { c with state := .faulted, hold := none }).updFault (sensorSource i) fun r =>
    { r with state := .faulted }).notifyFault .faultRaised (sensorSource i)

theorem State.holdEnded_record (s : State) (i : Fin 8) : (s.holdEnded i).faults[sensorSource i] =
    { s.faults[sensorSource i] with state := .faulted } := updAt_self ..

theorem State.holdEnded_link (s : State) (i : Fin 8) : (s.holdEnded i).link =
    s.link.place (s.noticeOf .faultRaised none (some (sensorSource i).val)
      (4 + 256 * s.faults[sensorSource i].kind.code) none) := by
  simp only [State.holdEnded, State.notifyFault, State.notify_link, State.updFault_faults, State.updSensor_faults,
    updAt_self]
  rfl

/-- What the users of a channel that has become FAULTED do at once (R138, R169). -/
structure State.UsersTold (s : State) (i : Fin 8) (t : State) : Prop where
  kept : Keeps [.notices, .drives, .lighting, .blinds, .rail, .faults] s t
  record : t.faults[sensorSource i] = s.faults[sensorSource i]

theorem State.holdExpiry_ends (holding : s.scanner.channels[i].state = .holding)
    (timed : s.scanner.channels[i].hold.isSome = true) (runs : i.val < 6 ∨ s.rail.state = .on) :
    (s.holdEnded i).UsersTold i (s.holdExpiry i) := by
  have standing : s.holdRuns i = s.scanner.channels[i].hold := by
    refine if_neg ?_
    rcases runs with other | on
    · simp [isFeedback, Nat.not_le.mpr other]
    · simp [on]
  have driven (x : State) (c : Cell) : x.UsersTold i (x.redriveValve c).refreshNeeds :=
    ⟨((x.redriveValve_keeps c).mono rfl).trans (State.refreshNeeds_keeps _),
      State.refreshNeeds_fault _ (sensorSource_ne_rail i)⟩
  have lit (x : State) (c : Cell) : x.UsersTold i (x.fullDaylight c) := ⟨(x.fullDaylight_keeps c).mono rfl, rfl⟩
  have alone (x : State) : x.UsersTold i x := ⟨.refl _ _, rfl⟩
  unfold State.holdExpiry
  rw [if_pos ⟨holding, by rw [standing, timed]⟩]
  dsimp only
  split
  · exact driven _ .a
  · exact driven _ .b
  · exact lit _ .a
  · exact lit _ .b
  · exact alone _

end

/-! ## The samples of all channels -/

/-- What a sample makes of one channel, as R165 to R167 say it. -/
theorem Sensor.sample_window (c : Sensor) {mv : Nat} {judged : Bool} {i : Fin 8} {spans : PerCell Nat} {c' : Sensor}
    (sampled : c' = c.sample mv judged (engineeringTop i spans))
    (taken : judged = true ∧ goodSample mv = true ∨ judged = false ∧ c.state = .normal) :
    c'.state = .normal ∧ c'.hold = none ∧
      ∃ w, c'.window = some w ∧
        (∀ v, c.state = .normal → c.window = some v → w = { s0 := v.s1, s1 := v.s2, s2 := v.s3, s3 := mv }) ∧
        (c.state ≠ .normal ∨ c.window = none → w = { s0 := mv, s1 := mv, s2 := mv, s3 := mv }) ∧
        (∀ hi, engineeringTop i spans = some hi → c'.value =
          some ((scaleSample w.s0 hi + scaleSample w.s1 hi + scaleSample w.s2 hi + scaleSample w.s3 hi) / 4)) ∧
        (6 ≤ i.val → c'.value = some ((w.s0 + w.s1 + w.s2 + w.s3) / 4)) := by
  rw [Sensor.sample_taken c _ taken] at sampled
  subst sampled
  refine ⟨rfl, rfl, _, rfl, fun v normal window => ?_, fun afresh => ?_, fun hi top => ?_, fun feedback => ?_⟩
  · rw [if_pos normal, window]
    rfl
  · rcases afresh with other | empty
    · rw [if_neg other]
      rfl
    · rw [empty, ite_self]
      rfl
  · simp only [Sensor.accept, top]
    rfl
  · simp only [Sensor.accept, engineeringTop_feedback feedback]
    rfl

/-- Settles O54: the samples by the pass over the channels, the hold timer by whether it runs. -/
theorem sensorSamplesAreTaken : Obligations.SensorSamplesAreTaken := by
  intro levels i s hs
  refine ⟨?_, fun feedback off => ?_, fun holding timed runs => ?_⟩
  · have run : exec (.sensorSample levels) s = finish (s.sensorSample levels) := rfl
    have kept := s.sensorSample_keeps levels
    have scanner := s.sensorSample_scanner levels
    have record := s.sensorSample_fault levels i
    have feedback (c : Cell) := s.sensorSample_feedbackGood c levels
    obtain ⟨channel, timer, regained, lost⟩ := s.channelsSampled_sampled levels i
    rw [← scanner] at channel timer
    rw [← record] at regained lost
    obtain ⟨ns, link⟩ := kept.same .link rfl
    rw [finish_kept hs kept rfl, link] at run
    generalize s.sensorSample levels = t at *
    refine ⟨_, ns, run, rfl, timer, kept.same .settings rfl, kept.same .doors rfl, kept.same .presence rfl,
      kept.same .drift rfl, kept.same .air rfl, ?_⟩
    intro c c' m good judged
    have judges : s.judges i = true ↔ judged := s.judges_iff i
    have accepts : goodSample m = true ↔ good := goodSample_iff m
    have sampled : c' = c.sample m (s.judges i) (engineeringTop i s.working.settings.co2Span) := channel
    have bad (h : ¬ good) : goodSample m = false := Bool.eq_false_iff.mpr (mt accepts.mp h)
    refine ⟨by rw [sampled, Sensor.sample_lastSample], fun taken => c.sample_window sampled ?_,
      fun j g => regained (judges.mpr j) (accepts.mpr g), fun j b normal => ?_, fun h other => ?_,
      fun cell same => ?_⟩
    · exact taken.imp (And.imp judges.mpr accepts.mpr)
        (And.imp_left fun unjudged => Bool.eq_false_iff.mpr (mt judges.mp unjudged))
    · obtain ⟨state, kind⟩ := lost (judges.mpr j) (bad b) normal
      rw [judges.mpr j, Sensor.sample_lost c _ (bad b) normal] at sampled
      rw [sampled]
      exact ⟨rfl, rfl, rfl, rfl, state, kind⟩
    · rw [Sensor.sample_stands c _ (mt (And.imp judges.mp accepts.mp) h) other] at sampled
      rw [sampled]
      exact ⟨rfl, rfl, rfl, rfl⟩
    · subst same
      have judgement := feedback cell
      refine ⟨fun on => ?_, fun off => ?_⟩
      · rw [if_pos on] at judgement
        rw [← accepts, ← judgement]
      · rw [if_neg off] at judgement
        exact judgement
  · have run : exec (.holdTimerExpiry i) s = finish (s.holdExpiry i) := rfl
    rw [run, State.holdExpiry_paused feedback off]
    exact finish_same hs rfl
  · have run : exec (.holdTimerExpiry i) s = finish (s.holdExpiry i) := rfl
    have told := State.holdExpiry_ends holding timed runs
    have kept := told.kept
    obtain ⟨ns, link⟩ := kept.same .link rfl
    rw [State.holdEnded_link] at link
    rw [finish_handed hs (ns := _ :: ns) link] at run
    have record := told.record.trans (s.holdEnded_record i)
    generalize s.holdExpiry i = t at *
    exact ⟨_, ns, run, congrArg Scanner.channels (kept.same .scanner rfl), record, rfl, kept.working rfl rfl rfl rfl,
      kept.space (by decide), kept.same .walker rfl⟩

end Sys2Proof.Machine
end

