-- ==== Sys2Proof/Proofs/LinkQueues.lean ====
section
/-! PROOF. The link interface's queues (R179, R180, R183, R186): what keeps their bounds and their order, from the
hand-over of a notice up to a whole step. -/

namespace Sys2Proof.Machine
open Sys2Proof

/-! ## The notice queue -/

/-- No HIGH notice stands behind a LOW one (R186). -/
def noticesOrdered (ns : List Notice) : Prop := ∀ n ∈ ns.dropWhile (·.kind.high), n.kind.high = false

/-- Part of the LOW notices, in their order, is in order. -/
theorem noticesOrdered_of_lows {ns ms : List Notice} (lows : ∀ n ∈ ns, n.kind.high = false) (sub : ms ⊆ ns) :
    noticesOrdered ms :=
  fun n mem => lows n (sub ((List.dropWhile_suffix _).subset mem))

theorem noticesOrdered_tail {n : Notice} {ns : List Notice} (h : noticesOrdered (n :: ns)) : noticesOrdered ns := by
  by_cases high : n.kind.high = true
  · rwa [noticesOrdered, List.dropWhile_cons_of_pos (by exact high)] at h
  · rw [noticesOrdered, List.dropWhile_cons_of_neg (by exact high)] at h
    exact noticesOrdered_of_lows h (List.subset_cons_self ..)

theorem noticesOrdered_concat {n : Notice} {ns : List Notice} (h : noticesOrdered ns) (low : n.kind.high = false) :
    noticesOrdered (ns ++ [n]) := by
  intro m mem
  rw [List.dropWhile_append] at mem
  split at mem
  · exact noticesOrdered_of_lows (ns := [n]) (by simpa using low) (List.Subset.refl _) m mem
  · rcases List.mem_append.mp mem with old | new
    · exact h m old
    · rw [List.mem_singleton.mp new]
      exact low

/-- Behind the HIGH notices of a queue in order, another HIGH one and what is left of the LOW ones. -/
theorem Link.ordered_highs (l : Link) {n : Notice} {rest : List Notice} (high : n.kind.high = true)
    (h : ∀ m ∈ l.lows, m.kind.high = false) (sub : rest ⊆ l.lows) : noticesOrdered (l.highs ++ n :: rest) := by
  have highs : ∀ m ∈ l.highs, m.kind.high = true := fun m mem =>
    List.mem_takeWhile_imp (p := fun n : Notice => n.kind.high) mem
  rw [noticesOrdered, List.dropWhile_append_of_pos highs, List.dropWhile_cons_of_pos (by exact high)]
  exact noticesOrdered_of_lows h sub

theorem Link.highs_lows_length (l : Link) : l.highs.length + l.lows.length = l.notices.length := by
  rw [← List.length_append, Link.highs, Link.lows, List.takeWhile_append_dropWhile]

/-! ## The invariant -/

section
variable {l : Link}

theorem Link.Sound.withNotices (h : l.Sound) {ns : List Notice} (size : ns.length ≤ Config.noticeQueueSize)
    (order : noticesOrdered ns) : ({ l with notices := ns } : Link).Sound := by
  obtain ⟨-, -, rest⟩ := h
  exact ⟨size, order, rest⟩

theorem Link.Sound.withReplies (h : l.Sound) {rs : List Reply} (size : rs.length ≤ Config.linkQueueSize) :
    ({ l with replies := rs } : Link).Sound := by
  obtain ⟨notices, lows, requests, -, rest⟩ := h
  exact ⟨notices, lows, requests, size, rest⟩

theorem Link.Sound.withRequests (h : l.Sound) {fs : List Frame} (size : fs.length ≤ Config.linkQueueSize)
    (payload : ∀ f ∈ fs, f.payload.length ≤ Config.maxPayload) : ({ l with requests := fs } : Link).Sound := by
  obtain ⟨notices, lows, -, replies, dropped, framer, -⟩ := h
  exact ⟨notices, lows, size, replies, dropped, framer, payload⟩

theorem Link.Sound.withFramer (h : l.Sound) {r : Framer} (sound : r.Sound) :
    ({ l with framer := r } : Link).Sound := by
  obtain ⟨notices, lows, requests, replies, dropped, -, payload⟩ := h
  exact ⟨notices, lows, requests, replies, dropped, sound, payload⟩

theorem Link.Sound.noteDrop (h : l.Sound) : l.noteDrop.Sound := by
  obtain ⟨notices, lows, requests, replies, -, framer, payload⟩ := h
  exact ⟨notices, lows, requests, replies, Nat.min_le_left .., framer, payload⟩

/-- A notice handed over takes its place by class, or a full queue drops one (R186). -/
theorem Link.Sound.place (h : l.Sound) (n : Notice) : (l.place n).Sound := by
  obtain ⟨size, lows, -⟩ := id h
  have split := l.highs_lows_length
  unfold Link.place
  split
  · exact h
  split
  · next room =>
    split
    · next high =>
      exact h.withNotices (by simp only [List.length_append, List.length_cons]; omega)
        (l.ordered_highs high lows (List.Subset.refl _))
    · next low =>
      exact h.withNotices (by simp only [List.length_append, List.length_singleton]; omega)
        (noticesOrdered_concat lows (by simpa using low))
  split
  · next high =>
    split
    · exact h.noteDrop
    · next rest eq =>
      rw [eq, List.length_cons] at split
      refine h.noteDrop.withNotices ?_ (l.ordered_highs high lows ?_)
      · simp only [List.length_append, List.length_cons]
        omega
      · rw [eq]
        exact List.subset_cons_self ..
  · exact h.noteDrop

theorem Link.Sound.handed (h : l.Sound) (ns : List Notice) : (l.handed ns).Sound := by
  induction ns generalizing l with
  | nil => exact h
  | cons n ns ih => exact ih (h.place n)

/-- The transmitter takes from the head of a queue. -/
theorem Link.Sound.startFrame (h : l.Sound) : l.startFrame.Sound := by
  obtain ⟨notices, lows, -, replies, -⟩ := id h
  unfold Link.startFrame
  split
  · exact h
  split
  · exact h
  split
  · next eq =>
    rw [eq, List.length_cons] at replies
    exact h.withReplies (by omega)
  · next eq =>
    rw [eq, List.length_cons] at notices
    rw [Link.lows, eq] at lows
    exact h.withNotices (by omega) (noticesOrdered_tail lows)
  · exact h

/-- With room for it, a reply joins the reply queue. -/
theorem Link.Sound.reply (h : l.Sound) (room : l.replies.length < Config.linkQueueSize) (kind tag : Byte)
    (a : Answer) : (l.reply kind tag a).Sound :=
  h.withReplies (by rw [List.length_append, List.length_singleton]; omega)

theorem Link.Sound.offer (h : l.Sound) {f : Frame} (payload : f.payload.length ≤ Config.maxPayload) :
    (l.offer f).Sound := by
  obtain ⟨-, -, -, -, -, -, payloads⟩ := id h
  unfold Link.offer
  split
  · next room =>
    refine h.withRequests (by rw [List.length_append, List.length_singleton]; omega) fun g mem => ?_
    rcases List.mem_append.mp mem with old | new
    · exact payloads g old
    · rw [List.mem_singleton.mp new]
      exact payload
  · exact h

end

/-! ## The framer -/

theorem Framer.hunting_sound : Framer.hunting.Sound := by decide

/-- A byte taken into the frame: no payload before the TAG, and no more of it than LEN. -/
theorem Framer.Sound.advance {r : Framer} (h : r.Sound) {b : Byte}
    (len : r.state = .length → b.toNat ≤ Config.maxPayload) : (r.advance b).Sound := by
  obtain ⟨bound, within, short, empty⟩ := id h
  unfold Framer.advance
  split
  · exact h
  · next state => simp [Framer.Sound, empty (.inl state), len state]
  · next state => simp [Framer.Sound, empty (.inr (.inl state)), bound]
  · next state =>
    have none := empty (.inr (.inr state))
    by_cases zero : r.len = 0
    · simp [Framer.Sound, none, zero]
    · simp [Framer.Sound, none, zero, bound, Nat.pos_of_ne_zero]
  · next state =>
    have before := short state
    by_cases more : r.payload.length + 1 < r.len
    · simp [Framer.Sound, more, bound, before]
    · simp [Framer.Sound, more, bound, before]
  · exact h

theorem Link.Sound.hunts {l : Link} (h : l.Sound) : ({ l with framer := Framer.hunting } : Link).Sound :=
  h.withFramer Framer.hunting_sound

/-- A byte received leaves the link interface sound. -/
theorem Link.Sound.receive {l : Link} (h : l.Sound) (b : Byte) : (l.receive b).Sound := by
  obtain ⟨-, -, -, -, -, framer, -⟩ := id h
  obtain ⟨bound, within, -⟩ := id framer
  unfold Link.receive
  split
  · split
    · exact h.withFramer (by decide)
    · exact h
  · split
    · exact h.hunts
    · next fits => exact h.withFramer (framer.advance fun _ => Nat.not_lt.mp fits)
  · dsimp only
    split
    · exact h.hunts.offer (within.trans bound)
    · exact h.hunts
  · next other => exact h.withFramer (framer.advance fun state => absurd state ‹_›)

/-- A frame that has started is abandoned, by a low stop bit or by a gap. -/
theorem Link.Sound.broken {l : Link} (h : l.Sound) : l.badStop.Sound := by
  unfold Link.badStop
  split
  · exact h
  · exact h.hunts

theorem Link.Sound.frameSent {l : Link} (h : l.Sound) : l.frameSent.Sound := by
  unfold Link.frameSent
  split
  · exact h
  · exact h

theorem Link.Sound.elapse {l : Link} (h : l.Sound) : l.elapse.Sound := by
  obtain ⟨-, -, -, -, -, framer, -⟩ := id h
  have sound : l.elapse.framer.Sound := by
    simp only [Link.elapse]
    split
    · exact framer
    · exact framer
  exact h.withFramer sound

/-! ## What an answer does to the link interface -/

/-- A request that is taken leaves the request queue and the reply queue alone, and the link interface sound: it hands
over notices, or it writes a mask or accepts a RESTART. -/
structure Link.Answers (l m : Link) : Prop where
  requests : m.requests = l.requests
  replies : m.replies = l.replies
  sound : l.Sound → m.Sound

theorem Link.Answers.refl (l : Link) : l.Answers l := ⟨rfl, rfl, id⟩

theorem Link.Answers.handed (l : Link) (ns : List Notice) : l.Answers (l.handed ns) :=
  ⟨l.handed_requests ns, l.handed_replies ns, fun h => h.handed ns⟩

theorem Link.Answers.trans {l m n : Link} (h : l.Answers m) (k : m.Answers n) : l.Answers n :=
  ⟨k.requests.trans h.requests, k.replies.trans h.replies, k.sound ∘ h.sound⟩

theorem Link.Answers.accepted {l : Link} {s : State} (h : l.Answers s.link) (data : List Byte) :
    l.Answers (accept data s).2.link := h

theorem Link.Answers.acceptedClamped {l : Link} {s : State} (h : l.Answers s.link) (clamped : Bool)
    (stored : List Byte) : l.Answers (acceptClamped clamped stored s).2.link := h

/-- An operation that hands over notices alone. -/
theorem Keeps.answers {xs : List Block} {s t : State} (k : Keeps xs s t) (h : xs.contains .link = false) :
    s.link.Answers t.link := by
  obtain ⟨ns, link⟩ := k.same .link h
  rw [link]
  exact .handed _ ns

section
variable (s : State)

theorem State.answerKeepalive_answers : s.link.Answers s.answerKeepalive.2.link := by
  unfold State.answerKeepalive
  dsimp only
  split
  · exact .refl _
  · exact .refl _
  · split
    · exact .refl _
    · exact ((s.lapse_keeps .early).answers rfl).accepted _
  · exact .refl _

theorem State.answerSetTime_answers (minute : Half) (second : Byte) :
    s.link.Answers (s.answerSetTime minute second).2.link := by
  unfold State.answerSetTime
  split
  · exact .refl _
  · exact ((s.setClock_keeps ..).answers rfl).accepted _

theorem State.answerRestart_answers : s.link.Answers s.answerRestart.2.link := by
  unfold State.answerRestart
  split
  · exact .refl _
  · exact ⟨rfl, rfl, id⟩

theorem State.answerSetNoticeMask_answers (kind setting : Byte) :
    s.link.Answers (s.answerSetNoticeMask kind setting).2.link := by
  unfold State.answerSetNoticeMask
  split
  · exact .refl _
  · exact ⟨rfl, rfl, id⟩
  · split
    · exact ⟨rfl, rfl, id⟩
    · exact .refl _

theorem State.answerPutSetting_answers (number inst : Byte) (value : Word32) :
    s.link.Answers (s.answerPutSetting number inst value).2.link := by
  unfold State.answerPutSetting
  split
  · exact .refl _
  split
  · exact .refl _
  split
  · exact .refl _
  · exact ((s.withSettings_keeps _).answers rfl).trans ((State.settingWritten_keeps ..).answers rfl)

theorem State.answerRestoreSettings_answers : s.link.Answers s.answerRestoreSettings.2.link := by
  unfold State.answerRestoreSettings
  split
  · exact .refl _
  split
  · exact .refl _
  · exact ((s.restore_keeps _).answers rfl).accepted _

theorem State.answerChainSwitch_answers (timing : Byte) : s.link.Answers (s.answerChainSwitch timing).2.link := by
  unfold State.answerChainSwitch
  split
  · exact .refl _
  split
  · exact .refl _
  split
  · exact (s.switchAndPass_keeps.answers rfl).accepted _
  · exact .refl _

theorem State.answerWalkerResume_answers : s.link.Answers s.answerWalkerResume.2.link := by
  unfold State.answerWalkerResume
  split
  · exact (((s.updWalker_keeps _).answers rfl).trans ((State.pass_keeps _).answers rfl)).accepted _
  · exact .refl _

theorem State.answerReleaseHold_answers (cell : Byte) : s.link.Answers (s.answerReleaseHold cell).2.link := by
  unfold State.answerReleaseHold
  split
  · exact .refl _
  split
  · exact .refl _
  · exact ((State.leaveCurrent_keeps ..).answers rfl).accepted _

theorem State.answerSetOverride_answers (target : Byte) (value expiry : Half) :
    s.link.Answers (s.answerSetOverride target value expiry).2.link := by
  unfold State.answerSetOverride
  split
  · exact .refl _
  split
  · exact .refl _
  split
  · exact .refl _
  · exact ((State.placeOverride_keeps ..).answers rfl).acceptedClamped _ _

theorem State.answerClearOverride_answers (target : Byte) : s.link.Answers (s.answerClearOverride target).2.link := by
  unfold State.answerClearOverride
  split
  · exact ((State.endOverride_keeps ..).answers rfl).accepted _
  split
  · exact ((State.endOverrides_keeps ..).answers rfl).accepted _
  · exact .refl _

theorem State.answerSetHeadcount_answers (unit : Byte) (count : Half) :
    s.link.Answers (s.answerSetHeadcount unit count).2.link := by
  unfold State.answerSetHeadcount
  split
  · exact .refl _
  split
  · exact .refl _
  · exact ((State.setHeadcount_keeps ..).answers rfl).acceptedClamped _ _

theorem State.answerCalibrateDamper_answers (cell : Byte) :
    s.link.Answers (s.answerCalibrateDamper cell).2.link := by
  unfold State.answerCalibrateDamper
  split
  · exact .refl _
  split
  · exact .refl _
  split
  · exact .refl _
  split
  · exact .refl _
  · exact ((State.beginDamperCal_keeps ..).answers rfl).accepted _

theorem State.answerCalibrateBlind_answers (group : Byte) :
    s.link.Answers (s.answerCalibrateBlind group).2.link := by
  unfold State.answerCalibrateBlind
  split
  · exact .refl _
  split
  · exact .refl _
  split
  · exact .refl _
  split
  · exact .refl _
  · exact ((State.beginBlindCal_keeps ..).answers rfl).accepted _

theorem State.answerClearFault_answers (source keepCount : Byte) :
    s.link.Answers (s.answerClearFault source keepCount).2.link := by
  unfold State.answerClearFault
  split
  · split
    · next cleared => exact ((State.clearRecord_keeps cleared).answers rfl).accepted _
    · exact .refl _
  · exact .refl _

/-- Whatever a request does when it is taken. -/
theorem answer_answers (i : Instr) : s.link.Answers (answer i s).2.link := by
  cases i
  case keepalive => exact s.answerKeepalive_answers
  case setTime => exact s.answerSetTime_answers _ _
  case restart => exact s.answerRestart_answers
  case setNoticeMask => exact s.answerSetNoticeMask_answers _ _
  case putSetting => exact s.answerPutSetting_answers _ _ _
  case restoreSettings => exact s.answerRestoreSettings_answers
  case chainSwitch => exact s.answerChainSwitch_answers _
  case chainCancel => exact (s.cancelChain_keeps.answers rfl).accepted _
  case walkerResume => exact s.answerWalkerResume_answers
  case releaseHold => exact s.answerReleaseHold_answers _
  case setOverride => exact s.answerSetOverride_answers _ _ _
  case clearOverride => exact s.answerClearOverride_answers _
  case setHeadcount => exact s.answerSetHeadcount_answers _ _
  case calibrateDamper => exact s.answerCalibrateDamper_answers _
  case calibrateBlind => exact s.answerCalibrateBlind_answers _
  case clearFault => exact s.answerClearFault_answers _ _
  -- No other request reaches the link interface.
  all_goals
    simp only [answer, State.answerIdent, State.answerGetSetting, State.answerSaveSettings, State.answerGetChain,
      State.answerChainBegin, State.answerChainEntry, State.answerChainCommit, State.answerSetStopMark,
      State.answerWalkerPause, State.answerGetUnit, State.answerGetCell, State.answerPutProfile,
      State.answerGetProfile, State.answerGetDoorway, State.answerSetSupplyCap, State.answerPutDamperTable,
      State.answerGetChannel, State.answerSetSunState, State.answerGetBlind, State.answerGetFaults,
      State.answerUnknownKind]
    repeat' split
    all_goals exact .refl _

theorem handlerOf_answers (f : Frame) : s.link.Answers (handlerOf f s).2.link := by
  unfold handlerOf
  cases decodeRequest f.kind f.tag f.payload with
  | command i => exact answer_answers s i
  | badLength => exact .refl _

end

/-! ## Taking requests -/

section
variable {s : State}

/-- A request is taken while its reply has room. -/
theorem State.take_sound (h : s.link.Sound) (room : s.link.replies.length < Config.linkQueueSize) (kind tag : Byte)
    {f : State → Answer × State} (answers : s.link.Answers (f s).2.link) : (s.take kind tag f).link.Sound :=
  (answers.sound h).reply (by rw [answers.replies]; exact room) kind tag (f s).1

/-- A frame that is taken leaves those behind it to wait. -/
theorem State.takeFrame_sound (h : s.link.Sound) (room : s.link.replies.length < Config.linkQueueSize) (f : Frame) :
    (s.takeFrame f).link.Sound ∧ (s.takeFrame f).link.requests = s.link.requests :=
  have answers := handlerOf_answers s f
  ⟨State.take_sound h room f.kind f.tag answers, answers.requests⟩

/-- Once the transmitter has started what it can, it is busy or nothing waits for it (R183). -/
theorem Link.startFrame_started (l : Link) (idle : l.startFrame.tx = none) (stays : l.startFrame.restart ≠ .sent) :
    l.startFrame.replies = [] ∧ l.startFrame.notices = [] := by
  revert idle stays
  unfold Link.startFrame
  split
  · next busy => exact fun idle => by rw [busy] at idle; cases idle
  split
  · next sent => exact fun _ stays => absurd sent stays
  split
  · exact fun idle => by cases idle
  · exact fun idle => by cases idle
  · next replies notices => exact fun _ _ => ⟨replies, notices⟩

/-- The link interface settles: it stays sound, and nothing waits that could go. -/
theorem State.settleUpTo_sound (n : Nat) (h : s.link.Sound) (count : s.link.requests.length ≤ n) :
    (s.settleUpTo n).link.Sound ∧ (s.settleUpTo n).Settled := by
  induction n generalizing s with
  | zero =>
    have none : s.link.requests = [] := List.length_eq_zero_iff.mp (Nat.le_zero.mp count)
    exact ⟨h.startFrame, s.link.startFrame_started, .inl (by rw [← none]; exact s.link.startFrame_requests)⟩
  | succ n ih =>
    have started : (s.updLink Link.startFrame).link.Sound := h.startFrame
    have requests : (s.updLink Link.startFrame).link.requests = s.link.requests := s.link.startFrame_requests
    have idle := s.link.startFrame_started
    unfold State.settleUpTo
    dsimp only
    split
    · next none => exact ⟨started, idle, .inl none⟩
    · next f rest eq =>
      have sizes := started
      obtain ⟨-, -, size, -, -, -, payloads⟩ := sizes
      rw [eq] at size payloads
      rw [requests.symm.trans eq, List.length_cons] at count
      have taken : ({ (s.updLink Link.startFrame).link with requests := rest } : Link).Sound :=
        started.withRequests (Nat.le_of_succ_le size) fun g mem => payloads g (List.mem_cons_of_mem _ mem)
      split
      · next room =>
        have room : (s.updLink Link.startFrame).link.replies.length < Config.linkQueueSize := of_decide_eq_true room
        obtain ⟨sound, waiting⟩ := State.takeFrame_sound
          (s := (s.updLink Link.startFrame).updLink fun l => { l with requests := rest }) taken room f
        exact ih sound (by rw [waiting]; exact Nat.le_of_succ_le_succ count)
      · next full =>
        exact ⟨started, idle, .inr (Nat.not_lt.mp fun room => full (decide_eq_true room))⟩

/-- The link interface is sound, and nothing waits that could go. -/
abbrev State.LineSound (s : State) : Prop := s.link.Sound ∧ s.Settled

theorem State.LineSound.of_finish {t : State} (h : s.link.Sound) (e : finish s = .next t) : t.LineSound := by
  cases e
  exact s.settleUpTo_sound _ h (Nat.le_refl _)

/-- What the link interface does at once after a command that hands over notices alone. -/
theorem Keeps.lineSound {xs : List Block} {t u : State} (k : Keeps xs s t) (h : s.link.Sound)
    (w : xs.contains .link = false) (e : finish t = .next u) : u.LineSound :=
  .of_finish ((k.answers w).sound h) e

/-- A request that arrives is taken at once, or its frame waits or is lost. -/
theorem State.arrive_sound (h : s.link.Sound) {i : Instr} {f : State → Answer × State}
    (answers : s.link.Answers (f s).2.link)
    (fits : ∀ kind tag p, encodeRequest i = some (kind, tag, p) → p.length ≤ Config.maxPayload) :
    (s.arrive i f).link.Sound := by
  unfold State.arrive
  split
  · exact h
  · next kind tag p encoded =>
    split
    · next free =>
      have room : s.link.replies.length < Config.linkQueueSize :=
        of_decide_eq_true (Bool.and_eq_true_iff.mp free).2
      exact State.take_sound h room kind tag answers
    · exact h.offer (fits kind tag p encoded)

end

/-! ## Every command -/

/-- The frame of a well-formed command (the LEN column of section 11.2). -/
theorem frame_permitted (i : Instr) : Laws.Frames.Statement i := by
  open Laws.Frames in
  cases i
  case ident => exact ident _
  case keepalive => exact keepalive _
  case setTime => exact setTime _ _ _
  case restart => exact restart _
  case setNoticeMask => exact setNoticeMask _ _ _
  case putSetting => exact putSetting _ _ _ _
  case getSetting => exact getSetting _ _ _
  case saveSettings => exact saveSettings _
  case restoreSettings => exact restoreSettings _
  case getChain => exact getChain _ _
  case chainBegin => exact chainBegin _ _
  case chainEntry => exact chainEntry _ _ _
  case chainCommit => exact chainCommit _
  case chainSwitch => exact chainSwitch _ _
  case chainCancel => exact chainCancel _
  case setStopMark => exact setStopMark _ _ _
  case walkerPause => exact walkerPause _
  case walkerResume => exact walkerResume _
  case releaseHold => exact releaseHold _ _
  case getUnit => exact getUnit _ _
  case getCell => exact getCell _ _
  case putProfile => exact putProfile _ _ _
  case getProfile => exact getProfile _ _
  case setOverride => exact setOverride _ _ _ _
  case clearOverride => exact clearOverride _ _
  case getDoorway => exact getDoorway _ _
  case setHeadcount => exact setHeadcount _ _ _
  case setSupplyCap => exact setSupplyCap _ _
  case calibrateDamper => exact calibrateDamper _ _
  case putDamperTable => exact putDamperTable _ _ _
  case getChannel => exact getChannel _ _
  case setSunState => exact setSunState _ _
  case calibrateBlind => exact calibrateBlind _ _
  case getBlind => exact getBlind _ _
  case getFaults => exact getFaults _ _
  case clearFault => exact clearFault _ _ _
  case unknownKind => exact unknownKind _ _ _
  all_goals exact of_none rfl

section
variable {s t : State}

/-- The arrival of a request that is well formed. -/
theorem State.LineSound.of_arrive (h : s.link.Sound) {i : Instr} {f : State → Answer × State}
    (formed : i.wellFormed = true) (answers : s.link.Answers (f s).2.link) (e : finish (s.arrive i f) = .next t) :
    t.LineSound :=
  .of_finish (State.arrive_sound h answers fun kind tag p encoded => (frame_permitted i formed kind tag p encoded).1) e

/-- A command that is the arrival of a request. -/
theorem State.LineSound.of_request (h : s.link.Sound) {i : Instr} (formed : i.wellFormed = true)
    (hi : exec i s = finish (s.arrive i (answer i))) (e : exec i s = .next t) : t.LineSound :=
  .of_arrive h formed (answer_answers s i) (hi ▸ e)

/-- At a reset the queues are empty (R193), and the notices of the reset are handed over. -/
theorem State.resetBy_sound (s : State) (cause : ResetCause) : (s.resetBy cause).link.Sound := by
  have fresh (clock : WeekClock) : (Link.fresh cause clock).Sound :=
    ⟨Nat.zero_le _, by simp [Link.lows, Link.fresh], Nat.zero_le _, Nat.zero_le _, Nat.zero_le _,
      Framer.hunting_sound, by simp [Link.fresh]⟩
  exact (((State.reportLost_keeps _).answers rfl).trans (((State.reportDegraded_keeps _).answers rfl).trans
    ((State.placeWalker_keeps _).answers rfl))).sound (fresh _)

/-- Every command leaves the link interface sound, and nothing waiting that could go. -/
theorem exec_lineSound {i : Instr} (h : s.link.Sound) (e : exec i s = .next t) : t.LineSound := by
  cases i
  case unknownKind =>
    simp only [exec, execUnknownKind] at e
    split at e
    · next formed => exact .of_arrive h formed (.refl _) e
    · cases e
  case byteReceived value stopHigh =>
    refine .of_finish (s := s.updLink _) ?_ e
    cases stopHigh
    · exact h.broken
    · exact h.receive value
  case gapTimeout => exact .of_finish (s := s.updLink _) h.broken e
  case transmitDone => exact .of_finish (s := s.updLink _) h.frameSent e
  case powerOn => exact .of_finish (s.resetBy_sound _) e
  case brownOut => exact .of_finish (s.resetBy_sound _) e
  case resetLine => exact .of_finish (s.resetBy_sound _) e
  case restartReset =>
    refine .of_finish ?_ e
    split
    · exact s.resetBy_sound _
    · exact h
  case secondTick => exact s.tickSecond_keeps.lineSound h rfl e
  case minuteEvent => exact s.minuteEvent_keeps.lineSound h rfl e
  case crystalStopped => exact s.stopCrystal_keeps.lineSound h rfl e
  case crystalResumed => exact s.resumeCrystal_keeps.lineSound h rfl e
  case partitionContactEdge => exact (s.updSpace_keeps _).lineSound h rfl e
  case partitionDebounce => exact s.completePartition_keeps.lineSound h rfl e
  case fireInputEdge => exact (s.updSpace_keeps _).lineSound h rfl e
  case fireDebounce => exact s.completeFire_keeps.lineSound h rfl e
  case purgeTimerExpiry => exact (s.purgeExpiry_keeps _).lineSound h rfl e
  case overrideExpiry => exact (s.overrideExpires_keeps _).lineSound h rfl e
  case beamPinEdge => exact (s.updDoor_keeps _ _).lineSound h rfl e
  case beamDebounce => exact (s.completeDebounce_keeps _ _).lineSound h rfl e
  case transitTimeout => exact (s.blockDoor_keeps _).lineSound h rfl e
  case blockClearExpiry => exact (s.unblockDoor_keeps _).lineSound h rfl e
  case doorwayStuck => exact (s.stickDoor_keeps _).lineSound h rfl e
  case detectorPinEdge => exact (s.updDetector_keeps _ _).lineSound h rfl e
  case motionEvent => exact (s.completeFilter_keeps _).lineSound h rfl e
  case presenceHoldExpiry => exact (s.presenceExpiry_keeps _).lineSound h rfl e
  case gatedTimerTick => exact s.gatedTicks_keeps.lineSound h rfl e
  case vacancyConfirmed => exact (s.vacancyReached_keeps _).lineSound h rfl e
  case presenceForced => exact (s.forcedReached_keeps _).lineSound h rfl e
  case clearingExpiry => exact (s.clearingReached_keeps _).lineSound h rfl e
  case airUpdate => exact s.airUpdate_keeps.lineSound h rfl e
  case sensorSample => exact (s.sensorSample_keeps _).lineSound h rfl e
  case holdTimerExpiry => exact (s.holdExpiry_keeps _).lineSound h rfl e
  case damperStall => exact (s.reportStall_keeps _).lineSound h rfl e
  case calibrationPhaseTimeout => exact (s.calPhaseExpiry_keeps _).lineSound h rfl e
  case temperatureUpdate =>
    exact (State.refreshNeeds_keeps _).lineSound (((s.temperatureStep_keeps _).answers rfl).sound h) rfl e
  case lightingStep => exact s.lightingStep_keeps.lineSound h rfl e
  case pwmPeriodStart => exact s.loadDuties_keeps.lineSound h rfl e
  case daylightUpdate => exact s.daylightUpdate_keeps.lineSound h rfl e
  case freezeTimerExpiry => exact (s.unfreeze_keeps _).lineSound h rfl e
  case blindEvaluation =>
    exact (State.evaluateBlinds_keeps _).lineSound (s := s.updBlinds _) h rfl e
  case currentSample =>
    exact (State.currentSample_keeps ..).lineSound (s := s.updGroup _ _) h rfl e
  case blindLimitUnseen => exact (s.endOverrun_keeps _).lineSound h rfl e
  case reversingEnd => exact (s.endReversing_keeps _).lineSound h rfl e
  case calibrationLegTimeout => exact (s.failLeg_keeps _).lineSound h rfl e
  case sunHoldExpiry => exact (s.updBlinds_keeps _).lineSound h rfl e
  case railSettleEnd => exact (Keeps.ite s.settleRail_keeps (.refl _ s)).lineSound h rfl e
  case railLingerExpiry => exact (Keeps.ite s.dropRail_keeps (.refl _ s)).lineSound h rfl e
  case railFaultPinEdge => exact (s.updRail_keeps _).lineSound h rfl e
  case railDown => exact s.railDown_keeps.lineSound h rfl e
  case retryExpiry => exact (s.retryExpiry_keeps _).lineSound h rfl e
  case normalTimerExpiry => exact (s.normalExpiry_keeps _).lineSound h rfl e
  case periodEnd => exact s.periodEnd_keeps.lineSound h rfl e
  case saveDone =>
    refine .of_finish ?_ e
    split
    · exact h
    · split
      · exact ((s.saveOk_keeps _).answers rfl).sound h
      · exact (s.saveFailed_keeps.answers rfl).sound h
  case saveWriteTimeout => exact (Keeps.ite s.saveFailed_keeps (.refl _ s)).lineSound h rfl e
  all_goals exact .of_request h rfl rfl e

/-- A millisecond of time moves no queue. -/
theorem State.LineSound.idle (h : s.LineSound) : s.idle.LineSound := by
  obtain ⟨sound, free, waiting⟩ := h
  exact ⟨sound.elapse, fun none => free (Option.map_eq_none_iff.mp none), waiting⟩

end

/-- Settles O2. A command ends with the link interface's own moves, which leave nothing waiting that could go; a
millisecond of time moves no queue. -/
theorem stepKeepsTheLinkSound : Obligations.StepKeepsTheLinkSound := by
  intro s t sound settled e
  unfold step at e
  split at e
  · next rest _ => exact exec_lineSound (s := { s with pending := rest }) sound e
  · cases e
    exact State.LineSound.idle ⟨sound, settled⟩

/-- Settles O5. SETTINGS_LOST waits alone while READY is sent, fire is clear and the units are empty. -/
theorem resetMeetsTheInvariants : Obligations.ResetMeetsTheInvariants := by
  have lows : State.reset.link.lows = [] := rfl
  have sound : State.reset.link.Sound :=
    ⟨by decide, by simp [lows], by decide, by decide, by decide, Framer.hunting_sound,
      fun _ mem => absurd mem List.not_mem_nil⟩
  have settled : State.reset.Settled := ⟨fun idle => absurd idle (by decide), .inl rfl⟩
  refine ⟨sound, settled, State.initial_fireSound Working.factory none .powerOn WeekClock.fresh Pins.quiet [],
    fun id u hu => ?_⟩
  cases id <;> cases hu <;> exact Nat.zero_le _

end Sys2Proof.Machine
end

