-- ==== Sys2Proof/Proofs/LinkFrames.lean ====
section
/-! PROOF. The serial line: a request's frame reads back as the request, its bytes do what the request does (R179 to
R181), and the transmitter takes what waits (R183, R186). -/

namespace Sys2Proof.Machine
open Sys2Proof

/-! ## Numbers and records (R195, 11.4) -/

@[simp] theorem byteAt_zero (b : Byte) (p : List Byte) : byteAt (b :: p) 0 = b := rfl
@[simp] theorem byteAt_succ (b : Byte) (p : List Byte) (i : Nat) : byteAt (b :: p) (i + 1) = byteAt p i := rfl

/-- Two neighbouring fields of a number are one field. -/
theorem extract_append {m : Nat} (w : BitVec m) (start low high : Nat) :
    w.extractLsb' (start + low) high ++ w.extractLsb' start low = w.extractLsb' start (high + low) :=
  BitVec.extractLsb'_append_extractLsb'_eq_extractLsb' rfl

theorem halfOf_extract (h : Half) : halfOf (h.extractLsb' 0 8) (h.extractLsb' 8 8) = h :=
  (extract_append h 0 8 8).trans BitVec.extractLsb'_eq_self

theorem wordOf_extract (w : Word32) :
    wordOf (w.extractLsb' 0 8) (w.extractLsb' 8 8) (w.extractLsb' 16 8) (w.extractLsb' 24 8) = w := by
  have high : w.extractLsb' 24 8 ++ w.extractLsb' 16 8 = w.extractLsb' 16 16 := extract_append w 16 8 8
  have upper : w.extractLsb' 16 16 ++ w.extractLsb' 8 8 = w.extractLsb' 8 24 := extract_append w 8 8 16
  have whole : w.extractLsb' 8 24 ++ w.extractLsb' 0 8 = w.extractLsb' 0 32 := extract_append w 0 8 24
  rw [wordOf, high, upper, whole, BitVec.extractLsb'_eq_self]

theorem entryAt_bytes (b : Byte) (e : EntryRecord) : entryAt (b :: e.bytes) 1 = e := by
  simp only [EntryRecord.bytes, le16, List.cons_append, List.nil_append]
  simp only [entryAt, halfAt, byteAt_zero, byteAt_succ, Nat.reduceAdd, halfOf_extract]

theorem profileAt_bytes (b : Byte) (r : ProfileRecord) : profileAt (b :: r.bytes) 1 = r := by
  have name : #v[r.name[0], r.name[1], r.name[2], r.name[3], r.name[4], r.name[5], r.name[6], r.name[7]] = r.name := by
    ext i hi
    interval_cases i <;> rfl
  unfold ProfileRecord.bytes
  simp only [List.append_assoc]
  simp only [le16, List.cons_append, List.nil_append]
  simp only [profileAt, halfAt, byteAt_zero, byteAt_succ, Nat.reduceAdd, halfOf_extract, name]

theorem pointsAt_bytes (b : Byte) (f : Vector Half 9) : pointsAt (b :: pointsBytes f) 1 = f := by
  have points : #v[f[0], f[1], f[2], f[3], f[4], f[5], f[6], f[7], f[8]] = f := by
    ext i hi
    interval_cases i <;> rfl
  simp only [pointsBytes, le16, List.cons_append, List.nil_append]
  simp only [pointsAt, halfAt, byteAt_zero, byteAt_succ, Nat.reduceAdd, halfOf_extract, points]

/-! ## Requests and their frames (11.2) -/

/-- A command of a request's KIND is read from the fields of its frame; the others are frames of no request kind. -/
theorem readRequest_encoded {i : Instr} {kind tag : Byte} {p : List Byte} (formed : i.wellFormed = true)
    (encoded : encodeRequest i = some (kind, tag, p)) :
    (isRequestKind kind = true ∧ readRequest kind tag p = i) ∨
      (isRequestKind kind = false ∧ i = .unknownKind tag kind p) := by
  cases i
  case unknownKind =>
    cases encoded
    have known : isRequestKind kind = false := by
      simp only [Instr.wellFormed, Bool.and_eq_true, Bool.not_eq_true'] at formed
      exact formed.1
    exact .inr ⟨known, rfl⟩
  case setTime => cases encoded; exact .inl ⟨rfl, congrArg (Instr.setTime _ · _) (halfOf_extract _)⟩
  case putSetting => cases encoded; exact .inl ⟨rfl, congrArg (Instr.putSetting _ _ _) (wordOf_extract _)⟩
  case getChain entry =>
    cases entry
    all_goals cases encoded; exact .inl ⟨rfl, rfl⟩
  case chainEntry => cases encoded; exact .inl ⟨rfl, congrArg (Instr.chainEntry _ _) (entryAt_bytes _ _)⟩
  case putProfile => cases encoded; exact .inl ⟨rfl, congrArg (Instr.putProfile _ _) (profileAt_bytes _ _)⟩
  case setOverride =>
    cases encoded
    exact .inl ⟨rfl, congrArg₂ (Instr.setOverride _ _) (halfOf_extract _) (halfOf_extract _)⟩
  case setHeadcount => cases encoded; exact .inl ⟨rfl, congrArg (Instr.setHeadcount _ _) (halfOf_extract _)⟩
  case setSupplyCap => cases encoded; exact .inl ⟨rfl, congrArg (Instr.setSupplyCap _) (halfOf_extract _)⟩
  case putDamperTable => cases encoded; exact .inl ⟨rfl, congrArg (Instr.putDamperTable _ _) (pointsAt_bytes _ _)⟩
  all_goals cases encoded
  all_goals exact .inl ⟨rfl, rfl⟩

/-- A well-formed command's frame decodes to the command. -/
theorem decodeRequest_encoded {i : Instr} {kind tag : Byte} {p : List Byte} (formed : i.wellFormed = true)
    (encoded : encodeRequest i = some (kind, tag, p)) : decodeRequest kind tag p = .command i := by
  have permitted := (frame_permitted i formed kind tag p encoded).2
  unfold decodeRequest
  rcases readRequest_encoded formed encoded with ⟨known, read⟩ | ⟨unknown, same⟩
  · rw [if_pos known, if_pos (permitted known), read]
  · rw [if_neg (by simp [unknown]), same]

/-- Settles O7, by the fields of each request. -/
theorem requestFramesReadBack : Obligations.RequestFramesReadBack :=
  fun i kind tag p formed encoded =>
    ⟨(frame_permitted i formed kind tag p encoded).1, decodeRequest_encoded formed encoded⟩

/-! ## Frames and the arrival of requests -/

/-- A request is the arrival of its frame. -/
theorem exec_arrives {i : Instr} {kind tag : Byte} {p : List Byte} (formed : i.wellFormed = true)
    (encoded : encodeRequest i = some (kind, tag, p)) (s : State) :
    exec i s = finish (s.arrive i (answer i)) := by
  cases i
  case unknownKind => exact if_pos formed
  case getChain entry => cases entry <;> rfl
  all_goals cases encoded
  all_goals rfl

section
variable {s : State}

/-- In a state where nothing waits that could go, the link interface has nothing to do at once. -/
theorem finish_settled (hs : s.Settled) : finish s = .next s := finish_same hs rfl

/-- With no request waiting, the transmitter starts what it can. -/
theorem finish_quiet (hs : s.link.requests = []) : finish s = .next { s with link := s.link.startFrame } := by
  rw [finish, State.settle_quiet s hs]
  rfl

/-- A frame that is taken, with nothing behind it. -/
theorem finish_takeFrame (hs : s.link.requests = []) (f : Frame) :
    finish (s.takeFrame f) = .next { (handlerOf f s).2 with
      link := (handlerOf f s).2.link.answered f.kind f.tag (handlerOf f s).1.status (handlerOf f s).1.data } := by
  rw [finish, State.settle_quiet]
  · rfl
  · exact (handlerOf_answers s f).requests.trans hs

/-- A complete frame that finds nothing ahead of it and room for its reply is taken at once (R180). -/
theorem finish_offer (hs : s.Settled) (ht : s.Takes) (f : Frame) :
    finish (s.updLink (·.offer f)) = finish (s.takeFrame f) := by
  obtain ⟨empty, room⟩ := ht
  let t : State := { s with link := { s.link with requests := [f] } }
  have offered : s.updLink (·.offer f) = t := by
    rw [State.updLink, Link.offer, if_pos (by rw [empty]; decide), empty]
    rfl
  have started : t.updLink Link.startFrame = t :=
    congrArg (fun l => { t with link := l }) (Link.startFrame_idle t.link hs.1)
  have waits : (t.updLink fun l => { l with requests := [] }) = s := by
    rw [← empty]
    rfl
  have free : t.link.replyRoom = true := decide_eq_true room
  have settles : t.settle = ((t.updLink fun l => { l with requests := [] }).takeFrame f).updLink Link.startFrame := by
    have once : t.settle = State.settleUpTo 1 t := rfl
    rw [once, State.settleUpTo, started]
    exact if_pos free
  have taken : (s.takeFrame f).settle = (s.takeFrame f).updLink Link.startFrame :=
    State.settle_quiet _ ((handlerOf_answers s f).requests.trans empty)
  rw [finish, finish, offered, settles, waits, taken]

/-- A complete frame that must wait does so at the tail, or is lost as an overrun (R180). -/
theorem finish_offer_full (hs : s.Settled) (full : Config.linkQueueSize ≤ s.link.replies.length) (f : Frame) :
    finish (s.updLink (·.offer f)) = .next (s.updLink (·.offer f)) := by
  obtain ⟨idle, -⟩ := hs
  refine finish_settled ⟨?_, .inr ?_⟩
  all_goals
    simp only [State.updLink_link, Link.offer]
    split
  · exact idle
  · exact idle
  · exact full
  · exact full

end

/-- With nothing ahead of it and room for its reply, a request is taken (R180). -/
theorem State.arrive_takes {s : State} (ht : s.Takes) {i : Instr} {kind tag : Byte} {p : List Byte}
    (encoded : encodeRequest i = some (kind, tag, p)) (f : State → Answer × State) :
    s.arrive i f = s.take kind tag f := by
  obtain ⟨none, room⟩ := ht
  simp [State.arrive, encoded, none, Link.replyRoom, room]

/-- With the reply queue full, a request's frame is offered to the request queue (R180). -/
theorem State.arrive_waits {s : State} (full : Config.linkQueueSize ≤ s.link.replies.length) {i : Instr}
    {kind tag : Byte} {p : List Byte} (encoded : encodeRequest i = some (kind, tag, p)) (f : State → Answer × State) :
    s.arrive i f = s.updLink (·.offer { kind := kind, tag := tag, payload := p }) := by
  simp [State.arrive, encoded, Link.replyRoom, Nat.not_lt.mpr full]

/-- A request's frame does what the request does (R180, R181). -/
theorem exec_frame {s : State} (hs : s.Settled) {i : Instr} {kind tag : Byte} {p : List Byte}
    (formed : i.wellFormed = true) (encoded : encodeRequest i = some (kind, tag, p)) :
    exec i s = finish (s.updLink (·.offer { kind := kind, tag := tag, payload := p })) := by
  rw [exec_arrives formed encoded]
  by_cases full : Config.linkQueueSize ≤ s.link.replies.length
  · rw [State.arrive_waits full encoded]
  · have ht : s.Takes := ⟨hs.2.resolve_right full, Nat.not_le.mp full⟩
    have handler : handlerOf { kind := kind, tag := tag, payload := p } = answer i := by
      simp only [handlerOf, decodeRequest_encoded formed encoded]
    rw [State.arrive_takes ht encoded, finish_offer hs ht, State.takeFrame, handler]

/-- Settles O11: the request's frame is offered to a request queue that nothing is taken from. -/
theorem requestWaitsWhileRepliesAreFull : Obligations.RequestWaitsWhileRepliesAreFull := by
  intro i kind tag p s formed encoded hs full
  rw [exec_frame hs formed encoded, finish_offer_full hs full]
  rfl

/-! ## The framer (R179) -/

/-- A byte received is what the link interface makes of it. -/
theorem exec_byteReceived (s : State) (b : Byte) (stopHigh : Bool) : exec (.byteReceived b stopHigh) s =
    finish (s.updLink fun l => if stopHigh then l.receive b else l.badStop) := rfl

section
variable {l : Link} {b : Byte}

theorem Link.receive_sync (h : l.framer.state = .hunt) :
    l.receive syncByte = { l with framer := { Framer.hunting with state := .length } } := by
  simp only [Link.receive, h, ↓reduceIte]

theorem Link.receive_noise (h : l.framer.state = .hunt) (other : b ≠ syncByte) : l.receive b = l := by
  simp only [Link.receive, h, other, ↓reduceIte]

theorem Link.receive_tooLong (h : l.framer.state = .length) (long : Config.maxPayload < b.toNat) :
    l.receive b = l.abandon := by
  simp only [Link.receive, h, long, ↓reduceIte]

theorem Link.receive_length (h : l.framer.state = .length) (fits : b.toNat ≤ Config.maxPayload) :
    l.receive b = { l with framer := l.framer.advance b } := by
  simp only [Link.receive, h, Nat.not_lt.mpr fits, ↓reduceIte]

theorem Link.receive_inside (h : l.framer.state = .kind ∨ l.framer.state = .tag ∨ l.framer.state = .payload) :
    l.receive b = { l with framer := l.framer.advance b } := by
  rcases h with h | h | h
  all_goals simp only [Link.receive, h]

/-- A CHECK that brings the sum to 0 completes the frame. -/
theorem Link.receive_check (h : l.framer.state = .check) (agrees : l.framer.sum + b = 0) :
    l.receive b = ({ l with framer := Framer.hunting } : Link).offer l.framer.frame := by
  simp only [Link.receive, h, agrees, ↓reduceIte]

theorem Link.receive_checkError (h : l.framer.state = .check) (differs : l.framer.sum + b ≠ 0) :
    l.receive b = { l with framer := Framer.hunting, checkErrors := l.checkErrors + 1 } := by
  simp only [Link.receive, h, differs, ↓reduceIte]

theorem Link.badStop_hunt (h : l.framer.state = .hunt) : l.badStop = l := if_pos h

theorem Link.badStop_started (h : l.framer.state ≠ .hunt) : l.badStop = l.abandon := if_neg h

end

/-- A byte received that leads the link interface to a state in which nothing waits that could go. -/
theorem exec_byte {s : State} {b : Byte} {l : Link} (received : s.link.receive b = l)
    (settled : ({ s with link := l } : State).Settled) :
    exec (.byteReceived b true) s = .next { s with link := l } := by
  have run : exec (.byteReceived b true) s = finish { s with link := s.link.receive b } := rfl
  rw [run, received, finish_settled settled]

/-- A low stop bit and a gap do the same (R179). -/
theorem exec_broken {s : State} {l : Link} (broken : s.link.badStop = l)
    (settled : ({ s with link := l } : State).Settled) (b : Byte) :
    exec .gapTimeout s = .next { s with link := l } ∧ exec (.byteReceived b false) s = .next { s with link := l } := by
  have gap : exec .gapTimeout s = finish { s with link := s.link.badStop } := rfl
  have byte : exec (.byteReceived b false) s = finish { s with link := s.link.badStop } := rfl
  rw [gap, byte, broken, finish_settled settled]
  exact ⟨rfl, rfl⟩

/-- Settles O9, by the framer's state. -/
theorem framerHuntsAndAbandons : Obligations.FramerHuntsAndAbandons := by
  intro s b hs
  refine ⟨fun hunts => ?_, fun started => ?_⟩
  · obtain ⟨gap, byte⟩ := exec_broken (Link.badStop_hunt hunts) hs b
    exact ⟨gap, byte, fun noise => exec_byte (Link.receive_noise hunts noise) hs,
      exec_byte (Link.receive_sync hunts) hs⟩
  · obtain ⟨gap, byte⟩ := exec_broken (Link.badStop_started started) hs b
    exact ⟨gap, byte, fun length long => exec_byte (Link.receive_tooLong length long) hs,
      fun check differs => exec_byte (Link.receive_checkError check differs) hs⟩

/-! ## A frame byte by byte -/

/-- The framer once it has KIND, TAG and part of a payload of `n` bytes. -/
def Framer.midway (kind tag : Byte) (n : Nat) (p : List Byte) : Framer where
  state := if p.length < n then .payload else .check
  len := n
  kind := kind
  tag := tag
  payload := p
  sum := byteSum (BitVec.ofNat 8 n :: kind :: tag :: p)
  gap := 0

theorem byteSum_concat (bs : List Byte) (b : Byte) : byteSum (bs ++ [b]) = byteSum bs + b := by
  simp [byteSum]

theorem Framer.midway_advance (kind tag b : Byte) {n : Nat} {p : List Byte} (short : p.length < n) :
    (Framer.midway kind tag n p).advance b = Framer.midway kind tag n (p ++ [b]) := by
  have sum := byteSum_concat (BitVec.ofNat 8 n :: kind :: tag :: p) b
  simp only [Framer.midway, Framer.advance, short, ↓reduceIte, List.length_append, List.length_singleton,
    ← sum, List.cons_append]

/-- The framer after SYNC, LEN, KIND and TAG. -/
theorem Framer.header_midway (kind tag : Byte) {n : Nat} (len : (BitVec.ofNat 8 n).toNat = n) :
    (((({ Framer.hunting with state := .length } : Framer).advance (BitVec.ofNat 8 n)).advance kind).advance tag) =
      Framer.midway kind tag n [] := by
  have sum : byteSum [BitVec.ofNat 8 n, kind, tag] = BitVec.ofNat 8 n + kind + tag := by simp [byteSum]
  have state : (if n = 0 then FramerState.check else .payload) = if 0 < n then .payload else .check := by
    rcases Nat.eq_zero_or_pos n with h | h
    · simp [h]
    · simp [h, Nat.ne_of_gt h]
  simp only [Framer.advance, Framer.midway, len, state, sum, List.length_nil]
  rfl

/-- The state with the framer and the commands that wait as given. -/
def State.onLine (s : State) (r : Framer) (is : List Instr) : State :=
  { s with link := { s.link with framer := r }, pending := is }

theorem core_run_succ {s t : State} (e : step s = .next t) (k : Nat) : core.run (k + 1) s = core.run k t := by
  have next : core.step s = .next t := e
  simp only [Host.Core.run, next]

section
variable {s : State} (hs : s.Settled)
include hs

/-- One byte of a frame moves the framer alone. -/
theorem run_byte {r r' : Framer} {b : Byte} (k : Nat) (rest : List Instr)
    (received : ({ s.link with framer := r } : Link).receive b = { s.link with framer := r' }) :
    core.run (k + 1) (s.onLine r (.byteReceived b true :: rest)) = core.run k (s.onLine r' rest) := by
  have byte : exec (.byteReceived b true) (s.onLine r rest) = .next (s.onLine r' rest) := exec_byte received hs
  exact core_run_succ (s := s.onLine r (.byteReceived b true :: rest)) byte k

theorem run_inside {r : Framer} (inside : r.state = .kind ∨ r.state = .tag ∨ r.state = .payload) (b : Byte) (k : Nat)
    (rest : List Instr) :
    core.run (k + 1) (s.onLine r (.byteReceived b true :: rest)) = core.run k (s.onLine (r.advance b) rest) :=
  run_byte hs k rest (Link.receive_inside inside)

/-- The bytes of a payload, from the part that has been received to the whole. -/
theorem run_payload (kind tag : Byte) {n : Nat} (p q : List Byte) (whole : p.length + q.length = n) (k : Nat)
    (rest : List Instr) :
    core.run (q.length + k) (s.onLine (Framer.midway kind tag n p) (q.map (.byteReceived · true) ++ rest)) =
      core.run k (s.onLine (Framer.midway kind tag n (p ++ q)) rest) := by
  induction q generalizing p with
  | nil => simp
  | cons b q ih =>
    have short : p.length < n := by rw [← whole, List.length_cons]; omega
    have inside : (Framer.midway kind tag n p).state = .payload := if_pos short
    have received : ({ s.link with framer := Framer.midway kind tag n p } : Link).receive b =
        { s.link with framer := Framer.midway kind tag n (p ++ [b]) } := by
      rw [← Framer.midway_advance kind tag b short]
      exact Link.receive_inside (.inr (.inr inside))
    have count : (b :: q).length + k = (q.length + k) + 1 := by rw [List.length_cons]; omega
    rw [count, List.map_cons, List.cons_append, run_byte hs _ _ received,
      ih (p ++ [b]) (by rw [← whole]; simp; omega)]
    simp

/-- SYNC, LEN, KIND and TAG. -/
theorem run_header (kind tag : Byte) {n : Nat} (fits : n ≤ Config.maxPayload) (k : Nat) (rest : List Instr) :
    core.run (k + 4) (s.onLine Framer.hunting
        ([syncByte, BitVec.ofNat 8 n, kind, tag].map (.byteReceived · true) ++ rest)) =
      core.run k (s.onLine (Framer.midway kind tag n []) rest) := by
  have len : (BitVec.ofNat 8 n).toNat = n := by
    rw [BitVec.toNat_ofNat]
    exact Nat.mod_eq_of_lt (by simp only [Config.maxPayload] at fits; omega)
  have small : (BitVec.ofNat 8 n).toNat ≤ Config.maxPayload := len.symm ▸ fits
  have sync (is) := run_byte hs (r := Framer.hunting) (k + 3) is (Link.receive_sync rfl)
  have length (is) := run_byte hs (r := { Framer.hunting with state := .length }) (k + 2) is
    (Link.receive_length rfl small)
  rw [← Framer.header_midway kind tag len]
  simp only [List.map_cons, List.map_nil, List.cons_append, List.nil_append]
  exact (sync _).trans <| (length _).trans <| (run_inside hs (.inl rfl) kind (k + 1) _).trans <|
    run_inside hs (.inr (.inl rfl)) tag k rest

end

/-- The command that is left to a run of one step. -/
theorem core_run_one (i : Instr) (s : State) :
    core.run 1 { s with pending := [i] } = exec i { s with pending := [] } := by
  have step : core.step { s with pending := [i] } = exec i { s with pending := [] } := rfl
  simp only [Host.Core.run, step]
  cases exec i { s with pending := [] } <;> rfl

/-- Settles O8: the header, the payload and the CHECK bring the framer to the request's frame, which arrives as the
request does. -/
theorem frameBytesActAsTheRequest : Obligations.FrameBytesActAsTheRequest := by
  intro i kind tag p s formed encoded hs hunts
  have fits := (frame_permitted i formed kind tag p encoded).1
  let body := BitVec.ofNat 8 p.length :: kind :: tag :: p
  let last : Instr := .byteReceived (-(byteSum body)) true
  let whole := Framer.midway kind tag p.length p
  have bytes : (frameBytes kind tag p).map (Instr.byteReceived · true) =
      [syncByte, BitVec.ofNat 8 p.length, kind, tag].map (.byteReceived · true) ++
        (p.map (.byteReceived · true) ++ [last]) := by
    simp [frameBytes, last, body]
  have opens (is : List Instr) : ({ s with pending := is } : State) = s.onLine Framer.hunting is := by
    rw [State.onLine, ← hunts]
  have runs : core.run (p.length + 5) (s.onLine Framer.hunting
      ((frameBytes kind tag p).map (Instr.byteReceived · true))) = core.run 1 (s.onLine whole [last]) := by
    rw [bytes]
    exact (run_header hs kind tag fits (p.length + 1) _).trans (run_payload hs kind tag [] p (Nat.zero_add _) 1 [last])
  have check : whole.state = .check := if_neg (Nat.lt_irrefl _)
  have agrees : whole.sum + -(byteSum body) = 0 := BitVec.add_right_neg _
  have received : (s.onLine whole []).link.receive (-(byteSum body)) =
      (s.onLine Framer.hunting []).link.offer { kind := kind, tag := tag, payload := p } :=
    Link.receive_check check agrees
  have arrives : exec last (s.onLine whole []) =
      finish ((s.onLine Framer.hunting []).updLink (·.offer { kind := kind, tag := tag, payload := p })) := by
    rw [exec_byteReceived]
    exact congrArg (fun l => finish { s.onLine whole [] with link := l }) received
  rw [opens, opens, runs]
  have ends := core_run_one last (s.onLine whole [])
  have same := exec_frame (s := s.onLine Framer.hunting []) hs formed encoded
  exact ends.trans (arrives.trans same.symm)

/-! ## The transmitter (R183) -/

/-- The last byte of a frame, no RESTART being accepted: the transmitter is idle (R183). -/
theorem Link.frameSent_plain {l : Link} {x : Transmission} (busy : l.tx = some x) (plain : l.restart = .none) :
    l.frameSent = { l with tx := none } := by
  obtain ⟨frame, elapsed⟩ := x
  cases frame
  all_goals simp [Link.frameSent, busy, plain]

/-- Settles O10, by the queue that the idle transmitter takes from. -/
theorem transmitterTakesRepliesFirst : Obligations.TransmitterTakesRepliesFirst := by
  intro s x busy plain none
  have idle : exec .transmitDone s =
      .next { s with link := ({ s.link with tx := Option.none } : Link).startFrame } := by
    have run : exec .transmitDone s = finish { s with link := s.link.frameSent } := rfl
    rw [run, Link.frameSent_plain busy plain]
    exact finish_quiet none
  have started : ({ s.link with tx := Option.none } : Link).restart ≠ .sent := by
    rw [plain]
    decide
  rw [idle]
  refine ⟨fun r rest replies => ?_, fun replies n rest notices => ?_, fun replies notices => ?_⟩
  all_goals simp only [Link.startFrame, started, ↓reduceIte, replies]
  all_goals simp only [notices]

/-! ## Frames that are refused at once (R181) -/

/-- Settles O12, by the tests 1 and 2 of R181. -/
theorem unknownKindsAreAnswered : Obligations.UnknownKindsAreAnswered := by
  refine ⟨fun tag kind p s ht => ⟨fun unknown fits => ?_, fun known => ?_⟩,
    fun b s hs ht check agrees known length => ?_⟩
  · have formed : (Instr.unknownKind tag kind p).wellFormed = true := by
      simp [Instr.wellFormed, unknown, Config.maxPayload, fits]
    exact exec_refused (f := State.answerUnknownKind) ht (if_pos formed) rfl rfl
  · refine if_neg ?_
    rcases known with known | long
    · simp [Instr.wellFormed, known]
    · simp [Instr.wellFormed, Config.maxPayload, Nat.not_le.mpr long]
  · let t : State := { s with link := { s.link with framer := Framer.hunting } }
    have refused : handlerOf s.link.framer.frame = State.answerBadLength := by
      have bad : decodeRequest s.link.framer.kind s.link.framer.tag s.link.framer.payload = .badLength := by
        simp [decodeRequest, known, length]
      simp only [handlerOf, Framer.frame, bad]
    have received : exec (.byteReceived b true) s = finish (t.updLink (·.offer s.link.framer.frame)) :=
      congrArg (fun l => finish { s with link := l }) (Link.receive_check check agrees)
    rw [received, finish_offer (s := t) hs ht, finish_takeFrame (s := t) ht.1, refused]
    rfl

end Sys2Proof.Machine
end

