-- ==== Sys2Proof/Proofs/Readings.lean ====
section
/-! PROOF. The requests that read (R184, R188, R51, R10, R23, R63, R141, R162, R175), and SET_NOTICE_MASK (R187): what
each answers, by its operand. -/

namespace Sys2Proof.Machine
open Sys2Proof

/-! ## Operands -/

theorem unitOperand_of_le {b : Byte} (h : 3 ≤ b.toNat) : unitOperand b = none := by
  unfold unitOperand
  split
  · omega
  · omega
  · omega
  · rfl

theorem noticeOperand_of_code {b : Byte} {k : Fin 29} (h : b.toNat = 0x80 + k) : noticeOperand b = some k := by
  have within : 0x80 ≤ b.toNat ∧ b.toNat < 0x80 + 29 := by omega
  simp only [noticeOperand, within, and_self, ↓reduceDIte, Option.some.injEq]
  exact Fin.ext (by simp only [h]; omega)

theorem noticeOperand_eq_none {b : Byte} (h : b.toNat < 0x80 ∨ 0x9C < b.toNat) : noticeOperand b = none :=
  dif_neg (by omega)

section
variable {s : State}

theorem State.chainEntryAt_active {bank : Byte} (h : bank = 0) (index : Byte) :
    s.chainEntryAt bank index = s.walker.active.entries[index.toNat]? := by
  rw [h]
  rfl

theorem State.chainEntryAt_standby {bank : Byte} (h : bank = 1) (index : Byte) :
    s.chainEntryAt bank index = s.walker.standby.entries[index.toNat]? := by
  rw [h]
  rfl

theorem State.chainEntryAt_noBank {bank : Byte} (h : 2 ≤ bank.toNat) (index : Byte) :
    s.chainEntryAt bank index = none := by
  unfold State.chainEntryAt
  split
  · omega
  · omega
  · rfl

/-! ## What a reading answers -/

theorem State.answerGetSetting_of {number inst : Byte} {k : SettingKey}
    (h : settingKey number.toNat inst.toNat = some k) :
    s.answerGetSetting number inst = accept (s.settingBytes k) s := by
  simp only [State.answerGetSetting, h]

theorem State.answerGetChain_of {bank index : Byte} {e : Entry} (h : s.chainEntryAt bank index = some e) :
    s.answerGetChain (some (bank, index)) = accept (s.chainBytes ++ [bank, index] ++ e.bytes) s := by
  simp only [State.answerGetChain, h]

theorem State.answerGetCell_of {b : Byte} {c : Cell} (h : cellOperand b = some c) :
    s.answerGetCell b = accept (s.cellSpaceBytes c ++ s.cellDriveBytes c) s := by
  simp only [State.answerGetCell, h]

theorem State.answerGetProfile_of {b : Byte} {n : Fin 8} (h : indexOperand 8 b = some n) :
    s.answerGetProfile b = accept s.working.profiles[n].bytes s := by
  simp only [State.answerGetProfile, h]

theorem State.answerGetDoorway_of {b : Byte} {i : Fin 4} (h : indexOperand 4 b = some i) :
    s.answerGetDoorway b = accept (s.doorwayBytes i) s := by
  simp only [State.answerGetDoorway, h]

theorem State.answerGetChannel_of {b : Byte} {i : Fin 8} (h : indexOperand 8 b = some i) :
    s.answerGetChannel b = accept (s.channelBytes i) s := by
  simp only [State.answerGetChannel, h]

theorem State.answerGetBlind_of {b : Byte} {g : Fin 4} (h : indexOperand 4 b = some g) :
    s.answerGetBlind b = accept (s.blindBytes g) s := by
  simp only [State.answerGetBlind, h]

theorem State.answerGetFaults_of {b : Byte} {all : Bool} (h : bitOperand b = some all) :
    s.answerGetFaults b = accept (s.faultListBytes all) s := by
  simp only [State.answerGetFaults, h]

/-! ## Refusals -/

theorem State.answerGetSetting_none {number inst : Byte} (h : settingKey number.toNat inst.toNat = none) :
    s.answerGetSetting number inst = refuse .badValue s := by
  simp only [State.answerGetSetting, h]

theorem State.answerGetChain_none {bank index : Byte} (h : s.chainEntryAt bank index = none) :
    s.answerGetChain (some (bank, index)) = refuse .badValue s := by
  simp only [State.answerGetChain, h]

theorem State.answerGetCell_none {b : Byte} (h : cellOperand b = none) : s.answerGetCell b = refuse .badValue s := by
  simp only [State.answerGetCell, h]

theorem State.answerGetUnit_none {b : Byte} (h : unitOperand b = none) : s.answerGetUnit b = refuse .badValue s := by
  simp only [State.answerGetUnit, h]

theorem State.answerGetProfile_none {b : Byte} (h : indexOperand 8 b = none) :
    s.answerGetProfile b = refuse .badValue s := by
  simp only [State.answerGetProfile, h]

theorem State.answerGetDoorway_none {b : Byte} (h : indexOperand 4 b = none) :
    s.answerGetDoorway b = refuse .badValue s := by
  simp only [State.answerGetDoorway, h]

theorem State.answerGetChannel_none {b : Byte} (h : indexOperand 8 b = none) :
    s.answerGetChannel b = refuse .badValue s := by
  simp only [State.answerGetChannel, h]

theorem State.answerGetBlind_none {b : Byte} (h : indexOperand 4 b = none) :
    s.answerGetBlind b = refuse .badValue s := by
  simp only [State.answerGetBlind, h]

theorem State.answerGetFaults_none {b : Byte} (h : bitOperand b = none) : s.answerGetFaults b = refuse .badValue s := by
  simp only [State.answerGetFaults, h]

end

/-- A request that only reads: the reply at the link interface, and nothing else. -/
theorem exec_reads {s : State} (hs : s.Takes) {i : Instr} {kind tag : Byte} {p data : List Byte}
    {f : State → Answer × State} (hi : exec i s = finish (s.arrive i f)) (he : encodeRequest i = some (kind, tag, p))
    (hf : f s = accept data s) : exec i s = .next { s with link := s.link.answered kind tag .ok data } :=
  exec_answered hs hi he hf rfl

/-- Settles O13, by the answer of each reading. -/
theorem readingRequestsChangeNothing : Obligations.ReadingRequestsChangeNothing := by
  intro tag x y s hs
  refine ⟨exec_reads hs rfl rfl rfl, fun k key => ?_, exec_reads hs rfl rfl rfl, fun e stands => ?_, fun c code => ?_,
    fun n code => ?_, fun i code => ?_, fun i code => ?_, fun g code => ?_, fun all code => ?_⟩
  · exact exec_reads hs rfl rfl (State.answerGetSetting_of key)
  · have named : s.chainEntryAt x y = some e := by
      rcases stands with ⟨bank, entry⟩ | ⟨bank, entry⟩
      · rw [State.chainEntryAt_active bank, entry]
      · rw [State.chainEntryAt_standby bank, entry]
    exact exec_reads hs rfl rfl (State.answerGetChain_of named)
  · exact exec_reads hs rfl rfl (State.answerGetCell_of (cellOperand_of_code code))
  · exact exec_reads hs rfl rfl (State.answerGetProfile_of (indexOperand_of_lt code))
  · exact exec_reads hs rfl rfl (State.answerGetDoorway_of (indexOperand_of_lt code))
  · exact exec_reads hs rfl rfl (State.answerGetChannel_of (indexOperand_of_lt code))
  · exact exec_reads hs rfl rfl (State.answerGetBlind_of (indexOperand_of_lt code))
  · exact exec_reads hs rfl rfl (State.answerGetFaults_of (bitOperand_of_code code))

/-- Settles O14, by the operand of each reading. -/
theorem readingOutOfRangeIsRefused : Obligations.ReadingOutOfRangeIsRefused := by
  intro tag x y s hs
  refine ⟨fun key => ?_, fun out => ?_, fun out => ?_, fun out => ?_, fun out => ?_, fun out => ?_, fun out => ?_,
    fun out => ?_, fun out => ?_⟩
  · exact exec_refused hs rfl rfl (State.answerGetSetting_none key)
  · have named : s.chainEntryAt x y = none := by
      rcases out with ⟨bank, index⟩ | ⟨bank, index⟩ | bank
      · rw [State.chainEntryAt_active bank, List.getElem?_eq_none index]
      · rw [State.chainEntryAt_standby bank, List.getElem?_eq_none index]
      · exact State.chainEntryAt_noBank bank y
    exact exec_refused hs rfl rfl (State.answerGetChain_none named)
  · exact exec_refused hs rfl rfl (State.answerGetCell_none (cellOperand_of_le out))
  · exact exec_refused hs rfl rfl (State.answerGetUnit_none (unitOperand_of_le out))
  · exact exec_refused hs rfl rfl (State.answerGetProfile_none (indexOperand_of_le out))
  · exact exec_refused hs rfl rfl (State.answerGetDoorway_none (indexOperand_of_le out))
  · exact exec_refused hs rfl rfl (State.answerGetChannel_none (indexOperand_of_le out))
  · exact exec_refused hs rfl rfl (State.answerGetBlind_none (indexOperand_of_le out))
  · exact exec_refused hs rfl rfl (State.answerGetFaults_none (bitOperand_of_le out))

/-! ## The notice masks (R187) -/

section
variable {s : State} {kind setting : Byte} {m : Bool} (set : bitOperand setting = some m)
include set

theorem State.answerSetNoticeMask_one {k : Fin 29} (one : noticeOperand kind = some k) :
    s.answerSetNoticeMask kind setting =
      accept [] (s.updLink fun l => { l with masks := l.masks.set k m }) := by
  simp only [State.answerSetNoticeMask, set, one]

theorem State.answerSetNoticeMask_all (all : kind = 0xFF) : s.answerSetNoticeMask kind setting =
    accept [] (s.updLink fun l => { l with masks := Vector.replicate 29 m }) := by
  subst all
  have none : noticeOperand 0xFF = none := by decide
  simp only [State.answerSetNoticeMask, set, none, allOnes, decide_true, ↓reduceIte]

theorem State.answerSetNoticeMask_none (none : noticeOperand kind = none) (notAll : kind ≠ 0xFF) :
    s.answerSetNoticeMask kind setting = refuse .badValue s := by
  simp only [State.answerSetNoticeMask, set, none, allOnes, notAll, decide_false, Bool.false_eq_true, ↓reduceIte]

end

/-- Settles O16, by the notice kind that is named. -/
theorem setNoticeMaskWritesTheMask : Obligations.SetNoticeMaskWritesTheMask := by
  intro tag kind setting m s hs code
  have set := bitOperand_of_code code
  refine ⟨fun k named => ?_, fun all => ?_, fun out => ?_⟩
  · exact exec_answered hs rfl rfl (State.answerSetNoticeMask_one set (noticeOperand_of_code named)) rfl
  · exact exec_answered hs rfl rfl (State.answerSetNoticeMask_all set all) rfl
  · have none : noticeOperand kind = none := noticeOperand_eq_none (out.imp_right And.left)
    have notAll : kind ≠ 0xFF := by
      rcases out with low | ⟨-, other⟩
      · rintro rfl
        exact absurd low (by decide)
      · exact other
    exact exec_refused hs rfl rfl (State.answerSetNoticeMask_none set none notAll)

end Sys2Proof.Machine
end

