-- ==== Sys2Proof/Proofs/SettingsStore.lean ====
section
/-! PROOF. PUT_SETTING (R188), and the settings store: a save, a restore, and the requests refused while it is WRITING
(R189 to R191). -/

namespace Sys2Proof.Machine
open Sys2Proof

/-! ## The chain through a write of settings

A write of `divisible` or of a presence setting may end HELD bookings. What they leave behind in the walker is its
banks as they stood. -/

theorem Keeps.sameChain {xs : List Block} {s t : State} (k : Keeps xs s t) (h : xs.contains .walker = false) :
    s.walker.SameChain t.walker := .of_eq (k.same .walker h)

theorem State.leaveCurrent_sameChain (s : State) (t : Target) (k : Booking) (o : BookingOutcome) (atEnd : Bool) :
    s.walker.SameChain (s.leaveCurrent t k o atEnd).walker := by
  obtain ⟨_, walker, _⟩ := s.leaveCurrent_parts t k o atEnd
  rw [walker]
  have dropped : s.walker.SameChain { s.walker with current := s.walker.current.drop t } := ⟨rfl, rfl, rfl, id⟩
  exact dropped.trans (Walker.stopDone_sameChain _ k)

theorem State.endHeld_sameChain (s : State) (id : UnitId) : s.walker.SameChain (s.endHeld id).walker := by
  refine State.foldl_sameChain _ s fun x k => ?_
  split
  · exact State.leaveCurrent_sameChain ..
  · exact .refl _

theorem State.becomeVacant_sameChain (s : State) (id : UnitId) : s.walker.SameChain (s.becomeVacant id).walker := by
  refine .trans ?_ (State.endHeld_sameChain _ id)
  exact (State.derive_keeps (s.modifyUnit id fun u => { u with lingering := none }) id).sameChain rfl

theorem State.occupancyChanged_sameChain (s : State) (id : UnitId) (old new : Occupancy) :
    s.walker.SameChain (s.occupancyChanged id old new).walker := by
  have occupied (x : State) : x.walker.SameChain ((x.seeOccupied id).derive id).walker := by
    refine .trans ?_ ((State.derive_keeps _ id).sameChain rfl)
    exact ⟨rfl, rfl, rfl, fun h => h⟩
  unfold State.occupancyChanged
  split
  · exact .refl _
  · cases new with
    | vacant => exact s.becomeVacant_sameChain id
    | clearing => exact (s.derive_keeps id).sameChain rfl
    | occupied =>
      dsimp only
      split
      · refine .trans ?_ (occupied (s.clearVacant id))
        exact ⟨rfl, rfl, rfl, fun h => h⟩
      · exact occupied s

theorem State.setOccupancy_sameChain (s : State) (id : UnitId) (new : Occupancy) (clearing : Option Nat) :
    s.walker.SameChain (s.setOccupancy id new clearing).walker := by
  unfold State.setOccupancy
  split
  · exact .refl _
  · refine .trans ?_ (State.occupancyChanged_sameChain ..)
    exact .refl _

theorem State.evaluate_sameChain (s : State) (id : UnitId) : s.walker.SameChain (s.evaluate id).walker := by
  unfold State.evaluate
  split
  · exact .refl _
  · exact State.setOccupancy_sameChain ..

theorem State.judgePresence_sameChain (s : State) (c : Cell) : s.walker.SameChain (s.judgePresence c).walker := by
  unfold State.judgePresence State.setPresence State.unitPresence
  dsimp only
  split
  · exact .refl _
  · split
    · exact .refl _
    · refine .trans ?_ (State.evaluate_sameChain _ _)
      exact .refl _

theorem State.confirmVacancy_sameChain (s : State) (id : UnitId) :
    s.walker.SameChain (s.confirmVacancy id).walker := by
  unfold State.confirmVacancy
  dsimp only
  split
  · exact .refl _
  · refine .trans ?_ (State.setOccupancy_sameChain ..)
    split <;> exact .refl _

theorem State.join_sameChain (s : State) (a b : UnitRec) : s.walker.SameChain (s.join a b).walker := by
  obtain ⟨f, _, walker⟩ := s.join_walker a b
  rw [walker]
  exact ⟨rfl, rfl, rfl, id⟩

theorem State.split_sameChain (s : State) (ab : UnitRec) : s.walker.SameChain (s.split ab).walker := by
  have vacated (x : State) (id : UnitId) (o : Occupancy) : x.walker.SameChain (x.vacatedBySplit id o).walker := by
    unfold State.vacatedBySplit
    split
    · exact x.endHeld_sameChain id
    · exact .refl _
  have derived (x : State) : x.walker.SameChain
      ((((x.deriveCore .a).deriveCore .b).daylightAcross .a ab.mode).daylightAcross .b ab.mode).walker :=
    ((((State.deriveCore_keeps x .a).sameChain rfl).trans ((State.deriveCore_keeps _ .b).sameChain rfl)).trans
      ((State.daylightAcross_keeps _ .a _).sameChain rfl)).trans ((State.daylightAcross_keeps _ .b _).sameChain rfl)
  refine .trans ?_ ((State.airUpdate_keeps _).sameChain rfl)
  refine .trans ?_ (vacated _ .b ab.occupancy)
  refine .trans ?_ (vacated _ .a ab.occupancy)
  exact derived (s.updSpace fun p => { p with units := .split _ _ })

theorem State.arrange_sameChain (s : State) (always : Bool) : s.walker.SameChain (s.arrange always).walker := by
  have told (x : State) : x.walker.SameChain x.notifyPartition.walker := .refl _
  unfold State.arrange
  split
  · exact ((s.join_sameChain _ _).trans (told _)).trans ((State.notifyMismatch_keeps _).sameChain rfl)
  · exact (s.split_sameChain _).trans (told _)
  · split
    · exact told s
    · exact .refl _

/-- Of the writes of settings, those of the partition and of presence reach bookings, by the occupancy they change. -/
theorem State.settingWritten_sameChain (s : State) (k : SettingKey) (before : Settings) :
    s.walker.SameChain (s.settingWritten k before).walker := by
  cases k
  case divisible => exact s.arrange_sameChain false
  case presenceHold => exact (s.judgePresence_sameChain .a).trans (State.judgePresence_sameChain _ .b)
  case clearingDelay =>
    refine State.foldl_sameChain _ s fun x id => ?_
    split
    · exact x.setOccupancy_sameChain id .vacant none
    · exact .refl _
  case vacancyConfirm =>
    refine State.foldl_sameChain _ s fun x id => ?_
    split
    · exact x.confirmVacancy_sameChain id
    · exact .refl _
  case firePolarity => exact s.polarityWritten_keeps.sameChain rfl
  case doorAssign => exact (State.returnDoor_keeps ..).sameChain rfl
  case outerEdge => exact (State.returnDoor_keeps ..).sameChain rfl
  case innerEdge => exact (State.returnDoor_keeps ..).sameChain rfl
  case transitTimeout => exact s.transitWritten_keeps.sameChain rfl
  case airPeriod => exact s.airPeriodWritten_keeps.sameChain rfl
  case defaultCap => exact s.defaultCapWritten_keeps.sameChain rfl
  case firePosition => exact (State.firePositionWritten_keeps ..).sameChain rfl
  case strokeTime => exact (State.strokeWritten_keeps ..).sameChain rfl
  case channelCell => exact (State.channelCellWritten_keeps ..).sameChain rfl
  case driverMin => exact (State.driverMinWritten_keeps ..).sameChain rfl
  case blindCell => exact (State.blindCellWritten_keeps ..).sameChain rfl
  case travelUp => exact (State.travelWritten_keeps ..).sameChain rfl
  case travelDown => exact (State.travelWritten_keeps ..).sameChain rfl
  case driveSlots => exact s.driveSlotsWritten_keeps.sameChain rfl
  case retryInterval => exact s.retryWritten_keeps.sameChain rfl
  case supervisionPeriod => exact s.periodWritten_keeps.sameChain rfl
  all_goals exact .refl _

theorem State.restore_sameChain (s : State) (image : Image) :
    s.walker.SameChain (s.restore image).walker := by
  unfold State.restore
  exact State.foldl_sameChain _ (s.withSettings image.working.settings) fun x k => x.settingWritten_sameChain k _

/-- A restore leaves no setting, profile, damper table or calibration record that is not the image's (R191). -/
theorem State.restore_working (s : State) (image : Image) : (s.restore image).working = image.working := by
  have settings (ks : List SettingKey) (x : State) (before : Settings) :
      (ks.foldl (fun s k => s.settingWritten k before) x).working.settings = x.working.settings :=
    (Keeps.foldl _ ks (.refl _ x) fun y k => y.settingWritten_keeps k before).same .settings rfl
  have fields (w : Working) : image.working.settings = w.settings →
      ({ w with
        profiles := image.working.profiles, tables := image.working.tables
        calibrations := image.working.calibrations } : Working) = image.working := by
    intro h
    rw [← h]
  refine fields _ (.symm ?_)
  exact settings _ (s.withSettings image.working.settings) s.working.settings

/-! ## The store's requests (R189 to R192) -/

section
variable {s : State}

theorem State.writing_eq_false (h : s.store.saving = none) : s.writing = false := by simp [State.writing, h]

theorem State.answerSaveSettings_saves (h : s.writing = false) :
    s.answerSaveSettings = accept [] s.beginSave := by simp [State.answerSaveSettings, h]

theorem State.answerRestart_accepted (h : s.writing = false) :
    s.answerRestart = accept [] (s.updLink fun l => { l with restart := .accepted }) := by
  simp [State.answerRestart, h]

theorem State.answerRestoreSettings_restores (h : s.writing = false) {image : Image}
    (hi : s.store.image = some image) : s.answerRestoreSettings = accept [] (s.restore image) := by
  simp [State.answerRestoreSettings, h, hi]

theorem State.answerRestoreSettings_noImage (h : s.writing = false) (hi : s.store.image = none) :
    s.answerRestoreSettings = refuse .wrongState s := by
  simp [State.answerRestoreSettings, h, hi]

theorem State.answerPutSetting_busy (h : s.writing = true) (number inst : Byte) (v : Word32) :
    s.answerPutSetting number inst v = refuse .busy s := if_pos h

theorem State.answerPutProfile_busy (h : s.writing = true) (a : Byte) (r : ProfileRecord) :
    s.answerPutProfile a r = refuse .busy s := if_pos h

theorem State.answerPutDamperTable_busy (h : s.writing = true) (a : Byte) (f : Vector Half 9) :
    s.answerPutDamperTable a f = refuse .busy s := if_pos h

theorem State.answerSaveSettings_busy (h : s.writing = true) : s.answerSaveSettings = refuse .busy s := if_pos h

theorem State.answerRestoreSettings_busy (h : s.writing = true) : s.answerRestoreSettings = refuse .busy s :=
  if_pos h

theorem State.answerRestart_busy (h : s.writing = true) : s.answerRestart = refuse .busy s := if_pos h

end

/-- Settles O20. A restore keeps the chain, the overrides and fire, which no write of a setting touches. -/
theorem storeRequestsAreTakenOrBusy : Obligations.StoreRequestsAreTakenOrBusy := by
  unfold Obligations.StoreRequestsAreTakenOrBusy
  intro tag a b v r f s hs
  refine ⟨fun hw => ?_, fun hw => ?_⟩
  · have idle := State.writing_eq_false hw
    refine ⟨exec_answered hs rfl rfl (State.answerSaveSettings_saves idle) rfl,
      exec_answered hs rfl rfl (State.answerRestart_accepted idle) rfl, fun image hi => ?_,
      fun hi => exec_refused hs rfl rfl (State.answerRestoreSettings_noImage idle hi)⟩
    have kept := s.restore_keeps image
    have chain := s.restore_sameChain image
    have working := s.restore_working image
    have answered := State.answerRestoreSettings_restores idle hi
    obtain ⟨ns, link⟩ := kept.same .link rfl
    generalize s.restore image = t at kept chain working answered link
    refine ⟨_, ns, exec_answered hs rfl rfl answered (by rw [link, Link.handed_requests]), working, ?_,
      kept.same .store rfl, chain.active, kept.same .overrides rfl, kept.same .fire rfl⟩
    exact congrArg (fun l : Link => l.answered 0x09 tag .ok []) link
  · exact ⟨exec_refused hs rfl rfl (State.answerPutSetting_busy hw a b v),
      exec_refused hs rfl rfl (State.answerPutProfile_busy hw a r),
      exec_refused hs rfl rfl (State.answerPutDamperTable_busy hw a f),
      exec_refused hs rfl rfl (State.answerSaveSettings_busy hw),
      exec_refused hs rfl rfl (State.answerRestoreSettings_busy hw),
      exec_refused hs rfl rfl (State.answerRestart_busy hw)⟩

/-! ## The end of a save (R190, R171) -/

/-- The notices of a save that agrees: SAVE_DONE, and the clearing of the store's record behind it. -/
theorem State.saveOk_eq (s : State) (k : Saving) : s.saveOk k = { s with
    store := { image := some k.snapshot, saving := none }
    faults := s.faults.set storeSource { s.faults[storeSource] with state := .clear }
    link := s.link.handed (s.noticeOf .saveDone none none 0 none :: s.clearedNotices storeSource) } :=
  State.withdrawFault_eq _ _

/-- The notices of a save that fails: SAVE_DONE, and the raising of the store's record behind it. -/
theorem State.saveFailed_eq (s : State) : s.saveFailed = { s with
    store := { image := none, saving := none }
    faults := s.faults.set storeSource
      { s.faults[storeSource].report .saveFailed s.clock.minute with state := .active }
    link := s.link.handed [s.noticeOf .saveDone none none 1 none, s.noticeOf .faultRaised none
      (some storeSource.val) (FaultState.active.code + 256 * FaultKind.saveFailed.code) none] } :=
  State.reportPlain_notified _ _ _ _ _

/-- Settles O21. -/
theorem saveEndsWithItsResult : Obligations.SaveEndsWithItsResult := by
  unfold Obligations.SaveEndsWithItsResult
  intro k s hs hk
  have agrees : exec (.saveDone true) s = finish (s.saveOk k) := by
    change finish (match s.store.saving with | none => s | some k => s.saveOk k) = _
    rw [hk]
  refine ⟨fun clear => ?_, fun raised => ?_, fun i hi => ?_⟩
  · have same : s.faults.set storeSource { s.faults[storeSource] with state := .clear } = s.faults :=
      updAt_id s.faults storeSource (fun r => { r with state := .clear }) (by rw [← clear])
    have quiet : s.clearedNotices storeSource = [] := if_neg (not_not.mpr clear)
    rw [agrees, State.saveOk_eq, same, quiet]
    exact finish_handed (ns := [s.noticeOf .saveDone none none 0 none]) hs rfl
  · have told : s.clearedNotices storeSource = [_] := if_pos raised
    rw [agrees, State.saveOk_eq, told]
    exact finish_handed (ns := [s.noticeOf .saveDone none none 0 none, _]) hs rfl
  · have fails : exec i s = finish s.saveFailed := by
      rcases hi with rfl | rfl
      · change finish (match s.store.saving with | none => s | some _ => s.saveFailed) = _
        rw [hk]
      · change finish (if s.store.saving.isSome then s.saveFailed else s) = _
        rw [hk]
        rfl
    have record : s.saveFailed.faults[storeSource] =
        { s.faults[storeSource].report .saveFailed s.clock.minute with state := .active } := by
      rw [State.saveFailed_eq]
      exact Vector.getElem_set_self ..
    refine ⟨_, fails.trans (finish_handed hs (congrArg State.link s.saveFailed_eq)), ?_⟩
    dsimp only
    rw [record]
    refine ⟨by rw [State.saveFailed_eq], by rw [State.saveFailed_eq], rfl, rfl, rfl, fun j hj => ?_, rfl⟩
    rw [State.saveFailed_eq]
    exact updAt_other s.faults (fun r => { r.report .saveFailed s.clock.minute with state := .active }) hj

/-! ## PUT_SETTING (R188) -/

theorem settingKey_outside {number : Nat} (h : number = 0 ∨ 49 < number) (inst : Nat) :
    settingKey number inst = none := by
  unfold settingKey
  split
  case h_50 => rfl
  all_goals omega

section
variable {s : State}

theorem State.answerPutSetting_written (hw : s.store.saving = none) {number inst : Byte} {v : Word32} {k : SettingKey}
    (hk : settingKey number.toNat inst.toNat = some k) {w : Settings} {clamped : Bool}
    (h : s.working.settings.write k v.toNat = some (w, clamped)) :
    s.answerPutSetting number inst v =
      ({ status := if clamped then .clamped else .ok, data := byte4 (w.get k) },
        (s.withSettings w).settingWritten k s.working.settings) := by
  simp [State.answerPutSetting, State.writing_eq_false hw, hk, h]

theorem State.answerPutSetting_refused (hw : s.store.saving = none) {number inst : Byte} {v : Word32} {k : SettingKey}
    (hk : settingKey number.toNat inst.toNat = some k) (h : s.working.settings.write k v.toNat = none) :
    s.answerPutSetting number inst v = refuse .badValue s := by
  simp [State.answerPutSetting, State.writing_eq_false hw, hk, h]

theorem State.answerPutSetting_unknown (hw : s.store.saving = none) {number inst : Byte} (v : Word32)
    (hk : settingKey number.toNat inst.toNat = none) : s.answerPutSetting number inst v = refuse .badValue s := by
  simp [State.answerPutSetting, State.writing_eq_false hw, hk]

end

/-- Settles O22. -/
theorem putSettingStoresTheValue : Obligations.PutSettingStoresTheValue := by
  unfold Obligations.PutSettingStoresTheValue
  intro tag number inst v s hs hw
  refine ⟨fun k hk => ⟨fun w clamped h => ?_, fun h => ?_⟩, fun outside => ?_⟩
  · have kept := (s.withSettings w).settingWritten_keeps k s.working.settings
    have answered := State.answerPutSetting_written hw hk h
    obtain ⟨ns, link⟩ := kept.same .link rfl
    generalize (s.withSettings w).settingWritten k s.working.settings = t at kept answered link
    refine ⟨_, ns, exec_answered hs rfl rfl answered (by rw [link, Link.handed_requests]; rfl), kept.same .settings rfl,
      kept.same .profiles rfl, kept.same .tables rfl, ?_⟩
    exact congrArg (fun l : Link => l.answered 0x06 tag (if clamped then .clamped else .ok) (byte4 (w.get k))) link
  · exact exec_refused hs rfl rfl (State.answerPutSetting_refused hw hk h)
  · have unknown : settingKey number.toNat inst.toNat = none := by
      rcases outside with rfl | large | unknown
      · exact settingKey_outside (.inl rfl) _
      · exact settingKey_outside (.inr large) _
      · exact unknown
    exact exec_refused hs rfl rfl (State.answerPutSetting_unknown hw v unknown)

end Sys2Proof.Machine
end

