-- ==== Sys2Proof/Proofs/SettingWrites.lean ====
section
/-! PROOF. A write to the settings record (R188): how a value is judged, what is read back of it, and which other
settings it moves (R87, R143). -/

namespace Sys2Proof.Machine
open Sys2Proof

/-! ## Codes -/

theorem FirePolarity.code_ofCode {v : Nat} (h : v < 2) : (ofCode v).code = v := by
  match v, h with
  | 0, _ | 1, _ => rfl

theorem CellSetting.code_ofCode {v : Nat} (h : v < 3) : (ofCode v).code = v := by
  match v, h with
  | 0, _ | 1, _ | 2, _ => rfl

theorem BeamEdge.code_ofCode {v : Nat} (h : v < 3) : (ofCode v).code = v := by
  match v, h with
  | 0, _ | 1, _ | 2, _ => rfl

theorem DetectorEdge.code_ofCode {v : Nat} (h : v < 3) : (ofCode v).code = v := by
  match v, h with
  | 0, _ | 1, _ | 2, _ => rfl

theorem ChannelRole.code_ofCode {v : Nat} (h : v < 4) : (ofCode v).code = v := by
  match v, h with
  | 0, _ | 1, _ | 2, _ | 3, _ => rfl

theorem BlindSide.code_ofCode {v : Nat} (h : v < 2) : (ofCode v).code = v := by
  match v, h with
  | 0, _ | 1, _ => rfl

/-! ## How a value is judged (R182, R197) -/

/-- The rule stores a value within one of the ranges as written, and refuses any other. -/
def SettingRule.Names (r : SettingRule) (ranges : List (Nat × Nat)) : Prop :=
  ∀ v, (r.judge v = some (v, false) ∧ ∃ e ∈ ranges, e.1 ≤ v ∧ v ≤ e.2) ∨
    (r.judge v = none ∧ ¬ ∃ e ∈ ranges, e.1 ≤ v ∧ v ≤ e.2)

theorem SettingRule.codes_names (n : Nat) : (SettingRule.codes (n + 1)).Names [(0, n)] := by
  intro v
  by_cases h : v < n + 1
  · exact .inl ⟨if_pos h, (0, n), by simp, Nat.zero_le v, Nat.le_of_lt_succ h⟩
  · exact .inr ⟨if_neg h, by simpa using h⟩

theorem SettingRule.oneOf_names (l : List Nat) : (SettingRule.oneOf l).Names (l.map fun x => (x, x)) := by
  intro v
  have among : (∃ e ∈ l.map fun x => (x, x), e.1 ≤ v ∧ v ≤ e.2) ↔ v ∈ l := by
    simp only [List.mem_map, exists_exists_and_eq_and, ← Nat.le_antisymm_iff, exists_eq_right]
  rw [among]
  by_cases h : v ∈ l
  · exact .inl ⟨if_pos (List.contains_iff_mem.mpr h), h⟩
  · exact .inr ⟨if_neg (fun k => h (List.contains_iff_mem.mp k)), h⟩

theorem SettingRule.judge_range {lo hi : Nat} (h : lo ≤ hi) (v : Nat) : (SettingRule.range lo hi).judge v =
    some (max lo (min hi v), decide (max lo (min hi v) ≠ v)) := by
  simp only [SettingRule.judge, clampNat_eq_max h]

theorem SettingRule.judge_offOr {lo hi : Nat} (h : lo ≤ hi) (v : Nat) : (SettingRule.offOr lo hi).judge v =
    let x := if v = 0 then 0 else max lo (min hi v)
    some (x, decide (x ≠ v)) := by
  simp only [SettingRule.judge, clampNat_eq_max h]
  split
  · next zero => simp [zero]
  · rfl

/-- A setting that names its values stores a listed value as written, and refuses any other. -/
theorem Settings.rule_named (w : Settings) {k : SettingKey} (h : k.named = true) : (w.rule k).Names (w.listed k) := by
  cases k
  case divisible | firePolarity | blindSide => exact SettingRule.codes_names 1
  case doorAssign | outerEdge | innerEdge | detectorAssign | detectorEdge | channelCell | blindCell =>
    exact SettingRule.codes_names 2
  case channelRole => exact SettingRule.codes_names 3
  case firePosition => exact SettingRule.oneOf_names [0, 1000]
  case windowFraction => exact SettingRule.oneOf_names [25, 50, 75, 100]
  all_goals cases h

/-- A quantity other than the supervision period has one range. -/
theorem Settings.rule_quantity (w : Settings) {k : SettingKey} (h : k.named = false) (hp : k ≠ .supervisionPeriod) :
    ∃ lo hi, w.listed k = [(lo, hi)] ∧ w.rule k = .range lo hi ∧ lo ≤ hi := by
  cases k
  case supervisionPeriod => exact absurd rfl hp
  case qmin c => exact ⟨0, w.qmax.get c, rfl, rfl, Nat.zero_le _⟩
  case divisible | firePolarity | doorAssign | outerEdge | innerEdge | detectorAssign | detectorEdge | firePosition
      | channelCell | channelRole | blindCell | blindSide | windowFraction => cases h
  all_goals exact ⟨_, _, rfl, rfl, by decide⟩

/-- CLAMPED says that the value stored is not the value written. -/
theorem Settings.judge_clamped {w : Settings} {k : SettingKey} {v x : Nat} {c : Bool}
    (h : (w.rule k).judge v = some (x, c)) : c = decide (x ≠ v) := by
  cases hn : k.named with
  | true =>
    rcases w.rule_named hn v with ⟨stored, _⟩ | ⟨refused, _⟩
    · cases stored.symm.trans h
      exact (decide_eq_false (not_not.mpr rfl)).symm
    · cases refused.symm.trans h
  | false =>
    by_cases hp : k = .supervisionPeriod
    · subst hp
      have judged := (SettingRule.judge_offOr (by decide : 10 ≤ 600) v).symm.trans h
      cases judged
      rfl
    · obtain ⟨lo, hi, _, rule, le⟩ := w.rule_quantity hn hp
      rw [rule, SettingRule.judge_range le] at h
      cases h
      rfl

/-- What is stored is listed. -/
theorem Settings.judge_listed {w : Settings} {k : SettingKey} {v x : Nat} {c : Bool}
    (h : (w.rule k).judge v = some (x, c)) : w.lists k x := by
  cases hn : k.named with
  | true =>
    rcases w.rule_named hn v with ⟨stored, listed⟩ | ⟨refused, _⟩
    · cases stored.symm.trans h
      exact listed
    · cases refused.symm.trans h
  | false =>
    by_cases hp : k = .supervisionPeriod
    · subst hp
      have judged := (SettingRule.judge_offOr (by decide : 10 ≤ 600) v).symm.trans h
      cases judged
      by_cases zero : v = 0
      · exact ⟨(0, 0), by simp [Settings.listed], by simp [zero]⟩
      · exact ⟨(10, 600), by simp [Settings.listed], by simp only [if_neg zero]; omega⟩
    · obtain ⟨lo, hi, listed, rule, le⟩ := w.rule_quantity hn hp
      rw [rule, SettingRule.judge_range le] at h
      cases h
      exact ⟨(lo, hi), by simp [listed], by dsimp only; omega⟩

/-! ## Reading what was put -/

theorem Settings.lists_codes {n v : Nat} (h : ∃ r ∈ [(0, n)], r.1 ≤ v ∧ v ≤ r.2) : v < n + 1 := by
  obtain ⟨r, hr, _, le⟩ := h
  rw [List.mem_singleton.mp hr] at le
  omega

/-- A listed value is read back as it was put. -/
theorem Settings.get_put_self {w : Settings} {k : SettingKey} {v : Nat} (h : w.lists k v) : (w.put v k).get k = v := by
  have coded {α : Type} {n : Nat} (p : Vector α n) {i : Fin n} {x : α} (code : α → Nat) (hx : code x = v) :
      code (p.set i x)[i] = v := (congrArg code (updAt_self p i fun _ => x)).trans hx
  cases k
  case divisible =>
    have code : v < 2 := Settings.lists_codes h
    simp only [Settings.get, Settings.put, decide_eq_true_eq]
    split <;> omega
  case firePolarity => exact FirePolarity.code_ofCode (Settings.lists_codes h)
  case doorAssign | detectorAssign | channelCell | blindCell =>
    exact coded _ CellSetting.code (CellSetting.code_ofCode (Settings.lists_codes h))
  case outerEdge | innerEdge => exact coded _ BeamEdge.code (BeamEdge.code_ofCode (Settings.lists_codes h))
  case detectorEdge => exact coded _ DetectorEdge.code (DetectorEdge.code_ofCode (Settings.lists_codes h))
  case channelRole => exact coded _ ChannelRole.code (ChannelRole.code_ofCode (Settings.lists_codes h))
  case blindSide => exact coded _ BlindSide.code (BlindSide.code_ofCode (Settings.lists_codes h))
  case area | qmax | qmin | firePosition | strokeTime | valveFallback | co2Span => exact PerCell.get_set_self ..
  case beamDebounce | driverMin | travelUp | travelDown => exact coded _ id rfl
  all_goals rfl

/-- The put of a setting leaves the others: another field, or another cell or channel of the same. -/
theorem Settings.get_put_of_ne {k k' : SettingKey} (h : k' ≠ k) (w : Settings) (v : Nat) :
    (w.put v k).get k' = w.get k' := by
  have cell {α : Type} (p : PerCell α) (x : α) {c d : Cell} {key : Cell → SettingKey} (hk : key d ≠ key c) :
      (p.set c x).get d = p.get d := PerCell.get_set_other p x fun e => hk (e ▸ rfl)
  have entry {α : Type} {n : Nat} (p : Vector α n) (x : α) {i j : Fin n} {key : Fin n → SettingKey}
      (hk : key j ≠ key i) : (p.set i x)[j] = p[j] := updAt_other p (fun _ => x) fun e => hk (e ▸ rfl)
  cases k
  case area => cases k' with | area => exact cell _ _ h | _ => rfl
  case qmax => cases k' with | qmax => exact cell _ _ h | _ => rfl
  case qmin => cases k' with | qmin => exact cell _ _ h | _ => rfl
  case firePosition => cases k' with | firePosition => exact cell _ _ h | _ => rfl
  case strokeTime => cases k' with | strokeTime => exact cell _ _ h | _ => rfl
  case valveFallback => cases k' with | valveFallback => exact cell _ _ h | _ => rfl
  case co2Span => cases k' with | co2Span => exact cell _ _ h | _ => rfl
  case beamDebounce => cases k' with | beamDebounce => exact entry _ _ h | _ => rfl
  case driverMin => cases k' with | driverMin => exact entry _ _ h | _ => rfl
  case travelUp => cases k' with | travelUp => exact entry _ _ h | _ => rfl
  case travelDown => cases k' with | travelDown => exact entry _ _ h | _ => rfl
  case doorAssign => cases k' with | doorAssign => exact congrArg CellSetting.code (entry _ _ h) | _ => rfl
  case outerEdge => cases k' with | outerEdge => exact congrArg BeamEdge.code (entry _ _ h) | _ => rfl
  case innerEdge => cases k' with | innerEdge => exact congrArg BeamEdge.code (entry _ _ h) | _ => rfl
  case detectorAssign => cases k' with | detectorAssign => exact congrArg CellSetting.code (entry _ _ h) | _ => rfl
  case detectorEdge => cases k' with | detectorEdge => exact congrArg DetectorEdge.code (entry _ _ h) | _ => rfl
  case channelCell => cases k' with | channelCell => exact congrArg CellSetting.code (entry _ _ h) | _ => rfl
  case channelRole => cases k' with | channelRole => exact congrArg ChannelRole.code (entry _ _ h) | _ => rfl
  case blindCell => cases k' with | blindCell => exact congrArg CellSetting.code (entry _ _ h) | _ => rfl
  case blindSide => cases k' with | blindSide => exact congrArg BlindSide.code (entry _ _ h) | _ => rfl
  all_goals cases k' <;> first | rfl | exact absurd rfl h

/-! ## What a write does to others, and to itself beside them (R87, R143) -/

theorem Settings.couple_uncoupled {k : SettingKey} (hq : ∀ c, k ≠ .qmax c) (hr : k ≠ .runThreshold)
    (hs : k ≠ .stallThreshold) (w : Settings) : w.couple k = (w, false) := by
  cases k
  case qmax c => exact absurd rfl (hq c)
  case runThreshold => exact absurd rfl hr
  case stallThreshold => exact absurd rfl hs
  all_goals rfl

theorem SettingKey.uncoupled_of_named {k : SettingKey} (h : k.named = true) :
    (∀ c, k ≠ .qmax c) ∧ k ≠ .runThreshold ∧ k ≠ .stallThreshold := by
  refine ⟨?_, ?_, ?_⟩
  · rintro c rfl; cases h
  · rintro rfl; cases h
  · rintro rfl; cases h

theorem Settings.couple_qmax (w : Settings) (c : Cell) : w.couple (.qmax c) =
    if w.get (.qmax c) < w.get (.qmin c) then (w.put (w.get (.qmax c)) (.qmin c), true) else (w, false) := rfl

theorem Settings.couple_runThreshold (w : Settings) : w.couple .runThreshold =
    if w.stallThreshold ≤ w.runThreshold then (w.put (w.stallThreshold - 50) .runThreshold, true)
    else (w, false) := rfl

theorem Settings.couple_stallThreshold (w : Settings) : w.couple .stallThreshold =
    if w.stallThreshold ≤ w.runThreshold then (w.put (w.runThreshold + 50) .stallThreshold, true)
    else (w, false) := rfl

/-- No write reaches beyond the setting written and the Qmin beside a Qmax. -/
theorem Settings.get_couple_of_ne {k k' : SettingKey} (h : k' ≠ k) (hq : ∀ c, k = .qmax c → k' ≠ .qmin c)
    (w : Settings) : (w.couple k).1.get k' = w.get k' := by
  by_cases uncoupled : (∀ c, k ≠ .qmax c) ∧ k ≠ .runThreshold ∧ k ≠ .stallThreshold
  · rw [Settings.couple_uncoupled uncoupled.1 uncoupled.2.1 uncoupled.2.2]
  · cases k
    case qmax c =>
      rw [Settings.couple_qmax]
      split
      · exact Settings.get_put_of_ne (hq c rfl) ..
      · rfl
    case runThreshold =>
      rw [Settings.couple_runThreshold]
      split
      · exact Settings.get_put_of_ne h ..
      · rfl
    case stallThreshold =>
      rw [Settings.couple_stallThreshold]
      split
      · exact Settings.get_put_of_ne h ..
      · rfl
    all_goals simp at uncoupled

/-! ## A write, from the value judged to the record after it -/

/-- A write that stores `x` for the value written, `beside` telling that it moved a value beside it. -/
structure Settings.Wrote (w : Settings) (k : SettingKey) (v x : Nat) (beside : Bool) (w' : Settings) : Prop where
  judged : (w.rule k).judge v = some (x, decide (x ≠ v))
  coupled : (w.put x k).couple k = (w', beside)

theorem Settings.write_wrote {w w' : Settings} {k : SettingKey} {v : Nat} {clamped : Bool}
    (h : w.write k v = some (w', clamped)) :
    ∃ x beside, w.Wrote k v x beside w' ∧ (clamped = true ↔ x ≠ v ∨ beside = true) := by
  unfold Settings.write at h
  split at h
  · cases h
  · next x c judged =>
    cases h
    have told := Settings.judge_clamped judged
    subst told
    exact ⟨x, ((w.put x k).couple k).2, ⟨judged, rfl⟩, by simp⟩

theorem Settings.write_eq_none (w : Settings) (k : SettingKey) (v : Nat) :
    w.write k v = none ↔ (w.rule k).judge v = none := by
  unfold Settings.write
  split
  · next judged => simp [judged]
  · next judged => simp [judged]

namespace Settings.Wrote
variable {w w' : Settings} {k : SettingKey} {v x : Nat} {beside : Bool}

theorem lists (h : w.Wrote k v x beside w') : w.lists k x := Settings.judge_listed h.judged

theorem get_put (h : w.Wrote k v x beside w') : (w.put x k).get k = x := Settings.get_put_self h.lists

theorem other (h : w.Wrote k v x beside w') {k' : SettingKey} (hk : k' ≠ k) (hq : ∀ c, k = .qmax c → k' ≠ .qmin c) :
    w'.get k' = w.get k' := by
  have after := Settings.get_couple_of_ne hk hq (w.put x k)
  rw [h.coupled] at after
  exact after.trans (Settings.get_put_of_ne hk w x)

theorem named (h : w.Wrote k v x beside w') (hn : k.named = true) : x = v := by
  rcases w.rule_named hn v with ⟨stored, _⟩ | ⟨refused, _⟩
  · exact (Prod.mk.inj (Option.some.inj (h.judged.symm.trans stored))).1
  · cases refused.symm.trans h.judged

theorem ranged (h : w.Wrote k v x beside w') {lo hi : Nat} (listed : w.listed k = [(lo, hi)])
    (hn : k.named = false) : x = max lo (min hi v) := by
  have hp : k ≠ .supervisionPeriod := by
    rintro rfl
    cases listed
  obtain ⟨lo', hi', listed', rule, le⟩ := w.rule_quantity hn hp
  have judged := h.judged
  rw [rule, SettingRule.judge_range le] at judged
  cases listed'.symm.trans listed
  cases judged
  rfl

theorem period (h : w.Wrote .supervisionPeriod v x beside w') : x = if v = 0 then 0 else max 10 (min 600 v) := by
  cases (SettingRule.judge_offOr (by decide : 10 ≤ 600) v).symm.trans h.judged
  rfl

theorem uncoupled (h : w.Wrote k v x beside w') (hq : ∀ c, k ≠ .qmax c) (hr : k ≠ .runThreshold)
    (hs : k ≠ .stallThreshold) : w' = w.put x k ∧ beside = false := by
  cases (Settings.couple_uncoupled hq hr hs (w.put x k)).symm.trans h.coupled
  exact ⟨rfl, rfl⟩

/-- A Qmax is stored as judged, and takes a greater Qmin down with it (R87). -/
theorem qmax {c : Cell} (h : w.Wrote (.qmax c) v x beside w') :
    w'.get (.qmax c) = x ∧ w'.get (.qmin c) = min (w.get (.qmin c)) x ∧
      (beside = true ↔ w'.get (.qmin c) ≠ w.get (.qmin c)) := by
  have own := h.get_put
  have qmin : (w.put x (.qmax c)).get (.qmin c) = w.get (.qmin c) := Settings.get_put_of_ne (by simp) w x
  have coupled := h.coupled
  rw [Settings.couple_qmax, own, qmin] at coupled
  split at coupled
  · cases coupled
    have taken : ((w.put x (.qmax c)).put x (.qmin c)).get (.qmin c) = x := PerCell.get_set_self ..
    refine ⟨(Settings.get_put_of_ne (by simp) _ x).trans own, ?_, ?_⟩
    · rw [taken]; omega
    · rw [taken]; exact iff_of_true rfl (by omega)
  · cases coupled
    refine ⟨own, ?_, ?_⟩
    · rw [qmin]; omega
    · rw [qmin]; exact iff_of_false (by decide) (by simp)

/-- A run threshold stays 50 below the stall threshold (R143). -/
theorem runThreshold (h : w.Wrote .runThreshold v x beside w') :
    w'.get .runThreshold = (if w.stallThreshold ≤ x then w.stallThreshold - 50 else x) ∧
      (beside = true ↔ w.stallThreshold ≤ x) := by
  have coupled : (if w.stallThreshold ≤ x then
      ((w.put x .runThreshold).put (w.stallThreshold - 50) .runThreshold, true)
    else (w.put x .runThreshold, false)) = (w', beside) := h.coupled
  split at coupled <;> cases coupled
  · next le => exact ⟨(if_pos le).symm, iff_of_true rfl le⟩
  · next gt => exact ⟨(if_neg gt).symm, iff_of_false (by decide) gt⟩

/-- A stall threshold stays 50 above the run threshold (R143). -/
theorem stallThreshold (h : w.Wrote .stallThreshold v x beside w') :
    w'.get .stallThreshold = (if x ≤ w.runThreshold then w.runThreshold + 50 else x) ∧
      (beside = true ↔ x ≤ w.runThreshold) := by
  have coupled : (if x ≤ w.runThreshold then
      ((w.put x .stallThreshold).put (w.runThreshold + 50) .stallThreshold, true)
    else (w.put x .stallThreshold, false)) = (w', beside) := h.coupled
  split at coupled <;> cases coupled
  · next le => exact ⟨(if_pos le).symm, iff_of_true rfl le⟩
  · next gt => exact ⟨(if_neg gt).symm, iff_of_false (by decide) gt⟩

/-- But for the two thresholds, a setting is stored as judged, and a Qmin is the one value moved beside it. -/
theorem self (h : w.Wrote k v x beside w') (hr : k ≠ .runThreshold) (hs : k ≠ .stallThreshold) :
    w'.get k = x ∧ (beside = true ↔ ∃ c, k = .qmax c ∧ w'.get (.qmin c) ≠ w.get (.qmin c)) := by
  by_cases hq : ∃ c, k = .qmax c
  · obtain ⟨c, rfl⟩ := hq
    obtain ⟨own, _, moved⟩ := h.qmax
    exact ⟨own, by simpa using moved⟩
  · have hq : ∀ c, k ≠ .qmax c := fun c e => hq ⟨c, e⟩
    obtain ⟨rfl, rfl⟩ := h.uncoupled hq hr hs
    exact ⟨h.get_put, by simp [hq]⟩

end Settings.Wrote

/-! ## Listed values stay listed -/

/-- The values listed for a setting change with its cell's Qmax alone. -/
theorem Settings.listed_congr {w w' : Settings} {k : SettingKey}
    (h : ∀ c, k = .qmin c → w'.get (.qmax c) = w.get (.qmax c)) : w'.listed k = w.listed k := by
  cases k
  case qmin c => exact congrArg (fun q => [(0, q)]) (h c rfl)
  all_goals rfl

theorem Settings.lists_between {w : Settings} {k : SettingKey} {lo hi v : Nat} (listed : w.listed k = [(lo, hi)]) :
    w.lists k v ↔ lo ≤ v ∧ v ≤ hi := by
  simp [listed]

theorem Settings.Wrote.listed {w w' : Settings} {k : SettingKey} {v x : Nat} {beside : Bool}
    (h : w.Wrote k v x beside w') (hw : w.Listed) : w'.Listed := by
  intro k'
  by_cases hk : k' = k
  · subst hk
    have same : w'.listed k' = w.listed k' :=
      Settings.listed_congr fun c e => h.other (by simp [e]) fun d _ => by simp
    have stored := h.lists
    by_cases hr : k' = .runThreshold
    · subst hr
      have stall := (Settings.lists_between (w := w) (k := .stallThreshold) rfl).mp (hw .stallThreshold)
      have stall : 500 ≤ w.stallThreshold ∧ w.stallThreshold ≤ 5000 := stall
      have near := (Settings.lists_between (w := w) (k := .runThreshold) rfl).mp stored
      rw [h.runThreshold.1]
      refine (Settings.lists_between (w := w') (k := .runThreshold) rfl).mpr ?_
      split <;> omega
    by_cases hs : k' = .stallThreshold
    · subst hs
      have run := (Settings.lists_between (w := w) (k := .runThreshold) rfl).mp (hw .runThreshold)
      have run : 50 ≤ w.runThreshold ∧ w.runThreshold ≤ 1000 := run
      have near := (Settings.lists_between (w := w) (k := .stallThreshold) rfl).mp stored
      rw [h.stallThreshold.1]
      refine (Settings.lists_between (w := w') (k := .stallThreshold) rfl).mpr ?_
      split <;> omega
    rw [(h.self hr hs).1, Settings.lists, same]
    exact stored
  · by_cases hq : ∃ c, k = .qmax c ∧ k' = .qmin c
    · obtain ⟨c, rfl, rfl⟩ := hq
      obtain ⟨own, qmin, _⟩ := h.qmax
      have upper : w'.qmax.get c = x := own
      refine (Settings.lists_between (w := w') (k := .qmin c) rfl).mpr ⟨Nat.zero_le _, ?_⟩
      rw [qmin, upper]
      exact Nat.min_le_right ..
    · have apart : ∀ c, k = .qmax c → k' ≠ .qmin c := fun c e e' => hq ⟨c, e, e'⟩
      have same : w'.listed k' = w.listed k' :=
        Settings.listed_congr fun c e => h.other (fun e' => apart c e'.symm e) fun d _ => by simp
      rw [h.other hk apart, Settings.lists, same]
      exact hw k'

/-- The factory defaults are listed (the table of section 10.5). -/
theorem Settings.factory_listed : Settings.factory.Listed := by
  intro k
  cases k
  case area c | qmax c | qmin c | firePosition c | strokeTime c | valveFallback c | co2Span c => cases c <;> decide
  case doorAssign i | outerEdge i | innerEdge i | beamDebounce i | blindCell i | blindSide i | travelUp i
      | travelDown i =>
    revert i; decide
  case detectorAssign i | detectorEdge i => revert i; decide
  case channelCell i | channelRole i | driverMin i => revert i; decide
  all_goals decide

/-- Settles O23. -/
theorem settingWritesTouchOneSetting : Obligations.SettingWritesTouchOneSetting := by
  unfold Obligations.SettingWritesTouchOneSetting
  refine ⟨Settings.factory_listed, fun w k v => ⟨fun w' clamped h => ?_, ?_⟩⟩
  · obtain ⟨x, beside, wrote, told⟩ := Settings.write_wrote h
    refine ⟨fun hn => ?_, fun low high listed hn hr hs => ?_, ?_, ?_, ?_, ?_, fun hr hs => ?_,
      fun k' hk hq => wrote.other hk hq, wrote.listed⟩
    · obtain ⟨hq, hr, hs⟩ := SettingKey.uncoupled_of_named hn
      have asWritten := wrote.named hn
      rw [(wrote.self hr hs).1]
      refine ⟨asWritten, Bool.eq_false_iff.mpr fun e => ?_⟩
      rcases told.mp e with differs | moved
      · exact differs asWritten
      · exact absurd moved (by simp [(wrote.uncoupled hq hr hs).2])
    · rw [(wrote.self hr hs).1]
      exact wrote.ranged listed hn
    · rintro rfl
      rw [(wrote.self (by decide) (by decide)).1]
      exact wrote.period
    · intro near e
      subst e
      have stored : x = near := wrote.ranged rfl rfl
      obtain ⟨own, moved⟩ := wrote.runThreshold
      rw [← stored]
      exact ⟨own, by rw [told, moved]⟩
    · intro near e
      subst e
      have stored : x = near := wrote.ranged rfl rfl
      obtain ⟨own, moved⟩ := wrote.stallThreshold
      rw [← stored]
      exact ⟨own, by rw [told, moved]⟩
    · rintro c rfl
      obtain ⟨own, qmin, _⟩ := wrote.qmax
      rw [own, qmin]
    · obtain ⟨own, moved⟩ := wrote.self hr hs
      rw [own, told, moved]
  · rw [Settings.write_eq_none]
    cases hn : k.named with
    | true =>
      rcases w.rule_named hn v with ⟨stored, listed⟩ | ⟨refused, unlisted⟩
      · exact iff_of_false (by rw [stored]; simp) fun h => h.2 listed
      · exact iff_of_true refused ⟨rfl, unlisted⟩
    | false =>
      refine iff_of_false (fun refused => ?_) (by simp)
      by_cases hp : k = .supervisionPeriod
      · subst hp
        cases (SettingRule.judge_offOr (by decide : 10 ≤ 600) v).symm.trans refused
      · obtain ⟨lo, hi, _, rule, le⟩ := w.rule_quantity hn hp
        rw [rule, SettingRule.judge_range le] at refused
        cases refused

end Sys2Proof.Machine
end

