-- ==== Sys2Proof/Proofs/Resets.lean ====
section
/-! PROOF. The resets (R192 to R194): every block starts afresh, and after a warm reset the walker is placed by the
clock that was kept (R52). -/

namespace Sys2Proof.Machine
open Sys2Proof

/-! ## The state that every reset begins from (R193) -/

/-- The settings in force after a reset: those of the image, or the factory defaults. -/
def Store.workingAfterReset (x : Store) : Working :=
  match x.afterReset with
  | some image => image.working
  | none => Working.factory

/-- The state at a reset before its notices, with the clock as the kind of reset leaves it. -/
def State.afresh (s : State) (cause : ResetCause) (clock : WeekClock) : State :=
  State.initial s.store.workingAfterReset s.store.afterReset cause clock s.pins s.pending

/-- The SETTINGS_LOST of a reset without an image (R194). -/
def State.lostNotices (s : State) : List Notice :=
  if s.store.image = none then [s.noticeOf .settingsLost none none noValue none] else []

/-- The CLOCK_DEGRADED of a reset that kept the degraded flag (R194). -/
def State.degradedNotices (s : State) : List Notice :=
  if s.clock.degraded then [s.noticeOf .clockDegraded none (some clockSource.val)
    (FaultState.active.code + 256 * FaultKind.clockDegraded.code) none] else []

/-- The state of a reset once its own notices are handed over, before the walker is placed. -/
def State.resetTold (s : State) : State := { s with
  faults := if s.clock.degraded then s.faults.set clockSource
    { s.faults[clockSource].report .clockDegraded s.clock.minute with state := .active } else s.faults
  link := s.link.handed (s.lostNotices ++ s.degradedNotices) }

theorem State.reportLost_eq (s : State) : s.reportLost = { s with link := s.link.handed s.lostNotices } := by
  unfold State.reportLost State.lostNotices
  cases s.store.image <;> rfl

theorem State.reportDegraded_eq (s : State) : s.reportDegraded = { s with
    faults := if s.clock.degraded then s.faults.set clockSource
      { s.faults[clockSource].report .clockDegraded s.clock.minute with state := .active } else s.faults
    link := s.link.handed s.degradedNotices } := by
  unfold State.reportDegraded State.degradedNotices
  split
  · exact State.reportPlain_notified ..
  · rfl

theorem State.resetBy_eq (s : State) (cause : ResetCause) : s.resetBy cause =
    (s.afresh cause (if cause.powersOn then WeekClock.fresh else s.clock)).resetTold.placeWalker := by
  have told (x : State) : x.reportLost.reportDegraded = x.resetTold := by
    rw [State.reportLost_eq, State.reportDegraded_eq, State.resetTold, Link.handed_append]
    rfl
  rw [← told]
  rfl

/-- A reset leaves nothing to send or take: READY is on its way and no request waits. -/
theorem finish_resetBy (s : State) (cause : ResetCause) : finish (s.resetBy cause) = .next (s.resetBy cause) := by
  obtain ⟨ns, placed⟩ := (State.placeWalker_keeps
    (s.afresh cause (if cause.powersOn then WeekClock.fresh else s.clock)).resetTold).same .link rfl
  have link : (s.resetBy cause).link = _ := (congrArg State.link (s.resetBy_eq cause)).trans placed
  refine finish_settled ⟨fun idle => ?_, .inl ?_⟩
  · rw [link, Link.handed_tx, State.resetTold, Link.handed_tx] at idle
    cases idle
  · rw [link, Link.handed_requests, State.resetTold, Link.handed_requests]
    rfl

theorem Store.workingAfterReset_image {x : Store} {m : Image} (h : x.afterReset = some m) :
    x.workingAfterReset = m.working := by rw [Store.workingAfterReset, h]

theorem Store.workingAfterReset_none {x : Store} (h : x.afterReset = none) :
    x.workingAfterReset = Working.factory := by rw [Store.workingAfterReset, h]

theorem Store.afterReset_saving {x : Store} (h : x.saving.isSome = true) : x.afterReset = none := if_pos h

theorem Store.afterReset_idle {x : Store} (h : x.saving = none) : x.afterReset = x.image := by
  simp [Store.afterReset, h]

theorem Door.freshAll_get (w : Settings) (p : Pins) (d : Fin 4) :
    (Door.freshAll w p)[d] = Door.fresh p.beams[d] w.beamDebounce[d] :=
  match d with
  | 0 | 1 | 2 | 3 => rfl

theorem Blinds.fresh_group (p : Pins) (g : Fin 4) : (Blinds.fresh p).groups[g] = Group.fresh p.currents[g] :=
  match g with
  | 0 | 1 | 2 | 3 => rfl

theorem Scanner.fresh_channel (p : Pins) (c : Fin 8) : (Scanner.fresh p).channels[c] = Sensor.fresh p.levels[c] :=
  match c with
  | 0 | 1 | 2 | 3 | 4 | 5 | 6 | 7 => rfl

/-- The pins outlast a reset. -/
theorem State.afresh_pins (s : State) (cause : ResetCause) (clock : WeekClock) : (s.afresh cause clock).pins = s.pins :=
  rfl

/-! ## A reset of kind POWER_ON -/

theorem exec_power {cause : ResetCause} {i : Instr}
    (h : (cause = .powerOn ∧ i = .powerOn) ∨ (cause = .brownOut ∧ i = .brownOut)) (s : State) :
    exec i s = .next { s.afresh cause WeekClock.fresh with
      link := (Link.fresh cause WeekClock.fresh).handed (s.afresh cause WeekClock.fresh).lostNotices } := by
  have reset : exec i s = finish (s.resetBy cause) := by rcases h with ⟨rfl, rfl⟩ | ⟨rfl, rfl⟩ <;> rfl
  have power : cause.powersOn = true := by rcases h with ⟨rfl, rfl⟩ | ⟨rfl, rfl⟩ <;> rfl
  have told : (s.afresh cause WeekClock.fresh).lostNotices ++ (s.afresh cause WeekClock.fresh).degradedNotices =
      (s.afresh cause WeekClock.fresh).lostNotices := List.append_nil _
  rw [reset, finish_resetBy, State.resetBy_eq, if_pos power, ← told]
  rfl

/-- Settles O24. -/
theorem powerResetsStartAfresh : Obligations.PowerResetsStartAfresh := by
  unfold Obligations.PowerResetsStartAfresh
  intro s cause i h
  refine ⟨_, s.store.afterReset, exec_power h s, Store.afterReset_saving, Store.afterReset_idle, rfl,
    fun m hm => Store.workingAfterReset_image hm, Store.workingAfterReset_none, rfl, rfl, rfl, rfl, rfl, rfl, rfl, rfl,
    rfl, ?_, rfl, fun d => ?_, rfl, fun c => ?_, rfl, rfl, rfl, rfl, rfl, rfl, rfl, rfl, rfl, rfl, fun g => ?_, rfl,
    fun c => ?_, rfl, rfl, rfl, rfl, ?_⟩
  · dsimp only [State.afresh, State.initial, Walker.fresh]
    cases s.store.afterReset.bind (·.chain) <;> rfl
  · dsimp only [State.afresh, State.initial]
    rw [Door.freshAll_get]
    exact ⟨rfl, rfl, rfl, rfl, rfl, rfl⟩
  · cases c <;> rfl
  · dsimp only [State.afresh, State.initial]
    rw [Blinds.fresh_group]
    exact ⟨rfl, rfl, rfl⟩
  · dsimp only [State.afresh, State.initial]
    rw [Scanner.fresh_channel]
    exact ⟨rfl, rfl⟩
  · dsimp only [State.lostNotices, State.afresh, State.initial]
    cases s.store.afterReset <;> rfl

end Sys2Proof.Machine
end

