-- ==== Sys2Proof/Proofs/WarmResets.lean ====
section
/-! PROOF. The warm resets (R193, R194): the clock is kept, and a walker with a chain is placed by it as for a large
clock set (R50, R52), with nobody in the rooms and no booking in any slot. -/

namespace Sys2Proof.Machine
open Sys2Proof

/-! ## What every arming pass keeps -/

/-- What handling an entry and moving the cursor keep, a pass keeps, while no AT_CHAIN_END switch is queued. -/
theorem State.armingPass_induction {P : State → Prop} {afterSet : Bool}
    (handled : ∀ {s s1 : State} {k : Nat} {e : Entry}, P s → s.handleEntry afterSet k e = some s1 → P s1)
    (moved : ∀ {s : State} (k : Nat), P s → s.walker.queuedSwitch ≠ some .atChainEnd → P (s.moveCursor k))
    (put : ∀ {s : State} (state : WalkerState), P s → P (s.updWalker fun w => { w with state := state }))
    (n : Nat) {s : State} (hq : s.walker.queuedSwitch ≠ some .atChainEnd) (h : P s) :
    P (State.armingPass afterSet n s) := by
  induction n generalizing s with
  | zero => exact h
  | succ n ih =>
    cases hc : s.walker.cursor with
    | none => simp only [State.armingPass, hc]; exact h
    | some k =>
      cases he : s.walker.active.entries[k]? with
      | none => simp only [State.armingPass, hc, he]; exact h
      | some e =>
        cases hd : s.dueEntry e with
        | false => rw [State.armingPass_notDue hc he afterSet n hd]; exact put .running h
        | true =>
          cases hh : s.handleEntry afterSet k e with
          | none => rw [State.armingPass_stalls hc he afterSet n hd hh]; exact put .stalled h
          | some s1 =>
            have chain := State.handleEntry_sameChain hh
            have queued : s1.walker.queuedSwitch ≠ some .atChainEnd := chain.queuedSwitch ▸ hq
            have cursor := State.moveCursor_sameChain k queued
            have goesOn := moved k (handled h hh) queued
            have stays : (s1.moveCursor k).walker.queuedSwitch ≠ some .atChainEnd := cursor.queuedSwitch ▸ queued
            rw [State.armingPass_goesOn hc he afterSet n hd hh, State.passOn]
            split
            · exact ih stays goesOn
            · exact ih stays goesOn
            · exact goesOn

/-! ## The cycle clock through a pass -/

theorem State.foldl_cycle {α : Type} {f : State → α → State} (l : List α) (s : State)
    (step : ∀ (x : State) a, (f x a).walker.cycle = x.walker.cycle) : (l.foldl f s).walker.cycle = s.walker.cycle := by
  induction l generalizing s with
  | nil => rfl
  | cons a l ih => exact (ih _).trans (step s a)

theorem State.deriveUnits_cycle (s : State) (ids : List UnitId) :
    (s.deriveUnits ids).walker.cycle = s.walker.cycle :=
  congrArg Walker.cycle ((s.deriveUnits_keeps ids).same .walker rfl)

theorem State.retire_cycle (s : State) (t : Target) (k : Booking) (o : BookingOutcome) (atEnd : Bool) :
    (s.retire t k o atEnd).walker.cycle = s.walker.cycle := by
  obtain ⟨_, walker, _⟩ := s.retire_parts t k o atEnd
  rw [walker, Walker.stopDone_parts]

/-- The bookings that a start meets in CURRENT have left it (R41). -/
def State.freed (s : State) (t : Target) : State :=
  (s.walker.current.meeting t).foldl (fun s old => s.retire old.1 old.2 old.2.displaced false)
    ((s.walker.current.meeting t).foldl
      (fun s old => s.updWalker fun w => { w with current := w.current.drop old.1 }) s)

/-- The booking that starts has taken its slots and is told. -/
def State.entered (s : State) (t : Target) (k : Booking) : State :=
  (s.updWalker fun w => { w with current := w.current.put t k }).notifyBooking .bookingStarted k
    (if k.startedLate then 1 else 0)

theorem State.startBooking_eq (s : State) (t : Target) (k : Booking) (n : Nat) : ∃ ids, s.startBooking t k n =
    ((s.freed t).entered t (k.started n ((s.freed t).occupiedTarget t))).deriveUnits ids := ⟨_, rfl⟩

theorem State.freed_cycle (s : State) (t : Target) : (s.freed t).walker.cycle = s.walker.cycle := by
  have dropped := State.foldl_cycle (s.walker.current.meeting t) s
    (f := fun s old => s.updWalker fun w => { w with current := w.current.drop old.1 }) fun _ _ => rfl
  unfold State.freed
  rw [State.foldl_cycle _ _ (fun x old => State.retire_cycle ..), dropped]

theorem State.startBooking_cycle (s : State) (t : Target) (k : Booking) (n : Nat) :
    (s.startBooking t k n).walker.cycle = s.walker.cycle := by
  obtain ⟨ids, starts⟩ := s.startBooking_eq t k n
  rw [starts, State.deriveUnits_cycle]
  exact s.freed_cycle t

theorem State.handleEntry_cycle {s s1 : State} {afterSet : Bool} {k : Nat} {e : Entry}
    (h : s.handleEntry afterSet k e = some s1) : s1.walker.cycle = s.walker.cycle := by
  rcases State.handleEntry_cases h with rfl | ⟨late, rfl⟩ | rfl
  · rfl
  · rw [State.armEntry_eq]
    split
    · exact State.startBooking_cycle ..
    · exact State.deriveUnits_cycle ..
  · rw [State.missEntry_eq]
    rfl

/-- Below a week's minutes C does not move at a wrap (R34). -/
theorem State.moveCursor_cycle {s : State} (k : Nat) (hq : s.walker.queuedSwitch ≠ some .atChainEnd)
    (h : s.walker.cycle ≤ 10079) : (s.moveCursor k).walker.cycle = s.walker.cycle := by
  unfold State.moveCursor
  split
  · rfl
  · split
    · next wraps =>
      rw [State.updWalker_walker, Walker.settleCycle_wrapped, if_neg (by omega)]
    · rfl

theorem State.armingPass_cycle (afterSet : Bool) (n : Nat) {s : State} {c : Nat} (hc : c ≤ 10079)
    (hq : s.walker.queuedSwitch ≠ some .atChainEnd) (h : s.walker.cycle = c) :
    (State.armingPass afterSet n s).walker.cycle = c :=
  State.armingPass_induction (P := fun s => s.walker.cycle = c) (fun h hh => (State.handleEntry_cycle hh).trans h)
    (fun k h hq => (State.moveCursor_cycle k hq (h ▸ hc)).trans h) (fun _ h => h) n hq h

/-! ## Vacant units and fresh lights through a pass

No derivation makes a difference to lights whose daylight factors are all 1000 already. -/

/-- Every unit is VACANT, and the lighting stands as a reset leaves it. -/
structure State.Unlit (s : State) : Prop where
  vacant : s.everyUnit fun _ u => u.occupancy = .vacant
  lighting : s.lighting = Lighting.fresh

theorem State.Unlit.kept {s t : State} (h : s.Unlit) (k : s.SameOccupancy t) (l : t.lighting = s.lighting) :
    t.Unlit := by
  refine ⟨fun id u hu => ?_, l.trans h.lighting⟩
  have same := k.occupancy id
  rw [hu, Option.map_some] at same
  obtain ⟨v, hv, occupancy⟩ := Option.map_eq_some_iff.mp same.symm
  exact occupancy.symm.trans (h.vacant id v hv)

theorem State.Unlit.foldl {α : Type} {f : State → α → State} (l : List α) {s : State} (h : s.Unlit)
    (step : ∀ (x : State) a, x.Unlit → (f x a).Unlit) : (l.foldl f s).Unlit := by
  induction l generalizing s with
  | nil => exact h
  | cons a l ih => exact ih (step s a h)

theorem State.Unlit.walker {s t : State} (h : s.Unlit) (k : Keeps [.notices, .walker] s t) : t.Unlit :=
  h.kept (.of_units (k.same .units rfl)) (k.same .lighting rfl)

theorem Lighting.fresh_fullDaylight (c : Cell) :
    { Lighting.fresh with cells := Lighting.fresh.cells.upd c fun d => { d with factor := 1000 } } =
      Lighting.fresh := by
  cases c <;> rfl

theorem State.Unlit.fullDaylight {s : State} (h : s.Unlit) (c : Cell) : (s.fullDaylight c).Unlit := by
  refine h.kept (.of_units rfl) ?_
  rw [State.fullDaylight, State.updLighting_lighting, h.lighting]
  exact Lighting.fresh_fullDaylight c

theorem State.SameTenancy.sameOccupancy {s t : State} (h : s.SameTenancy t)
    (arrangement : t.space.units.ids = s.space.units.ids) : s.SameOccupancy t := by
  refine ⟨arrangement, fun id => ?_⟩
  have same := congrArg (Option.map Tenancy.occupancy) (h id)
  rwa [Option.map_map, Option.map_map] at same

theorem State.Unlit.derive {s : State} (h : s.Unlit) (id : UnitId) : (s.derive id).Unlit := by
  have people := (s.deriveCore_sameTenancy id).sameOccupancy ((s.deriveCore_keeps id).same .arrangement rfl)
  have core : (s.deriveCore id).Unlit := h.kept people ((s.deriveCore_keeps id).same .lighting rfl)
  unfold State.derive
  split
  · exact h
  · dsimp only
    split
    · exact .foldl _ core fun _ c hx => hx.fullDaylight c
    · exact core

theorem State.Unlit.deriveUnits {s : State} (h : s.Unlit) (ids : List UnitId) : (s.deriveUnits ids).Unlit :=
  h.foldl ids fun _ id hx => hx.derive id

theorem State.Unlit.retire {s : State} (h : s.Unlit) (t : Target) (k : Booking) (o : BookingOutcome) (atEnd : Bool) :
    (s.retire t k o atEnd).Unlit :=
  h.kept (s.retire_sameOccupancy t k o atEnd) ((s.retire_keeps t k o atEnd).same .lighting rfl)

theorem State.Unlit.startBooking {s : State} (h : s.Unlit) (t : Target) (k : Booking) (n : Nat) :
    (s.startBooking t k n).Unlit := by
  have dropped := h.foldl (s.walker.current.meeting t)
    (f := fun s old => s.updWalker fun w => { w with current := w.current.drop old.1 }) fun x _ hx =>
      hx.kept (.of_units rfl) rfl
  have cleared : (s.freed t).Unlit := dropped.foldl _ fun _ old hx => hx.retire old.1 old.2 _ _
  obtain ⟨ids, starts⟩ := s.startBooking_eq t k n
  rw [starts]
  exact (cleared.kept (t := (s.freed t).entered t _) (.of_units rfl) rfl).deriveUnits ids

theorem State.Unlit.handleEntry {s s1 : State} (h : s.Unlit) {afterSet : Bool} {k : Nat} {e : Entry}
    (hh : s.handleEntry afterSet k e = some s1) : s1.Unlit := by
  rcases State.handleEntry_cases hh with rfl | ⟨late, rfl⟩ | rfl
  · exact h
  · have told : (s.armTold e k).Unlit := h.kept (.of_units rfl) rfl
    rw [State.armEntry_eq]
    split
    · exact told.startBooking ..
    · exact (told.walker ((State.updWalker_keeps _ _).mono rfl)).deriveUnits _
  · exact h.walker ((s.missEntry_keeps e k).mono rfl)

theorem State.Unlit.moveCursor {s : State} (h : s.Unlit) (k : Nat) (hq : s.walker.queuedSwitch ≠ some .atChainEnd) :
    (s.moveCursor k).Unlit := by
  unfold State.moveCursor
  rw [if_neg hq]
  split
  · exact h.kept (.of_units rfl) rfl
  · split
    · exact h.kept (.of_units rfl) rfl
    · exact h.kept (.of_units rfl) rfl

theorem State.Unlit.armingPass {s : State} (h : s.Unlit) (afterSet : Bool) (n : Nat)
    (hq : s.walker.queuedSwitch ≠ some .atChainEnd) : (State.armingPass afterSet n s).Unlit :=
  State.armingPass_induction (P := State.Unlit) (fun h hh => h.handleEntry hh) (fun k h hq => h.moveCursor k hq)
    (fun _ h => h.kept (.of_units rfl) rfl) n hq h

theorem State.Unlit.largeSet {s : State} (h : s.Unlit) (hq : s.walker.queuedSwitch ≠ some .atChainEnd) :
    s.largeSet.Unlit := by
  have placed : s.placedRunning.Unlit := h.kept (.of_units rfl) rfl
  cases hs : s.walker.state
  case idle => rw [State.largeSet_rests (.inl hs)]; exact h
  case finished => rw [State.largeSet_rests (.inr hs)]; exact h
  case paused => rw [State.largeSet_paused hs]; exact h.kept (.of_units rfl) rfl
  case clockWait => rw [State.largeSet_moves (.inl hs)]; exact placed.armingPass true _ hq
  case running => rw [State.largeSet_moves (.inr (.inl hs))]; exact placed.armingPass true _ hq
  case stalled => rw [State.largeSet_moves (.inr (.inr hs))]; exact placed.armingPass true _ hq

theorem State.Unlit.occupiedTarget {s : State} (h : s.Unlit) (t : Target) : s.occupiedTarget t = false := by
  unfold State.occupiedTarget
  refine List.any_eq_false.mpr fun id _ => ?_
  cases hu : s.unit? id with
  | none => simp
  | some u => simp [h.vacant id u hu]

/-! ## A walker placed with a chain and empty slots (R52) -/

theorem SlotPair.empty_free (t : Target) : SlotPair.empty.free t = true := by cases t <;> rfl

theorem SlotPair.empty_meeting (t : Target) : SlotPair.empty.meeting t = [] := by cases t <;> rfl

/-- A walker with a chain that waits after a reset for its place, and nobody in the rooms. -/
structure State.Waits (s : State) : Prop where
  state : s.walker.state = .clockWait
  next : s.walker.next = SlotPair.empty
  current : s.walker.current = SlotPair.empty
  stopMark : s.walker.stopMark = none
  queuedSwitch : s.walker.queuedSwitch = none
  unlit : s.Unlit

/-- The booking that arming makes of an entry which no stop mark names, as it stands ahead of its start. -/
def Entry.waiting (e : Entry) (k minutes : Nat) : Booking := e.arm k minutes false false

section
variable {s : State} {k : Nat} {e : Entry} {w' : Walker} (h : s.Waits)
include h

theorem State.Waits.apart (k : Nat) (t : Target) : s.placedRunning.walker.stands k t = false := by
  rw [← Bool.not_eq_true, Walker.stands_iff]
  rintro ⟨c, -, b, stands, -⟩
  have next : s.placedRunning.walker.next = SlotPair.empty := h.next
  have current : s.placedRunning.walker.current = SlotPair.empty := h.current
  rw [next, current] at stands
  cases c <;> rcases stands with stands | stands <;> cases stands

theorem State.Waits.unmarked (k : Nat) : s.placedRunning.walker.marks k = false := by
  have none : s.placedRunning.walker.stopMark = none := h.stopMark
  simp [Walker.marks, none]

theorem State.Waits.quiet (e : Entry) (k : Nat) : s.placedRunning.armNotices e k = [] := by
  simp [State.armNotices, h.unmarked k]

variable (hk : s.placed.cursor = some k) (he : s.walker.active.entries[k]? = some e)
  (passes : s.placedRunning.walker.passesTo s.lead k w')
  (due : e.start + s.placed.offset ≤ s.clock.minute + s.lead e)
include hk he passes due

/-- An entry ahead of its start is ARMED, and the pass ends behind it. -/
theorem State.Waits.largeSet_ahead (hb : s.clock.minute < e.start + s.placed.offset) :
    s.largeSet.walker = { w' with
        next := SlotPair.empty.put e.target (e.waiting k (e.start + s.placed.offset - s.clock.minute)) } ∧
      s.largeSet.link = s.link.handed (s.finishNotices w') := by
  obtain ⟨next, current, stopMark⟩ := passes.slots
  obtain ⟨walker, link⟩ := s.placedRunning.armEntry_ahead e k
  have free : s.placedRunning.walker.next.free e.target = true := by
    rw [show s.placedRunning.walker.next = _ from h.next]
    exact SlotPair.empty_free _
  have arms := State.handleEntry_ahead (s := s.placedRunning) (h.apart k e.target) free hb true
  have booked : s.placedRunning.walker.booked e k false =
      e.waiting k (e.start + s.placed.offset - s.clock.minute) := by
    rw [Walker.booked, h.unmarked k]
    rfl
  have pass := State.armingPass_handled (s := s.placedRunning) hk he
    ((State.dueEntry_eq_true s.placedRunning e).mpr due) arms passes (State.armEntry_keeps ..) (state := .running)
    (next := SlotPair.empty.put e.target (e.waiting k (e.start + s.placed.offset - s.clock.minute)))
    (current := w'.current) (mark := w'.stopMark) (by
      rw [walker, booked, current, stopMark, show s.placedRunning.walker.next = _ from h.next]
      rfl) (.inl rfl)
  rw [State.largeSet_moves (.inl h.state), pass, link, h.quiet]
  exact ⟨rfl, rfl⟩

/-- An entry in progress starts late, and the pass ends behind it. -/
theorem State.Waits.largeSet_late (hb : e.start + s.placed.offset ≤ s.clock.minute)
    (hd : s.clock.minute < e.start + s.placed.offset + e.duration) :
    s.largeSet.walker = { w' with
        current := SlotPair.empty.put e.target { e.waiting k (e.start + s.placed.offset - s.clock.minute) with
          state := .running, minutes := e.start + s.placed.offset + e.duration - s.clock.minute
          startedLate := true } } ∧
      s.largeSet.link = s.link.handed (s.lateNotice e k :: s.finishNotices w') := by
  obtain ⟨next, current, stopMark⟩ := passes.slots
  have vacant : s.placedRunning.occupiedTarget e.target = false :=
    State.Unlit.occupiedTarget (h.unlit.kept (t := s.placedRunning) (.of_units rfl) rfl) _
  have alone : s.placedRunning.walker.current.meeting e.target = [] := by
    rw [show s.placedRunning.walker.current = _ from h.current]
    exact SlotPair.empty_meeting _
  have free : s.placedRunning.walker.next.free e.target = true := by
    rw [show s.placedRunning.walker.next = _ from h.next]
    exact SlotPair.empty_free _
  obtain ⟨walker, link⟩ := State.armEntry_late_alone (s := s.placedRunning) k alone
  have starts := State.handleEntry_late (s := s.placedRunning) (h.apart k e.target) free hb hd true
  have booked : s.placedRunning.bookedLate e k = { e.waiting k (e.start + s.placed.offset - s.clock.minute) with
      state := .running, minutes := e.start + s.placed.offset + e.duration - s.clock.minute, startedLate := true } := by
    rw [State.bookedLate, Walker.booked, h.unmarked k, vacant]
    rfl
  have pass := State.armingPass_handled (s := s.placedRunning) hk he
    ((State.dueEntry_eq_true s.placedRunning e).mpr due) starts passes (State.armEntry_keeps ..) (state := .running)
    (next := w'.next) (current := SlotPair.empty.put e.target (s.placedRunning.bookedLate e k))
    (mark := w'.stopMark) (by
      rw [walker, next, stopMark, show s.placedRunning.walker.current = _ from h.current]
      rfl) (.inl rfl)
  rw [State.largeSet_moves (.inl h.state), pass, link, h.quiet, booked]
  exact ⟨rfl, by rw [List.nil_append, ← Link.handed_append]; rfl⟩

end

/-- What becomes of the entry that the walker is placed at, and what of it is told (R35, R52). -/
structure State.Places (s : State) (k : Nat) (e : Entry) (ns : List Notice) : Prop where
  waits : s.clock.minute + s.lead e < e.start + s.placed.offset → s.largeSet.walker = s.placedRunning.walker ∧ ns = []
  ahead : ∀ w', s.placedRunning.walker.passesTo s.lead k w' →
    e.start + s.placed.offset ≤ s.clock.minute + s.lead e → s.clock.minute < e.start + s.placed.offset →
    s.largeSet.walker = { w' with
      next := SlotPair.empty.put e.target (e.waiting k (e.start + s.placed.offset - s.clock.minute)) } ∧
    ns = s.finishNotices w'
  late : ∀ w', s.placedRunning.walker.passesTo s.lead k w' →
    e.start + s.placed.offset ≤ s.clock.minute + s.lead e → e.start + s.placed.offset ≤ s.clock.minute →
    s.clock.minute < e.start + s.placed.offset + e.duration →
    s.largeSet.walker = { w' with
      current := SlotPair.empty.put e.target { e.waiting k (e.start + s.placed.offset - s.clock.minute) with
        state := .running, minutes := e.start + s.placed.offset + e.duration - s.clock.minute, startedLate := true } } ∧
    ns = s.lateNotice e k :: s.finishNotices w'

theorem State.Waits.places_entry {s : State} (h : s.Waits) {k : Nat} {e : Entry} (hk : s.placed.cursor = some k)
    (he : s.walker.active.entries[k]? = some e) :
    ∃ ns, s.largeSet.link = s.link.handed ns ∧ s.Places k e ns := by
  by_cases due : e.start + s.placed.offset ≤ s.clock.minute + s.lead e
  · by_cases ends : ∃ w', s.placedRunning.walker.passesTo s.lead k w'
    · obtain ⟨w', passes⟩ := ends
      by_cases hb : s.clock.minute < e.start + s.placed.offset
      · obtain ⟨walker, link⟩ := h.largeSet_ahead hk he passes due hb
        refine ⟨_, link, ⟨by omega, fun v hv _ _ => ?_, by omega⟩⟩
        rw [hv.unique passes]
        exact ⟨walker, rfl⟩
      · by_cases hd : s.clock.minute < e.start + s.placed.offset + e.duration
        · obtain ⟨walker, link⟩ := h.largeSet_late hk he passes due (Nat.not_lt.mp hb) hd
          refine ⟨_, link, ⟨by omega, by omega, fun v hv _ _ _ => ?_⟩⟩
          rw [hv.unique passes]
          exact ⟨walker, rfl⟩
        · obtain ⟨ns, link⟩ := s.largeSet_keeps.same .link rfl
          exact ⟨ns, link, ⟨by omega, by omega, by omega⟩⟩
    · obtain ⟨ns, link⟩ := s.largeSet_keeps.same .link rfl
      exact ⟨ns, link, ⟨by omega, fun v hv => absurd ⟨v, hv⟩ ends, fun v hv => absurd ⟨v, hv⟩ ends⟩⟩
  · have rests := State.largeSet_notDue (.inl h.state) hk he (Nat.lt_of_not_le due)
    exact ⟨[], (congrArg State.link rests :), ⟨fun _ => ⟨congrArg State.walker rests, rfl⟩, by omega, by omega⟩⟩

theorem State.Waits.places {s : State} (h : s.Waits) : ∃ ns, s.largeSet.link = s.link.handed ns ∧
    ∀ k e, s.placed.cursor = some k → s.walker.active.entries[k]? = some e → s.Places k e ns := by
  by_cases entry : ∃ k e, s.placed.cursor = some k ∧ s.walker.active.entries[k]? = some e
  · obtain ⟨k, e, hk, he⟩ := entry
    obtain ⟨ns, link, places⟩ := h.places_entry hk he
    refine ⟨ns, link, fun j f hj hf => ?_⟩
    obtain rfl : k = j := Option.some.inj (hk.symm.trans hj)
    obtain rfl : e = f := Option.some.inj (he.symm.trans hf)
    exact places
  · obtain ⟨ns, link⟩ := s.largeSet_keeps.same .link rfl
    exact ⟨ns, link, fun k e hk he => absurd ⟨k, e, hk, he⟩ entry⟩

/-! ## The walker of a reset -/

theorem State.waits_of_fresh {s : State} {chain : List Entry × Repeating} (hw : s.walker = Walker.fresh (some chain))
    (unlit : s.Unlit) : s.Waits :=
  ⟨by rw [hw]; rfl, by rw [hw]; rfl, by rw [hw]; rfl, by rw [hw]; rfl, by rw [hw]; rfl, unlit⟩

/-- Without a chain, or with the clock not set, the walker stays as it is; else it is placed (R52). -/
theorem State.placeWalker_places {s : State} {chain : Option (List Entry × Repeating)}
    (hw : s.walker = Walker.fresh chain) (unlit : s.Unlit) :
    ∃ ns, s.placeWalker.link = s.link.handed ns ∧
      (chain = none ∨ s.clock.isSet = false → s.placeWalker = s ∧ ns = []) ∧
      (chain.isSome = true → s.clock.isSet = true → s.placeWalker = s.largeSet ∧
        ∀ k e, s.placed.cursor = some k → s.walker.active.entries[k]? = some e → s.Places k e ns) := by
  cases hc : s.clock.isSet with
  | false =>
    have stays : s.placeWalker = s := by rw [State.placeWalker, hc]; rfl
    exact ⟨[], (congrArg State.link stays :), fun _ => ⟨stays, rfl⟩, fun _ set => absurd set Bool.false_ne_true⟩
  | true =>
    have placed : s.placeWalker = s.largeSet := by rw [State.placeWalker, hc]; rfl
    cases chain with
    | none =>
      have rests : s.largeSet = s := State.largeSet_rests (.inl (by rw [hw]; rfl))
      exact ⟨[], (congrArg State.link (placed.trans rests) :), fun _ => ⟨placed.trans rests, rfl⟩,
        fun some => absurd some Bool.false_ne_true⟩
    | some chain =>
      obtain ⟨ns, link, places⟩ := (State.waits_of_fresh hw unlit).places
      exact ⟨ns, (congrArg State.link placed).trans link, by simp, fun _ _ => ⟨placed, places⟩⟩

theorem State.Unlit.placeWalker {s : State} (h : s.Unlit) (hq : s.walker.queuedSwitch ≠ some .atChainEnd) :
    s.placeWalker.Unlit := by
  unfold State.placeWalker
  split
  · exact h.largeSet hq
  · exact h

/-- The walker placed by the minute at which a reset leaves the clock (R52). -/
def Walker.begun (es : List Entry) (repeating : Repeating) (minute : Nat) : Walker :=
  let found := es.findIdx? (endsAfter minute)
  { Walker.fresh (some (es, repeating)) with
    state := .running, cycle := minute, offset := if found.isSome then 0 else 10080, cursor := some (found.getD 0) }

section
variable {s : State} {es : List Entry} {repeating : Repeating} (hw : s.walker = Walker.fresh (some (es, repeating)))
include hw

theorem State.placedRunning_begun : s.placedRunning.walker = Walker.begun es repeating s.clock.minute := by
  unfold State.placedRunning State.placed
  rw [hw]
  rfl

/-- The pass leaves the banks, and on a minute of the week C stays at that minute. -/
theorem State.largeSet_begun :
    s.largeSet.walker.active = (Walker.begun es repeating s.clock.minute).active ∧
      s.largeSet.walker.standby = Bank.none ∧ s.largeSet.walker.queuedSwitch = none ∧
      s.largeSet.walker.stopMark = none ∧ (s.clock.minute ≤ 10079 → s.largeSet.walker.cycle = s.clock.minute) := by
  have begun := State.placedRunning_begun hw
  have queued : s.placedRunning.walker.queuedSwitch ≠ some .atChainEnd := by
    rw [begun]
    simp [Walker.begun, Walker.fresh]
  have chain := State.armingPass_sameChain true passBound s.placedRunning queued
  rw [State.largeSet_moves (.inl (by rw [hw]; rfl))]
  exact ⟨chain.active.trans (by rw [begun]), chain.standby.trans (by rw [begun]; rfl),
    chain.queuedSwitch.trans (by rw [begun]; rfl), chain.stopMark (by rw [begun]; rfl),
    fun week => State.armingPass_cycle true passBound week queued rfl⟩

end

/-! ## A warm reset -/

theorem exec_warm {s : State} {cause : ResetCause} {i : Instr}
    (h : (cause = .resetLine ∧ i = .resetLine) ∨
      (cause = .restart ∧ i = .restartReset ∧ s.link.restart = .sent)) :
    exec i s = .next (s.afresh cause s.clock).resetTold.placeWalker := by
  have reset : exec i s = finish (s.resetBy cause) := by
    rcases h with ⟨rfl, rfl⟩ | ⟨rfl, rfl, sent⟩
    · rfl
    · exact congrArg finish (if_pos sent)
  have warm : cause.powersOn = false := by rcases h with ⟨rfl, -⟩ | ⟨rfl, -, -⟩ <;> rfl
  rw [reset, finish_resetBy, State.resetBy_eq, warm]
  rfl

/-- Nobody is in after a reset. -/
theorem State.afresh_unlit (s : State) (cause : ResetCause) (clock : WeekClock) :
    (s.afresh cause clock).resetTold.Unlit := by
  refine ⟨fun id u hu => ?_, rfl⟩
  cases id <;> cases hu <;> rfl

theorem State.placeWalker_headcount {s : State} (h : s.everyUnit fun _ u => u.headcount = 0) :
    s.placeWalker.everyUnit fun _ u => u.headcount = 0 := by
  intro id u hu
  have same : (s.placeWalker.unit? id).map (·.headcount) = (s.unit? id).map (·.headcount) :=
    s.placeWalker_keeps.same .headcounts rfl id
  rw [hu, Option.map_some] at same
  obtain ⟨v, hv, headcount⟩ := Option.map_eq_some_iff.mp same.symm
  exact headcount.symm.trans (h id v hv)

theorem FaultRec.freshAll_get (j : Fin 21) : FaultRec.freshAll[j] = FaultRec.fresh := by
  revert j
  decide

/-- A reset raises the record of the clock alone, where the degraded flag was kept (R194). -/
theorem State.resetTold_faults {s : State} (h : s.faults = FaultRec.freshAll) :
    (s.clock.degraded = true → s.resetTold.faults[clockSource] =
      { FaultRec.fresh.report .clockDegraded s.clock.minute with state := .active }) ∧
    (s.clock.degraded = false → s.resetTold.faults = FaultRec.freshAll) ∧
    ∀ j : Fin 21, j ≠ clockSource → s.resetTold.faults[j] = FaultRec.fresh := by
  let raise (r : FaultRec) : FaultRec := { r.report .clockDegraded s.clock.minute with state := .active }
  have told : s.resetTold.faults =
      if s.clock.degraded then updAt FaultRec.freshAll clockSource raise else FaultRec.freshAll := by
    rw [State.resetTold, h]
    rfl
  rw [told]
  refine ⟨fun set => ?_, fun unset => by rw [unset]; rfl, fun j hj => ?_⟩
  · rw [if_pos set, updAt_self]
    rfl
  · split
    · exact (updAt_other _ raise hj).trans (FaultRec.freshAll_get j)
    · exact FaultRec.freshAll_get j

/-- Settles O25: `State.placeWalker` is what a warm reset does beyond making every block afresh. -/
theorem warmResetsKeepTheClock : Obligations.WarmResetsKeepTheClock := by
  unfold Obligations.WarmResetsKeepTheClock
  intro s cause i
  refine ⟨fun h => ?_, fun hs unsent => ?_⟩
  · let r := (s.afresh cause s.clock).resetTold
    let chain := s.store.afterReset.bind (·.chain)
    have unlit : r.Unlit := s.afresh_unlit cause s.clock
    have fresh : r.walker = Walker.fresh chain := rfl
    obtain ⟨ns, link, waits, places⟩ := State.placeWalker_places fresh unlit
    have kept := r.placeWalker_keeps
    have clock : r.placeWalker.clock = s.clock := kept.same .clock rfl
    have store : r.placeWalker.store = { image := s.store.afterReset, saving := none } := kept.same .store rfl
    have working : r.placeWalker.working = s.store.workingAfterReset := kept.working rfl rfl rfl rfl
    have pins : r.placeWalker.pins = s.pins := (congrArg State.pins kept.walker_parts).trans rfl
    have settled := unlit.placeWalker (by rw [fresh]; simp [Walker.fresh])
    have counted := State.placeWalker_headcount (s := r) fun id u hu => by cases id <;> cases hu <;> rfl
    have faults : r.placeWalker.faults = r.faults := kept.same .faults rfl
    obtain ⟨raised, sound, others⟩ := State.resetTold_faults (s := s.afresh cause s.clock) rfl
    have stamp (n : NoticeKind) (p : Option Place) (i : Option Nat) (v : Nat) (g : Option Half) :
        r.placeWalker.noticeOf n p i v g = r.noticeOf n p i v g := State.noticeOf_congr clock n p i v g
    refine ⟨r.placeWalker, ns, exec_warm h, clock, kept.same .pending rfl, pins, by rw [store], fun idle => ?_,
      fun saving => ?_, fun m hm => ?_, fun none => ?_, kept.same .overrides rfl, kept.same .fire rfl,
      kept.same .partition rfl, kept.same .arrangement rfl, fun id u hu => ⟨counted id u hu, settled.vacant id u hu⟩,
      ?_, kept.same .presence rfl, kept.same .drift rfl, kept.same .drives rfl, settled.lighting, kept.same .rail rfl,
      kept.same .blinds rfl, ?_, kept.same .scanner rfl, ?_, ?_, ?_, ?_, ?_⟩
    · rw [store]; exact Store.afterReset_idle idle
    · rw [store]; exact Store.afterReset_saving saving
    · rw [store] at hm; rw [working]; exact Store.workingAfterReset_image hm
    · rw [store] at none; rw [working]; exact Store.workingAfterReset_none none
    · rw [working]; exact kept.same .doors rfl
    · rw [working]; exact kept.same .air rfl
    · rw [working]; exact kept.same .supervision rfl
    · intro begun lost degraded bank waiting
      have lost_told : lost = (s.afresh cause s.clock).lostNotices := by
        simp only [lost, store, stamp]
        rfl
      have degraded_told : degraded = (s.afresh cause s.clock).degradedNotices := by
        simp only [degraded, stamp]
        rfl
      refine ⟨?_, fun empty => ?_, ?_⟩
      · rw [link, Link.handed_append, lost_told, degraded_told]
        rfl
      · rw [store] at empty
        obtain ⟨stays, none⟩ := waits (.inl empty)
        refine ⟨?_, none⟩
        rw [stays, fresh, show chain = Option.none from empty]
        rfl
      · intro es repeating loads loaded found k runs lead
        rw [store] at loads
        have walker : r.walker = Walker.fresh (some (es, repeating)) := fresh.trans (congrArg Walker.fresh loads)
        refine ⟨fun unset => ?_, fun set => ?_⟩
        · obtain ⟨stays, none⟩ := waits (.inr unset)
          refine ⟨?_, none⟩
          rw [stays, walker]
          rfl
        · obtain ⟨placed, entry⟩ := places (by rw [show chain = _ from loads]; rfl) set
          have placed_runs : r.placedRunning.walker = runs := State.placedRunning_begun walker
          have leads : lead = r.lead := by
            funext e
            simp only [lead, working]
            rfl
          have offset : r.placed.offset = runs.offset := (congrArg Walker.offset placed_runs :)
          have cursor : r.placed.cursor = some k := (congrArg Walker.cursor placed_runs :)
          have told (w : Walker) : (if w.state = .finished then
              [r.placeWalker.noticeOf .chainFinished none none noValue none] else []) = r.finishNotices w := by
            rw [stamp]
            rfl
          rw [leads]
          obtain ⟨active, standby, queued, unmarked, cycle⟩ := State.largeSet_begun walker
          rw [← placed] at active standby queued unmarked cycle
          refine ⟨active, standby, queued, unmarked, cycle, fun e he => ?_⟩
          obtain ⟨notDue, ahead, late⟩ := entry k e cursor (by rw [walker]; exact he)
          rw [offset, placed_runs, ← placed] at notDue ahead late
          refine ⟨notDue, fun w' passes due => ?_⟩
          rw [told, stamp]
          exact ⟨ahead w' passes due, late w' passes due⟩
    · intro degraded
      rw [faults, raised degraded]
      exact ⟨rfl, rfl, rfl⟩
    · rw [faults]; exact sound
    · rw [faults]; exact others
  · have stays : exec .restartReset s = finish s := congrArg finish (if_neg unsent)
    rw [stays, finish_settled hs]

end Sys2Proof.Machine
end
